-- ==== Sys2Proof/Word.lean ====
section
/-!
DEFINITION. The word types of the block: bytes, 32-bit host words, PCM samples, and the numeric
domain NUM of 00_scope.md R11, held as the 32 bits of a binary32 value (its operations are in
Machine/Num32.lean).
-/

namespace Sys2Proof

/-- A byte of a buffer or of the HOST space (20_memory.md R60). -/
abbrev Byte := BitVec 8

/-- A word of the 32-bit host data bus (20_memory.md R60). -/
abbrev Word := BitVec 32

/-- A PCM sample, a signed 16-bit value (10_state.md R25). -/
abbrev Sample := BitVec 16

/-- A value of NUM, as the bits of an IEEE 754 binary32 value (00_scope.md R11). -/
abbrev Num := BitVec 32

/-- A complex value: a pair (re, im) of NUM (00_scope.md R11). -/
structure Cx where
  re : Num
  im : Num
deriving DecidableEq, Repr

/-- clamp(v, lo, hi) (00_scope.md R9). -/
def clamp (v lo hi : Int) : Int := if v < lo then lo else if hi < v then hi else v

end Sys2Proof
end

