-- ==== Sys2Proof/Syntax.lean ====
section
/-!
DEFINITION. The instructions (one constructor per row of spec/opcode_table.json) and the host's bus
accesses. The spec's "instructions" are the host commands and the bitstream syntax elements the
parser executes (00_scope.md R1).
-/

namespace Sys2Proof

/-- The four encodings an instruction can stand in: the command word written to CMD (30_encoding.md
R80), the 5-bit sub-packet type (R91), the 14-bit head of a tone record (R100), and the tag of an
extradata chunk (R85). -/
inductive Layer where
  | command
  | subpacket
  | toneRecord
  | chunk
deriving DecidableEq, Repr

/-- One constructor per row of spec/opcode_table.json. A sub-packet's payload and the codewords of an
ADD record are not operands here: their length depends on the tables, and the meaning reads them
(30_encoding.md R104). -/
inductive Instr where
  /-- CONFIGURE with MODE 0 (45_host_commands.md R232). -/
  | configureStream
  /-- CONFIGURE with MODE 1 (45_host_commands.md R232). -/
  | configureCodec
  /-- QUEUE_PACKET (45_host_commands.md R233). -/
  | queuePacket
  /-- FINISH (45_host_commands.md R234). -/
  | finish
  /-- READ_BUFFER (45_host_commands.md R235). -/
  | readBuffer
  /-- END_OF_DATA (45_host_commands.md R237). -/
  | endOfData
  /-- IS_STEREO (45_host_commands.md R238). -/
  | isStereo
  /-- GET_RATE (45_host_commands.md R239). -/
  | getRate
  /-- DECODE_PACKET (45_host_commands.md R240). -/
  | decodePacket
  /-- DESTROY (45_host_commands.md R241). -/
  | destroy
  /-- SP_SEED, type 0 (42_packet_parser.md R160). -/
  | spSeed
  /-- SP_FLAGS, type 1 (42_packet_parser.md R161). -/
  | spFlags
  /-- SP_NOISE2, type 2 (42_packet_parser.md R162). -/
  | spNoise2
  /-- SP_NOISE3, type 3 (42_packet_parser.md R163). -/
  | spNoise3
  /-- SP_NOISE4, type 4 (42_packet_parser.md R164). -/
  | spNoise4
  /-- SP_NOISE13, type 13 (42_packet_parser.md R165). -/
  | spNoise13
  /-- SP_NOISE14, type 14 (42_packet_parser.md R166). -/
  | spNoise14
  /-- SP_NOISE15, type 15 (42_packet_parser.md R167). -/
  | spNoise15
  /-- SP_TONE8, type 8 (42_packet_parser.md R170). -/
  | spTone8
  /-- SP_TONE9, type 9 (42_packet_parser.md R171). -/
  | spTone9
  /-- SP_TONE10, type 10 (42_packet_parser.md R172). -/
  | spTone10
  /-- SP_TONE11, type 11 (42_packet_parser.md R173). -/
  | spTone11
  /-- SP_TONE12, type 12 (42_packet_parser.md R174). -/
  | spTone12
  /-- The reserved type 5 (30_encoding.md R94, 42_packet_parser.md R152). -/
  | spReserved5
  /-- The reserved types `t` = 6 and 7 (30_encoding.md R94). -/
  | spReserved67 (t : Nat)
  /-- The reserved types `t` = 16 to 31 (30_encoding.md R94). -/
  | spReserved1631 (t : Nat)
  /-- TONE_ADD, op 0, of slot (`band`, `pos`) (42_packet_parser.md R176). -/
  | toneAdd (band pos : Nat)
  /-- TONE_REFRESH, op 1 (42_packet_parser.md R177). -/
  | toneRefresh (band pos : Nat)
  /-- TONE_DELETE, op 2 (42_packet_parser.md R178). -/
  | toneDelete (band pos : Nat)
  /-- TONE_RESERVED, op 3 (42_packet_parser.md R179). -/
  | toneReserved (band pos : Nat)
  /-- The 'frma' chunk (41_extradata.md R141). -/
  | chunkFrma
  /-- The 'QDCA' chunk (41_extradata.md R141). -/
  | chunkQdca
  /-- The optional 'QDCP' chunk (41_extradata.md R141). -/
  | chunkQdcp
deriving DecidableEq, Repr

/-- The encoding an instruction stands in. -/
def Instr.layer : Instr → Layer
  | .configureStream | .configureCodec | .queuePacket | .finish | .readBuffer
  | .endOfData | .isStereo | .getRate | .decodePacket | .destroy => .command
  | .spSeed | .spFlags | .spNoise2 | .spNoise3 | .spNoise4 | .spNoise13 | .spNoise14 | .spNoise15
  | .spTone8 | .spTone9 | .spTone10 | .spTone11 | .spTone12
  | .spReserved5 | .spReserved67 _ | .spReserved1631 _ => .subpacket
  | .toneAdd _ _ | .toneRefresh _ _ | .toneDelete _ _ | .toneReserved _ _ => .toneRecord
  | .chunkFrma | .chunkQdca | .chunkQdcp => .chunk

/-- The widths of a host bus access (20_memory.md R64). -/
inductive Width where
  | w8
  | w16
  | w32
deriving DecidableEq, Repr

/-- The width in bytes. -/
def Width.bytes : Width → Nat
  | .w8 => 1
  | .w16 => 2
  | .w32 => 4

/-- One host bus access at a HOST address (20_memory.md R60, 30_encoding.md R83). -/
inductive Access where
  | read (w : Width) (addr : BitVec 16)
  | write (w : Width) (addr : BitVec 16) (v : Word)
deriving DecidableEq, Repr

/-- What the outside can do to the block: the reset event (70_reset_and_hazards.md R280), one bus
access, or two accesses the host does not order (R290). -/
inductive HostEvent where
  | reset
  | access (a : Access)
  | unordered (a b : Access)
deriving DecidableEq, Repr

end Sys2Proof
end

