-- ==== Sys2Proof/WellFormed.lean ====
section
/-!
DEFINITION. Which instruction terms stand for an encoding of the spec: every operand fits its field.
-/

namespace Sys2Proof

/-- A tone record's band and pos fit their 5 and 7 bits (30_encoding.md R100). -/
def slotFits (band pos : Nat) : Bool := decide (band < 32) && decide (pos < 128)

/-- The operands are values their fields can hold: type codes of the reserved rows as
30_encoding.md R94 lists them, record fields as R100 gives them. -/
def Instr.wf : Instr → Bool
  | .configureStream | .configureCodec | .queuePacket | .finish | .readBuffer
  | .endOfData | .isStereo | .getRate | .decodePacket | .destroy => true
  | .spSeed | .spFlags | .spNoise2 | .spNoise3 | .spNoise4 | .spNoise13 | .spNoise14 | .spNoise15
  | .spTone8 | .spTone9 | .spTone10 | .spTone11 | .spTone12 | .spReserved5 => true
  | .spReserved67 t => decide (t = 6) || decide (t = 7)
  | .spReserved1631 t => decide (16 ≤ t) && decide (t < 32)
  | .toneAdd band pos => slotFits band pos
  | .toneRefresh band pos => slotFits band pos
  | .toneDelete band pos => slotFits band pos
  | .toneReserved band pos => slotFits band pos
  | .chunkFrma | .chunkQdca | .chunkQdcp => true

end Sys2Proof
end

