-- ==== Sys2Proof/Decode.lean ====
section
/-!
DEFINITION. The decoder of each encoding, total and refusing by name, and the encoder, both written
from 30_encoding.md; `decodeTableWord` reads a row of spec/opcode_table.json.
-/

namespace Sys2Proof

/-- Why bits are no instruction. -/
inductive DecodeError where
  /-- A command word with a bit of 31:9 set (30_encoding.md R82). -/
  | reservedBits
  /-- A command word whose OPC is 0x00 or above 0x09 (R82). -/
  | illegalOpcode
  /-- A command word with MODE = 1 and an opcode other than CONFIGURE (R82). -/
  | modeBit
  /-- A chunk tag that is none of 'frma', 'QDCA', 'QDCP' (R86). -/
  | unknownTag
  /-- A value wider than the field it is read from. -/
  | fieldOverflow
  /-- Fewer bytes than the encoding has. -/
  | tooShort
deriving DecidableEq, Repr

/-- 'frma' as a big-endian u32 (30_encoding.md R86). -/
def tagFrma : Nat := 0x66726D61
/-- 'QDM2' as a big-endian u32 (30_encoding.md R86). -/
def tagQdm2 : Nat := 0x51444D32
/-- 'QDCA' as a big-endian u32 (30_encoding.md R86). -/
def tagQdca : Nat := 0x51444341
/-- 'QDCP' as a big-endian u32 (30_encoding.md R86). -/
def tagQdcp : Nat := 0x51444350

/-- The command of a word written to CMD (30_encoding.md R80 to R82). -/
def decodeCommand (w : Nat) : Except DecodeError Instr :=
  if w / 512 ≠ 0 then .error .reservedBits
  else if w / 256 = 1 then
    if w % 256 = 1 then .ok .configureCodec
    else if w % 256 = 0 ∨ 9 < w % 256 then .error .illegalOpcode
    else .error .modeBit
  else match w with
    | 1 => .ok .configureStream
    | 2 => .ok .queuePacket
    | 3 => .ok .finish
    | 4 => .ok .readBuffer
    | 5 => .ok .endOfData
    | 6 => .ok .isStereo
    | 7 => .ok .getRate
    | 8 => .ok .decodePacket
    | 9 => .ok .destroy
    | _ => .error .illegalOpcode

/-- The sub-packet of a 5-bit type code (30_encoding.md R93, R94): every code is a row. -/
def subpacketInstr (t : Nat) : Instr :=
  match t with
  | 0 => .spSeed
  | 1 => .spFlags
  | 2 => .spNoise2
  | 3 => .spNoise3
  | 4 => .spNoise4
  | 5 => .spReserved5
  | 6 => .spReserved67 6
  | 7 => .spReserved67 7
  | 8 => .spTone8
  | 9 => .spTone9
  | 10 => .spTone10
  | 11 => .spTone11
  | 12 => .spTone12
  | 13 => .spNoise13
  | 14 => .spNoise14
  | 15 => .spNoise15
  | t => .spReserved1631 t

/-- The sub-packet of a type code; a value wider than 5 bits is no type code. -/
def decodeSubpacket (t : Nat) : Except DecodeError Instr :=
  if t < 32 then .ok (subpacketInstr t) else .error .fieldOverflow

/-- The tone record of a 2-bit operation with its band and pos fields (30_encoding.md R100, R101). -/
def toneInstr (op band pos : Nat) : Instr :=
  match op with
  | 0 => .toneAdd band pos
  | 1 => .toneRefresh band pos
  | 2 => .toneDelete band pos
  | _ => .toneReserved band pos

/-- The tone record of its three fields; a value wider than its field is none. -/
def decodeTone (op band pos : Nat) : Except DecodeError Instr :=
  if op < 4 ∧ band < 32 ∧ pos < 128 then .ok (toneInstr op band pos) else .error .fieldOverflow

/-- The chunk of a tag (30_encoding.md R85, R86). -/
def decodeChunk (tag : Nat) : Except DecodeError Instr :=
  if tag = tagFrma then .ok .chunkFrma
  else if tag = tagQdca then .ok .chunkQdca
  else if tag = tagQdcp then .ok .chunkQdcp
  else .error .unknownTag

/-- The instruction at the head of a run of bytes, as the hardware stores each encoding: a command
word in the bus's little-endian lanes (20_memory.md R65), a type code and a tone record MSB-first
from bit 7 of the first byte (00_scope.md R8), a tag big-endian (R66). -/
def decodeBytes : Layer → List Byte → Except DecodeError Instr
  | .command, b0 :: b1 :: b2 :: b3 :: _ =>
      decodeCommand (b0.toNat + 256 * b1.toNat + 65536 * b2.toNat + 16777216 * b3.toNat)
  | .subpacket, b0 :: _ => decodeSubpacket (b0.toNat / 8)
  | .toneRecord, b0 :: b1 :: _ =>
      decodeTone (b0.toNat / 64) (b0.toNat / 2 % 32) (b0.toNat % 2 * 64 + b1.toNat / 4)
  | .chunk, b0 :: b1 :: b2 :: b3 :: _ =>
      decodeChunk (16777216 * b0.toNat + 65536 * b1.toNat + 256 * b2.toNat + b3.toNat)
  | _, _ => .error .tooShort

/-- The value of an instruction's encoding, as an unsigned number of `Instr.encodeWidth` bits:
the command word, the type code, the record head {op, band, pos}, or the tag. -/
def Instr.encodeWord : Instr → Nat
  | .configureStream => 0x001
  | .configureCodec => 0x101
  | .queuePacket => 0x002
  | .finish => 0x003
  | .readBuffer => 0x004
  | .endOfData => 0x005
  | .isStereo => 0x006
  | .getRate => 0x007
  | .decodePacket => 0x008
  | .destroy => 0x009
  | .spSeed => 0
  | .spFlags => 1
  | .spNoise2 => 2
  | .spNoise3 => 3
  | .spNoise4 => 4
  | .spNoise13 => 13
  | .spNoise14 => 14
  | .spNoise15 => 15
  | .spTone8 => 8
  | .spTone9 => 9
  | .spTone10 => 10
  | .spTone11 => 11
  | .spTone12 => 12
  | .spReserved5 => 5
  | .spReserved67 t => t
  | .spReserved1631 t => t
  | .toneAdd band pos => 0 * 4096 + band * 128 + pos
  | .toneRefresh band pos => 1 * 4096 + band * 128 + pos
  | .toneDelete band pos => 2 * 4096 + band * 128 + pos
  | .toneReserved band pos => 3 * 4096 + band * 128 + pos
  | .chunkFrma => tagFrma
  | .chunkQdca => tagQdca
  | .chunkQdcp => tagQdcp

/-- How many bits an instruction's encoding has, by the kind of encoding. -/
def Layer.bits : Layer → Nat
  | .command => 32
  | .subpacket => 5
  | .toneRecord => 14
  | .chunk => 32

/-- How many bits an instruction's encoding has. -/
def Instr.encodeWidth (i : Instr) : Nat := i.layer.bits

/-- The decoder on an encoding's value. -/
def decodeWord : Layer → Nat → Except DecodeError Instr
  | .command, w => decodeCommand w
  | .subpacket, t => decodeSubpacket t
  | .toneRecord, r => decodeTone (r / 4096) (r / 128 % 32) (r % 128)
  | .chunk, tag => decodeChunk tag

/-- The bytes of an encoding's value as the hardware stores it (see `decodeBytes`), a bitstream
element padded with zero bits to whole bytes. -/
def bytesOfWord : Layer → Nat → List Byte
  | .command, w =>
      [BitVec.ofNat 8 w, BitVec.ofNat 8 (w / 256), BitVec.ofNat 8 (w / 65536),
        BitVec.ofNat 8 (w / 16777216)]
  | .subpacket, t => [BitVec.ofNat 8 (t * 8)]
  | .toneRecord, r => [BitVec.ofNat 8 (r / 64), BitVec.ofNat 8 (r % 64 * 4)]
  | .chunk, w =>
      [BitVec.ofNat 8 (w / 16777216), BitVec.ofNat 8 (w / 65536), BitVec.ofNat 8 (w / 256),
        BitVec.ofNat 8 w]

/-- The bytes of an instruction. -/
def encode (i : Instr) : List Byte := bytesOfWord i.layer i.encodeWord

/-- The layer a table row of `nbits` bits stands in: a row of up to 2 bits is a tone operation, of 3
bits to a byte a sub-packet type, of two bytes a tone record. The host gives widths in whole bytes,
so a tone operation's 2 bits arrive as a byte and are read as a type code: the same 8 bits stand for
both (DESIGN CHOICE, log 8). A 32-bit row is a command word, or a chunk tag where it is none (no tag
is a legal command word). -/
def layerOfTableWord (nbits w : Nat) : Option Layer :=
  if nbits = 0 then none
  else if nbits ≤ 2 then some .toneRecord
  else if nbits ≤ 8 then some .subpacket
  else if nbits ≤ 16 then some .toneRecord
  else if nbits = 32 then
    match decodeCommand w with
    | .ok _ => some .command
    | .error _ =>
      match decodeChunk w with
      | .ok _ => some .chunk
      | .error _ => some .command
  else none

/-- The encoding's value for a table word: a tone operation is the top field of its record, with band
and pos zero. -/
def valueOfTableWord (l : Layer) (w : Nat) : Nat :=
  match l with
  | .toneRecord => w % 4 * 4096
  | _ => w

/-- The instruction the decoder reads from a table row's bits (bit 0 least significant). -/
def decodeTableWord (nbits w : Nat) : Option Instr :=
  match layerOfTableWord nbits w with
  | none => none
  | some l => (decodeBytes l (bytesOfWord l (valueOfTableWord l w))).toOption

end Sys2Proof
end

