-- ==== Sys2Proof/Config.lean ====
section
/-!
DEFINITION. The parameters of 00_scope.md R7 and the model's free values. The OPEN parameters D51 to
D59 are an argument of the model, a field of State. The check an assignment must pass, and the one in
force at reset, a constant with no body, are in Machine/Params.lean.
-/

namespace Sys2Proof

/-- One entry (length, symbol) of a VLC table (40_bitreader_vlc.md R126); length 0 means unused. -/
structure VlcEntry where
  len : Nat
  sym : Int
deriving DecidableEq, Repr, Inhabited

/-- A VLC table, in table order (40_bitreader_vlc.md R126). -/
abbrev VlcTable := List VlcEntry

/-- One band: the bins `base` to `base + width - 1` (00_scope.md R7, BAND_LAYOUT). -/
structure Band where
  base : Nat
  width : Nat
deriving DecidableEq, Repr, Inhabited

/-- BAD_FRAME_OLA of 44_synthesis.md R221: silence, or the previous frame's tail. -/
inductive BadFrameOla where
  | mute
  | continueTail
deriving DecidableEq, Repr, Inhabited

/-- An inclusive band range for one sub-packet type (42_packet_parser.md R156). -/
structure BandRange where
  type : Nat
  lo : Nat
  hi : Nat
deriving DecidableEq, Repr, Inhabited

/-- The parameters the model takes (00_scope.md R7). PHASE_STEPS is 2 ^ `phaseLog`. A type with no
entry in `noiseRanges` or `toneRanges` has the spec's default range, all bands (R156). -/
structure Params where
  /-- CHECKSUM_INIT[0..255], D51. -/
  checksumInit : List (BitVec 16)
  /-- NOISE_VLC[0..NUM_NOISE_VLC-1], D52. -/
  noiseVlc : List VlcTable
  /-- NOISE_VLC_SEL(b) for b < MAX_BANDS, D52. -/
  noiseSel : List Nat
  /-- TONE_AMP_VLC, D52. -/
  ampVlc : VlcTable
  /-- TONE_PHASE_VLC, D52. -/
  phaseVlc : VlcTable
  /-- BAND_LAYOUT(256), D53. -/
  layout256 : List Band
  /-- BAND_LAYOUT(512), D53. -/
  layout512 : List Band
  /-- BAND_LAYOUT(1024), D53. -/
  layout1024 : List Band
  /-- E_MIN, D54. -/
  eMin : Nat
  /-- E_MAX, D54. -/
  eMax : Nat
  /-- DECAY_NUM, D55. -/
  decayNum : Nat
  /-- DECAY_SHIFT, D55. -/
  decayShift : Nat
  /-- AMP_THRESH, D56. -/
  ampThresh : Nat
  /-- LCG_A, D57. -/
  lcgA : Word
  /-- LCG_C, D57. -/
  lcgC : Word
  /-- log2 of PHASE_STEPS, D58. -/
  phaseLog : Nat
  /-- SEED_INIT, D59. -/
  seedInit : Word
  /-- BAD_FRAME_OLA, decided default MUTE, D32. -/
  badFrameOla : BadFrameOla
  /-- NOISE_RANGE(t) where it is not all bands, D18. -/
  noiseRanges : List BandRange
  /-- TONE_RANGE(t) where it is not all bands, D19. -/
  toneRanges : List BandRange
deriving DecidableEq, Repr, Inhabited

namespace Config

/-- FREE VALUE. The byte an INBUF or OUTBUF address holds after the `n`-th reset event until
something writes it: "unspecified (any value)" (20_memory.md R61, R62). DESIGN CHOICE (log 3); safe. -/
opaque powerOnByte (n addr : Nat) : Byte

/-- FREE VALUE. The NaN a binary32 operation gives on operands that have no numeric result; the spec
gives no payload and shows the case unreachable (44_synthesis.md R227). DESIGN CHOICE (log 12); safe. -/
opaque nanResult (a b : Num) : Num

/-- FREE VALUE. PCM16 of a value that is not finite; 44_synthesis.md R217 defines PCM16 on finite
values only and R227 shows the case unreachable. DESIGN CHOICE (log 12); safe. -/
opaque pcmOfNonFinite (v : Num) : Sample

end Config

/-- INBUF_BYTES (00_scope.md R7). -/
def inbufBytes : Nat := 8192

/-- OUTBUF_SAMPLES (00_scope.md R7). -/
def outbufSamples : Nat := 2048

/-- QUEUE_DEPTH (00_scope.md R7). -/
def queueDepth : Nat := 4

/-- MAX_BANDS (00_scope.md R7). -/
def maxBands : Nat := 32

/-- VLC_MAXLEN (00_scope.md R7, 40_bitreader_vlc.md R126). -/
def vlcMaxLen : Nat := 32

/-- 2 x MAX_SPF, the largest FFT size (00_scope.md R7, 20_memory.md R77). -/
def maxFftSize : Nat := 2048

/-- PHASE_STEPS (00_scope.md R7, D58). -/
def Params.phaseSteps (p : Params) : Nat := 2 ^ p.phaseLog

end Sys2Proof
end

