-- ==== Sys2Proof/Machine/Codes.lean ====
section
/-!
DEFINITION. The canonical code of a VLC table (40_bitreader_vlc.md R127): its used entries in order,
their codewords, and its maximum length.
-/

namespace Sys2Proof.Machine

open Sys2Proof

/-- A codeword: the `len`-bit code of a symbol (40_bitreader_vlc.md R127). -/
structure Code where
  len : Nat
  code : Nat
  sym : Int
deriving DecidableEq, Repr

/-- The used entries of a table, stably sorted by length (40_bitreader_vlc.md R127). -/
def vlcSorted (t : VlcTable) : List VlcEntry :=
  (List.range vlcMaxLen).flatMap fun l => t.filter fun e => e.len = l + 1

/-- The running counter of 40_bitreader_vlc.md R127: `code` is the next code at length `prev`. -/
def assignCodes : List VlcEntry → Nat → Nat → List Code
  | [], _, _ => []
  | e :: es, code, prev =>
      let c := code * 2 ^ (e.len - prev)
      { len := e.len, code := c, sym := e.sym } :: assignCodes es (c + 1) e.len

/-- The canonical codes of a table (40_bitreader_vlc.md R127). -/
def vlcCodes (t : VlcTable) : List Code :=
  match vlcSorted t with
  | [] => []
  | e :: es => assignCodes (e :: es) 0 e.len

/-- The maximum length M of a table (40_bitreader_vlc.md R128). -/
def vlcMax (t : VlcTable) : Nat := t.foldl (fun m e => max m e.len) 0

end Sys2Proof.Machine
end

