-- ==== Sys2Proof/Machine/Params.lean ====
section
/-!
DEFINITION. The constraints on the parameters (00_scope.md R7, 40_bitreader_vlc.md R126), the per-band
and per-type lookups, and the assignment in force at reset. An assignment that fails the constraints
is refused when a model is configured with it, `State.configured`; no instruction checks them (log 15).
-/

namespace Sys2Proof.Machine

open Sys2Proof

/-- BAND_LAYOUT(spf) (00_scope.md R7, D53); no other spf is legal. -/
def layoutOf (p : Params) (spf : Nat) : List Band :=
  if spf = 256 then p.layout256 else if spf = 512 then p.layout512
  else if spf = 1024 then p.layout1024 else []

/-- CHECKSUM_INIT[t] (00_scope.md R7, D51). -/
def checksumOf (p : Params) (t : Nat) : BitVec 16 := p.checksumInit.getD t 0

/-- NOISE_VLC[NOISE_VLC_SEL(b)] (30_encoding.md R97, D52). -/
def noiseTableOf (p : Params) (b : Nat) : VlcTable := p.noiseVlc.getD (p.noiseSel.getD b 0) []

/-- The range [lo, hi] a list gives type `t`, all of the `nb` bands by default
(42_packet_parser.md R156). -/
def rangeOf (rs : List BandRange) (t nb : Nat) : Nat × Nat :=
  match rs.find? fun r => r.type = t with
  | some r => (r.lo, r.hi)
  | none => (0, nb - 1)

/-- Two bands share no bin (00_scope.md R7). -/
def bandsApart (a b : Band) : Bool :=
  decide (a.base + a.width ≤ b.base) || decide (b.base + b.width ≤ a.base)

/-- The constraints of 00_scope.md R7 on one band layout for FFT size `n`. -/
def layoutValid (n : Nat) (bands : List Band) : Bool :=
  decide (bands.length ≤ maxBands)
    && bands.all (fun b => decide (1 ≤ b.width) && decide (b.base + b.width ≤ n))
    && decide (bands.Pairwise fun a b => bandsApart a b = true)

/-- Table validity (40_bitreader_vlc.md R126). -/
def vlcValid (t : VlcTable) : Bool :=
  t.all (fun e => decide (e.len ≤ vlcMaxLen) && decide (-32768 ≤ e.sym) && decide (e.sym ≤ 32767))
    && t.any (fun e => decide (e.len ≠ 0))
    && decide ((vlcCodes t).map Code.sym).Nodup
    && (vlcCodes t).all fun c => decide (c.code < 2 ^ c.len)

/-- Every constraint of 00_scope.md R7 and 40_bitreader_vlc.md R126. -/
def paramsValid (p : Params) : Bool :=
  decide (p.checksumInit.length = 256)
    && layoutValid 512 p.layout256 && layoutValid 1024 p.layout512 && layoutValid 2048 p.layout1024
    && decide (p.eMin ≤ p.eMax) && decide (p.eMax ≤ 2 ^ 24)
    && decide (p.decayNum ≤ 2 ^ p.decayShift) && decide (p.decayShift ≤ 31)
    && decide (p.phaseLog ≤ 16)
    && p.noiseVlc.all vlcValid && vlcValid p.ampVlc && vlcValid p.phaseVlc
    && decide (p.noiseSel.length = maxBands)
    && p.noiseSel.all fun k => decide (k < p.noiseVlc.length)

end Sys2Proof.Machine

namespace Sys2Proof.Config

open Sys2Proof.Machine

/-- An assignment a model can be configured with: one that passes the check of 00_scope.md R7 and
40_bitreader_vlc.md R126. -/
structure Accepted where
  params : Params
  valid : paramsValid params = true

/-- That an assignment can pass the check, which the constant below needs to exist; its numbers are of
no account. -/
def accepted : Accepted where
  params :=
    { checksumInit := List.replicate 256 0, noiseVlc := [[⟨1, 0⟩]], noiseSel := List.replicate 32 0,
      ampVlc := [⟨1, 0⟩], phaseVlc := [⟨1, 0⟩], layout256 := [], layout512 := [], layout1024 := [],
      eMin := 0, eMax := 0, decayNum := 0, decayShift := 0, ampThresh := 0, lcgA := 0, lcgC := 0,
      phaseLog := 0, seedInit := 0, badFrameOla := .mute, noiseRanges := [], toneRanges := [] }
  valid := by decide +kernel

/-- The assignment the model is configured with (00_scope.md R7, R12): the OPEN parameters are not in
the spec, so nothing here says what they are, only that they passed the check. DESIGN CHOICE (logs 1,
15); safe. -/
opaque openAssignment [Inhabited Accepted] : Accepted

/-- The OPEN parameters of that assignment. -/
def openParams : Params := (@openAssignment ⟨accepted⟩).params

/-- The assignment in force at reset: OPEN parameters as given, decided parameters at the spec's
defaults (R7: BAD_FRAME_OLA = MUTE, all bands for every type). -/
def params : Params :=
  { openParams with badFrameOla := .mute, noiseRanges := [], toneRanges := [] }

/-- The assignment in force at reset passes the check: the decided parameters are not part of it. -/
theorem params_valid : paramsValid params = true := (@openAssignment ⟨accepted⟩).valid

end Sys2Proof.Config
end

