-- ==== Sys2Proof/Machine/State.lean ====
section
/-!
DEFINITION. The state of the block (10_state.md R20 to R47, 20_memory.md R60 to R62), as plain data,
and its value after reset (70_reset_and_hazards.md R280). No operation is defined here.
-/

namespace Sys2Proof.Machine

open Sys2Proof

/-- Status codes (60_exceptions.md R260); the reserved codes 9 to 15 are never produced and have no
name here. -/
inductive Err where
  | kOk
  | kBadExtradata
  | kTruncated
  | kInvalidCode
  | kMalformed
  | kChecksumMismatch
  | kClosed
  | kQueueFull
  | kBadCommand
deriving DecidableEq, Repr

/-- The adapter states of the STATE register (10_state.md R23). -/
inductive Adapter where
  | unconfigured
  | opened
  | draining
  | closed
deriving DecidableEq, Repr

/-- The two forms of an instance, the MODE register (10_state.md R23). -/
inductive Mode where
  | stream
  | codec
deriving DecidableEq, Repr

/-- The channels c = 0 (left) and c = 1 (right). -/
inductive Ch where
  | c0
  | c1
deriving DecidableEq, Repr

/-- A tone record (10_state.md R29). -/
structure Tone where
  band : Nat
  position : Nat
  amplitude : Nat
  phase : Nat
  duration : Nat
  startFrame : BitVec 64
deriving DecidableEq, Repr

/-- The tone slots of one channel, by bin; a bin with no entry is EMPTY (10_state.md R29). -/
abbrev ToneMap := List (Nat × Tone)

/-- The persistent state of one channel (10_state.md R27 to R31). -/
structure Chan where
  /-- SAMPLE_COUNT[c], R27. -/
  sampleCount : BitVec 64
  /-- PREV[c], R28: 2048 entries, those from N on unused (log 14). -/
  prev : List Num
  /-- TONES[c], R29. -/
  tones : ToneMap
  /-- ENV[c], R30: 32 entries, those from NUM_BANDS on unused (log 14). -/
  env : List Int
  /-- RNG[c], R31. -/
  rng : Word
  /-- RNG_POS[c], R31. -/
  rngPos : Word
deriving DecidableEq, Repr

/-- The configuration registers (10_state.md R21) and the derived configuration (R22). -/
structure Cfg where
  version : Word
  channels : Word
  sampleRate : Word
  bitrate : Word
  blockSize : Word
  frameSize : Word
  packetSize : Word
  fftSize : Word
  fftOrder : Word
  numBands : Word
  bands : List Band
deriving DecidableEq, Repr

/-- One entry of the packet queue: the packet's bytes and its sequence index (10_state.md R24). -/
structure Packet where
  bytes : List Byte
  seq : BitVec 64
deriving DecidableEq, Repr

/-- The bit reader (10_state.md R40): BUF, BITPOS, BITLIMIT. -/
structure BitReader where
  buf : List Byte
  pos : Nat
  limit : Nat
deriving DecidableEq, Repr

/-- One channel's part of the shadow state (10_state.md R41); `touched` lists the bins whose TOUCHED
bit is 1. -/
structure ShadowChan where
  env : List Int
  tones : ToneMap
  touched : List Nat
deriving DecidableEq, Repr

/-- The shadow state of a frame decode (10_state.md R41). -/
structure Shadow where
  seed : Word
  flags : BitVec 8
  ch0 : ShadowChan
  ch1 : ShadowChan
deriving DecidableEq, Repr

/-- A tone payload being parsed (42_packet_parser.md R175 inside R152): its type, channel, the offset
`start` of its first bit, its declared length, and how many records are left. -/
structure TonePart where
  type : Nat
  ch : Ch
  start : Nat
  len : Nat
  left : Nat
deriving DecidableEq, Repr

/-- The command a frame decode runs in, which receives its samples (44_synthesis.md R220). -/
inductive Via where
  | readBuffer
  | decodePacket
deriving DecidableEq, Repr

/-- A packet parse (42_packet_parser.md R151): the bit reader, the shadow state, the number of
sub-packets left, last_rank, and the tone payload the parse is inside, if any. It stands past the checks
before its place, the checksum (R150) among them, and past the packet's removal from the queue where a
READ_BUFFER runs it (45_host_commands.md R236). DESIGN CHOICE (log 7); safe. -/
structure Parse where
  via : Via
  rd : BitReader
  sh : Shadow
  left : Nat
  lastRank : Nat
  tone : Option TonePart
deriving DecidableEq, Repr

/-- The record the extradata parser returns (41_extradata.md R141). -/
structure ExtraRec where
  version : Word
  channels : Word
  sampleRate : Word
  bitrate : Word
  blockSize : Word
  frameSize : Word
  packetSize : Word
deriving DecidableEq, Repr

/-- The three chunk places of the extradata layout: offsets 0, 12 and 48 (30_encoding.md R85). -/
inductive ChunkAt where
  | first
  | second
  | third
deriving DecidableEq, Repr

/-- An extradata parse (41_extradata.md R140, R141) inside a CONFIGURE of mode `mode`. At the first place
it has made none of R141's checks; at a later place it stands past those before it, the check of the
blob's length (Lb < 48) among them, which is made at the first place only. At every place it stands past
CONFIGURE's first line, VLC_READY <- 1 (45_host_commands.md R232), which no chunk writes. DESIGN CHOICE
(log 7); safe. -/
structure ChunkParse where
  mode : Mode
  blob : List Byte
  place : ChunkAt
  record : ExtraRec
deriving DecidableEq, Repr

/-- The transient state of a command (10_state.md R40, R41): none between commands. -/
inductive Activity where
  | idle
  | chunks (x : ChunkParse)
  | packet (p : Parse)
deriving DecidableEq, Repr

/-- The spectrum buffer X and the FFT workspace A (10_state.md R42). -/
structure Work where
  x : List Cx
  a : List Cx
deriving DecidableEq, Repr

/-- The state of the block and, in `host`, the accesses the host has still to issue. -/
structure State where
  /-- The parameters of 00_scope.md R7, the VLC ROM of R39 among them (log 1). -/
  par : Params
  /-- The host's accesses not yet issued, oldest first; the model's own (log 5). -/
  host : List HostEvent
  /-- The command in progress, R40, R41 (log 7). -/
  activity : Activity
  /-- How many reset events there were; the model's own (log 4). -/
  resets : Nat
  /-- The data the last host read returned; the model's own (log 6). -/
  busData : Word
  /-- INBUF and OUTBUF (20_memory.md R61, R62): the bytes written since reset, by HOST address. -/
  mem : List Host.Cell
  /-- R21, R22. -/
  cfg : Cfg
  /-- STATE, R23. -/
  adapter : Adapter
  /-- MODE, R23. -/
  mode : Mode
  /-- Q, oldest packet first, R24. -/
  queue : List Packet
  /-- The next sequence index, R24. -/
  nextSeq : BitVec 64
  /-- PO, oldest sample first, R25. -/
  pending : List Sample
  /-- FRAME_INDEX, R26. -/
  frameIndex : BitVec 64
  chan0 : Chan
  chan1 : Chan
  /-- SEED, R32. -/
  seed : Word
  /-- FLAGS, R32. -/
  flags : BitVec 8
  /-- LAST_PKT_ERR, R33. -/
  lastPktErr : Err
  /-- ERR_BITPOS, R33. -/
  errBitpos : Word
  /-- BAD_FRAMES, R33. -/
  badFrames : Word
  /-- STATUS.ERR, R34. -/
  err : Err
  /-- STATUS.BUS_ERR, R34. -/
  busErr : Bool
  /-- STATUS.VLC_READY, R38. -/
  vlcReady : Bool
  /-- ARG, R36. -/
  arg : Word
  /-- RESULT, R37. -/
  result : Word
  /-- X and A, R42 (log 17). -/
  work : Work
deriving DecidableEq, Repr

/-- Faults that stop the machine. There are none: "The block has no traps in the processor sense"
(60_exceptions.md, opening); every hardware error is a status code or is recovered in place. -/
inductive Fault where
deriving DecidableEq, Repr

/-- Situations the model refuses (00_scope.md R10, 60_exceptions.md R276). Each is safe: the model
stops where the spec gives no meaning. -/
inductive Refusal where
  /-- An instruction with no meaning in `exec`; raised by a refused arm of `exec` only; safe. -/
  | notModelled (mnemonic : String)
  /-- PEEK or READ of more than 32 bits (40_bitreader_vlc.md R131), raised by the bit reader; safe. -/
  | bitReaderWidth
  /-- A parameter assignment that fails a constraint of 00_scope.md R7 or 40_bitreader_vlc.md R126,
  raised by `State.configured` before there is a machine, by no step (log 15); safe. -/
  | badParameters
  /-- Two accesses the host does not order (70_reset_and_hazards.md R290), raised by the fetch; safe. -/
  | unorderedAccesses
  /-- A host command executed while another runs: 00_scope.md R5 lets no command be observed between
  the start and end of one, raised by every command's meaning; safe. -/
  | commandInProgress
  /-- A sub-packet executed where no packet parse expects one (10_state.md R40), raised by every
  sub-packet's meaning; safe. -/
  | noSubpacketDue
  /-- A tone record executed outside a tone payload (42_packet_parser.md R175), raised by every tone
  operation's meaning; safe. -/
  | noToneRecordDue
  /-- An extradata chunk executed while no CONFIGURE parses one (41_extradata.md R140), raised by
  every chunk's meaning; safe. -/
  | noChunkDue
deriving DecidableEq, Repr

/-- clamp(0, E_MIN, E_MAX), the reset and construction value of ENV (10_state.md R30). -/
def envInit (p : Params) : Int := clamp 0 p.eMin p.eMax

/-- One channel's state at reset and at construction (10_state.md R47). -/
def Chan.init (p : Params) : Chan :=
  { sampleCount := 0, prev := List.replicate maxFftSize 0, tones := [],
    env := List.replicate maxBands (envInit p), rng := 0, rngPos := 0 }

/-- Every configuration register at reset (10_state.md R21, R22). -/
def Cfg.reset : Cfg :=
  { version := 0, channels := 0, sampleRate := 0, bitrate := 0, blockSize := 0, frameSize := 0,
    packetSize := 0, fftSize := 0, fftOrder := 0, numBands := 0, bands := [] }

/-- The block right after the `n`-th further reset event, with parameters `p` and the host's pending
accesses `h` (70_reset_and_hazards.md R280, 10_state.md R47). -/
def State.resetWith (p : Params) (h : List HostEvent) (n : Nat) : State :=
  { par := p, host := h, activity := .idle, resets := n, busData := 0, mem := [],
    cfg := Cfg.reset, adapter := .unconfigured, mode := .stream, queue := [], nextSeq := 0,
    pending := [], frameIndex := 0, chan0 := Chan.init p, chan1 := Chan.init p, seed := 0,
    flags := 0, lastPktErr := .kOk, errBitpos := 0, badFrames := 0, err := .kOk, busErr := false,
    vlcReady := false, arg := 0, result := 0, work := { x := [], a := [] } }

/-- The machine configured with the assignment `p`, right after reset: "an argument that fails one is
refused as a configuration, not executed" (00_scope.md R7), a check "made when a model is configured,
never at run time" (40_bitreader_vlc.md R126; log 15). -/
def State.configured (p : Params) : Except Refusal State :=
  if paramsValid p then .ok (State.resetWith p [] 0) else .error .badParameters

/-- The machine right after reset (70_reset_and_hazards.md R280, R281): nothing is running and the
host has issued nothing. It is the machine configured with `Config.params`. -/
def State.reset : State := State.resetWith Config.params [] 0

end Sys2Proof.Machine
end

