-- ==== Sys2Proof/Machine/Regs.lean ====
section
/-!
DEFINITION. Named reads and writes of the registers: the channel records, the configured sizes, and
the counts the host reads.
-/

namespace Sys2Proof.Machine

open Sys2Proof

/-- Channel `c`'s state. -/
def State.chan (s : State) : Ch → Chan
  | .c0 => s.chan0
  | .c1 => s.chan1

/-- The state with channel `c`'s replaced. -/
def State.setChan (s : State) (c : Ch) (v : Chan) : State :=
  match c with
  | .c0 => { s with chan0 := v }
  | .c1 => { s with chan1 := v }

/-- A channel's number. -/
def Ch.index : Ch → Nat
  | .c0 => 0
  | .c1 => 1

/-- CH, the number of channels (10_state.md R21). -/
def State.channelCount (s : State) : Nat := s.cfg.channels.toNat

/-- The channels 0 .. CH-1, ascending. -/
def State.channels (s : State) : List Ch := [Ch.c0, Ch.c1].take s.channelCount

/-- spf, samples per channel per frame (10_state.md R21). -/
def State.spf (s : State) : Nat := s.cfg.packetSize.toNat

/-- N, the FFT size (10_state.md R22). -/
def State.fftN (s : State) : Nat := s.cfg.fftSize.toNat

/-- L, the FFT order (10_state.md R22). -/
def State.fftL (s : State) : Nat := s.cfg.fftOrder.toNat

/-- NUM_BANDS (10_state.md R22). -/
def State.numBands (s : State) : Nat := s.cfg.numBands.toNat

/-- (BAND_BASE[b], BAND_WIDTH[b]) (10_state.md R22). -/
def State.band (s : State) (b : Nat) : Band := s.cfg.bands.getD b { base := 0, width := 0 }

/-- QUEUE_COUNT (10_state.md R24). -/
def State.queueCount (s : State) : Nat := s.queue.length

/-- PENDING_COUNT (10_state.md R25). -/
def State.pendingCount (s : State) : Nat := s.pending.length

/-- spf x CH, the samples of one frame (44_synthesis.md R224). -/
def State.frameSamples (s : State) : Nat := s.spf * s.channelCount

end Sys2Proof.Machine
end

