-- ==== Sys2Proof/Machine/Flags.lean ====
section
/-!
DEFINITION. The status word. The block has no arithmetic flags (10_state.md R45); its only status
bits are the fields of STATUS (R34), computed here from the state they view, and LAST_PKT_ERR (R33).
-/

namespace Sys2Proof.Machine

open Sys2Proof

/-- The 4-bit status codes (60_exceptions.md R260). -/
def Err.code : Err → Nat
  | .kOk => 0
  | .kBadExtradata => 1
  | .kTruncated => 2
  | .kInvalidCode => 3
  | .kMalformed => 4
  | .kChecksumMismatch => 5
  | .kClosed => 6
  | .kQueueFull => 7
  | .kBadCommand => 8

/-- The 2-bit STATE field (10_state.md R23). -/
def Adapter.code : Adapter → Nat
  | .unconfigured => 0
  | .opened => 1
  | .draining => 2
  | .closed => 3

/-- The MODE bit (10_state.md R23). -/
def Mode.code : Mode → Nat
  | .stream => 0
  | .codec => 1

/-- The instance is live: STATE is OPEN or DRAINING (10_state.md R34). -/
def State.live (s : State) : Bool :=
  decide (s.adapter = .opened) || decide (s.adapter = .draining)

/-- The condition of END_OF_DATA (45_host_commands.md R237), which STATUS.EOD shows. -/
def State.eod (s : State) : Bool :=
  decide (s.adapter = .draining) && s.queue.isEmpty && s.pending.isEmpty

/-- STATUS.STEREO (10_state.md R34). -/
def State.stereoBit (s : State) : Bool := s.live && decide (s.cfg.channels = 2)

/-- The STATUS register (10_state.md R34); bits 31:11 read 0. -/
def State.statusWord (s : State) : Word :=
  BitVec.ofNat 32
    (s.err.code + 16 * s.adapter.code + 64 * s.mode.code + 128 * s.eod.toNat
      + 256 * s.stereoBit.toNat + 512 * s.vlcReady.toNat + 1024 * s.busErr.toNat)

/-- The LAST_PKT_ERR register (10_state.md R33); bits 31:4 read 0. -/
def State.lastPktErrWord (s : State) : Word := BitVec.ofNat 32 s.lastPktErr.code

end Sys2Proof.Machine
end

