-- ==== Sys2Proof/Machine/Assoc.lean ====
section
/-!
DEFINITION. Sparse maps keyed by Nat, as lists of (key, value) pairs in one canonical form: keys
strictly rising. Memory (by HOST address) and the tone slots (by bin) are such maps; a key with no
entry has no value.
-/

namespace Sys2Proof.Machine.Assoc

variable {α : Type}

/-- The value of key `k`, none where the map has no entry for it. -/
def find (k : Nat) : List (Nat × α) → Option α
  | [] => none
  | (j, v) :: m => if k = j then some v else if k < j then none else find k m

/-- The map with `k` bound to `v`. -/
def put (k : Nat) (v : α) : List (Nat × α) → List (Nat × α)
  | [] => [(k, v)]
  | (j, w) :: m => if k < j then (k, v) :: (j, w) :: m else if k = j then (k, v) :: m
      else (j, w) :: put k v m

/-- The map with no entry for `k`. -/
def erase (k : Nat) : List (Nat × α) → List (Nat × α)
  | [] => []
  | (j, w) :: m => if k < j then (j, w) :: m else if k = j then m else (j, w) :: erase k m

/-- Every key is above `b`, and the keys rise strictly. -/
def risesAbove (b : Nat) : List (Nat × α) → Bool
  | [] => true
  | (j, _) :: m => decide (b < j) && risesAbove j m

/-- The canonical form: keys rise strictly. -/
def wf : List (Nat × α) → Bool
  | [] => true
  | (j, _) :: m => risesAbove j m

end Sys2Proof.Machine.Assoc
end

