-- ==== Sys2Proof/Machine/Num32.lean ====
section
/-!
DEFINITION. The numeric domain NUM (00_scope.md R11): binary32 addition, subtraction and
multiplication with round-to-nearest-ties-to-even, each computed exactly and narrowed once; the
conversions f32 (R11) and PCM16 (44_synthesis.md R217); RN32 of the sines and cosines of the constant
tables (43_spectral.md R198, 44_synthesis.md R212, R215).

Every finite binary32 value is an integer multiple of 2^-149, and that integer is its exact form here.
-/

namespace Sys2Proof.Machine

open Sys2Proof

/-- `a / 2 ^ k` rounded to the nearest integer, ties to the even one. -/
def rneShift (a k : Nat) : Nat :=
  let q := a >>> k
  let twice := 2 * (a - q <<< k)
  if 1 <<< k < twice ∨ (twice = 1 <<< k ∧ q % 2 = 1) then q + 1 else q

/-- RN32 of the non-negative real `mag / 2 ^ (149 + scale)`, as the low 31 bits of a binary32 value
(00_scope.md R11). A value past the largest finite one gives the infinity, as IEEE 754 rounds it. -/
def roundMag (mag scale : Nat) : Nat :=
  let drop := mag.log2 - (scale + 23)
  min (drop * 8388608 + rneShift mag (drop + scale)) 0x7F800000

/-- The positive zero +0.0. -/
def zero32 : Num := 0

/-- The exponent field, bits 30:23. -/
def expo32 (v : Num) : Nat := v.toNat / 8388608 % 256

/-- The fraction field, bits 22:0. -/
def frac32 (v : Num) : Nat := v.toNat % 8388608

/-- The sign bit, bit 31. -/
def sign32 (v : Num) : Bool := decide (2147483648 ≤ v.toNat)

/-- Neither an infinity nor a NaN. -/
def finite32 (v : Num) : Bool := decide (expo32 v < 255)

/-- A NaN. -/
def nan32 (v : Num) : Bool := decide (expo32 v = 255) && decide (frac32 v ≠ 0)

/-- The exact magnitude of a finite value, in units of 2^-149. -/
def mag32 (v : Num) : Nat :=
  if expo32 v = 0 then frac32 v else (8388608 + frac32 v) <<< (expo32 v - 1)

/-- The exact value of a finite `v`, in units of 2^-149. -/
def exact32 (v : Num) : Int := if sign32 v then -(mag32 v : Int) else (mag32 v : Int)

/-- The binary32 value with the given sign and low 31 bits. -/
def ofSignMag (n : Bool) (m : Nat) : Num := BitVec.ofNat 32 (if n then 2147483648 + m else m)

/-- RN32 of a nonzero exact value in units of 2^-149. -/
def ofExact32 (x : Int) : Num := ofSignMag (decide (x < 0)) (roundMag x.natAbs 0)

/-- The value with its sign changed. -/
def negate32 (v : Num) : Num := v ^^^ 0x80000000#32

/-- The sum of two values not both finite, as IEEE 754 gives it. -/
def addSpecial (a b : Num) : Num :=
  if nan32 a ∨ nan32 b then Config.nanResult a b
  else if finite32 a then b
  else if finite32 b then a
  else if a = b then a
  else Config.nanResult a b

/-- add32 (00_scope.md R11). An exact zero sum is +0.0 unless both operands are negative. -/
def add32 (a b : Num) : Num :=
  if finite32 a && finite32 b then
    let x := exact32 a + exact32 b
    if x = 0 then ofSignMag (sign32 a && sign32 b) 0 else ofExact32 x
  else addSpecial a b

/-- sub32 (00_scope.md R11). -/
def sub32 (a b : Num) : Num := add32 a (negate32 b)

/-- The product of two values not both finite, as IEEE 754 gives it. -/
def mulSpecial (a b : Num) : Num :=
  if nan32 a ∨ nan32 b ∨ (finite32 a ∧ mag32 a = 0) ∨ (finite32 b ∧ mag32 b = 0) then Config.nanResult a b
  else ofSignMag (sign32 a != sign32 b) 0x7F800000

/-- mul32 (00_scope.md R11). -/
def mul32 (a b : Num) : Num :=
  if finite32 a && finite32 b then ofSignMag (sign32 a != sign32 b) (roundMag (mag32 a * mag32 b) 149)
  else mulSpecial a b

/-- f32 (00_scope.md R11): an integer as a binary32 value, exact for |i| <= 2^24. -/
def f32 (i : Int) : Num :=
  ofSignMag (decide (i < 0)) (roundMag (i.natAbs <<< 149) 0)

/-- sat16 (00_scope.md R9), as a 16-bit sample. -/
def sat16 (v : Int) : Sample := BitVec.ofInt 16 (max (-32768) (min v 32767))

/-- PCM16 (44_synthesis.md R217): the nearest integer, ties to even, saturated. -/
def pcm16 (v : Num) : Sample :=
  if finite32 v then
    let r := rneShift (mag32 v) 149
    sat16 (if sign32 v then -(r : Int) else (r : Int))
  else Config.pcmOfNonFinite v

/-- cadd (44_synthesis.md R211). -/
def cadd (a b : Cx) : Cx := { re := add32 a.re b.re, im := add32 a.im b.im }

/-- csub (44_synthesis.md R211). -/
def csub (a b : Cx) : Cx := { re := sub32 a.re b.re, im := sub32 a.im b.im }

/-- cmul (44_synthesis.md R211): four products, each rounded, then one difference and one sum. -/
def cmul (a b : Cx) : Cx :=
  { re := sub32 (mul32 a.re b.re) (mul32 a.im b.im)
    im := add32 (mul32 a.re b.im) (mul32 a.im b.re) }

/-- floor(pi x 2^149). -/
def piFix : Nat := 0x6487ed5110b4611a62633145c06e0e68948127

/-- The alternating Taylor tail of the sine: with `term` = x^(2k-1)/(2k-1)! and `sq` = x^2 in units
of 2^-149, the sum term - x^(2k+1)/(2k+1)! + ... of `fuel` terms. -/
def sinTail (sq : Nat) : Nat → Nat → Nat → Nat
  | 0, _, _ => 0
  | fuel + 1, k, term =>
      term - sinTail sq fuel (k + 1) ((term * sq) >>> 149 / ((2 * k) * (2 * k + 1)))

/-- sin(pi x m / 32768) for 0 <= m <= 16384, in units of 2^-149 (DEDUCED, log 13). -/
def sinQuarter (m : Nat) : Nat :=
  if m = 16384 then 1 <<< 149
  else
    let x := (piFix * m) >>> 15
    sinTail ((x * x) >>> 149) 26 1 x

/-- RN32(sin(2 pi m / 65536)), every m (43_spectral.md R198, 44_synthesis.md R212, R215). Zeros are
+0.0. -/
def sinTurn (m : Nat) : Num :=
  let r := m % 65536
  let q := r % 32768
  let s := sinQuarter (if q ≤ 16384 then q else 32768 - q)
  ofSignMag (decide (32768 < r)) (roundMag s 0)

/-- RN32(cos(2 pi m / 65536)), every m. -/
def cosTurn (m : Nat) : Num := sinTurn (m + 16384)

end Sys2Proof.Machine
end

