-- ==== Sys2Proof/Machine/Operands.lean ====
section
/-!
DEFINITION. Every operand form of the bitstream and of the extradata: the bit reader
(40_bitreader_vlc.md R120 to R125), variable-length codewords (R128), the channel selector
(42_packet_parser.md R155), and big-endian integers (00_scope.md R9).
-/

namespace Sys2Proof.Machine

open Sys2Proof

/-- Why an operation of the parser was abandoned (00_scope.md R10): `raise E(pos)`, or `refuse`. -/
inductive Stop where
  | raised (e : Err) (pos : Nat)
  | refuse (r : Refusal)
deriving DecidableEq, Repr

/-- BE16(buf, o) (00_scope.md R9); bytes past the end count as 0. -/
def be16 (buf : List Byte) (o : Nat) : Nat :=
  256 * (buf.getD o 0).toNat + (buf.getD (o + 1) 0).toNat

/-- BE32(buf, o) (00_scope.md R9). -/
def be32 (buf : List Byte) (o : Nat) : Nat := 65536 * be16 buf o + be16 buf (o + 2)

/-- The bit reader at the start of a packet parse (40_bitreader_vlc.md R120): only the body, without
the two checksum bytes, is readable. -/
def BitReader.start (packet : List Byte) : BitReader :=
  { buf := packet, pos := 0, limit := 8 * (packet.length - 2) }

/-- bit(p) of 40_bitreader_vlc.md R120, MSB-first. -/
def BitReader.bit (rd : BitReader) (p : Nat) : Nat :=
  (rd.buf.getD (p / 8) 0).toNat / 2 ^ (7 - p % 8) % 2

/-- The unsigned value of the `n` bits from offset `p`, the first the most significant. -/
def BitReader.bits (rd : BitReader) (p : Nat) : Nat → Nat
  | 0 => 0
  | n + 1 => rd.bit p * 2 ^ n + rd.bits (p + 1) n

/-- PEEK(n) (40_bitreader_vlc.md R121, R131). -/
def BitReader.peek (rd : BitReader) (n : Nat) : Except Stop Nat :=
  if 32 < n then .error (.refuse .bitReaderWidth)
  else if rd.limit < rd.pos + n then .error (.raised .kTruncated rd.pos)
  else .ok (rd.bits rd.pos n)

/-- READ(n) (40_bitreader_vlc.md R122). -/
def BitReader.read (rd : BitReader) (n : Nat) : Except Stop (Nat × BitReader) :=
  match rd.peek n with
  | .error e => .error e
  | .ok v => .ok (v, { rd with pos := rd.pos + n })

/-- SKIP(n) (40_bitreader_vlc.md R123). -/
def BitReader.skip (rd : BitReader) (n : Nat) : Except Stop BitReader :=
  if rd.limit < rd.pos + n then .error (.raised .kTruncated rd.pos)
  else .ok { rd with pos := rd.pos + n }

/-- TELL() (40_bitreader_vlc.md R124). -/
def BitReader.tell (rd : BitReader) : Nat := rd.pos

/-- ALIGN() (40_bitreader_vlc.md R125); no packet syntax uses it. -/
def BitReader.align (rd : BitReader) : Except Stop BitReader :=
  let p := (rd.pos + 7) / 8 * 8
  if rd.limit < p then .error (.raised .kTruncated rd.pos) else .ok { rd with pos := p }

/-- The loop of VLC.decode (40_bitreader_vlc.md R128) over the `n` lengths from `l` on. -/
def vlcScan (codes : List Code) (rd : BitReader) : Nat → Nat → Except Stop (Int × Nat × BitReader)
  | 0, _ => .error (.raised .kInvalidCode rd.pos)
  | n + 1, l =>
    if rd.limit < rd.pos + l then .error (.raised .kTruncated rd.pos)
    else match rd.peek l with
      | .error e => .error e
      | .ok v =>
        match codes.find? fun c => c.len = l && c.code = v with
        | some c => .ok (c.sym, l, { rd with pos := rd.pos + l })
        | none => vlcScan codes rd n (l + 1)

/-- VLC.decode(T) (40_bitreader_vlc.md R128): the symbol, the codeword's length, and the reader past
it. -/
def vlcDecode (t : VlcTable) (rd : BitReader) : Except Stop (Int × Nat × BitReader) :=
  vlcScan (vlcCodes t) rd (vlcMax t) 1

/-- CHSEL() (42_packet_parser.md R155): a bit in a stereo stream, channel 0 without a read in a mono
one. -/
def chsel (channels : Word) (rd : BitReader) : Except Stop (Ch × BitReader) :=
  if channels = 2 then
    match rd.read 1 with
    | .error e => .error e
    | .ok (v, rd) => .ok (if v = 1 then .c1 else .c0, rd)
  else .ok (.c0, rd)

end Sys2Proof.Machine
end

