-- ==== Sys2Proof/Machine/Spectral.lean ====
section
/-!
DEFINITION. The spectral decoder (43_spectral.md): the shadow state and its commit, tone aging, the
noise generator, and the spectrum build.
-/

namespace Sys2Proof.Machine

open Sys2Proof

/-- One channel's shadow at the start of a parse: TOUCHED all 0 (10_state.md R41). -/
def ShadowChan.ofChan (c : Chan) : ShadowChan := { env := c.env, tones := c.tones, touched := [] }

/-- The shadow copy taken at the start of the packet parse (10_state.md R41). -/
def Shadow.ofState (s : State) : Shadow :=
  { seed := s.seed, flags := s.flags, ch0 := ShadowChan.ofChan s.chan0,
    ch1 := ShadowChan.ofChan s.chan1 }

/-- The shadow of channel `c`. -/
def Shadow.chan (sh : Shadow) : Ch → ShadowChan
  | .c0 => sh.ch0
  | .c1 => sh.ch1

/-- The shadow with channel `c`'s replaced. -/
def Shadow.setChan (sh : Shadow) (c : Ch) (v : ShadowChan) : Shadow :=
  match c with
  | .c0 => { sh with ch0 := v }
  | .c1 => { sh with ch1 := v }

/-- COMMIT (43_spectral.md R190): the shadow replaces SEED, FLAGS, ENV and TONES. -/
def State.commit (s : State) (sh : Shadow) : State :=
  { s with
    seed := sh.seed, flags := sh.flags
    chan0 := { s.chan0 with env := sh.ch0.env, tones := sh.ch0.tones }
    chan1 := { s.chan1 with env := sh.ch1.env, tones := sh.ch1.tones } }

/-- TONE_DECAY of one tone (43_spectral.md R191). -/
def Tone.decay (p : Params) (t : Tone) : Tone :=
  { t with amplitude := (t.amplitude * p.decayNum) / 2 ^ p.decayShift }

/-- TONE_REMOVE's test at frame `f` (43_spectral.md R192): below the threshold, or its lifetime is
over. -/
def Tone.expired (p : Params) (f : BitVec 64) (t : Tone) : Bool :=
  decide (t.amplitude < p.ampThresh) || decide (t.duration ≤ (f - t.startFrame).toNat)

/-- Aging of one tone slot (43_spectral.md R191, R192); none when the tone is removed. -/
def ageSlot (p : Params) (f : BitVec 64) (touched : List Nat) (kt : Nat × Tone) :
    Option (Nat × Tone) :=
  let t := if kt.1 ∈ touched then kt.2 else kt.2.decay p
  if t.expired p f then none else some (kt.1, t)

/-- Aging of the tone slots of one channel. -/
def ageTones (p : Params) (f : BitVec 64) (touched : List Nat) (m : ToneMap) : ToneMap :=
  m.filterMap (ageSlot p f touched)

/-- Aging of one channel. -/
def Chan.age (c : Chan) (p : Params) (f : BitVec 64) (touched : List Nat) : Chan :=
  { c with tones := ageTones p f touched c.tones }

/-- Aging, once per frame decode, for the channels 0 .. CH-1 only (43_spectral.md R193). The bins
whose TOUCHED bit is 1 are `t0` and `t1`. -/
def State.ageTones (s : State) (t0 t1 : List Nat) : State :=
  { s with
    chan0 := if 0 < s.channelCount then s.chan0.age s.par s.frameIndex t0 else s.chan0
    chan1 := if 1 < s.channelCount then s.chan1.age s.par s.frameIndex t1 else s.chan1 }

/-- LCG_NEXT's new state, which is also the draw (43_spectral.md R195). -/
def lcgNext (p : Params) (r : Word) : Word := p.lcgA * r + p.lcgC

/-- The phase index of a draw: its top p bits, PHASE_STEPS = 2^p (43_spectral.md R196). -/
def drawPhase (p : Params) (r : Word) : Nat := r.toNat / 2 ^ (32 - p.phaseLog)

/-- SEED_FRAME(c) (43_spectral.md R197). -/
def seedFrame (seed : Word) (f : BitVec 64) (c : Ch) : Word :=
  seed + 2 * f.setWidth 32 + BitVec.ofNat 32 c.index

/-- PH_C[j] (43_spectral.md R198). -/
def phaseCos (p : Params) (j : Nat) : Num := cosTurn (j * 2 ^ (16 - p.phaseLog))

/-- PH_S[j] (43_spectral.md R198). -/
def phaseSin (p : Params) (j : Nat) : Num := sinTurn (j * 2 ^ (16 - p.phaseLog))

/-- An integer magnitude at a phase index (43_spectral.md R200, R201). -/
def phasor (p : Params) (m : Int) (j : Nat) : Cx :=
  { re := mul32 (f32 m) (phaseCos p j), im := mul32 (f32 m) (phaseSin p j) }

/-- TONE_VALUE(t) (43_spectral.md R200). -/
def toneValue (p : Params) (t : Tone) : Cx := phasor p t.amplitude t.phase

/-- NOISE_VALUE(E, r) (43_spectral.md R201). -/
def noiseValue (p : Params) (e : Int) (r : Word) : Cx := phasor p e (drawPhase p r)

/-- The (band, bin) pairs in the order the build visits them: bands ascending, bins ascending
(43_spectral.md R199). -/
def State.bandBins (s : State) : List (Nat × Nat) :=
  (List.range s.numBands).flatMap fun b =>
    (List.range (s.band b).width).map fun i => (b, (s.band b).base + i)

/-- The part of the state the spectrum build changes: X, RNG and RNG_POS. -/
structure Fill where
  x : List Cx
  rng : Word
  rngPos : Word
deriving DecidableEq, Repr

/-- One bin of the build (43_spectral.md R199): a tonal bin takes its tone and no draw, another takes
one draw. -/
def fillBin (p : Params) (ch : Chan) (w : Fill) (bk : Nat × Nat) : Fill :=
  match Assoc.find bk.2 ch.tones with
  | some t => { w with x := w.x.set bk.2 (toneValue p t) }
  | none =>
    let r := lcgNext p w.rng
    { x := w.x.set bk.2 (noiseValue p (ch.env.getD bk.1 0) r), rng := r, rngPos := w.rngPos + 1 }

/-- The complex value (+0.0, +0.0). -/
def cxZero : Cx := { re := zero32, im := zero32 }

/-- SPECTRUM_BUILD(c) (43_spectral.md R199, R202). -/
def State.spectrumBuild (s : State) (c : Ch) : State :=
  let ch := s.chan c
  let w0 : Fill :=
    { x := List.replicate s.fftN cxZero, rng := seedFrame s.seed s.frameIndex c, rngPos := 0 }
  let w := s.bandBins.foldl (fillBin s.par ch) w0
  { s.setChan c { ch with rng := w.rng, rngPos := w.rngPos } with work := { s.work with x := w.x } }

end Sys2Proof.Machine
end

