-- ==== Sys2Proof/Machine/Synthesis.lean ====
section
/-!
DEFINITION. The inverse FFT, the sine window, the overlap-add and the PCM conversion
(44_synthesis.md R210 to R219), the synthesis of a bad frame (R221), and the interleaving (R222).
-/

namespace Sys2Proof.Machine

open Sys2Proof

/-- TW[q] at FFT size `n` (44_synthesis.md R212). -/
def twiddle (n q : Nat) : Cx := { re := cosTurn (q * (65536 / n)), im := sinTurn (q * (65536 / n)) }

/-- rev_L(k) (44_synthesis.md R213). -/
def revBits : Nat → Nat → Nat
  | 0, _ => 0
  | l + 1, k => k % 2 * 2 ^ l + revBits l (k / 2)

/-- The entries of X in bit-reversed order; rev_L is its own inverse, so A[rev_L(k)] = X[k] says
A[i] = X[rev_L(i)] (44_synthesis.md R214). -/
def bitReversed (l : Nat) (x : List Cx) : List Cx :=
  (List.range x.length).map fun i => x.getD (revBits l i) cxZero

/-- The butterflies of one block: its first half against its second half times the twiddles `tw`
(44_synthesis.md R214). -/
def butterfly (tw : List Cx) (h : Nat) (block : List Cx) : List Cx :=
  let u := block.take h
  let v := List.zipWith cmul (block.drop h) tw
  List.zipWith cadd u v ++ List.zipWith csub u v

/-- One stage over `blocks` blocks of 2h entries each (44_synthesis.md R214): the butterflies touch
disjoint entries. -/
def stageBlocks (tw : List Cx) (h : Nat) : Nat → List Cx → List Cx
  | 0, a => a
  | blocks + 1, a => butterfly tw h (a.take (2 * h)) ++ stageBlocks tw h blocks (a.drop (2 * h))

/-- Stage s of 44_synthesis.md R214 at size `n`: m = 2^s, h = m / 2, w = TW[j * (N / m)]. -/
def fftStage (n s : Nat) (a : List Cx) : List Cx :=
  let m := 2 ^ s
  let h := m / 2
  let tw := (List.range h).map fun j => twiddle n (j * (n / m))
  stageBlocks tw h (n / m) a

/-- IFFT(X) of order `l` (44_synthesis.md R214): bit reversal, then the stages 1 .. L. -/
def ifft (l : Nat) (x : List Cx) : List Cx :=
  (List.range l).foldl (fun a s => fftStage x.length (s + 1) a) (bitReversed l x)

/-- WIN[n] at size `size` (44_synthesis.md R215). -/
def window (size n : Nat) : Num := sinTurn ((2 * n + 1) * (65536 / (4 * size)))

/-- The windowed frame y (44_synthesis.md R215): the real parts times the window. -/
def windowed (size : Nat) (a : List Cx) : List Num :=
  List.zipWith (fun c n => mul32 c.re (window size n)) a (List.range size)

/-- The overlap-add output o (44_synthesis.md R216) of a windowed frame `y` over PREV `prev`. -/
def overlapAdd (spf : Nat) (y prev : List Num) : List Num :=
  List.zipWith add32 (y.take spf) ((prev.drop spf).take spf)

/-- PREV after a frame: its entries 0 .. N-1 become the windowed frame (44_synthesis.md R216). -/
def nextPrev (y prev : List Num) : List Num := y ++ prev.drop y.length

/-- SYNTH(c) (44_synthesis.md R219): the state after it and channel c's samples. -/
def State.synth (s : State) (c : Ch) : State × List Sample :=
  let s := s.spectrumBuild c
  let s := { s with work := { s.work with a := ifft s.fftL s.work.x } }
  let ch := s.chan c
  let y := windowed s.fftN s.work.a
  let o := overlapAdd s.spf y ch.prev
  (s.setChan c { ch with prev := nextPrev y ch.prev }, o.map pcm16)

/-- BAD_SYNTH(c) (44_synthesis.md R221): silence or the previous tail, and PREV cleared. -/
def State.badSynth (s : State) (c : Ch) : State × List Sample :=
  let ch := s.chan c
  let pcm := match s.par.badFrameOla with
    | .mute => List.replicate s.spf 0
    | .continueTail => ((ch.prev.drop s.spf).take s.spf).map pcm16
  (s.setChan c { ch with prev := nextPrev (List.replicate s.fftN zero32) ch.prev }, pcm)

/-- Synthesis of the channels in turn, ascending (44_synthesis.md R220): the state after it and each
channel's samples. -/
def synthAll (f : State → Ch → State × List Sample) : List Ch → State → State × List (List Sample)
  | [], s => (s, [])
  | c :: cs, s =>
    let (s, pcm) := f s c
    let (s, rest) := synthAll f cs s
    (s, pcm :: rest)

/-- INTERLEAVE (44_synthesis.md R222): out[CH x n + c] = pcm[c][n]. -/
def interleave (spf : Nat) (pcm : List (List Sample)) : List Sample :=
  (List.range spf).flatMap fun n => pcm.map fun p => p.getD n 0

end Sys2Proof.Machine
end

