-- ==== Sys2Proof/Machine/Ops.lean ====
section
/-!
DEFINITION. The named operations over memory and registers, the ends of a command (45_host_commands.md
R230), the end of a frame decode (44_synthesis.md R220), and the one exception entry of the block:
the recovery from a packet error (60_exceptions.md R262). There is no return from it: "There is no
return step: the next packet is decoded normally, from the state the recovery left" (R262).
-/

namespace Sys2Proof.Machine

open Sys2Proof

/-- The outcome of a step of this machine. -/
abbrev Out := Host.Outcome State Fault Refusal

/-- HOST address of INBUF byte 0 (20_memory.md R61). -/
def inbufBase : Nat := 0x1000

/-- HOST address of OUTBUF sample 0 (20_memory.md R62). -/
def outbufBase : Nat := 0x4000

/-- The canonical form of INBUF and OUTBUF: addresses strictly rising. A listed byte is one written
since reset; what an unlisted byte reads as is a free value, so no write can be told to equal it and
none removes an entry (log 3). -/
abbrev Memory.wf (m : List Host.Cell) : Bool := Assoc.wf m

/-- One byte of a buffer; a byte nothing has written since reset is a free value (20_memory.md R61,
R62; log 3). -/
def State.loadByte (s : State) (a : Nat) : Byte :=
  (Assoc.find a s.mem).getD (Config.powerOnByte s.resets a)

/-- One byte stored. -/
def State.storeByte (s : State) (a : Nat) (v : Byte) : State := { s with mem := Assoc.put a v s.mem }

/-- Bytes stored at consecutive addresses from `a` on. -/
def State.storeBytes (s : State) (a : Nat) : List Byte → State
  | [] => s
  | b :: bs => State.storeBytes (s.storeByte a b) (a + 1) bs

/-- `n` consecutive bytes from `a` on. -/
def State.loadBytes (s : State) (a : Nat) : Nat → List Byte
  | 0 => []
  | n + 1 => s.loadByte a :: s.loadBytes (a + 1) n

/-- The value of bytes in the bus's little-endian lanes (20_memory.md R65). -/
def leValue : List Byte → Nat
  | [] => 0
  | b :: bs => b.toNat + 256 * leValue bs

/-- The `n` bytes of a value in little-endian lanes (20_memory.md R65). -/
def leBytes : Nat → Nat → List Byte
  | 0, _ => []
  | n + 1, v => BitVec.ofNat 8 v :: leBytes n (v / 256)

/-- INBUF[0 .. n-1] (20_memory.md R61). -/
def State.inbuf (s : State) (n : Nat) : List Byte := s.loadBytes inbufBase n

/-- The bytes of samples, two each, low byte first (20_memory.md R62, R65). -/
def sampleBytes (samples : List Sample) : List Byte := samples.flatMap fun v => leBytes 2 v.toNat

/-- OUTBUF[0 .. n-1] written with `n` samples, the others unchanged (20_memory.md R62). -/
def State.writeOutbuf (s : State) (samples : List Sample) : State :=
  s.storeBytes outbufBase (sampleBytes samples)

/-- OUTBUF sample i (20_memory.md R62). -/
def State.outSample (s : State) (i : Nat) : Sample :=
  BitVec.ofNat 16 (leValue (s.loadBytes (outbufBase + 2 * i) 2))

/-- FAIL(e) of 45_host_commands.md R230: "and nothing else changes". -/
def State.fail (s : State) (e : Err) : State := { s with err := e, result := 0 }

/-- SUCCEED(r) of 45_host_commands.md R230. -/
def State.succeed (s : State) (r : Word) : State := { s with err := .kOk, result := r }

/-- How the parse of a packet ended (44_synthesis.md R220): with a shadow state, or with an error and
its bit position. -/
inductive FrameResult where
  | good (sh : Shadow)
  | bad (e : Err) (pos : Nat)
deriving DecidableEq, Repr

/-- COMMIT or DISCARD, then the aging (43_spectral.md R190 to R193). -/
def State.settleParse (s : State) : FrameResult → State
  | .good sh => (s.commit sh).ageTones sh.ch0.touched sh.ch1.touched
  | .bad _ _ => s.ageTones [] []

/-- The synthesis a frame's channels get (44_synthesis.md R219, R221). -/
def FrameResult.synth : FrameResult → State → Ch → State × List Sample
  | .good _ => State.synth
  | .bad _ _ => State.badSynth

/-- The error-information registers at the end of a frame decode (44_synthesis.md R220; 10_state.md
R33; 60_exceptions.md R262, R263). -/
def State.recordFrame (s : State) : FrameResult → State
  | .good _ => { s with lastPktErr := .kOk, errBitpos := 0 }
  | .bad e pos =>
    { s with lastPktErr := e, errBitpos := BitVec.ofNat 32 pos, badFrames := s.badFrames + 1 }

/-- FRAME_INDEX and the sample counts after a frame (44_synthesis.md R220; 10_state.md R26, R27). -/
def State.advanceClock (s : State) : State :=
  let n := BitVec.ofNat 64 s.spf
  { s with
    frameIndex := s.frameIndex + 1
    chan0 := { s.chan0 with sampleCount :=
      if 0 < s.channelCount then s.chan0.sampleCount + n else s.chan0.sampleCount }
    chan1 := { s.chan1 with sampleCount :=
      if 1 < s.channelCount then s.chan1.sampleCount + n else s.chan1.sampleCount } }

/-- FRAME_DECODE from the end of its parse on (44_synthesis.md R220): the state after it and the
frame's samples `out`. -/
def State.endFrame (s : State) (r : FrameResult) : State × List Sample :=
  let (s, pcm) := synthAll r.synth s.channels (s.settleParse r)
  (s.advanceClock.recordFrame r, interleave s.spf pcm)

/-- READ_BUFFER from its copy on (45_host_commands.md R235): the oldest samples go to OUTBUF. -/
def State.finishRead (s : State) : State :=
  let n := min s.arg.toNat (min s.pendingCount outbufSamples)
  let s := s.writeOutbuf (s.pending.take n)
  State.succeed { s with pending := s.pending.drop n } (BitVec.ofNat 32 n)

/-- The command that ran a frame decode takes its samples and ends (45_host_commands.md R236, R240). -/
def State.deliver (s : State) (via : Via) (out : List Sample) : State :=
  match via with
  | .readBuffer => State.finishRead { s with pending := s.pending ++ out }
  | .decodePacket => (s.writeOutbuf out).succeed (BitVec.ofNat 32 s.frameSamples)

/-- The end of a frame decode and of the command it runs in; nothing is in progress after it. -/
def State.completeFrame (s : State) (via : Via) (r : FrameResult) : State :=
  let (s, out) := s.endFrame r
  { s.deliver via out with activity := .idle }

/-- THE EXCEPTION ENTRY of the block, the recovery from a packet error `e` at bit position `pos`
(60_exceptions.md R262): the shadow state is discarded, the tones age, every channel emits its
bad-frame output, FRAME_INDEX and the sample counts advance, LAST_PKT_ERR, ERR_BITPOS and BAD_FRAMES
record the error, and the command that ran the decode succeeds (R261). -/
def State.takePacketError (s : State) (via : Via) (e : Err) (pos : Nat) : State :=
  s.completeFrame via (.bad e pos)

/-- Where an abandoned parse goes (00_scope.md R10, 44_synthesis.md R220): a raised error is caught
and recovered, a refusal stops the model. -/
def State.catchStop (s : State) (via : Via) : Stop → Out
  | .raised e pos => .next (s.takePacketError via e pos)
  | .refuse r => .refused r

end Sys2Proof.Machine
end

