-- ==== Sys2Proof/Machine/Extradata.lean ====
section
/-!
DEFINITION. The extradata parser (41_extradata.md R140 to R144), the chunks it is made of (30_encoding.md
R85 to R87), and the construction of an instance by a successful CONFIGURE (45_host_commands.md R232).
-/

namespace Sys2Proof.Machine

open Sys2Proof

/-- The checks up to the 'frma' chunk's end, beside its tag (41_extradata.md R141): the blob's length,
size0 and the codec. -/
def frmaOk (b : List Byte) : Bool :=
  decide (48 ≤ b.length) && decide (be32 b 0 = 12) && decide (be32 b 8 = tagQdm2)

/-- The record of a blob's QDCA chunk (41_extradata.md R141). -/
def qdcaRecord (b : List Byte) : ExtraRec :=
  { version := BitVec.ofNat 32 (be32 b 20), channels := BitVec.ofNat 32 (be32 b 24),
    sampleRate := BitVec.ofNat 32 (be32 b 28), bitrate := BitVec.ofNat 32 (be32 b 32),
    blockSize := BitVec.ofNat 32 (be32 b 36), frameSize := BitVec.ofNat 32 (be32 b 40),
    packetSize := BitVec.ofNat 32 (be32 b 44) }

/-- Membership in SPF_SET (00_scope.md R7). -/
def spfLegal (n : Nat) : Bool := decide (n = 256) || decide (n = 512) || decide (n = 1024)

/-- The field ranges of the QDCA chunk (41_extradata.md R141). -/
def qdcaFieldsOk (b : List Byte) : Bool :=
  (decide (be32 b 24 = 1) || decide (be32 b 24 = 2))
    && decide (4 ≤ be32 b 40) && decide (be32 b 40 ≤ 8192) && spfLegal (be32 b 44)

/-- The checks on the QDCA chunk beside its tag (41_extradata.md R141). -/
def qdcaOk (b : List Byte) : Bool := decide (be32 b 12 = 36) && qdcaFieldsOk b

/-- The blob has room for a chunk header after the QDCA chunk (30_encoding.md R87). -/
def hasThird (b : List Byte) : Bool := decide (8 ≤ b.length - 48)

/-- The check on a QDCP chunk (41_extradata.md R141). -/
def qdcpOk (b : List Byte) : Bool := decide (8 ≤ be32 b 48) && decide (be32 b 48 ≤ b.length - 48)

/-- EXTRADATA_PARSE (41_extradata.md R141): the checks in the order written, each raising
kBadExtradata. -/
def extradataParse (b : List Byte) : Except Err ExtraRec :=
  if b.length < 48 then .error .kBadExtradata
  else if be32 b 0 ≠ 12 then .error .kBadExtradata
  else if be32 b 4 ≠ tagFrma then .error .kBadExtradata
  else if be32 b 8 ≠ tagQdm2 then .error .kBadExtradata
  else if be32 b 12 ≠ 36 then .error .kBadExtradata
  else if be32 b 16 ≠ tagQdca then .error .kBadExtradata
  else if !qdcaFieldsOk b then .error .kBadExtradata
  else if hasThird b && decide (be32 b 52 = tagQdcp) && !qdcpOk b then .error .kBadExtradata
  else .ok (qdcaRecord b)

/-- A u32 as four big-endian bytes (20_memory.md R66). -/
def be32Bytes (v : Nat) : List Byte :=
  [BitVec.ofNat 8 (v / 16777216), BitVec.ofNat 8 (v / 65536), BitVec.ofNat 8 (v / 256),
    BitVec.ofNat 8 v]

/-- A record as the 48 bytes of its frma and QDCA chunks (41_extradata.md R144). -/
def ExtraRec.serialise (r : ExtraRec) : List Byte :=
  [12, tagFrma, tagQdm2, 36, tagQdca, r.version.toNat, r.channels.toNat, r.sampleRate.toNat,
    r.bitrate.toNat, r.blockSize.toNat, r.frameSize.toNat, r.packetSize.toNat].flatMap be32Bytes

/-- The configuration registers of a parsed record (10_state.md R21, R22; 41_extradata.md R142). -/
def Cfg.ofRecord (p : Params) (r : ExtraRec) : Cfg :=
  let n := 2 * r.packetSize.toNat
  let bands := layoutOf p r.packetSize.toNat
  { version := r.version, channels := r.channels, sampleRate := r.sampleRate, bitrate := r.bitrate,
    blockSize := r.blockSize, frameSize := r.frameSize, packetSize := r.packetSize,
    fftSize := BitVec.ofNat 32 n, fftOrder := BitVec.ofNat 32 n.log2,
    numBands := BitVec.ofNat 32 bands.length, bands := bands }

/-- The state after a successful CONFIGURE (45_host_commands.md R232; 10_state.md R47). -/
def State.construct (s : State) (md : Mode) (r : ExtraRec) : State :=
  State.succeed
    { s with
      activity := .idle, cfg := Cfg.ofRecord s.par r, adapter := .opened, mode := md, queue := [],
      nextSeq := 0, pending := [], frameIndex := 0, chan0 := Chan.init s.par,
      chan1 := Chan.init s.par, seed := s.par.seedInit, flags := 0, lastPktErr := .kOk,
      errBitpos := 0, badFrames := 0 } 0

/-- How a chunk leaves the extradata parse: at the next chunk, at its end, or with kBadExtradata. -/
inductive ChunkNext where
  | more (x : ChunkParse)
  | done
  | bad
deriving DecidableEq, Repr

/-- The 'frma' chunk at the parser's place (41_extradata.md R141); after the QDCA chunk it is no QDCP
chunk and ends the parse (30_encoding.md R87; log 24). -/
def frmaChunk (x : ChunkParse) : ChunkNext :=
  match x.place with
  | .first => if frmaOk x.blob then .more { x with place := .second } else .bad
  | .second => .bad
  | .third => .done

/-- The 'QDCA' chunk at the parser's place (41_extradata.md R141; log 24). -/
def qdcaChunk (x : ChunkParse) : ChunkNext :=
  match x.place with
  | .first => .bad
  | .second =>
    if qdcaOk x.blob then .more { x with place := .third, record := qdcaRecord x.blob } else .bad
  | .third => .done

/-- The 'QDCP' chunk at the parser's place (41_extradata.md R141; log 24). -/
def qdcpChunk (x : ChunkParse) : ChunkNext :=
  match x.place with
  | .first => .bad
  | .second => .bad
  | .third => if hasThird x.blob && !qdcpOk x.blob then .bad else .done

/-- The CONFIGURE in progress after a chunk (45_host_commands.md R232). VLC_READY is left as it is: the
state inside a CONFIGURE stands past the line that sets it (log 7). -/
def settleChunk (s : State) (x : ChunkParse) : ChunkNext → Out
  | .more x' => .next { s with activity := .chunks x' }
  | .done => .next (s.construct x.mode x.record)
  | .bad => .next (State.fail { s with activity := .idle } .kBadExtradata)

/-- A chunk executed in an extradata parse. -/
def onChunk (f : ChunkParse → ChunkNext) (s : State) : Out :=
  match s.activity with
  | .chunks x => settleChunk s x (f x)
  | _ => .refused .noChunkDue

/-- CHUNK_FRMA (41_extradata.md R141). -/
def execChunkFrma (s : State) : Out := onChunk frmaChunk s

/-- CHUNK_QDCA (41_extradata.md R141). -/
def execChunkQdca (s : State) : Out := onChunk qdcaChunk s

/-- CHUNK_QDCP (41_extradata.md R141). -/
def execChunkQdcp (s : State) : Out := onChunk qdcpChunk s

end Sys2Proof.Machine
end

