-- ==== Sys2Proof/Machine/Packet.lean ====
section
/-!
DEFINITION. The parts of the packet parser its syntax elements share (42_packet_parser.md R150 to
R157): the checksum, the start of a parse, a sub-packet's header, declared length and end, and the
rule by which a sub-packet is executed in a parse.
-/

namespace Sys2Proof.Machine

open Sys2Proof

/-- CHECKSUM's sum (42_packet_parser.md R150): the initial value of the packet's sf_type plus the
bytes 0 .. F-3, modulo 2^16. -/
def packetSum (p : Params) (packet : List Byte) : BitVec 16 :=
  (packet.take (packet.length - 2)).foldl (fun acc b => acc + b.setWidth 16)
    (checksumOf p (packet.getD 0 0).toNat)

/-- The checksum field (30_encoding.md R90). -/
def checksumField (packet : List Byte) : BitVec 16 :=
  BitVec.ofNat 16 (be16 packet (packet.length - 2))

/-- CHECKSUM (42_packet_parser.md R150), then the head of PARSE (R151): the parse at its first
sub-packet. -/
def startParse (s : State) (via : Via) (packet : List Byte) : Except Stop Parse :=
  if packetSum s.par packet ≠ checksumField packet then
    .error (.raised .kChecksumMismatch (8 * (packet.length - 2)))
  else do
    let (_, rd) ← (BitReader.start packet).read 8
    let (count, rd) ← rd.read 8
    pure { via := via, rd := rd, sh := Shadow.ofState s, left := count, lastRank := 0, tone := none }

/-- The rank of a type (30_encoding.md R93): header 0, noise 1, tones 2. -/
def typeRank (t : Nat) : Nat :=
  if t ≤ 1 then 0 else if 8 ≤ t ∧ t ≤ 12 then 2 else 1

/-- The type field of a sub-packet of legal type `t` and the order check (42_packet_parser.md R152). -/
def openSub (t : Nat) (p : Parse) : Except Stop Parse := do
  let (_, rd) ← p.rd.read 5
  if typeRank t < p.lastRank then .error (.raised .kMalformed p.rd.pos)
  else pure { p with rd := rd, lastRank := typeRank t }

/-- The len field and the check that the declared payload lies in the body (42_packet_parser.md R152,
R153). -/
def openLen (p : Parse) : Except Stop (Nat × Parse) := do
  let (len, rd) ← p.rd.read 16
  if rd.limit < rd.pos + len then .error (.raised .kMalformed rd.pos)
  else pure (len, { p with rd := rd })

/-- The parse after a sub-packet, at the next one. -/
def endSub (p : Parse) : Parse := { p with left := p.left - 1, tone := none }

/-- The end of a payload of declared length `len` that starts at `start`: an overrun is kMalformed,
unused bits are skipped unread (42_packet_parser.md R152, R153). -/
def closePayload (start len : Nat) (p : Parse) : Except Stop Parse :=
  if len < p.rd.pos - start then .error (.raised .kMalformed start)
  else do
    let rd ← p.rd.skip (len - (p.rd.pos - start))
    pure (endSub { p with rd := rd })

/-- A sub-packet executed by its `body`, in a packet parse that expects one; an error of the parse is
caught as 44_synthesis.md R220 says (60_exceptions.md R262). -/
def onSubpacket (body : State → Parse → Except Stop Parse) (s : State) : Out :=
  match s.activity with
  | .packet p =>
    if p.tone.isNone && decide (0 < p.left) then
      match body s p with
      | .ok p' => .next { s with activity := .packet p' }
      | .error e => s.catchStop p.via e
    else .refused .noSubpacketDue
  | _ => .refused .noSubpacketDue

/-- The reserved type codes (30_encoding.md R94). -/
def typeReserved (t : Nat) : Bool := decide (5 ≤ t ∧ t ≤ 7) || decide (16 ≤ t)

/-- The sub-packet view of 42_packet_parser.md R154, which names what R152 computes. -/
structure SubpacketView where
  type : Nat
  size : Nat
  payloadOffset : Nat
  crcOk : Bool
deriving DecidableEq, Repr

/-- The view of the sub-packet whose type field is at `p.rd` (42_packet_parser.md R154): size 32 and 8
for the header types, the len field for the others. A parse runs only when the checksum passed. There
is no view where R152 raises before it has a size: at a reserved type code, read before any len field
(30_encoding.md R94), and at a type out of order. DEDUCED (log 29); safe. -/
def subpacketView (p : Parse) : Except Stop SubpacketView := do
  let (t, _) ← p.rd.read 5
  if typeReserved t then .error (.raised .kMalformed p.rd.pos)
  else do
    let q ← openSub t p
    if t = 0 then pure { type := t, size := 32, payloadOffset := q.rd.pos, crcOk := true }
    else if t = 1 then pure { type := t, size := 8, payloadOffset := q.rd.pos, crcOk := true }
    else do
      let (len, rd) ← q.rd.read 16
      pure { type := t, size := len, payloadOffset := rd.pos, crcOk := true }

end Sys2Proof.Machine
end

