-- ==== Sys2Proof/Machine/Header.lean ====
section
/-!
DEFINITION. The header sub-packets SP_SEED and SP_FLAGS (42_packet_parser.md R160, R161) and the
reserved sub-packet types (30_encoding.md R94; 42_packet_parser.md R152).
-/

namespace Sys2Proof.Machine

open Sys2Proof

/-- SP_SEED inside a parse (42_packet_parser.md R152, R160). -/
def spSeed (_s : State) (p : Parse) : Except Stop Parse := do
  let p ← openSub 0 p
  let (v, rd) ← p.rd.read 32
  pure (endSub { p with rd := rd, sh := { p.sh with seed := BitVec.ofNat 32 v } })

/-- SP_FLAGS inside a parse (42_packet_parser.md R152, R161). -/
def spFlags (_s : State) (p : Parse) : Except Stop Parse := do
  let p ← openSub 1 p
  let (v, rd) ← p.rd.read 8
  pure (endSub { p with rd := rd, sh := { p.sh with flags := BitVec.ofNat 8 v } })

/-- A reserved type code inside a parse: kMalformed at the type field, before any length field
(30_encoding.md R94; 42_packet_parser.md R152). -/
def spReserved (_s : State) (p : Parse) : Except Stop Parse := do
  let _ ← p.rd.read 5
  .error (.raised .kMalformed p.rd.pos)

/-- SP_SEED (42_packet_parser.md R160). -/
def execSpSeed (s : State) : Out := onSubpacket spSeed s

/-- SP_FLAGS (42_packet_parser.md R161). -/
def execSpFlags (s : State) : Out := onSubpacket spFlags s

/-- SP_RESERVED_5 (42_packet_parser.md R152). -/
def execSpReserved5 (s : State) : Out := onSubpacket spReserved s

/-- SP_RESERVED_6_7 (42_packet_parser.md R152). -/
def execSpReserved67 (s : State) : Out := onSubpacket spReserved s

/-- SP_RESERVED_16_31 (42_packet_parser.md R152). -/
def execSpReserved1631 (s : State) : Out := onSubpacket spReserved s

end Sys2Proof.Machine
end

