-- ==== Sys2Proof/Machine/Noise.lean ====
section
/-!
DEFINITION. The noise sub-packets, types 2, 3, 4, 13, 14 and 15 (42_packet_parser.md R162 to R168).
-/

namespace Sys2Proof.Machine

open Sys2Proof

/-- One delta of NOISE_PAYLOAD (42_packet_parser.md R168): the energy of band `b` moves by the decoded
symbol and is clamped to E_MIN .. E_MAX. -/
def noiseBand (s : State) (c : Ch) (b : Nat) (p : Parse) : Except Stop Parse := do
  let (d, _, rd) ← vlcDecode (noiseTableOf s.par b) p.rd
  let ch := p.sh.chan c
  let e := clamp (ch.env.getD b 0 + d) s.par.eMin s.par.eMax
  pure { p with rd := rd, sh := p.sh.setChan c { ch with env := ch.env.set b e } }

/-- The deltas of `n` bands from `b` on, ascending (30_encoding.md R98). -/
def noiseBands (s : State) (c : Ch) : Nat → Nat → Parse → Except Stop Parse
  | 0, _, p => pure p
  | n + 1, b, p => do
    let p ← noiseBand s c b p
    noiseBands s c n (b + 1) p

/-- The legality of a band run (42_packet_parser.md R168): `cnt` = 0 checks nothing. -/
def noiseRunLegal (s : State) (t fb cnt : Nat) : Bool :=
  let r := rangeOf s.par.noiseRanges t s.numBands
  decide (cnt = 0) || (decide (fb + cnt ≤ s.numBands) && decide (r.1 ≤ fb)
    && decide (fb + cnt - 1 ≤ r.2))

/-- NOISE_PAYLOAD(t) (42_packet_parser.md R168). -/
def noisePayload (s : State) (t : Nat) (p : Parse) : Except Stop Parse := do
  let (c, rd) ← chsel s.cfg.channels p.rd
  let q := rd.pos
  let (fb, rd) ← rd.read 5
  let (cnt, rd) ← rd.read 6
  if noiseRunLegal s t fb cnt then noiseBands s c cnt fb { p with rd := rd }
  else .error (.raised .kMalformed q)

/-- A noise sub-packet of type `t` inside a parse (42_packet_parser.md R152, R162 to R167). -/
def spNoise (t : Nat) (s : State) (p : Parse) : Except Stop Parse := do
  let p ← openSub t p
  let (len, p) ← openLen p
  let start := p.rd.pos
  let p ← noisePayload s t p
  closePayload start len p

/-- SP_NOISE2 (42_packet_parser.md R162). -/
def execSpNoise2 (s : State) : Out := onSubpacket (spNoise 2) s

/-- SP_NOISE3 (42_packet_parser.md R163). -/
def execSpNoise3 (s : State) : Out := onSubpacket (spNoise 3) s

/-- SP_NOISE4 (42_packet_parser.md R164). -/
def execSpNoise4 (s : State) : Out := onSubpacket (spNoise 4) s

/-- SP_NOISE13 (42_packet_parser.md R165). -/
def execSpNoise13 (s : State) : Out := onSubpacket (spNoise 13) s

/-- SP_NOISE14 (42_packet_parser.md R166). -/
def execSpNoise14 (s : State) : Out := onSubpacket (spNoise 14) s

/-- SP_NOISE15 (42_packet_parser.md R167). -/
def execSpNoise15 (s : State) : Out := onSubpacket (spNoise 15) s

end Sys2Proof.Machine
end

