-- ==== Sys2Proof/Machine/ToneOps.lean ====
section
/-!
DEFINITION. The tone records (42_packet_parser.md R175 to R180): the record head, the slot check, and
the operations TONE_ADD, TONE_REFRESH, TONE_DELETE and TONE_RESERVED.
-/

namespace Sys2Proof.Machine

open Sys2Proof

/-- The head of a tone record: op, band, pos (30_encoding.md R100), and the parse past it. -/
def recordHead (p : Parse) : Except Stop (Nat × Nat × Nat × Parse) := do
  let (op, rd) ← p.rd.read 2
  let (band, rd) ← rd.read 5
  let (pos, rd) ← rd.read 7
  pure (op, band, pos, { p with rd := rd })

/-- The position a pos field of a type-`t` record addresses (30_encoding.md R100, R103). -/
def tonePosition (t pos : Nat) : Nat := pos * 2 ^ (t - 8)

/-- The slot check (42_packet_parser.md R180). -/
def slotLegal (s : State) (t band pos : Nat) : Bool :=
  let r := rangeOf s.par.toneRanges t s.numBands
  decide (band < s.numBands) && decide (r.1 ≤ band) && decide (band ≤ r.2)
    && decide (tonePosition t pos < (s.band band).width)

/-- The bin of a slot (42_packet_parser.md R180). -/
def slotBin (s : State) (t band pos : Nat) : Nat := (s.band band).base + tonePosition t pos

/-- The parse after a record of the tone payload `tp`. -/
def endRecord (tp : TonePart) (p : Parse) : Parse :=
  { p with tone := some { tp with left := tp.left - 1 } }

/-- Channel `c`'s shadow with slot `k` holding `t` and touched. -/
def Parse.touchTone (p : Parse) (c : Ch) (k : Nat) (t : Tone) : Parse :=
  let ch := p.sh.chan c
  let v := { ch with tones := Assoc.put k t ch.tones, touched := List.insert k ch.touched }
  { p with sh := p.sh.setChan c v }

/-- Channel `c`'s shadow with slot `k` EMPTY and not touched. -/
def Parse.dropTone (p : Parse) (c : Ch) (k : Nat) : Parse :=
  let ch := p.sh.chan c
  let v := { ch with tones := Assoc.erase k ch.tones, touched := ch.touched.filter fun j => j ≠ k }
  { p with sh := p.sh.setChan c v }

/-- TONE_ADD of slot (`band`, `pos`) past the record head (42_packet_parser.md R175, R176, R180); `r0`
is the offset of the record's op field. -/
def toneAdd (s : State) (tp : TonePart) (band pos r0 : Nat) (p : Parse) : Except Stop Parse :=
  if slotLegal s tp.type band pos then do
    let (a, _, rd) ← vlcDecode s.par.ampVlc p.rd
    let (ph, _, rd) ← vlcDecode s.par.phaseVlc rd
    let (dur, rd) ← rd.read 4
    if a < 0 then .error (.raised .kMalformed r0)
    else
      let t : Tone :=
        { band := band, position := tonePosition tp.type pos, amplitude := a.toNat,
          phase := (ph % (s.par.phaseSteps : Int)).toNat, duration := dur + 1,
          startFrame := s.frameIndex }
      pure (endRecord tp
        (Parse.touchTone { p with rd := rd } tp.ch (slotBin s tp.type band pos) t))
  else .error (.raised .kMalformed r0)

/-- TONE_REFRESH past the record head (42_packet_parser.md R177). -/
def toneRefresh (s : State) (tp : TonePart) (band pos r0 : Nat) (p : Parse) : Except Stop Parse :=
  if slotLegal s tp.type band pos then
    let k := slotBin s tp.type band pos
    match Assoc.find k (p.sh.chan tp.ch).tones with
    | none => .error (.raised .kMalformed r0)
    | some t => .ok (endRecord tp (p.touchTone tp.ch k { t with startFrame := s.frameIndex }))
  else .error (.raised .kMalformed r0)

/-- TONE_DELETE past the record head (42_packet_parser.md R178). -/
def toneDelete (s : State) (tp : TonePart) (band pos r0 : Nat) (p : Parse) : Except Stop Parse :=
  if slotLegal s tp.type band pos then
    let k := slotBin s tp.type band pos
    match Assoc.find k (p.sh.chan tp.ch).tones with
    | none => .error (.raised .kMalformed r0)
    | some _ => .ok (endRecord tp (p.dropTone tp.ch k))
  else .error (.raised .kMalformed r0)

/-- TONE_RESERVED past the record head (42_packet_parser.md R179): band and pos are not checked. -/
def toneReserved (_s : State) (_tp : TonePart) (_band _pos r0 : Nat) (_p : Parse) :
    Except Stop Parse := .error (.raised .kMalformed r0)

/-- The operation of an op code (30_encoding.md R101; 42_packet_parser.md R175). -/
def toneOp (op : Nat) : State → TonePart → Nat → Nat → Nat → Parse → Except Stop Parse :=
  match op with
  | 0 => toneAdd
  | 1 => toneRefresh
  | 2 => toneDelete
  | _ => toneReserved

/-- A tone record executed by its operation `act`, in a tone payload that expects one: its head is
passed over, and an error is caught as 44_synthesis.md R220 says (60_exceptions.md R262). -/
def onRecord (act : State → TonePart → Nat → Nat → Nat → Parse → Except Stop Parse)
    (band pos : Nat) (s : State) : Out :=
  match s.activity with
  | .packet p =>
    match p.tone with
    | some tp =>
      if 0 < tp.left then
        match (do let (_, _, _, q) ← recordHead p; act s tp band pos p.rd.pos q) with
        | .ok p' => .next { s with activity := .packet p' }
        | .error e => s.catchStop p.via e
      else .refused .noToneRecordDue
    | none => .refused .noToneRecordDue
  | _ => .refused .noToneRecordDue

/-- TONE_ADD (42_packet_parser.md R176). -/
def execToneAdd (band pos : Nat) (s : State) : Out := onRecord toneAdd band pos s

/-- TONE_REFRESH (42_packet_parser.md R177). -/
def execToneRefresh (band pos : Nat) (s : State) : Out := onRecord toneRefresh band pos s

/-- TONE_DELETE (42_packet_parser.md R178). -/
def execToneDelete (band pos : Nat) (s : State) : Out := onRecord toneDelete band pos s

/-- TONE_RESERVED (42_packet_parser.md R179). -/
def execToneReserved (band pos : Nat) (s : State) : Out := onRecord toneReserved band pos s

end Sys2Proof.Machine
end

