-- ==== Sys2Proof/Machine/Tone.lean ====
section
/-!
DEFINITION. The tone sub-packets, types 8 to 12 (42_packet_parser.md R170 to R175).
-/

namespace Sys2Proof.Machine

open Sys2Proof

/-- A tone sub-packet of type `t` up to its first record (42_packet_parser.md R152, R175). -/
def openTone (t : Nat) (s : State) (p : Parse) : Except Stop Parse := do
  let p ← openSub t p
  let (len, p) ← openLen p
  let start := p.rd.pos
  let (c, rd) ← chsel s.cfg.channels p.rd
  let (cnt, rd) ← rd.read 6
  pure { p with rd := rd, tone := some { type := t, ch := c, start := start, len := len, left := cnt } }

/-- The next record of the tone payload the parse is inside (42_packet_parser.md R175). -/
def nextRecord (s : State) (p : Parse) : Except Stop Parse :=
  match p.tone with
  | none => .ok p
  | some tp => do
    let (op, band, pos, q) ← recordHead p
    toneOp op s tp band pos p.rd.pos q

/-- `n` records in order (42_packet_parser.md R175). -/
def runRecords (s : State) : Nat → Parse → Except Stop Parse
  | 0, p => .ok p
  | n + 1, p => do
    let p ← nextRecord s p
    runRecords s n p

/-- How many records the parse has still to read in the payload it is inside. -/
def Parse.recordsLeft (p : Parse) : Nat :=
  match p.tone with
  | some tp => tp.left
  | none => 0

/-- The end of a tone payload (42_packet_parser.md R152). -/
def closeTone (p : Parse) : Except Stop Parse :=
  match p.tone with
  | none => .ok p
  | some tp => closePayload tp.start tp.len p

/-- A tone sub-packet of type `t` inside a parse (42_packet_parser.md R152, R170 to R175). -/
def spTone (t : Nat) (s : State) (p : Parse) : Except Stop Parse := do
  let p ← openTone t s p
  let p ← runRecords s p.recordsLeft p
  closeTone p

/-- SP_TONE8 (42_packet_parser.md R170). -/
def execSpTone8 (s : State) : Out := onSubpacket (spTone 8) s

/-- SP_TONE9 (42_packet_parser.md R171). -/
def execSpTone9 (s : State) : Out := onSubpacket (spTone 9) s

/-- SP_TONE10 (42_packet_parser.md R172). -/
def execSpTone10 (s : State) : Out := onSubpacket (spTone 10) s

/-- SP_TONE11 (42_packet_parser.md R173). -/
def execSpTone11 (s : State) : Out := onSubpacket (spTone 11) s

/-- SP_TONE12 (42_packet_parser.md R174). -/
def execSpTone12 (s : State) : Out := onSubpacket (spTone 12) s

end Sys2Proof.Machine
end

