-- ==== Sys2Proof/Machine/Frame.lean ====
section
/-!
DEFINITION. PARSE and FRAME_DECODE (42_packet_parser.md R151, R152; 44_synthesis.md R220): the whole
decode of one packet inside a command.
-/

namespace Sys2Proof.Machine

open Sys2Proof

/-- The sub-packet of a 5-bit type code (42_packet_parser.md R152). -/
def subpacketOf (t : Nat) : State → Parse → Except Stop Parse :=
  match t with
  | 0 => spSeed
  | 1 => spFlags
  | 2 => spNoise 2
  | 3 => spNoise 3
  | 4 => spNoise 4
  | 8 => spTone 8
  | 9 => spTone 9
  | 10 => spTone 10
  | 11 => spTone 11
  | 12 => spTone 12
  | 13 => spNoise 13
  | 14 => spNoise 14
  | 15 => spNoise 15
  | _ => spReserved

/-- SUBPACKET (42_packet_parser.md R152): the type field selects the rule. -/
def nextSubpacket (s : State) (p : Parse) : Except Stop Parse := do
  let t ← p.rd.peek 5
  subpacketOf t s p

/-- `n` sub-packets in order (42_packet_parser.md R151). -/
def runSubpackets (s : State) : Nat → Parse → Except Stop Parse
  | 0, p => .ok p
  | n + 1, p => do
    let p ← nextSubpacket s p
    runSubpackets s n p

/-- CHECKSUM and PARSE of a packet (42_packet_parser.md R150, R151). -/
def parsePacket (s : State) (via : Via) (packet : List Byte) : Except Stop Parse := do
  let p ← startParse s via packet
  runSubpackets s p.left p

/-- FRAME_DECODE of a packet (44_synthesis.md R220) inside the command `via`, which takes its samples
and ends (45_host_commands.md R236, R240). -/
def frameDecode (s : State) (via : Via) (packet : List Byte) : Out :=
  match parsePacket s via packet with
  | .ok p => .next (s.completeFrame via (.good p.sh))
  | .error e => s.catchStop via e

end Sys2Proof.Machine
end

