-- ==== Sys2Proof/Machine/Commands.lean ====
section
/-!
DEFINITION. The host commands (45_host_commands.md R230 to R241).
-/

namespace Sys2Proof.Machine

open Sys2Proof

/-- R230's check of a command that needs an instance: kClosed without one. -/
def gateLive (s : State) : Option Err := if s.live then none else some .kClosed

/-- R230's checks of QUEUE_PACKET, FINISH and READ_BUFFER: an instance, then STREAM mode. -/
def gateStream (s : State) : Option Err :=
  if s.live then if s.mode = .codec then some .kBadCommand else none else some .kClosed

/-- R230's checks of DECODE_PACKET: an instance, then CODEC mode. -/
def gateCodec (s : State) : Option Err :=
  if s.live then if s.mode = .stream then some .kBadCommand else none else some .kClosed

/-- R230's check of CONFIGURE: no live instance. -/
def gateConfigure (s : State) : Option Err := if s.live then some .kBadCommand else none

/-- The common frame of a command (45_host_commands.md R230): its checks, then its own rule. No command
is observed inside another (00_scope.md R5; log 20). -/
def onCommand (gate : State → Option Err) (body : State → Out) (s : State) : Out :=
  match s.activity with
  | .idle =>
    match gate s with
    | some e => .next (s.fail e)
    | none => body s
  | _ => .refused .commandInProgress

/-- CONFIGURE of mode `md` (45_host_commands.md R232). -/
def configure (md : Mode) (s : State) : Out :=
  let s := { s with vlcReady := true }
  if inbufBytes < s.arg.toNat then .next (s.fail .kBadExtradata)
  else
    match extradataParse (s.inbuf s.arg.toNat) with
    | .error e => .next (s.fail e)
    | .ok r => .next (s.construct md r)

/-- CONFIGURE.STREAM (45_host_commands.md R232). -/
def execConfigureStream (s : State) : Out := onCommand gateConfigure (configure .stream) s

/-- CONFIGURE.CODEC (45_host_commands.md R232). -/
def execConfigureCodec (s : State) : Out := onCommand gateConfigure (configure .codec) s

/-- QUEUE_PACKET past R230's checks (45_host_commands.md R233). -/
def queuePacket (s : State) : Out :=
  if s.adapter = .draining then .next (s.fail .kClosed)
  else if s.arg ≠ s.cfg.frameSize then .next (s.fail .kMalformed)
  else if s.queueCount = queueDepth then .next (s.fail .kQueueFull)
  else
    .next (State.succeed
      { s with
        queue := s.queue ++ [{ bytes := s.inbuf s.arg.toNat, seq := s.nextSeq }]
        nextSeq := s.nextSeq + 1 } 0)

/-- QUEUE_PACKET (45_host_commands.md R233). -/
def execQueuePacket (s : State) : Out := onCommand gateStream queuePacket s

/-- FINISH past R230's checks (45_host_commands.md R234). -/
def finish (s : State) : Out :=
  if s.adapter = .draining then .next (s.fail .kClosed)
  else .next (State.succeed { s with adapter := .draining } 0)

/-- FINISH (45_host_commands.md R234). -/
def execFinish (s : State) : Out := onCommand gateStream finish s

/-- READ_BUFFER past R230's checks: DECODE_POLICY, then the copy (45_host_commands.md R235, R236). -/
def readBuffer (s : State) : Out :=
  if s.pendingCount < s.frameSamples then
    match s.queue with
    | p :: q => frameDecode { s with queue := q } .readBuffer p.bytes
    | [] => .next s.finishRead
  else .next s.finishRead

/-- READ_BUFFER (45_host_commands.md R235). -/
def execReadBuffer (s : State) : Out := onCommand gateStream readBuffer s

/-- END_OF_DATA (45_host_commands.md R237). -/
def execEndOfData (s : State) : Out :=
  onCommand gateLive (fun s => .next (s.succeed (if s.eod then 1 else 0))) s

/-- IS_STEREO (45_host_commands.md R238). -/
def execIsStereo (s : State) : Out :=
  onCommand gateLive (fun s => .next (s.succeed (if s.cfg.channels = 2 then 1 else 0))) s

/-- GET_RATE (45_host_commands.md R239). -/
def execGetRate (s : State) : Out :=
  onCommand gateLive (fun s => .next (s.succeed s.cfg.sampleRate)) s

/-- DECODE_PACKET past R230's checks (45_host_commands.md R240). -/
def decodePacket (s : State) : Out :=
  if s.arg ≠ s.cfg.frameSize then .next (s.fail .kMalformed)
  else frameDecode s .decodePacket (s.inbuf s.arg.toNat)

/-- DECODE_PACKET (45_host_commands.md R240). -/
def execDecodePacket (s : State) : Out := onCommand gateCodec decodePacket s

/-- DESTROY (45_host_commands.md R241). -/
def execDestroy (s : State) : Out :=
  onCommand gateLive
    (fun s => .next (State.succeed { s with queue := [], pending := [], adapter := .closed } 0)) s

end Sys2Proof.Machine
end

