-- ==== Sys2Proof/Machine/Dispatch.lean ====
section
/-!
DEFINITION. The meaning of every instruction: one arm per constructor, each one call.
-/

namespace Sys2Proof.Machine

open Sys2Proof

def exec (i : Instr) (s : State) : Host.Outcome State Fault Refusal :=
  match i with
  | .configureStream => Sys2Proof.Machine.execConfigureStream s
  | .configureCodec => Sys2Proof.Machine.execConfigureCodec s
  | .queuePacket => Sys2Proof.Machine.execQueuePacket s
  | .finish => Sys2Proof.Machine.execFinish s
  | .readBuffer => Sys2Proof.Machine.execReadBuffer s
  | .endOfData => Sys2Proof.Machine.execEndOfData s
  | .isStereo => Sys2Proof.Machine.execIsStereo s
  | .getRate => Sys2Proof.Machine.execGetRate s
  | .decodePacket => Sys2Proof.Machine.execDecodePacket s
  | .destroy => Sys2Proof.Machine.execDestroy s
  | .spSeed => Sys2Proof.Machine.execSpSeed s
  | .spFlags => Sys2Proof.Machine.execSpFlags s
  | .spNoise2 => Sys2Proof.Machine.execSpNoise2 s
  | .spNoise3 => Sys2Proof.Machine.execSpNoise3 s
  | .spNoise4 => Sys2Proof.Machine.execSpNoise4 s
  | .spNoise13 => Sys2Proof.Machine.execSpNoise13 s
  | .spNoise14 => Sys2Proof.Machine.execSpNoise14 s
  | .spNoise15 => Sys2Proof.Machine.execSpNoise15 s
  | .spTone8 => Sys2Proof.Machine.execSpTone8 s
  | .spTone9 => Sys2Proof.Machine.execSpTone9 s
  | .spTone10 => Sys2Proof.Machine.execSpTone10 s
  | .spTone11 => Sys2Proof.Machine.execSpTone11 s
  | .spTone12 => Sys2Proof.Machine.execSpTone12 s
  | .spReserved5 => Sys2Proof.Machine.execSpReserved5 s
  | .spReserved67 _ => Sys2Proof.Machine.execSpReserved67 s
  | .spReserved1631 _ => Sys2Proof.Machine.execSpReserved1631 s
  | .toneAdd band pos => Sys2Proof.Machine.execToneAdd band pos s
  | .toneRefresh band pos => Sys2Proof.Machine.execToneRefresh band pos s
  | .toneDelete band pos => Sys2Proof.Machine.execToneDelete band pos s
  | .toneReserved band pos => Sys2Proof.Machine.execToneReserved band pos s
  | .chunkFrma => Sys2Proof.Machine.execChunkFrma s
  | .chunkQdca => Sys2Proof.Machine.execChunkQdca s
  | .chunkQdcp => Sys2Proof.Machine.execChunkQdcp s

end Sys2Proof.Machine
end

