-- ==== Sys2Proof/Machine/Bus.lean ====
section
/-!
DEFINITION. The host bus: the address map and the register map (20_memory.md R60 to R65; 10_state.md
R46), and the effect of one access other than a command.
-/

namespace Sys2Proof.Machine

open Sys2Proof

/-- What a HOST address belongs to (20_memory.md R60); a register by the offset of its word. -/
inductive Region where
  | register (off : Nat)
  | inbuf
  | outbuf
  | reserved
deriving DecidableEq, Repr

/-- The region of an address (20_memory.md R60; 10_state.md R46). A reserved word of the register
window is no register, at any width (20_memory.md R63; log 10). An access belongs to the region of its
first byte, also a misaligned one that runs into another region, such as READ32 at 0x003E or WRITE32
at 0x0FFE: the spec does not say which range that is an access to. DESIGN CHOICE (log 28); unsafe. -/
def regionOf (a : Nat) : Region :=
  if a < 0x1000 then
    let off := a / 4 * 4
    if off < 0x070 ∧ off ≠ 0x03C then .register off else .reserved
  else if a < 0x3000 then .inbuf
  else if 0x4000 ≤ a ∧ a < 0x5000 then .outbuf
  else .reserved

/-- A register's value (10_state.md R46); CMD reads 0 (R35). -/
def State.readReg (s : State) (off : Nat) : Word :=
  match off with
  | 0x004 => s.arg
  | 0x008 => s.result
  | 0x00C => s.statusWord
  | 0x010 => s.lastPktErrWord
  | 0x014 => s.badFrames
  | 0x018 => s.errBitpos
  | 0x01C => BitVec.ofNat 32 s.queueCount
  | 0x020 => BitVec.ofNat 32 s.pendingCount
  | 0x024 => s.frameIndex.setWidth 32
  | 0x028 => (s.frameIndex >>> 32).setWidth 32
  | 0x02C => s.chan0.sampleCount.setWidth 32
  | 0x030 => (s.chan0.sampleCount >>> 32).setWidth 32
  | 0x034 => s.chan1.sampleCount.setWidth 32
  | 0x038 => (s.chan1.sampleCount >>> 32).setWidth 32
  | 0x040 => s.cfg.version
  | 0x044 => s.cfg.channels
  | 0x048 => s.cfg.sampleRate
  | 0x04C => s.cfg.bitrate
  | 0x050 => s.cfg.blockSize
  | 0x054 => s.cfg.frameSize
  | 0x058 => s.cfg.packetSize
  | 0x05C => s.cfg.fftOrder
  | 0x060 => s.cfg.fftSize
  | 0x064 => s.cfg.numBands
  | 0x068 => s.seed
  | 0x06C => s.flags.setWidth 32
  | _ => 0

/-- The access is naturally aligned (20_memory.md R64). -/
def aligned (w : Width) (a : Nat) : Bool := decide (a % w.bytes = 0)

/-- The reads the bus does not refuse (20_memory.md R63, R64). -/
def readLegal (w : Width) (a : Nat) : Bool :=
  match regionOf a with
  | .register _ => decide (w = .w32) && aligned w a
  | .inbuf => aligned w a
  | .outbuf => decide (w ≠ .w8) && aligned w a
  | .reserved => true

/-- The writes the bus does not refuse (20_memory.md R63, R64): OUTBUF is read-only. -/
def writeLegal (w : Width) (a : Nat) : Bool :=
  match regionOf a with
  | .register _ => decide (w = .w32) && aligned w a
  | .inbuf => aligned w a
  | .outbuf => false
  | .reserved => true

/-- The data a legal read returns (20_memory.md R61 to R65), zero-extended to the data bus (log 22). -/
def State.readData (s : State) (w : Width) (a : Nat) : Word :=
  match regionOf a with
  | .register off => s.readReg off
  | .inbuf => BitVec.ofNat 32 (leValue (s.loadBytes a w.bytes))
  | .outbuf => BitVec.ofNat 32 (leValue (s.loadBytes a w.bytes))
  | .reserved => 0

/-- A host read (20_memory.md R63, R64, R68): its data in `busData`; a refused one returns 0 and sets
BUS_ERR. -/
def State.busRead (s : State) (w : Width) (a : Nat) : State :=
  if readLegal w a then { s with busData := s.readData w a }
  else { s with busData := 0, busErr := true }

/-- A host write that starts no command (20_memory.md R63, R64): ARG and INBUF are stored, read-only
registers and reserved addresses ignored, a refused write sets BUS_ERR. -/
def State.busWrite (s : State) (w : Width) (a : Nat) (v : Word) : State :=
  if writeLegal w a then
    match regionOf a with
    | .register off => if off = 0x004 then { s with arg := v } else s
    | .inbuf => s.storeBytes a (leBytes w.bytes v.toNat)
    | .outbuf => s
    | .reserved => s
  else { s with busErr := true }

end Sys2Proof.Machine
end

