-- ==== Sys2Proof/Machine/Fetch.lean ====
section
/-!
DEFINITION. What a step takes next. Between commands it is the host's next access (00_scope.md R5,
20_memory.md R72): a write of CMD is decoded to a command. Inside a command it is the next syntax
element of the packet or the extradata (log 7), so that the interior of a command can be stepped; a
command itself is one step (70_reset_and_hazards.md R297) and leaves nothing in progress.
-/

namespace Sys2Proof.Machine

open Sys2Proof

/-- What a step does: an instruction in a state, or an outcome that runs none. -/
inductive Fetched where
  | run (i : Instr) (s : State)
  | settled (o : Out)

/-- A word written to CMD (10_state.md R35; 30_encoding.md R80 to R82): an illegal one changes
STATUS.ERR and RESULT only. -/
def fetchCommand (s : State) (w : Word) : Fetched :=
  match decodeCommand w.toNat with
  | .ok i => .run i s
  | .error _ => .settled (.next (s.fail .kBadCommand))

/-- One bus access (20_memory.md R60 to R68). -/
def fetchAccess (s : State) : Access → Fetched
  | .read w a => .settled (.next (s.busRead w a.toNat))
  | .write w a v =>
    if w = .w32 ∧ a = 0 then fetchCommand s v else .settled (.next (s.busWrite w a.toNat v))

/-- The host's next event. With none the block is idle and keeps all state (60_exceptions.md R275;
70_reset_and_hazards.md R281); reset gives R280's values; unordered accesses are refused (R290). -/
def fetchHost (s : State) : Fetched :=
  match s.host with
  | [] => .settled (.next s)
  | .reset :: h => .settled (.next (State.resetWith s.par h (s.resets + 1)))
  | .unordered _ _ :: _ => .settled (.refused .unorderedAccesses)
  | .access a :: h => fetchAccess { s with host := h } a

/-- The next chunk of an extradata parse (41_extradata.md R141), which stands past the checks of the places
before it (log 7): an unknown tag at the first two places is kBadExtradata; at the third, no chunk header or one that is not QDCP ends the parse. -/
def fetchChunk (s : State) (x : ChunkParse) : Fetched :=
  match x.place with
  | .first =>
    match decodeChunk (be32 x.blob 4) with
    | .ok i => .run i s
    | .error _ => .settled (settleChunk s x .bad)
  | .second =>
    match decodeChunk (be32 x.blob 16) with
    | .ok i => .run i s
    | .error _ => .settled (settleChunk s x .bad)
  | .third =>
    if hasThird x.blob then
      match decodeChunk (be32 x.blob 52) with
      | .ok i => .run i s
      | .error _ => .settled (settleChunk s x .done)
    else .settled (settleChunk s x .done)

/-- The parse after an element that needs no instruction. -/
def afterElement (s : State) (via : Via) : Except Stop Parse → Out
  | .ok p => .next { s with activity := .packet p }
  | .error e => s.catchStop via e

/-- The next element of a packet parse (42_packet_parser.md R151, R152, R175): a tone record inside a
tone payload, a sub-packet between them, the end of a payload, or the end of the frame decode. -/
def fetchElement (s : State) (p : Parse) : Fetched :=
  match p.tone with
  | some tp =>
    if tp.left = 0 then .settled (afterElement s p.via (closeTone p))
    else
      match recordHead p with
      | .ok (op, band, pos, _) => .run (toneInstr op band pos) s
      | .error e => .settled (s.catchStop p.via e)
  | none =>
    if p.left = 0 then .settled (.next (s.completeFrame p.via (.good p.sh)))
    else
      match p.rd.peek 5 with
      | .ok t => .run (subpacketInstr t) s
      | .error e => .settled (s.catchStop p.via e)

/-- What a step takes next. -/
def fetch (s : State) : Fetched :=
  match s.activity with
  | .idle => fetchHost s
  | .chunks x => fetchChunk s x
  | .packet p => fetchElement s p

/-- A parse about to read the bytes `bs` as its one syntax element, in the payload `tone` if given. -/
def parseOf (s : State) (bs : List Byte) (tone : Option TonePart) : Parse :=
  { via := .decodePacket, rd := BitReader.start (bs ++ List.replicate 14 0), sh := Shadow.ofState s,
    left := 1, lastRank := 0, tone := tone }

/-- The tone payload a lone record is read in: type 8, channel 0, one record (log 9). -/
def lonePayload : TonePart := { type := 8, ch := .c0, start := 0, len := 112, left := 1 }

/-- The chunk place a tag is expected at (30_encoding.md R85). -/
def placeOfTag (tag : Nat) : ChunkAt :=
  if tag = tagFrma then .first else if tag = tagQdca then .second else .third

/-- A blob of zero bytes but for the tag `bs` at its place. -/
def blobOf (place : ChunkAt) (bs : List Byte) : List Byte :=
  match place with
  | .first => List.replicate 4 0 ++ bs ++ List.replicate 40 0
  | .second => List.replicate 16 0 ++ bs ++ List.replicate 28 0
  | .third => List.replicate 52 0 ++ bs

/-- The state in which the next step reads the encoding `w` of layer `l`: a command word as the host's
next access, a bitstream element or a chunk as the next element of a parse in progress (log 9). A chunk
stands in a CONFIGURE that has set VLC_READY (45_host_commands.md R232; log 7). -/
def placeWord (s : State) (l : Layer) (w : Nat) : State :=
  match l with
  | .command =>
    { s with activity := .idle, host := .access (.write .w32 0 (BitVec.ofNat 32 w)) :: s.host }
  | .subpacket => { s with activity := .packet (parseOf s (bytesOfWord .subpacket w) none) }
  | .toneRecord =>
    { s with activity := .packet (parseOf s (bytesOfWord .toneRecord w) (some lonePayload)) }
  | .chunk =>
    let x : ChunkParse :=
      { mode := .stream, blob := blobOf (placeOfTag w) (bytesOfWord .chunk w),
        place := placeOfTag w, record := qdcaRecord [] }
    { s with activity := .chunks x, vlcReady := true }

end Sys2Proof.Machine
end

