-- ==== Sys2Proof/Machine/Step.lean ====
section
/-!
DEFINITION. One step of the machine, and the state in which the next step runs a given word.
-/

namespace Sys2Proof.Machine

open Sys2Proof

/-- One step: the instruction the fetch finds, executed, or what the fetch settles by itself. -/
def step (s : State) : Host.Outcome State Fault Refusal :=
  match fetch s with
  | .run i s' => exec i s'
  | .settled o => o

/-- The state in which the very next step runs the opcode-table word `w` of `nbits` bits (logs 5, 9). -/
def State.withFetchWord (s : State) (nbits w : Nat) : State :=
  match layerOfTableWord nbits w with
  | none => s
  | some l => placeWord s l (valueOfTableWord l w)

end Sys2Proof.Machine
end

