-- ==== Sys2Proof/Machine/Assembler.lean ====
section
/-!
DEFINITION. The spec's textual forms as data and what they expand to: host programs (30_encoding.md
R83, R84), codewords (40_bitreader_vlc.md R127), and the packet notation with its encoder
(30_encoding.md R104, R105).
-/

namespace Sys2Proof.Machine

open Sys2Proof

/-- A line of a host program (30_encoding.md R83, R84). -/
inductive HostLine where
  | write (w : Width) (addr : BitVec 16) (v : Word)
  | read (w : Width) (addr : BitVec 16)
  | command (i : Instr) (operand : Option Word)
  | loadbuf (bytes : List Byte)
  | statusQuery
  | resultQuery
deriving DecidableEq, Repr

/-- LOADBUF's byte writes from INBUF byte `i` on (30_encoding.md R84). -/
def loadbufFrom (i : Nat) : List Byte → List HostEvent
  | [] => []
  | b :: bs =>
    .access (.write .w8 (BitVec.ofNat 16 (0x1000 + i)) (b.setWidth 32)) :: loadbufFrom (i + 1) bs

/-- The bus accesses of a line (30_encoding.md R84). -/
def HostLine.expand : HostLine → List HostEvent
  | .write w a v => [.access (.write w a v)]
  | .read w a => [.access (.read w a)]
  | .command i (some v) =>
    [.access (.write .w32 0x0004 v), .access (.write .w32 0x0000 (BitVec.ofNat 32 i.encodeWord))]
  | .command i none => [.access (.write .w32 0x0000 (BitVec.ofNat 32 i.encodeWord))]
  | .loadbuf bs => loadbufFrom 0 bs
  | .statusQuery => [.access (.read .w32 0x000C)]
  | .resultQuery => [.access (.read .w32 0x0008)]

/-- An unsigned value as `n` bits, the most significant first (00_scope.md R8). -/
def msbBits : Nat → Nat → List Bool
  | 0, _ => []
  | n + 1, v => decide (v / 2 ^ n % 2 = 1) :: msbBits n v

/-- The codeword of a symbol in a table (40_bitreader_vlc.md R127; 30_encoding.md R102); no bits for a
symbol the table has no entry for. -/
def codeword (t : VlcTable) (sym : Int) : List Bool :=
  match (vlcCodes t).find? fun c => c.sym = sym with
  | some c => msbBits c.len c.code
  | none => []

/-- A tone update record of the notation (30_encoding.md R105). -/
inductive RecordText where
  | add (band pos : Nat) (amp phase : Int) (dur : Nat)
  | refresh (band pos : Nat)
  | delete (band pos : Nat)
deriving DecidableEq, Repr

/-- A sub-packet of the notation (30_encoding.md R105). -/
inductive SubpacketText where
  | seed (v : Nat)
  | flags (v : Nat)
  | noise (type ch first : Nat) (deltas : List Int)
  | tone (type ch : Nat) (records : List RecordText)
deriving DecidableEq, Repr

/-- The bits of a record (30_encoding.md R100). -/
def RecordText.bits (p : Params) : RecordText → List Bool
  | .add band pos amp phase dur =>
    msbBits 2 0 ++ msbBits 5 band ++ msbBits 7 pos ++ codeword p.ampVlc amp
      ++ codeword p.phaseVlc phase ++ msbBits 4 dur
  | .refresh band pos => msbBits 2 1 ++ msbBits 5 band ++ msbBits 7 pos
  | .delete band pos => msbBits 2 2 ++ msbBits 5 band ++ msbBits 7 pos

/-- The ch field, absent in a mono stream (30_encoding.md R96). -/
def chBits (stereo : Bool) (ch : Nat) : List Bool := if stereo then msbBits 1 ch else []

/-- The codewords of the deltas of the bands from `b` on (30_encoding.md R97). -/
def deltaBits (p : Params) (b : Nat) : List Int → List Bool
  | [] => []
  | d :: ds => codeword (noiseTableOf p b) d ++ deltaBits p (b + 1) ds

/-- The noise payload (30_encoding.md R97). -/
def noiseBits (p : Params) (stereo : Bool) (ch first : Nat) (deltas : List Int) : List Bool :=
  chBits stereo ch ++ msbBits 5 first ++ msbBits 6 deltas.length ++ deltaBits p first deltas

/-- The tone payload (30_encoding.md R99). -/
def toneBits (p : Params) (stereo : Bool) (ch : Nat) (records : List RecordText) : List Bool :=
  chBits stereo ch ++ msbBits 6 records.length ++ records.flatMap (RecordText.bits p)

/-- A sub-packet of explicit length with its exact payload length (30_encoding.md R91, R105). -/
def explicitBits (type : Nat) (payload : List Bool) : List Bool :=
  msbBits 5 type ++ msbBits 16 payload.length ++ payload

/-- The bits of a sub-packet (30_encoding.md R91, R95, R97, R99). -/
def SubpacketText.bits (p : Params) (stereo : Bool) : SubpacketText → List Bool
  | .seed v => msbBits 5 0 ++ msbBits 32 v
  | .flags v => msbBits 5 1 ++ msbBits 8 v
  | .noise t ch first deltas => explicitBits t (noiseBits p stereo ch first deltas)
  | .tone t ch records => explicitBits t (toneBits p stereo ch records)

/-- The value of bits, the first the most significant. -/
def msbValue : List Bool → Nat
  | [] => 0
  | b :: bs => b.toNat * 2 ^ bs.length + msbValue bs

/-- `n` bytes of a bitstream, padded with zero bits. -/
def packBits : Nat → List Bool → List Byte
  | 0, _ => []
  | n + 1, bs =>
    BitVec.ofNat 8 (msbValue (bs.take 8 ++ List.replicate (8 - (bs.take 8).length) false))
      :: packBits n (bs.drop 8)

/-- The packet of `size` bytes a notation stands for (30_encoding.md R88 to R90, R105): the superframe
header, the sub-packets, zero padding, and the checksum. -/
def encodePacket (p : Params) (stereo : Bool) (size sfType : Nat) (subs : List SubpacketText) :
    List Byte :=
  let body := packBits (size - 2)
    (msbBits 8 sfType ++ msbBits 8 subs.length ++ subs.flatMap (SubpacketText.bits p stereo))
  let sum := body.foldl (fun acc b => acc + b.setWidth 16) (checksumOf p sfType)
  body ++ [BitVec.ofNat 8 (sum.toNat / 256), BitVec.ofNat 8 sum.toNat]

end Sys2Proof.Machine
end

