-- ==== Sys2Proof/Safety.lean ====
section
/-!
DEFINITION. The terms the statements are made in: what a safe step is, the invariants of the block
(10_state.md R21 to R30), what a bit reader holds, and what the packet notation of 30_encoding.md R105
does to the shadow state, written from 42_packet_parser.md without reference to any bit.
-/

namespace Sys2Proof.Machine

open Sys2Proof

/-- The host orders its accesses (70_reset_and_hazards.md R290): the next event is not a pair of
unordered accesses. -/
def State.ordered (s : State) : Bool :=
  match s.host with
  | .unordered _ _ :: _ => false
  | _ => true

/-- A safe step: it gives a next state, so nothing is refused (60_exceptions.md R276). -/
def safeStep (s : State) : Prop := ∃ t, step s = .next t

/-- The step of `s` is the reset event of 70_reset_and_hazards.md R280. -/
def State.resetNext (s : State) : Bool :=
  match s.activity, s.host with
  | .idle, .reset :: _ => true
  | _, _ => false

/-- An instruction issued by a write of CMD. -/
def isCommand (i : Instr) : Bool := decide (i.layer = .command)

/-! ### Invariants -/

/-- A record the extradata parser can return (41_extradata.md R141). -/
structure ExtraRec.Legal (r : ExtraRec) : Prop where
  channels : r.channels = 1 ∨ r.channels = 2
  frameMin : 4 ≤ r.frameSize.toNat
  frameMax : r.frameSize.toNat ≤ 8192
  spf : spfLegal r.packetSize.toNat = true

/-- The configuration of an instance has the legal values of 10_state.md R21 and the derived ones of
R22. -/
structure State.CfgLegal (s : State) : Prop where
  channels : s.cfg.channels = 1 ∨ s.cfg.channels = 2
  frameMin : 4 ≤ s.cfg.frameSize.toNat
  frameMax : s.cfg.frameSize.toNat ≤ 8192
  spf : spfLegal s.spf = true
  fftSize : s.fftN = 2 * s.spf
  fftOrder : 2 ^ s.fftL = s.fftN
  bands : s.cfg.bands = layoutOf s.par s.spf
  numBands : s.numBands = s.cfg.bands.length
  params : paramsValid s.par = true

/-- The mode whose command runs a frame decode (45_host_commands.md R231). -/
def Via.mode : Via → Mode
  | .readBuffer => .stream
  | .decodePacket => .codec

/-- The parameters passed the check made when the model was configured (40_bitreader_vlc.md R126), a
live instance is legally configured, and a command in progress stands where one can: a parse of
extradata stands past VLC_READY <- 1 of 45_host_commands.md R232 and, at a later place, past the length
check of 41_extradata.md R141 (DESIGN CHOICE, log 7). -/
structure ConfigInv (s : State) : Prop where
  params : paramsValid s.par = true
  live : s.live = true → s.CfgLegal
  chunks : ∀ x, s.activity = .chunks x → s.live = false ∧ s.vlcReady = true
    ∧ (x.place ≠ .first → 48 ≤ x.blob.length) ∧ (x.place = .third → x.record.Legal)
  packet : ∀ p, s.activity = .packet p → s.live = true ∧ s.mode = p.via.mode
  draining : s.adapter = .draining → s.mode = .stream

/-- The packet queue and the pending output (10_state.md R24, R25; 45_host_commands.md R236). -/
structure QueueInv (s : State) : Prop where
  depth : s.queueCount ≤ queueDepth
  sizes : ∀ q ∈ s.queue, q.bytes.length = s.cfg.frameSize.toNat
  seqs : s.queue.map Packet.seq
    = (List.range s.queueCount).map fun i => s.nextSeq - BitVec.ofNat 64 (s.queueCount - i)
  dead : s.live = false → s.queue = [] ∧ s.pending = []
  codec : s.mode = .codec → s.queue = [] ∧ s.pending = []
  bound : s.live = true → s.pendingCount < 2 * s.frameSamples
  reading : ∀ p, s.activity = .packet p → p.via = .readBuffer → s.pendingCount < s.frameSamples

/-- A tone record with the field ranges of 10_state.md R29, stored at the bin R29 gives it. The range of
`position` is the model's reading: R29 writes the field as u7, and the model stores the position R175
computes, below the band's width (log 11). -/
structure ToneLegal (s : State) (k : Nat) (t : Tone) : Prop where
  band : t.band < s.numBands
  position : t.position < (s.band t.band).width
  bin : k = (s.band t.band).base + t.position
  amplitude : t.amplitude ≤ 32767
  phase : t.phase < s.par.phaseSteps
  durationMin : 1 ≤ t.duration
  durationMax : t.duration ≤ 16

/-- The tone slots of a channel (10_state.md R29): one record per bin at most, each legal. -/
structure TonesLegal (s : State) (m : ToneMap) : Prop where
  wf : Assoc.wf m = true
  slots : ∀ kt ∈ m, ToneLegal s kt.1 kt.2

/-- The noise energies of a channel (10_state.md R30). -/
structure EnvLegal (p : Params) (env : List Int) : Prop where
  length : env.length = maxBands
  range : ∀ e ∈ env, (p.eMin : Int) ≤ e ∧ e ≤ (p.eMax : Int)

/-- One channel of a live instance (10_state.md R28 to R30). -/
structure ChanLegal (s : State) (c : Chan) : Prop where
  prev : c.prev.length = maxFftSize
  tones : TonesLegal s c.tones
  env : EnvLegal s.par c.env

/-- The shadow of one channel (10_state.md R41). -/
structure ShadowLegal (s : State) (c : ShadowChan) : Prop where
  tones : TonesLegal s c.tones
  env : EnvLegal s.par c.env

/-- The channels of a live instance, and the shadow of a parse in progress. -/
structure ChannelInv (s : State) : Prop where
  chan : s.live = true → ∀ c, ChanLegal s (s.chan c)
  mono : s.live = true → s.cfg.channels = 1 → s.chan1.sampleCount = 0
  shadow : ∀ p, s.activity = .packet p → ∀ c, ShadowLegal s (p.sh.chan c)

/-! ### The packet notation -/

/-- The reader holds the bits `bs` from BITPOS on (40_bitreader_vlc.md R120). -/
abbrev BitReader.holds (rd : BitReader) (bs : List Bool) : Prop :=
  ∀ i < bs.length, rd.bit (rd.pos + i) = (bs.getD i false).toNat

/-- The parse at bit offset `pos`. -/
def Parse.at (p : Parse) (pos : Nat) : Parse := { p with rd := { p.rd with pos := pos } }

/-- The parse expects a sub-packet (42_packet_parser.md R151). -/
abbrev Parse.expectsSubpacket (p : Parse) : Prop := p.tone = none ∧ 0 < p.left

/-- The symbol has a codeword in the table (40_bitreader_vlc.md R126). -/
def hasSymbol (t : VlcTable) (sym : Int) : Bool := t.any fun e => decide (e.len ≠ 0) && decide (e.sym = sym)

/-- The channel selector fits the stream (30_encoding.md R96): channel 1 exists in a stereo one only. -/
def chFits (s : State) (c : Ch) : Bool := decide (s.cfg.channels = 2) || decide (c = .c0)

/-- The noise energies after the deltas `ds` of the bands from `fb` on: energy plus delta, clamped,
and every other band as before (42_packet_parser.md R168). -/
def energiesAfter (p : Params) (fb : Nat) (ds : List Int) (env : List Int) : List Int :=
  env.mapIdx fun b e =>
    if fb ≤ b ∧ b < fb + ds.length then clamp (e + ds.getD (b - fb) 0) p.eMin p.eMax else e

/-- The deltas of the bands from `b` on all have codewords in their bands' tables. -/
def deltasCoded (p : Params) (b : Nat) : List Int → Bool
  | [] => true
  | d :: ds => vlcValid (noiseTableOf p b) && hasSymbol (noiseTableOf p b) d && deltasCoded p (b + 1) ds

/-- A noise sub-packet that fits its fields and its codes (30_encoding.md R97) and addresses legal
bands (42_packet_parser.md R168). -/
def noiseFits (s : State) (t fb : Nat) (ds : List Int) : Bool :=
  decide (fb < 32) && decide (ds.length < 64) && deltasCoded s.par fb ds
    && (ds.isEmpty
      || (decide (fb + ds.length ≤ s.numBands)
        && decide ((rangeOf s.par.noiseRanges t s.numBands).1 ≤ fb)
        && decide (fb + ds.length - 1 ≤ (rangeOf s.par.noiseRanges t s.numBands).2)))

/-- The tone an ADD record of a type-`t` payload stores in frame `f` (42_packet_parser.md R176). -/
def toneOf (s : State) (t band pos : Nat) (amp phase : Int) (dur : Nat) : Tone :=
  { band := band, position := pos * 2 ^ (t - 8), amplitude := amp.toNat,
    phase := (phase % (s.par.phaseSteps : Int)).toNat, duration := dur + 1,
    startFrame := s.frameIndex }

/-- A record that fits its fields and codes (30_encoding.md R100). -/
def RecordText.fits (p : Params) : RecordText → Bool
  | .add band pos amp phase dur =>
    slotFits band pos && decide (dur < 16) && hasSymbol p.ampVlc amp && hasSymbol p.phaseVlc phase
  | .refresh band pos => slotFits band pos
  | .delete band pos => slotFits band pos

/-- What a record of a type-`t` payload does to a channel's tones (42_packet_parser.md R176 to R178);
none where the record is malformed. -/
def RecordText.apply (s : State) (t : Nat) (ch : ShadowChan) : RecordText → Option ShadowChan
  | .add band pos amp phase dur =>
    let k := slotBin s t band pos
    if slotLegal s t band pos && decide (0 ≤ amp) then
      some { ch with
        tones := Assoc.put k (toneOf s t band pos amp phase dur) ch.tones
        touched := List.insert k ch.touched }
    else none
  | .refresh band pos =>
    let k := slotBin s t band pos
    match slotLegal s t band pos, Assoc.find k ch.tones with
    | true, some old =>
      some { ch with
        tones := Assoc.put k { old with startFrame := s.frameIndex } ch.tones
        touched := List.insert k ch.touched }
    | _, _ => none
  | .delete band pos =>
    let k := slotBin s t band pos
    match slotLegal s t band pos, Assoc.find k ch.tones with
    | true, some _ =>
      some { ch with
        tones := Assoc.erase k ch.tones
        touched := ch.touched.filter fun j => j ≠ k }
    | _, _ => none

/-- The records of a payload in order (42_packet_parser.md R175). -/
def applyRecords (s : State) (t : Nat) (ch : ShadowChan) : List RecordText → Option ShadowChan
  | [] => some ch
  | r :: rs =>
    match r.apply s t ch with
    | some ch => applyRecords s t ch rs
    | none => none

/-- The channel of a number. -/
def chOf (n : Nat) : Ch := if n = 1 then .c1 else .c0

/-- The type code of a sub-packet (30_encoding.md R93). -/
def SubpacketText.type : SubpacketText → Nat
  | .seed _ => 0
  | .flags _ => 1
  | .noise t _ _ _ => t
  | .tone t _ _ => t

/-- The noise sub-packets with their type codes (30_encoding.md R93). -/
def noiseInstrs : List (Instr × Nat) :=
  [(.spNoise2, 2), (.spNoise3, 3), (.spNoise4, 4), (.spNoise13, 13), (.spNoise14, 14),
    (.spNoise15, 15)]

/-- The tone sub-packets with their type codes (30_encoding.md R93). -/
def toneInstrs : List (Instr × Nat) :=
  [(.spTone8, 8), (.spTone9, 9), (.spTone10, 10), (.spTone11, 11), (.spTone12, 12)]

/-- The noise types (30_encoding.md R93). -/
def isNoiseType (t : Nat) : Bool := t == 2 || t == 3 || t == 4 || t == 13 || t == 14 || t == 15

/-- The tone types (30_encoding.md R93). -/
def isToneType (t : Nat) : Bool := decide (8 ≤ t) && decide (t ≤ 12)

/-- A sub-packet that fits its fields and codes. -/
def SubpacketText.fits (s : State) : SubpacketText → Bool
  | .seed v => decide (v < 2 ^ 32)
  | .flags v => decide (v < 256)
  | .noise t ch fb ds =>
    isNoiseType t && decide (ch < 2) && chFits s (chOf ch) && noiseFits s t fb ds
      && decide ((noiseBits s.par (s.cfg.channels = 2) ch fb ds).length < 65536)
  | .tone t ch recs =>
    isToneType t && decide (ch < 2) && chFits s (chOf ch) && decide (recs.length < 64)
      && recs.all (RecordText.fits s.par) && vlcValid s.par.ampVlc && vlcValid s.par.phaseVlc
      && decide ((toneBits s.par (s.cfg.channels = 2) ch recs).length < 65536)

/-- What a sub-packet does to the shadow state (42_packet_parser.md R160 to R178); none where a record
is malformed. -/
def SubpacketText.apply (s : State) (sh : Shadow) : SubpacketText → Option Shadow
  | .seed v => some { sh with seed := BitVec.ofNat 32 v }
  | .flags v => some { sh with flags := BitVec.ofNat 8 v }
  | .noise _ ch fb ds =>
    let c := sh.chan (chOf ch)
    some (sh.setChan (chOf ch) { c with env := energiesAfter s.par fb ds c.env })
  | .tone t ch recs =>
    match applyRecords s t (sh.chan (chOf ch)) recs with
    | some c => some (sh.setChan (chOf ch) c)
    | none => none

/-- The sub-packets of a packet in order, each class no lower than the one before
(42_packet_parser.md R151, R152); none where the packet is malformed. -/
def applySubpackets (s : State) (rank : Nat) (sh : Shadow) : List SubpacketText → Option Shadow
  | [] => some sh
  | q :: qs =>
    if typeRank q.type < rank then none
    else match q.apply s sh with
      | some sh => applySubpackets s (typeRank q.type) sh qs
      | none => none

/-- The result of a frame decode of `packet` (44_synthesis.md R220): `r` is the shadow state of a parse
that succeeds, or the error that ends it. -/
def FrameResult.of (s : State) (via : Via) (packet : List Byte) (r : FrameResult) : Prop :=
  (∃ p, parsePacket s via packet = .ok p ∧ r = .good p.sh)
    ∨ ∃ e pos, parsePacket s via packet = .error (.raised e pos) ∧ r = .bad e pos

/-! ### Tables of the spec the statements read -/

/-- The readable registers and their values, in the order of the register map (10_state.md R46). -/
def State.registerMap (s : State) : List (BitVec 16 × Word) :=
  [(0x000, 0), (0x004, s.arg), (0x008, s.result), (0x00C, s.statusWord), (0x010, s.lastPktErrWord),
    (0x014, s.badFrames), (0x018, s.errBitpos), (0x01C, BitVec.ofNat 32 s.queue.length),
    (0x020, BitVec.ofNat 32 s.pending.length), (0x024, s.frameIndex.extractLsb' 0 32),
    (0x028, s.frameIndex.extractLsb' 32 32), (0x02C, s.chan0.sampleCount.extractLsb' 0 32),
    (0x030, s.chan0.sampleCount.extractLsb' 32 32), (0x034, s.chan1.sampleCount.extractLsb' 0 32),
    (0x038, s.chan1.sampleCount.extractLsb' 32 32), (0x040, s.cfg.version),
    (0x044, s.cfg.channels), (0x048, s.cfg.sampleRate), (0x04C, s.cfg.bitrate),
    (0x050, s.cfg.blockSize), (0x054, s.cfg.frameSize), (0x058, s.cfg.packetSize),
    (0x05C, s.cfg.fftOrder), (0x060, s.cfg.fftSize), (0x064, s.cfg.numBands), (0x068, s.seed),
    (0x06C, s.flags.setWidth 32)]

/-- A reserved HOST address (10_state.md R46, 20_memory.md R60). -/
def reservedAddr (a : Nat) : Bool :=
  (decide (a < 0x1000) && (decide (a / 4 = 0x00F) || decide (0x070 ≤ a)))
    || (decide (0x3000 ≤ a) && decide (a < 0x4000)) || decide (0x5000 ≤ a)

/-- A register address (10_state.md R46). -/
def registerAddr (a : Nat) : Bool := decide (a < 0x070) && decide (a / 4 ≠ 0x00F)

/-- An INBUF address (20_memory.md R61). -/
def inbufAddr (a : Nat) : Bool := decide (0x1000 ≤ a) && decide (a < 0x3000)

/-- An OUTBUF address (20_memory.md R62). -/
def outbufAddr (a : Nat) : Bool := decide (0x4000 ≤ a) && decide (a < 0x5000)

/-- An access the bus refuses (20_memory.md R64). -/
def refusedByBus : Access → Bool
  | .read w a =>
    (registerAddr a.toNat && (decide (w ≠ .w32) || decide (a.toNat % 4 ≠ 0)))
      || (inbufAddr a.toNat && decide (a.toNat % w.bytes ≠ 0))
      || (outbufAddr a.toNat && (decide (w = .w8) || decide (a.toNat % w.bytes ≠ 0)))
  | .write w a _ =>
    (registerAddr a.toNat && (decide (w ≠ .w32) || decide (a.toNat % 4 ≠ 0)))
      || (inbufAddr a.toNat && decide (a.toNat % w.bytes ≠ 0))
      || outbufAddr a.toNat

/-- The validity matrix of 45_host_commands.md R231, with R230's order of checks: the code a command
fails with before its own rule runs, or gives at once where the matrix says so. -/
def commandError (i : Instr) (s : State) : Option Err :=
  if s.adapter = .unconfigured ∨ s.adapter = .closed then
    if i = .configureStream ∨ i = .configureCodec then none else some .kClosed
  else if i = .configureStream ∨ i = .configureCodec then some .kBadCommand
  else if s.mode = .codec ∧ (i = .queuePacket ∨ i = .finish ∨ i = .readBuffer) then some .kBadCommand
  else if s.mode = .stream ∧ i = .decodePacket then some .kBadCommand
  else if s.adapter = .draining ∧ (i = .queuePacket ∨ i = .finish) then some .kClosed
  else none

/-- A channel at construction (10_state.md R47, column "after successful CONFIGURE"). -/
def constructedChan (p : Params) : Chan :=
  { sampleCount := 0, prev := List.replicate maxFftSize zero32, tones := [],
    env := List.replicate maxBands (clamp 0 p.eMin p.eMax), rng := 0, rngPos := 0 }

/-- The state after a successful CONFIGURE of mode `md` with the record `r` (10_state.md R21, R22, R47;
45_host_commands.md R232). -/
def State.constructed (s : State) (md : Mode) (r : ExtraRec) : State :=
  { s with
    cfg := { version := r.version, channels := r.channels, sampleRate := r.sampleRate,
             bitrate := r.bitrate, blockSize := r.blockSize, frameSize := r.frameSize,
             packetSize := r.packetSize, fftSize := 2 * r.packetSize,
             fftOrder := if r.packetSize = 256 then 9 else if r.packetSize = 512 then 10 else 11,
             numBands := BitVec.ofNat 32 (layoutOf s.par r.packetSize.toNat).length,
             bands := layoutOf s.par r.packetSize.toNat }
    activity := .idle, adapter := .opened, mode := md, queue := [], nextSeq := 0, pending := [],
    frameIndex := 0, chan0 := constructedChan s.par, chan1 := constructedChan s.par,
    seed := s.par.seedInit, flags := 0, lastPktErr := .kOk, errBitpos := 0, badFrames := 0,
    err := .kOk, result := 0 }

/-- What follows the QDCA chunk is no QDCP chunk, or one of a legal size (41_extradata.md R141;
30_encoding.md R87). -/
def qdcpFits (rest : List Byte) : Bool :=
  decide (rest.length < 8) || decide (be32 rest 4 ≠ tagQdcp)
    || (decide (8 ≤ be32 rest 0) && decide (be32 rest 0 ≤ rest.length))

/-- A blob the extradata parser accepts, with the record it returns (41_extradata.md R141, R144). -/
def blobOfRecord (blob : List Byte) (r : ExtraRec) : Prop :=
  ∃ rest, blob = r.serialise ++ rest ∧ r.Legal ∧ qdcpFits rest = true

/-- Everything a frame decode reads agrees (44_synthesis.md R225). -/
structure SameDecoder (s t : State) : Prop where
  par : s.par = t.par
  cfg : s.cfg = t.cfg
  frameIndex : s.frameIndex = t.frameIndex
  seed : s.seed = t.seed
  flags : s.flags = t.flags
  chan0 : s.chan0 = t.chan0
  chan1 : s.chan1 = t.chan1

end Sys2Proof.Machine
end

