-- ==== Sys2Proof/Certificates/Slice0/Obligations.lean ====
section
/-!
DEFINITION. The statements for the provers. Each docstring names the rule of spec/ it formalises, or
says that it rests on a choice of the model (log n is notes/assumptions/n.md).
-/

open Sys2Proof Sys2Proof.Machine

/-! ### Encodings -/

/-- Words written out bit by bit from 30_encoding.md R81, R86, R93 and R100 decode to their
instructions: DESTROY and CONFIGURE.CODEC in the bus's lanes, type 13 as 01101 in the top bits of a
byte, REFRESH of band 3, pos 5 as 01 00011 0000101, and the tag QDCA. -/
def Obligations.DecodeSampleWords : Prop :=
  decodeBytes .command [0x09, 0x00, 0x00, 0x00] = .ok .destroy
    ∧ decodeBytes .command [0x01, 0x01, 0x00, 0x00] = .ok .configureCodec
    ∧ decodeBytes .subpacket [0x68] = .ok .spNoise13
    ∧ decodeBytes .toneRecord [0x46, 0x14] = .ok (.toneRefresh 3 5)
    ∧ decodeBytes .chunk [0x51, 0x44, 0x43, 0x41] = .ok .chunkQdca

/-- Decode and encode agree (30_encoding.md R80 to R101): the bytes of every well-formed instruction,
whatever follows them, decode to it. -/
def Obligations.EncodeDecodeRoundTrip : Prop :=
  ∀ (i : Instr) (rest : List Byte), i.wf = true → decodeBytes i.layer (encode i ++ rest) = .ok i

/-- A value that decodes is the encoding of the instruction it decodes to, and that instruction is
well formed: no two words of one encoding mean one instruction. -/
def Obligations.DecodedWordReencodes : Prop :=
  ∀ (l : Layer) (w : Nat) (i : Instr), decodeWord l w = .ok i →
    i.layer = l ∧ i.encodeWord = w ∧ i.wf = true

/-- 30_encoding.md R82: which command words are illegal, and that a write of one to CMD changes
STATUS.ERR and RESULT and nothing else. -/
def Obligations.IllegalCommandWords : Prop :=
  ∀ (s : State) (h : List HostEvent) (w : Word), s.activity = .idle →
    s.host = .access (.write .w32 0 w) :: h →
    (w.extractLsb' 9 23 ≠ 0 ∨ w.extractLsb' 0 8 = 0 ∨ 0x09 < (w.extractLsb' 0 8).toNat
      ∨ (w.extractLsb' 8 1 = 1 ∧ w.extractLsb' 0 8 ≠ 1)) →
    step s = .next { s with host := h, err := .kBadCommand, result := 0 }

/-! ### The step -/

/-- A step runs the decoded command: a write of a word that decodes to `i` runs `i`, with the access
taken from the host's stream and nothing else changed. The stream in State is the model's own (log 5). -/
def Obligations.StepRunsDecodedCommand : Prop :=
  ∀ (s : State) (h : List HostEvent) (w : Word) (i : Instr), s.activity = .idle →
    s.host = .access (.write .w32 0 w) :: h → decodeCommand w.toNat = .ok i →
    step s = exec i { s with host := h }

/-- A step inside a command runs the decoded element: a sub-packet where the parse expects one, a tone
record inside a tone payload, a chunk at the parser's place. Stepping inside a command is the model's
own (log 7). -/
def Obligations.StepRunsDecodedElement : Prop :=
  (∀ (s : State) (p : Parse) (i : Instr), s.activity = .packet p → p.expectsSubpacket →
      p.rd.pos + 5 ≤ p.rd.limit → decodeSubpacket (p.rd.bits p.rd.pos 5) = .ok i → step s = exec i s)
    ∧ (∀ (s : State) (p : Parse) (tp : TonePart) (i : Instr), s.activity = .packet p →
      p.tone = some tp → 0 < tp.left → p.rd.pos + 14 ≤ p.rd.limit →
      decodeTone (p.rd.bits p.rd.pos 2) (p.rd.bits (p.rd.pos + 2) 5) (p.rd.bits (p.rd.pos + 7) 7)
        = .ok i → step s = exec i s)
    ∧ ∀ (s : State) (x : ChunkParse) (i : Instr), s.activity = .chunks x →
      ((x.place = .first ∧ decodeChunk (be32 x.blob 4) = .ok i)
        ∨ (x.place = .second ∧ decodeChunk (be32 x.blob 16) = .ok i)
        ∨ (x.place = .third ∧ 56 ≤ x.blob.length ∧ decodeChunk (be32 x.blob 52) = .ok i)) →
      step s = exec i s

/-- The model stops nowhere a program can go: with parameters that meet the constraints of
00_scope.md R7 and a host that orders its accesses (70_reset_and_hazards.md R290), every step from
every state gives a next state. -/
def Obligations.StepNeverRefuses : Prop :=
  ∀ s : State, paramsValid s.par = true → s.ordered = true → safeStep s

/-- The reset event gives every register the value of the column "reset" of 10_state.md R47
(70_reset_and_hazards.md R280), whatever the state was. -/
def Obligations.ResetEvent : Prop :=
  ∀ (s : State) (h : List HostEvent), s.activity = .idle → s.host = .reset :: h →
    ∃ t, step s = .next t ∧ t.adapter = .unconfigured ∧ t.mode = .stream ∧ t.cfg = Cfg.reset
      ∧ t.queue = [] ∧ t.nextSeq = 0 ∧ t.pending = [] ∧ t.frameIndex = 0 ∧ t.seed = 0 ∧ t.flags = 0
      ∧ t.lastPktErr = .kOk ∧ t.errBitpos = 0 ∧ t.badFrames = 0 ∧ t.statusWord = 0
      ∧ t.busErr = false ∧ t.vlcReady = false ∧ t.arg = 0 ∧ t.result = 0
      ∧ (∀ c, t.chan c = constructedChan s.par) ∧ ∀ ov ∈ t.registerMap, ov.2 = 0

/-! ### The host bus -/

/-- 20_memory.md R64: a refused access sets STATUS.BUS_ERR, a refused write changes nothing else and a
refused read returns 0; an access that is not refused leaves STATUS.BUS_ERR as it is. Which range an
access is to goes by its first byte, the model's choice for one that runs into another (log 28). -/
def Obligations.RefusedAccesses : Prop :=
  ∀ (s : State) (h : List HostEvent) (a : Access), s.activity = .idle → s.host = .access a :: h →
    (refusedByBus a = true →
      ∃ d, step s = .next { s with host := h, busErr := true, busData := d }
        ∧ ((∃ w addr, a = .read w addr) → d = 0)
        ∧ ((∃ w addr v, a = .write w addr v) → d = s.busData))
    ∧ (refusedByBus a = false → (∀ v, a ≠ .write .w32 0 v) →
      ∃ t, step s = .next t ∧ t.busErr = s.busErr)

/-- 20_memory.md R63: reads of reserved addresses and of CMD give 0, writes to reserved addresses and
to read-only registers change nothing, and none of them sets STATUS.BUS_ERR. That this holds at any
width and alignment, also of an access that runs into another range, is the model's (logs 10, 28). -/
def Obligations.ReservedAddresses : Prop :=
  ∀ (s : State) (h : List HostEvent), s.activity = .idle →
    (∀ w a, s.host = .access (.read w a) :: h →
      reservedAddr a.toNat = true ∨ (w = .w32 ∧ a = 0) →
      step s = .next { s with host := h, busData := 0 })
    ∧ ∀ w a v, s.host = .access (.write w a v) :: h →
      reservedAddr a.toNat = true
        ∨ (w = .w32 ∧ registerAddr a.toNat = true ∧ a.toNat % 4 = 0 ∧ a ≠ 0 ∧ a ≠ 4) →
      step s = .next { s with host := h }

/-- 10_state.md R46: a 32-bit read of each register of the map gives that register, and a 32-bit write
of ARG stores it; neither has another effect (20_memory.md R68). -/
def Obligations.RegisterMap : Prop :=
  ∀ (s : State) (h : List HostEvent), s.activity = .idle →
    (∀ a v, s.host = .access (.read .w32 a) :: h → (a, v) ∈ s.registerMap →
      step s = .next { s with host := h, busData := v })
    ∧ ∀ v, s.host = .access (.write .w32 0x004 v) :: h → step s = .next { s with host := h, arg := v }

/-- 20_memory.md R65: an INBUF write stores its byte lanes, little-endian, and no other byte; a read of
INBUF or OUTBUF returns the bytes in the same lanes, the lanes above the width zero (log 22). -/
def Obligations.BufferByteLanes : Prop :=
  ∀ (s : State) (h : List HostEvent) (w : Width) (a : BitVec 16), s.activity = .idle →
    (∀ v, s.host = .access (.write w a v) :: h → inbufAddr a.toNat = true → a.toNat % w.bytes = 0 →
      ∃ t, step s = .next t ∧ t = { s with host := h, mem := t.mem }
        ∧ (∀ i < w.bytes, t.loadByte (a.toNat + i) = v.extractLsb' (8 * i) 8)
        ∧ ∀ b, b < a.toNat ∨ a.toNat + w.bytes ≤ b → t.loadByte b = s.loadByte b)
    ∧ (s.host = .access (.read w a) :: h → a.toNat % w.bytes = 0 →
      inbufAddr a.toNat = true ∨ (outbufAddr a.toNat = true ∧ w ≠ .w8) →
      ∃ d, step s = .next { s with host := h, busData := d }
        ∧ ∀ i < 4, d.extractLsb' (8 * i) 8 = if i < w.bytes then s.loadByte (a.toNat + i) else 0)

/-- 10_state.md R34: the fields of STATUS. -/
def Obligations.StatusFields : Prop :=
  ∀ s : State, (s.statusWord.extractLsb' 0 4).toNat = s.err.code
    ∧ (s.statusWord.extractLsb' 4 2).toNat = s.adapter.code
    ∧ (s.statusWord.getLsbD 6 = true ↔ s.mode = .codec)
    ∧ (s.statusWord.getLsbD 7 = true ↔ s.adapter = .draining ∧ s.queue = [] ∧ s.pending = [])
    ∧ (s.statusWord.getLsbD 8 = true
      ↔ (s.adapter = .opened ∨ s.adapter = .draining) ∧ s.cfg.channels = 2)
    ∧ s.statusWord.getLsbD 9 = s.vlcReady ∧ s.statusWord.getLsbD 10 = s.busErr
    ∧ s.statusWord.extractLsb' 11 21 = 0

/-! ### Host commands -/

/-- 45_host_commands.md R230, R231: the checks every command makes before its own rule, with the code
of the first that fails; STATUS.ERR and RESULT change and nothing else. -/
def Obligations.CommandChecks : Prop :=
  ∀ (i : Instr) (s : State) (e : Err), isCommand i = true → s.activity = .idle →
    commandError i s = some e → exec i s = .next { s with err := e, result := 0 }

/-- 45_host_commands.md R232 with 10_state.md R47: a CONFIGURE of either mode, on no live instance and
with a blob the extradata parser accepts, constructs the instance. -/
def Obligations.ConfigureConstructs : Prop :=
  ∀ (s : State) (i : Instr) (md : Mode) (r : ExtraRec),
    (i = .configureStream ∧ md = .stream) ∨ (i = .configureCodec ∧ md = .codec) →
    s.activity = .idle → s.adapter = .unconfigured ∨ s.adapter = .closed → s.arg.toNat ≤ 8192 →
    blobOfRecord (s.inbuf s.arg.toNat) r →
    exec i s = .next ({ s with vlcReady := true }.constructed md r)

/-- 45_host_commands.md R232: with a blob longer than INBUF, or one the extradata parser does not
accept, CONFIGURE fails with kBadExtradata; only VLC_READY, STATUS.ERR and RESULT change. -/
def Obligations.ConfigureFails : Prop :=
  ∀ (s : State) (i : Instr), i = .configureStream ∨ i = .configureCodec → s.activity = .idle →
    s.adapter = .unconfigured ∨ s.adapter = .closed →
    8192 < s.arg.toNat ∨ (¬∃ r, blobOfRecord (s.inbuf s.arg.toNat) r) →
    exec i s = .next { s with vlcReady := true, err := .kBadExtradata, result := 0 }

/-- 41_extradata.md R144: a parsed record serialises to the first 48 bytes of its blob. -/
def Obligations.ExtradataRoundTrip : Prop :=
  ∀ (b : List Byte) (r : ExtraRec), extradataParse b = .ok r →
    r.serialise = b.take 48 ∧ (b.length = 48 → r.serialise = b)

/-- 45_host_commands.md R233: in STREAM mode kClosed while draining, then kMalformed for a wrong length,
then kQueueFull, else the packet's bytes and its sequence index are appended to the queue. -/
def Obligations.QueuePacketResult : Prop :=
  ∀ s : State, s.activity = .idle → s.adapter = .opened ∨ s.adapter = .draining → s.mode = .stream →
    exec .queuePacket s = .next
      (if s.adapter = .draining then { s with err := .kClosed, result := 0 }
       else if s.arg ≠ s.cfg.frameSize then { s with err := .kMalformed, result := 0 }
       else if s.queue.length = 4 then { s with err := .kQueueFull, result := 0 }
       else { s with
         queue := s.queue ++ [{ bytes := s.loadBytes 0x1000 s.arg.toNat, seq := s.nextSeq }]
         nextSeq := s.nextSeq + 1, err := .kOk, result := 0 })

/-- 45_host_commands.md R238, R239, and R237: the observers change STATUS.ERR and RESULT only. On a live
instance they answer the channel count, the rate and what STATUS.EOD shows; without one they give
kClosed. -/
def Obligations.ObserverResults : Prop :=
  ∀ s : State, s.activity = .idle →
    (s.adapter = .opened ∨ s.adapter = .draining →
      exec .isStereo s = .next { s with err := .kOk, result := if s.cfg.channels = 2 then 1 else 0 }
      ∧ exec .getRate s = .next { s with err := .kOk, result := s.cfg.sampleRate }
      ∧ exec .endOfData s
        = .next { s with err := .kOk, result := if s.statusWord.getLsbD 7 then 1 else 0 }
      ∧ (s.statusWord.getLsbD 7 = true ↔ s.adapter = .draining ∧ s.queue = [] ∧ s.pending = []))
    ∧ (s.adapter = .unconfigured ∨ s.adapter = .closed →
      ∀ i ∈ [Instr.isStereo, .getRate, .endOfData],
        exec i s = .next { s with err := .kClosed, result := 0 })

/-- 45_host_commands.md R234: FINISH starts the drain and keeps the queued packets and the pending
samples, so with none of either END_OF_DATA is true at once; a FINISH while draining is kClosed. -/
def Obligations.FinishResult : Prop :=
  ∀ s : State, s.activity = .idle → s.mode = .stream →
    (s.adapter = .opened →
      exec .finish s = .next { s with adapter := .draining, err := .kOk, result := 0 }
      ∧ (s.queue = [] → s.pending = [] → ∀ t, exec .finish s = .next t →
        exec .endOfData t = .next { t with result := 1 }))
    ∧ (s.adapter = .draining → exec .finish s = .next { s with err := .kClosed, result := 0 })

/-- 45_host_commands.md R241: DESTROY on a live instance empties the queues and closes it; every other
register keeps its value. -/
def Obligations.DestroyResult : Prop :=
  ∀ s : State, s.activity = .idle → s.adapter = .opened ∨ s.adapter = .draining →
    exec .destroy s = .next
      { s with queue := [], pending := [], adapter := .closed, err := .kOk, result := 0 }

/-- 45_host_commands.md R235 where R236 decodes nothing: the oldest samples go to OUTBUF and leave the
pending output; every byte outside OUTBUF[0 .. n-1] and every other register is unchanged. -/
def Obligations.ReadBufferCopies : Prop :=
  ∀ (s : State) (n : Nat), s.activity = .idle → s.adapter = .opened ∨ s.adapter = .draining →
    s.mode = .stream → s.frameSamples ≤ s.pending.length ∨ s.queue = [] →
    n = min (min s.arg.toNat s.pending.length) 2048 →
    ∃ t, exec .readBuffer s = .next t
      ∧ t = { s with mem := t.mem, pending := s.pending.drop n, err := .kOk,
                     result := BitVec.ofNat 32 n }
      ∧ (∀ i < n, t.outSample i = s.pending.getD i 0)
      ∧ ∀ a, a < 0x4000 ∨ 0x4000 + 2 * n ≤ a → t.loadByte a = s.loadByte a

/-- 45_host_commands.md R235, R236: with fewer pending samples than a frame has, READ_BUFFER decodes
the oldest packet, appends the frame's samples, and copies; the frame decode `r` is good or bad. -/
def Obligations.ReadBufferDecodes : Prop :=
  ∀ (s : State) (q : Packet) (qs : List Packet), s.activity = .idle →
    s.adapter = .opened ∨ s.adapter = .draining → s.mode = .stream →
    s.pending.length < s.frameSamples → s.queue = q :: qs → paramsValid s.par = true →
    ∃ r f out po n t, FrameResult.of { s with queue := qs } .readBuffer q.bytes r
      ∧ { s with queue := qs }.endFrame r = (f, out) ∧ po = s.pending ++ out
      ∧ n = min (min s.arg.toNat po.length) 2048
      ∧ exec .readBuffer s = .next t
      ∧ t = { f with mem := t.mem, pending := po.drop n, err := .kOk, result := BitVec.ofNat 32 n }
      ∧ (∀ i < n, t.outSample i = po.getD i 0)
      ∧ ∀ a, a < 0x4000 ∨ 0x4000 + 2 * n ≤ a → t.loadByte a = s.loadByte a

/-- 45_host_commands.md R240 in CODEC mode: kMalformed for a wrong length; else one frame decode of
INBUF, good or bad, whose samples go to OUTBUF[0 .. spf x CH - 1]; no other byte changes. -/
def Obligations.DecodePacketDecodes : Prop :=
  ∀ s : State, s.activity = .idle → s.adapter = .opened ∨ s.adapter = .draining → s.mode = .codec →
    (s.arg ≠ s.cfg.frameSize →
      exec .decodePacket s = .next { s with err := .kMalformed, result := 0 })
    ∧ (s.arg = s.cfg.frameSize → paramsValid s.par = true → s.channelCount ≤ 2 →
      ∃ r f out t, FrameResult.of s .decodePacket (s.loadBytes 0x1000 s.arg.toNat) r
        ∧ s.endFrame r = (f, out) ∧ exec .decodePacket s = .next t
        ∧ t = { f with mem := t.mem, err := .kOk,
                       result := BitVec.ofNat 32 (s.spf * s.channelCount) }
        ∧ (∀ i < s.spf * s.channelCount, t.outSample i = out.getD i 0)
        ∧ ∀ a, a < 0x4000 ∨ 0x4000 + 2 * (s.spf * s.channelCount) ≤ a → t.loadByte a = s.loadByte a)

/-- 45_host_commands.md R235, R236 and 44_synthesis.md R224, the bookkeeping behind R244: a READ_BUFFER
moves samples and loses none, a queued packet counting as its frame's samples; one that asks for
samples and gets none had none left. -/
def Obligations.ReadBufferConservesSamples : Prop :=
  ∀ s t : State, s.activity = .idle → s.live = true → s.mode = .stream → s.CfgLegal →
    exec .readBuffer s = .next t →
    t.result.toNat + t.pending.length + s.frameSamples * t.queue.length
        = s.pending.length + s.frameSamples * s.queue.length
      ∧ (0 < s.arg.toNat → t.result = 0 → s.pending = [] ∧ s.queue = [])

/-- 45_host_commands.md R243: from the same construction state and packet, DECODE_PACKET in CODEC mode
and READ_BUFFER in STREAM mode deliver the same samples and leave the same decoder. -/
def Obligations.ModeEquivalence : Prop :=
  ∀ (s u : State) (q : Packet) (qs : List Packet), s.activity = .idle → u.activity = .idle →
    s.live = true → u.live = true → s.mode = .stream → u.mode = .codec → s.CfgLegal →
    SameDecoder s u → s.queue = q :: qs → s.pending = [] → s.frameSamples ≤ s.arg.toNat →
    u.arg = u.cfg.frameSize → u.loadBytes 0x1000 u.arg.toNat = q.bytes →
    ∃ t v, exec .readBuffer s = .next t ∧ exec .decodePacket u = .next v ∧ SameDecoder t v
      ∧ t.result = v.result ∧ t.pending = [] ∧ t.lastPktErr = v.lastPktErr
      ∧ t.errBitpos = v.errBitpos ∧ ∀ i < s.frameSamples, t.outSample i = v.outSample i

/-! ### The end of a frame decode, and the recovery from a packet error -/

/-- 43_spectral.md R190 to R193 and 44_synthesis.md R220 for a packet that parses: the shadow state is
committed, the tones of the stream's channels age with their TOUCHED bits, and the counters and
error registers move as R220 says. Nothing else changes outside what the synthesis of the stream's
channels writes (R219: PREV, RNG, RNG_POS and the work buffers X and A), which this statement leaves to
SpectrumBuildBins, SynthOutput and ChannelsAreIndependent. -/
def Obligations.GoodFrameCommits : Prop :=
  ∀ (s t : State) (sh : Shadow) (out : List Sample), s.endFrame (.good sh) = (t, out) →
    t = { s with seed := sh.seed, flags := sh.flags, lastPktErr := .kOk, errBitpos := 0,
                 frameIndex := s.frameIndex + 1, chan0 := t.chan0, chan1 := t.chan1, work := t.work }
    ∧ ∀ c, (t.chan c).env = (sh.chan c).env
      ∧ (c.index < s.channelCount →
        (t.chan c).tones = ageTones s.par s.frameIndex (sh.chan c).touched (sh.chan c).tones
        ∧ (t.chan c).sampleCount = (s.chan c).sampleCount + BitVec.ofNat 64 s.spf)
      ∧ (s.channelCount ≤ c.index →
        t.chan c = { s.chan c with env := (sh.chan c).env, tones := (sh.chan c).tones })

/-- 60_exceptions.md R262, the recovery from a packet error: no update of the packet takes effect, the
tones age, every channel emits its bad-frame output (44_synthesis.md R221), the clock advances, and
the error registers record the error; no other register changes. -/
def Obligations.PacketErrorRecovery : Prop :=
  ∀ (s t : State) (e : Err) (pos : Nat) (out : List Sample), s.channelCount ≤ 2 →
    s.endFrame (.bad e pos) = (t, out) →
    t = { s with lastPktErr := e, errBitpos := BitVec.ofNat 32 pos, badFrames := s.badFrames + 1,
                 frameIndex := s.frameIndex + 1, chan0 := t.chan0, chan1 := t.chan1 }
    ∧ (∀ c, (c.index < s.channelCount →
        t.chan c = { s.chan c with
          tones := ageTones s.par s.frameIndex [] (s.chan c).tones
          sampleCount := (s.chan c).sampleCount + BitVec.ofNat 64 s.spf
          prev := List.replicate s.fftN 0 ++ (s.chan c).prev.drop s.fftN })
      ∧ (s.channelCount ≤ c.index → t.chan c = s.chan c))
    ∧ (s.par.badFrameOla = .mute → out = List.replicate (s.spf * s.channelCount) 0)
    ∧ (s.par.badFrameOla = .continueTail → ∀ c, c.index < s.channelCount → ∀ n < s.spf,
        s.spf + n < (s.chan c).prev.length →
        out.getD (s.channelCount * n + c.index) 0 = pcm16 ((s.chan c).prev.getD (s.spf + n) 0))

/-- 60_exceptions.md R261: a packet error never reaches STATUS.ERR; the command it is recovered in
succeeds, and a DECODE_PACKET still returns spf x CH samples (45_host_commands.md R240). -/
def Obligations.PacketErrorSucceeds : Prop :=
  ∀ (s : State) (via : Via) (e : Err) (pos : Nat),
    (s.takePacketError via e pos).err = .kOk ∧ (s.takePacketError via e pos).lastPktErr = e
      ∧ (s.takePacketError via e pos).activity = .idle
      ∧ (s.takePacketError via e pos).frameIndex = s.frameIndex + 1
      ∧ (s.takePacketError .decodePacket e pos).result
        = BitVec.ofNat 32 (s.spf * s.channelCount)

/-- 44_synthesis.md R219, R220, R222: each channel's samples, PREV and noise generator are those of its
synthesis from the state the parse left, whatever the other channel's synthesis did, and the frame
interleaves the channels' samples. -/
def Obligations.ChannelsAreIndependent : Prop :=
  ∀ (s t : State) (r : FrameResult) (out : List Sample), s.endFrame r = (t, out) →
    out = interleave s.spf (s.channels.map fun c => (r.synth (s.settleParse r) c).2)
      ∧ ∀ c ∈ s.channels,
        (t.chan c).prev = ((r.synth (s.settleParse r) c).1.chan c).prev
        ∧ (t.chan c).rng = ((r.synth (s.settleParse r) c).1.chan c).rng
        ∧ (t.chan c).rngPos = ((r.synth (s.settleParse r) c).1.chan c).rngPos

/-- 44_synthesis.md R222, R224: out[CH x n + c] = pcm[c][n], and a frame has spf x CH samples. -/
def Obligations.InterleaveOrder : Prop :=
  ∀ (spf : Nat) (pcm : List (List Sample)), (interleave spf pcm).length = spf * pcm.length
    ∧ ∀ n < spf, ∀ c < pcm.length,
      (interleave spf pcm)[pcm.length * n + c]? = some ((pcm.getD c []).getD n 0)

/-! ### The bit reader and the codes -/

/-- 40_bitreader_vlc.md R121, R131: PEEK gives the bits from BITPOS on as an unsigned value, raises
kTruncated past BITLIMIT, and is refused above 32 bits; R122: READ is PEEK then SKIP, and fails as
PEEK does. -/
def Obligations.PeekAndRead : Prop :=
  ∀ (rd : BitReader) (n : Nat),
    (rd.peek n =
      if 32 < n then .error (.refuse .bitReaderWidth)
      else if rd.limit < rd.pos + n then .error (.raised .kTruncated rd.pos)
      else .ok (∑ i ∈ Finset.range n, rd.bit (rd.pos + i) * 2 ^ (n - 1 - i)))
    ∧ (∀ v rd', rd.read n = .ok (v, rd')
        ↔ rd.peek n = .ok v ∧ rd' = { rd with pos := rd.pos + n } ∧ rd.skip n = .ok rd')
    ∧ ∀ e, rd.read n = .error e ↔ rd.peek n = .error e

/-- 40_bitreader_vlc.md R128, R130, for a valid table: decoding a buffer that holds the codeword of a
used entry in its readable bits gives that entry's symbol and length, and moves BITPOS past the
codeword; where no codeword stands in the readable bits, kTruncated at the codeword's first bit if
some entry is longer than those bits are many, else kInvalidCode there. -/
def Obligations.VlcRoundTrip : Prop :=
  ∀ (t : VlcTable) (rd : BitReader), vlcValid t = true →
    (∀ e ∈ t, e.len ≠ 0 → rd.holds (codeword t e.sym) → rd.pos + e.len ≤ rd.limit →
      vlcDecode t rd = .ok (e.sym, e.len, { rd with pos := rd.pos + e.len }))
    ∧ ((∀ e ∈ t, e.len ≠ 0 → rd.holds (codeword t e.sym) → rd.limit < rd.pos + e.len) →
      vlcDecode t rd = .error
        (.raised (if ∃ e ∈ t, rd.limit < rd.pos + e.len then .kTruncated else .kInvalidCode) rd.pos))

/-- 40_bitreader_vlc.md R126: in a valid table no codeword is the beginning of another; a model is
configured only with parameters whose tables are valid, and an invalid table is refused. -/
def Obligations.VlcPrefixFree : Prop :=
  (∀ (t : VlcTable) (c d : Code), vlcValid t = true → c ∈ vlcCodes t → d ∈ vlcCodes t → c ≠ d →
      c.len ≤ d.len → d.code / 2 ^ (d.len - c.len) ≠ c.code)
    ∧ ∀ (p : Params) (t : VlcTable), vlcValid t = false →
      t ∈ p.noiseVlc ∨ t = p.ampVlc ∨ t = p.phaseVlc →
      State.configured p = .error .badParameters

/-! ### Sub-packets -/

/-- 42_packet_parser.md R160, R161: SP_SEED and SP_FLAGS load the shadow SEED and FLAGS from the bits
after the type field; nothing else of the parse or the state changes but BITPOS and the counts. -/
def Obligations.HeaderSubpackets : Prop :=
  ∀ (s : State) (p : Parse), s.activity = .packet p → p.expectsSubpacket → p.lastRank = 0 →
    (p.rd.pos + 37 ≤ p.rd.limit →
      exec .spSeed s = .next { s with activity := .packet { p.at (p.rd.pos + 37) with
        left := p.left - 1
        sh := { p.sh with seed := BitVec.ofNat 32 (p.rd.bits (p.rd.pos + 5) 32) } } })
    ∧ (p.rd.pos + 13 ≤ p.rd.limit →
      exec .spFlags s = .next { s with activity := .packet { p.at (p.rd.pos + 13) with
        left := p.left - 1
        sh := { p.sh with flags := BitVec.ofNat 8 (p.rd.bits (p.rd.pos + 5) 8) } } })

/-- 42_packet_parser.md R162 to R168: a noise sub-packet of each type, whose bits are those of the
notation with any declared length that holds its payload, moves the energies of its bands and nothing
else; the declared length's unused bits are skipped (R152, R153). -/
def Obligations.NoiseSubpackets : Prop :=
  ∀ (s : State) (p : Parse) (i : Instr) (t len fb : Nat) (c : Ch) (ds : List Int),
    (i, t) ∈ noiseInstrs →
    s.activity = .packet p → p.expectsSubpacket → p.lastRank ≤ 1 → chFits s c = true →
    noiseFits s t fb ds = true →
    p.rd.holds (msbBits 5 t ++ msbBits 16 len
      ++ noiseBits s.par (s.cfg.channels = 2) c.index fb ds) →
    (noiseBits s.par (s.cfg.channels = 2) c.index fb ds).length ≤ len → len < 65536 →
    p.rd.pos + 21 + len ≤ p.rd.limit →
    exec i s = .next { s with activity := .packet { p.at (p.rd.pos + 21 + len) with
      left := p.left - 1
      lastRank := 1
      sh := p.sh.setChan c
        { p.sh.chan c with env := energiesAfter s.par fb ds (p.sh.chan c).env } } }

/-- 42_packet_parser.md R170 to R175: a tone sub-packet of each type, whose bits are those of the
notation with any declared length that holds its payload, applies its records in order to the tones of
its channel and changes nothing else. -/
def Obligations.ToneSubpackets : Prop :=
  ∀ (s : State) (p : Parse) (i : Instr) (t len : Nat) (c : Ch) (recs : List RecordText)
      (ch : ShadowChan),
    (i, t) ∈ toneInstrs →
    s.activity = .packet p → p.expectsSubpacket → p.lastRank ≤ 2 → chFits s c = true →
    recs.length < 64 → recs.all (RecordText.fits s.par) = true →
    vlcValid s.par.ampVlc = true → vlcValid s.par.phaseVlc = true →
    applyRecords s t (p.sh.chan c) recs = some ch →
    p.rd.holds (msbBits 5 t ++ msbBits 16 len
      ++ toneBits s.par (s.cfg.channels = 2) c.index recs) →
    (toneBits s.par (s.cfg.channels = 2) c.index recs).length ≤ len → len < 65536 →
    p.rd.pos + 21 + len ≤ p.rd.limit →
    exec i s = .next { s with activity := .packet { p.at (p.rd.pos + 21 + len) with
      left := p.left - 1, lastRank := 2, sh := p.sh.setChan c ch } }

/-- 42_packet_parser.md R152 and 30_encoding.md R94: a reserved type code is kMalformed at the type
field, before any length field, and R179: a reserved record is kMalformed at its op field; both are
recovered as packet errors (60_exceptions.md R262). -/
def Obligations.ReservedElementsRaise : Prop :=
  (∀ (s : State) (p : Parse) (i : Instr), s.activity = .packet p → p.expectsSubpacket →
      p.rd.pos + 5 ≤ p.rd.limit →
      i = .spReserved5 ∨ (∃ t, i = .spReserved67 t) ∨ (∃ t, i = .spReserved1631 t) →
      exec i s = .next (s.takePacketError p.via .kMalformed p.rd.pos))
    ∧ ∀ (s : State) (p : Parse) (tp : TonePart) (band pos : Nat), s.activity = .packet p →
      p.tone = some tp → 0 < tp.left → p.rd.pos + 14 ≤ p.rd.limit →
      exec (.toneReserved band pos) s = .next (s.takePacketError p.via .kMalformed p.rd.pos)

/-- 42_packet_parser.md R152, R153, R168, the errors of a sub-packet, in the order of the checks: a
class below the one before it is kMalformed at the type field; a noise or tone payload declared past
the body is kMalformed at the payload's first bit, before the payload is read; a noise band run
outside the layout or its type's range is kMalformed at first_band; and a payload that is itself legal
but longer than declared is kMalformed at its first bit. -/
def Obligations.SubpacketHeaderErrors : Prop :=
  ∀ (s : State) (p : Parse) (i : Instr), s.activity = .packet p → p.expectsSubpacket →
    ((i ∈ [Instr.spSeed, .spFlags] ∧ 0 < p.lastRank)
        ∨ (i ∈ noiseInstrs.map Prod.fst ∧ 1 < p.lastRank) →
      p.rd.pos + 5 ≤ p.rd.limit →
      exec i s = .next (s.takePacketError p.via .kMalformed p.rd.pos))
    ∧ ((i ∈ noiseInstrs.map Prod.fst ∧ p.lastRank ≤ 1)
        ∨ (i ∈ toneInstrs.map Prod.fst ∧ p.lastRank ≤ 2) →
      p.rd.pos + 21 ≤ p.rd.limit → p.rd.limit < p.rd.pos + 21 + p.rd.bits (p.rd.pos + 5) 16 →
      exec i s = .next (s.takePacketError p.via .kMalformed (p.rd.pos + 21)))
    ∧ (∀ t, (i, t) ∈ noiseInstrs → p.lastRank ≤ 1 →
      p.rd.pos + 21 + p.rd.bits (p.rd.pos + 5) 16 ≤ p.rd.limit →
      let q := p.rd.pos + 21 + if s.cfg.channels = 2 then 1 else 0
      let fb := p.rd.bits q 5
      let cnt := p.rd.bits (q + 5) 6
      q + 11 ≤ p.rd.limit → 0 < cnt →
      s.numBands < fb + cnt ∨ fb < (rangeOf s.par.noiseRanges t s.numBands).1
        ∨ (rangeOf s.par.noiseRanges t s.numBands).2 < fb + cnt - 1 →
      exec i s = .next (s.takePacketError p.via .kMalformed q))
    ∧ ∀ (t len : Nat) (c : Ch) (payload : List Bool), p.lastRank ≤ typeRank t → chFits s c = true →
      ((i, t) ∈ noiseInstrs ∧ (∃ fb ds, noiseFits s t fb ds = true
          ∧ payload = noiseBits s.par (s.cfg.channels = 2) c.index fb ds))
        ∨ ((i, t) ∈ toneInstrs ∧ (∃ recs ch, recs.length < 64
          ∧ recs.all (RecordText.fits s.par) = true ∧ vlcValid s.par.ampVlc = true
          ∧ vlcValid s.par.phaseVlc = true ∧ applyRecords s t (p.sh.chan c) recs = some ch
          ∧ payload = toneBits s.par (s.cfg.channels = 2) c.index recs)) →
      p.rd.holds (msbBits 5 t ++ msbBits 16 len ++ payload) → len < 65536 → len < payload.length →
      p.rd.pos + 21 + payload.length ≤ p.rd.limit →
      exec i s = .next (s.takePacketError p.via .kMalformed (p.rd.pos + 21))

/-! ### Tone records -/

/-- 42_packet_parser.md R176: TONE_ADD of a legal slot, with codewords of an amplitude that is not
negative and of a phase, stores the tone and sets its TOUCHED bit; every other slot, the rest of the
parse and the state are unchanged. -/
def Obligations.ToneAddStores : Prop :=
  ∀ (s : State) (p : Parse) (tp : TonePart) (band pos dur : Nat) (amp phase : Int),
    s.activity = .packet p → p.tone = some tp → 0 < tp.left → slotLegal s tp.type band pos = true →
    vlcValid s.par.ampVlc = true → vlcValid s.par.phaseVlc = true → 0 ≤ amp →
    (RecordText.add band pos amp phase dur).fits s.par = true →
    p.rd.holds ((RecordText.add band pos amp phase dur).bits s.par) →
    p.rd.pos + ((RecordText.add band pos amp phase dur).bits s.par).length ≤ p.rd.limit →
    ∃ q, exec (.toneAdd band pos) s = .next { s with activity := .packet q }
      ∧ q = { p with rd := q.rd, sh := q.sh, tone := some { tp with left := tp.left - 1 } }
      ∧ q.rd = { p.rd with
          pos := p.rd.pos + ((RecordText.add band pos amp phase dur).bits s.par).length }
      ∧ q.sh = p.sh.setChan tp.ch { p.sh.chan tp.ch with
          tones := (q.sh.chan tp.ch).tones, touched := (q.sh.chan tp.ch).touched }
      ∧ (∀ k, k ∈ (q.sh.chan tp.ch).touched
          ↔ k = slotBin s tp.type band pos ∨ k ∈ (p.sh.chan tp.ch).touched)
      ∧ ∀ k, Assoc.find k (q.sh.chan tp.ch).tones
          = if k = slotBin s tp.type band pos then some (toneOf s tp.type band pos amp phase dur)
            else Assoc.find k (p.sh.chan tp.ch).tones

/-- 42_packet_parser.md R177, R178: TONE_REFRESH of an occupied slot sets its start_frame and TOUCHED
bit, TONE_DELETE empties it and clears the bit; every other slot, the rest of the parse and the state
are unchanged. -/
def Obligations.ToneRefreshAndDelete : Prop :=
  ∀ (s : State) (p : Parse) (tp : TonePart) (band pos : Nat) (old : Tone),
    s.activity = .packet p → p.tone = some tp → 0 < tp.left → slotLegal s tp.type band pos = true →
    p.rd.pos + 14 ≤ p.rd.limit → Assoc.wf (p.sh.chan tp.ch).tones = true →
    Assoc.find (slotBin s tp.type band pos) (p.sh.chan tp.ch).tones = some old →
    (∃ q m l, exec (.toneRefresh band pos) s = .next { s with activity := .packet q }
      ∧ q = { p.at (p.rd.pos + 14) with
          tone := some { tp with left := tp.left - 1 }
          sh := p.sh.setChan tp.ch { p.sh.chan tp.ch with tones := m, touched := l } }
      ∧ (∀ k, k ∈ l ↔ k = slotBin s tp.type band pos ∨ k ∈ (p.sh.chan tp.ch).touched)
      ∧ ∀ k, Assoc.find k m = if k = slotBin s tp.type band pos
          then some { old with startFrame := s.frameIndex }
          else Assoc.find k (p.sh.chan tp.ch).tones)
    ∧ ∃ q m l, exec (.toneDelete band pos) s = .next { s with activity := .packet q }
      ∧ q = { p.at (p.rd.pos + 14) with
          tone := some { tp with left := tp.left - 1 }
          sh := p.sh.setChan tp.ch { p.sh.chan tp.ch with tones := m, touched := l } }
      ∧ (∀ k, k ∈ l ↔ k ≠ slotBin s tp.type band pos ∧ k ∈ (p.sh.chan tp.ch).touched)
      ∧ ∀ k, Assoc.find k m = if k = slotBin s tp.type band pos then none
          else Assoc.find k (p.sh.chan tp.ch).tones

/-- 42_packet_parser.md R180: a record whose slot is outside the layout, outside the type's band range
or past its band's width is kMalformed at its op field, before any codeword is read; R177, R178: so is
a refresh or a delete of an EMPTY slot; R176: so is an add whose amplitude is negative, after its
codewords and its duration are read. -/
def Obligations.MalformedRecords : Prop :=
  ∀ (s : State) (p : Parse) (tp : TonePart) (band pos : Nat), s.activity = .packet p →
    p.tone = some tp → 0 < tp.left → p.rd.pos + 14 ≤ p.rd.limit →
    (s.numBands ≤ band ∨ band < (rangeOf s.par.toneRanges tp.type s.numBands).1
        ∨ (rangeOf s.par.toneRanges tp.type s.numBands).2 < band
        ∨ (s.band band).width ≤ pos * 2 ^ (tp.type - 8) →
      ∀ i ∈ [Instr.toneAdd band pos, .toneRefresh band pos, .toneDelete band pos],
        exec i s = .next (s.takePacketError p.via .kMalformed p.rd.pos))
    ∧ (Assoc.find ((s.band band).base + pos * 2 ^ (tp.type - 8)) (p.sh.chan tp.ch).tones = none →
      ∀ i ∈ [Instr.toneRefresh band pos, .toneDelete band pos],
        exec i s = .next (s.takePacketError p.via .kMalformed p.rd.pos))
    ∧ ∀ (amp phase : Int) (dur : Nat), amp < 0 → slotLegal s tp.type band pos = true →
      vlcValid s.par.ampVlc = true → vlcValid s.par.phaseVlc = true →
      (RecordText.add band pos amp phase dur).fits s.par = true →
      p.rd.holds ((RecordText.add band pos amp phase dur).bits s.par) →
      p.rd.pos + ((RecordText.add band pos amp phase dur).bits s.par).length ≤ p.rd.limit →
      exec (.toneAdd band pos) s = .next (s.takePacketError p.via .kMalformed p.rd.pos)

/-! ### Chunks -/

/-- 41_extradata.md R141, one chunk at a time: the frma chunk of a blob of at least 48 bytes and the QDCA
chunk pass the parser on, a blob that is shorter or fails the frma chunk's checks is kBadExtradata, and
the QDCP chunk of a legal size lets CONFIGURE construct the instance (45_host_commands.md R232).
Executing a chunk by itself is the model's own, and so is that a parse at a later place stands past the
length check (log 7). -/
def Obligations.ChunksParse : Prop :=
  ∀ (s : State) (x : ChunkParse), s.activity = .chunks x →
    (x.place = .first →
      (48 ≤ x.blob.length → be32 x.blob 0 = 12 → be32 x.blob 8 = 0x51444D32 →
        exec .chunkFrma s = .next { s with activity := .chunks { x with place := .second } })
      ∧ (x.blob.length < 48 ∨ be32 x.blob 0 ≠ 12 ∨ be32 x.blob 8 ≠ 0x51444D32 →
        exec .chunkFrma s = .next { s with activity := .idle, err := .kBadExtradata, result := 0 }))
    ∧ (∀ pre r rest, x.place = .second → pre.length = 12 → r.Legal →
      x.blob = pre ++ r.serialise.drop 12 ++ rest →
      exec .chunkQdca s
        = .next { s with activity := .chunks { x with place := .third, record := r } })
    ∧ ∀ pre rest, x.place = .third → pre.length = 48 → x.blob = pre ++ rest →
      be32 rest 4 = 0x51444350 →
      (qdcpFits rest = true → x.record.Legal →
        exec .chunkQdcp s = .next (s.constructed x.mode x.record))
      ∧ (qdcpFits rest = false →
        exec .chunkQdcp s
          = .next { s with activity := .idle, err := .kBadExtradata, result := 0 })

/-! ### The spectral decoder and the synthesis -/

/-- 43_spectral.md R191, R192: an untouched tone decays, then a tone below the threshold or past its
duration is removed; each slot is aged by itself. -/
def Obligations.ToneAging : Prop :=
  ∀ (p : Params) (f : BitVec 64) (touched : List Nat) (m : ToneMap) (k : Nat), Assoc.wf m = true →
    Assoc.find k (ageTones p f touched m) = (Assoc.find k m).bind fun t =>
      let a := if k ∈ touched then t.amplitude else t.amplitude * p.decayNum / 2 ^ p.decayShift
      if a < p.ampThresh ∨ t.duration ≤ (f - t.startFrame).toNat then none
      else some { t with amplitude := a }

/-- 43_spectral.md R195 to R202: a tonal bin takes its tone, another bin of a band takes the draw whose
number is the count of non-tonal bins visited before it, a bin of no band is (+0.0, +0.0), and RNG and
RNG_POS end after one draw for each non-tonal bin. -/
def Obligations.SpectrumBuildBins : Prop :=
  ∀ (s t : State) (c : Ch), layoutValid s.fftN s.cfg.bands = true → s.numBands = s.cfg.bands.length →
    s.spectrumBuild c = t →
    let noisy := fun bk : Nat × Nat => (Assoc.find bk.2 (s.chan c).tones).isNone
    let seed := s.seed + 2 * s.frameIndex.setWidth 32 + BitVec.ofNat 32 c.index
    let draw := fun n : Nat => Nat.iterate (fun r => s.par.lcgA * r + s.par.lcgC) n seed
    (∀ n b k, s.bandBins[n]? = some (b, k) →
      t.work.x[k]? = some (match Assoc.find k (s.chan c).tones with
        | some tone => toneValue s.par tone
        | none => noiseValue s.par ((s.chan c).env.getD b 0)
            (draw (((s.bandBins.take n).filter noisy).length + 1))))
    ∧ (∀ k < s.fftN, (∀ b, (b, k) ∉ s.bandBins) → t.work.x[k]? = some cxZero)
    ∧ t.work.x.length = s.fftN
    ∧ (t.chan c).rng = draw (s.bandBins.filter noisy).length
    ∧ (t.chan c).rngPos = BitVec.ofNat 32 (s.bandBins.filter noisy).length

/-- 44_synthesis.md R214: one stage of the inverse FFT is its butterflies, each on its own two
entries. -/
def Obligations.FftStageButterflies : Prop :=
  ∀ (n st i j : Nat) (a : List Cx), 1 ≤ st → a.length = n → 2 ^ st ∣ n → i < n / 2 ^ st →
    j < 2 ^ st / 2 →
    let u := a.getD (i * 2 ^ st + j) cxZero
    let v := cmul (a.getD (i * 2 ^ st + j + 2 ^ st / 2) cxZero) (twiddle n (j * (n / 2 ^ st)))
    (fftStage n st a).length = n
      ∧ (fftStage n st a)[i * 2 ^ st + j]? = some (cadd u v)
      ∧ (fftStage n st a)[i * 2 ^ st + j + 2 ^ st / 2]? = some (csub u v)

/-- 44_synthesis.md R213, R214: IFFT of order `l` starts from X in bit-reversed order, A[rev_L(k)] =
X[k], where rev_L reverses the L bits of k, and is the stages 1 to L on it in ascending order, each on
the result of the one before. -/
def Obligations.BitReversal : Prop :=
  ∀ (l : Nat) (x : List Cx), x.length = 2 ^ l →
    (∀ k < 2 ^ l, (bitReversed l x)[revBits l k]? = x[k]? ∧ revBits l k < 2 ^ l
      ∧ ∀ i < l, (revBits l k).testBit i = k.testBit (l - 1 - i))
    ∧ ∀ a : Nat → List Cx, a 0 = bitReversed l x →
      (∀ s < l, a (s + 1) = fftStage x.length (s + 1) (a s)) → ifft l x = a l

/-- 44_synthesis.md R215 to R217, R219: after the spectrum build and the inverse FFT of channel `c`, its
samples are the rounded sums of the windowed frame and the upper half of PREV, and PREV becomes the
windowed frame. -/
def Obligations.SynthOutput : Prop :=
  ∀ (s t : State) (c : Ch) (pcm : List Sample), s.CfgLegal → (s.chan c).prev.length = 2048 →
    s.synth c = (t, pcm) →
    let a := ifft s.fftL (s.spectrumBuild c).work.x
    let y := fun n => mul32 (a.getD n cxZero).re (window s.fftN n)
    pcm.length = s.spf
      ∧ (∀ n < s.spf, pcm.getD n 0 = pcm16 (add32 (y n) ((s.chan c).prev.getD (s.spf + n) 0)))
      ∧ (∀ n < s.fftN, (t.chan c).prev[n]? = some (y n))
      ∧ (t.chan c).prev.length = 2048

/-- 44_synthesis.md R217: PCM16 of a finite value is the nearest integer, ties to even, saturated;
the exact value is `exact32 v` in units of 2^-149. -/
def Obligations.PcmRounding : Prop :=
  ∀ v : Sys2Proof.Num, finite32 v = true →
    ∃ r : Int, (pcm16 v).toInt = clamp r (-32768) 32767
      ∧ 2 * |r * 2 ^ 149 - exact32 v| ≤ 2 ^ 149
      ∧ (2 * |r * 2 ^ 149 - exact32 v| = 2 ^ 149 → r % 2 = 0)

/-! ### Whole-machine rules -/

/-- INBUF and OUTBUF keep their canonical form: every step leaves the addresses strictly rising. The
form is the model's choice (log 3). -/
def Obligations.StepKeepsMemoryCanonical : Prop :=
  ∀ s t : State, Memory.wf s.mem = true → step s = .next t → Memory.wf t.mem = true

/-- 10_state.md R21 to R23, 45_host_commands.md R231: every step keeps a live instance legally
configured and DRAINING a state of STREAM mode; the parameters stay those that passed the check made
when the model was configured (40_bitreader_vlc.md R126, log 15). -/
def Obligations.StepKeepsConfigInv : Prop :=
  ∀ s t : State, ConfigInv s → step s = .next t → ConfigInv t

/-- 10_state.md R24, R25, 45_host_commands.md R236: every step keeps at most 4 packets of CFG_FRAME_SIZE
bytes with consecutive sequence indices, fewer than 2 x spf x CH pending samples, and both queues empty
without a live instance and in CODEC mode. -/
def Obligations.StepKeepsQueueInv : Prop :=
  ∀ s t : State, ConfigInv s → QueueInv s → step s = .next t → QueueInv t

/-- 10_state.md R27 to R30: every step keeps the tones of a live instance at the bins their fields give
and in their ranges, its energies within E_MIN .. E_MAX, and SAMPLE_COUNT[1] at 0 in a mono stream.
The range of a tone's position, below its band's width and not R29's u7, is the model's reading
(log 11). -/
def Obligations.StepKeepsChannelInv : Prop :=
  ∀ s t : State, ConfigInv s → ChannelInv s → step s = .next t → ChannelInv t

/-- The invariants hold right after reset, of the machine configured with the parameters the model is
given, which pass the check made then (00_scope.md R7; logs 1, 15). -/
def Obligations.InvariantsAtReset : Prop :=
  State.configured Config.params = .ok State.reset ∧ Memory.wf State.reset.mem = true ∧ ConfigInv State.reset ∧ QueueInv State.reset
    ∧ ChannelInv State.reset

/-- 10_state.md R23: outside reset STATE keeps its value or makes one of the transitions to OPEN, from
OPEN to DRAINING, or of a live instance to CLOSED, and MODE changes only where STATE becomes OPEN. -/
def Obligations.AdapterTransitions : Prop :=
  ∀ s t : State, ConfigInv s → step s = .next t → s.resetNext = false →
    (t.adapter = s.adapter ∧ t.mode = s.mode)
      ∨ ((s.adapter = .unconfigured ∨ s.adapter = .closed) ∧ t.adapter = .opened)
      ∨ (s.adapter = .opened ∧ t.adapter = .draining ∧ t.mode = s.mode)
      ∨ ((s.adapter = .opened ∨ s.adapter = .draining) ∧ t.adapter = .closed ∧ t.mode = s.mode)

/-- 10_state.md R21, R34, R38: only reset clears STATUS.BUS_ERR and VLC_READY, and the configuration of
a live instance does not change before the next reset; the parameters never do (log 1). -/
def Obligations.StickyAndFrozen : Prop :=
  ∀ s t : State, ConfigInv s → step s = .next t →
    t.par = s.par
      ∧ (s.resetNext = false → (s.busErr = true → t.busErr = true)
        ∧ (s.vlcReady = true → t.vlcReady = true) ∧ (s.live = true → t.cfg = s.cfg))

/-- 10_state.md R36, 20_memory.md R61, R62, R64: with at most two channels and 1024 samples a frame, no
instruction changes ARG or any byte outside OUTBUF, nor STATUS.BUS_ERR, which only a refused access
sets (R64). That none changes the host's stream is said of the model's own list (log 5). -/
def Obligations.InstructionsKeepInputs : Prop :=
  ∀ (i : Instr) (s t : State), exec i s = .next t → s.channelCount ≤ 2 → s.spf ≤ 1024 →
    t.arg = s.arg ∧ t.busErr = s.busErr ∧ t.host = s.host
      ∧ ∀ a, a < 0x4000 ∨ 0x5000 ≤ a → t.loadByte a = s.loadByte a

/-- 10_state.md R41, 42_packet_parser.md R151 ("State written: BITPOS and the shadow S only"): a
bitstream element changes the parse it stands in and nothing else, or ends its command, by the recovery
from a packet error (60_exceptions.md R262) or by the end of the extradata parse (41_extradata.md
R141). That an element is executed by itself is the model's choice (log 7). -/
def Obligations.ElementOutcomes : Prop :=
  ∀ (i : Instr) (s t : State), isCommand i = false → exec i s = .next t →
    (∃ a, t = { s with activity := a })
      ∨ (∃ p e pos, s.activity = .packet p ∧ t = s.takePacketError p.via e pos)
      ∨ (∃ x, s.activity = .chunks x
        ∧ (t = s.construct x.mode x.record
          ∨ t = { s with activity := .idle, err := .kBadExtradata, result := 0 }))

/-- 42_packet_parser.md R151, 41_extradata.md R141: a frame decode in one step is the parse of its packet
stepped one sub-packet at a time to the end of the command, and the extradata parse of a CONFIGURE in
one step is its blob stepped one chunk at a time from the first place, so that a CONFIGURE
(45_host_commands.md R232) is that stepping from the state in which VLC_READY is set (the stepping is the
model's, and that the state inside stands past VLC_READY <- 1 as well, log 7). -/
def Obligations.FrameDecodeIsItsSteps : Prop :=
  (∀ (s : State) (via : Via) (packet : List Byte) (p : Parse), paramsValid s.par = true →
      startParse s via packet = .ok p →
      ∃ k ≤ p.left + 1,
        Host.Core.run Sys2Proof.core k { s with activity := .packet p } = frameDecode s via packet)
    ∧ (∀ (s : State) (x : ChunkParse), s.activity = .chunks x → x.place = .first →
      ∃ k ≤ 3, Host.Core.run Sys2Proof.core k s = .next
        (match extradataParse x.blob with
          | .ok r => s.construct x.mode r
          | .error e => { s with activity := .idle, err := e, result := 0 }))
    ∧ ∀ (s : State) (i : Instr) (x : ChunkParse),
      (i = .configureStream ∧ x.mode = .stream) ∨ (i = .configureCodec ∧ x.mode = .codec) →
      s.activity = .idle → s.adapter = .unconfigured ∨ s.adapter = .closed → s.arg.toNat ≤ 8192 →
      x.place = .first → x.blob = s.loadBytes 0x1000 s.arg.toNat →
      ∃ k ≤ 3, Host.Core.run Sys2Proof.core k { s with vlcReady := true, activity := .chunks x }
        = exec i s

/-- 30_encoding.md R105, 42_packet_parser.md R150 to R180: the packet an encoder writes for a list of
sub-packets, each fitting its fields and in class order, decodes without error to exactly the updates
the sub-packets stand for. -/
def Obligations.EncodedPacketDecodes : Prop :=
  ∀ (s : State) (via : Via) (size sfType : Nat) (subs : List SubpacketText) (sh : Shadow),
    4 ≤ size → sfType < 256 → subs.length < 256 → (∀ q ∈ subs, q.fits s = true) →
    16 + (subs.flatMap (SubpacketText.bits s.par (s.cfg.channels = 2))).length ≤ 8 * (size - 2) →
    applySubpackets s 0 (Shadow.ofState s) subs = some sh →
    FrameResult.of s via (encodePacket s.par (s.cfg.channels = 2) size sfType subs) (.good sh)
end

