-- ==== Sys2Proof/Laws/Bits.lean ====
section
/-!
SUPPORT. What a bit reader reads where it holds given bits (40_bitreader_vlc.md R120 to R123), and that
a reader moves BITPOS only.
-/

namespace Sys2Proof.Machine

open Sys2Proof

theorem msbBits_length : ∀ n v, (msbBits n v).length = n
  | 0, _ => rfl
  | n + 1, v => by simp [msbBits, msbBits_length n]

theorem msbBits_getD : ∀ (n v i : Nat), i < n →
    (msbBits n v).getD i false = decide (v / 2 ^ (n - 1 - i) % 2 = 1)
  | 0, _, _, h => by omega
  | n + 1, v, 0, _ => by simp [msbBits]
  | n + 1, v, i + 1, h => by
    have := msbBits_getD n v i (by omega)
    simp only [msbBits, List.getD_cons_succ, this]
    rw [show n - 1 - i = n + 1 - 1 - (i + 1) by omega]

/-- A run of bits that are those of `w` has the value of `w`. -/
theorem bits_eq (rd : BitReader) : ∀ (n p w : Nat),
    (∀ i < n, rd.bit (p + i) = w / 2 ^ (n - 1 - i) % 2) → rd.bits p n = w % 2 ^ n
  | 0, _, w, _ => by simp [BitReader.bits, Nat.mod_one]
  | n + 1, p, w, h => by
    have h0 := h 0 (by omega)
    have ih := bits_eq rd n (p + 1) w fun i hi => by
      have := h (i + 1) (by omega)
      rw [show p + 1 + i = p + (i + 1) by omega, this]
      congr 3
      omega
    simp only [Nat.add_zero] at h0
    rw [BitReader.bits, h0, ih, show n + 1 - 1 - 0 = n by omega, Nat.pow_succ, Nat.mod_mul]
    rw [Nat.mul_comm, Nat.add_comm]

/-- The first `l` bits of a held `n`-bit field. -/
theorem bits_of_holds {rd : BitReader} {n v : Nat} {bs : List Bool}
    (h : rd.holds (msbBits n v ++ bs)) {l : Nat} (hl : l ≤ n) (hv : v < 2 ^ n) :
    rd.bits rd.pos l = v / 2 ^ (n - l) := by
  have key := bits_eq rd l rd.pos (v / 2 ^ (n - l)) fun i hi => by
    have hb := h i (by simp [msbBits_length]; omega)
    rw [List.getD_append _ _ _ _ (by rw [msbBits_length]; omega), msbBits_getD n v i (by omega)] at hb
    rw [hb, Nat.div_div_eq_div_mul, ← Nat.pow_add, show n - l + (l - 1 - i) = n - 1 - i by omega]
    rcases Nat.mod_two_eq_zero_or_one (v / 2 ^ (n - 1 - i)) with e | e <;> simp [e]
  rw [key]
  apply Nat.mod_eq_of_lt
  rw [Nat.div_lt_iff_lt_mul (by positivity), ← Nat.pow_add]
  rwa [show l + (n - l) = n by omega]

/-- What is held after the first bits of what is held. -/
theorem holds_drop {rd : BitReader} {as bs : List Bool} (h : rd.holds (as ++ bs)) :
    { rd with pos := rd.pos + as.length }.holds bs := by
  intro i hi
  have := h (as.length + i) (by simp; omega)
  rw [List.getD_append_right _ _ _ _ (by omega), show as.length + i - as.length = i by omega] at this
  rw [← this]
  show rd.bit (rd.pos + as.length + i) = _
  rw [Nat.add_assoc]

theorem holds_left {rd : BitReader} {as bs : List Bool} (h : rd.holds (as ++ bs)) : rd.holds as := by
  intro i hi
  have := h i (by simp; omega)
  rwa [List.getD_append _ _ _ _ hi] at this

/-- PEEK of a held field. -/
theorem peek_of_holds {rd : BitReader} {n v : Nat} {bs : List Bool}
    (h : rd.holds (msbBits n v ++ bs)) (hv : v < 2 ^ n) (hn : n ≤ 32) (hl : rd.pos + n ≤ rd.limit) :
    rd.peek n = .ok v := by
  have := bits_of_holds h (Nat.le_refl n) hv
  simp only [Nat.sub_self, Nat.pow_zero, Nat.div_one] at this
  rw [BitReader.peek, if_neg (by omega), if_neg (by omega), this]

/-- READ of a held field. -/
theorem read_of_holds {rd : BitReader} {n v : Nat} {bs : List Bool}
    (h : rd.holds (msbBits n v ++ bs)) (hv : v < 2 ^ n) (hn : n ≤ 32) (hl : rd.pos + n ≤ rd.limit) :
    rd.read n = .ok (v, { rd with pos := rd.pos + n }) := by
  rw [BitReader.read, peek_of_holds h hv hn hl]

theorem holds_field {rd : BitReader} {n v : Nat} {bs : List Bool}
    (h : rd.holds (msbBits n v ++ bs)) : { rd with pos := rd.pos + n }.holds bs := by
  have := holds_drop h
  rwa [msbBits_length] at this

/-- READ of bits that are readable. -/
theorem read_of_le {rd : BitReader} {n : Nat} (hn : n ≤ 32) (hl : rd.pos + n ≤ rd.limit) :
    rd.read n = .ok (rd.bits rd.pos n, { rd with pos := rd.pos + n }) := by
  rw [BitReader.read, BitReader.peek, if_neg (by omega), if_neg (by omega)]

/-- The reader at bit offset `q`. -/
def BitReader.at (rd : BitReader) (q : Nat) : BitReader := { rd with pos := q }

@[simp] theorem at_pos (rd : BitReader) (q : Nat) : (rd.at q).pos = q := rfl
@[simp] theorem at_limit (rd : BitReader) (q : Nat) : (rd.at q).limit = rd.limit := rfl
@[simp] theorem at_buf (rd : BitReader) (q : Nat) : (rd.at q).buf = rd.buf := rfl
@[simp] theorem at_at (rd : BitReader) (q r : Nat) : (rd.at q).at r = rd.at r := rfl
@[simp] theorem at_bit (rd : BitReader) (q p : Nat) : (rd.at q).bit p = rd.bit p := rfl
theorem at_self (rd : BitReader) : rd.at rd.pos = rd := rfl

@[simp] theorem at_bits (rd : BitReader) (q : Nat) : ∀ n p, (rd.at q).bits p n = rd.bits p n
  | 0, _ => rfl
  | n + 1, p => by rw [BitReader.bits, BitReader.bits, at_bits rd q n, at_bit]

/-- READ at a given offset. -/
theorem read_at {rd : BitReader} {q n : Nat} (hn : n ≤ 32) (hl : q + n ≤ rd.limit) :
    (rd.at q).read n = .ok (rd.bits q n, rd.at (q + n)) := by
  rw [read_of_le hn hl, at_bits]
  rfl

/-- All that READ can do: the bits, with BITPOS past them, or kTruncated at BITPOS, or the refusal of a
width above 32. -/
theorem read_cases (rd : BitReader) (n : Nat) :
    (n ≤ 32 ∧ rd.pos + n ≤ rd.limit
        ∧ rd.read n = .ok (rd.bits rd.pos n, { rd with pos := rd.pos + n }))
      ∨ (n ≤ 32 ∧ rd.limit < rd.pos + n ∧ rd.read n = .error (.raised .kTruncated rd.pos))
      ∨ (32 < n ∧ rd.read n = .error (.refuse .bitReaderWidth)) := by
  unfold BitReader.read BitReader.peek
  by_cases h : 32 < n
  · exact .inr (.inr ⟨h, by simp [h]⟩)
  · by_cases h2 : rd.limit < rd.pos + n
    · exact .inr (.inl ⟨by omega, h2, by simp [h, h2]⟩)
    · exact .inl ⟨by omega, by omega, by simp [h, h2]⟩

/-- The bits of a field fit it. -/
theorem bit_lt_two (rd : BitReader) (p : Nat) : rd.bit p < 2 := Nat.mod_lt _ (by decide)

theorem bits_lt (rd : BitReader) : ∀ (n p : Nat), rd.bits p n < 2 ^ n
  | 0, _ => by simp [BitReader.bits]
  | n + 1, p => by
    have h1 := bits_lt rd n (p + 1)
    have h2 := bit_lt_two rd p
    rw [BitReader.bits, Nat.pow_succ]
    have : rd.bit p * 2 ^ n ≤ 1 * 2 ^ n := Nat.mul_le_mul_right _ (by omega)
    omega

end Sys2Proof.Machine
end

