-- ==== Sys2Proof/Laws/Memory.lean ====
section
/-!
SUPPORT. Laws of the sparse maps (Machine/Assoc.lean) and of the memory they hold: a read after a write
to the same place gives the value written, a write leaves every other place alone, and every operation
keeps the canonical form.
-/

namespace Sys2Proof.Machine

open Sys2Proof

namespace Assoc

variable {α : Type}

theorem risesAbove_mono {b c : Nat} (h : b ≤ c) :
    ∀ {m : List (Nat × α)}, risesAbove c m = true → risesAbove b m = true
  | [], _ => rfl
  | (j, _) :: _, hm => by
    simp only [risesAbove, Bool.and_eq_true, decide_eq_true_eq] at hm ⊢
    exact ⟨by omega, hm.2⟩

theorem wf_of_risesAbove {b : Nat} : ∀ {m : List (Nat × α)}, risesAbove b m = true → wf m = true
  | [], _ => rfl
  | (j, _) :: _, hm => by
    simp only [risesAbove, Bool.and_eq_true] at hm
    exact hm.2

theorem find_none_of_risesAbove {k b : Nat} (h : k ≤ b) :
    ∀ {m : List (Nat × α)}, risesAbove b m = true → find k m = none
  | [], _ => rfl
  | (j, _) :: _, hm => by
    simp only [risesAbove, Bool.and_eq_true, decide_eq_true_eq] at hm
    rw [find, if_neg (by omega), if_pos (by omega)]

/-- Every key listed above `b` is above `b`. -/
theorem key_above {b : Nat} :
    ∀ {m : List (Nat × α)}, risesAbove b m = true → ∀ kv ∈ m, b < kv.1
  | [], _, _, hk => by simp at hk
  | (j, w) :: m, hm, kv, hk => by
    simp only [risesAbove, Bool.and_eq_true, decide_eq_true_eq] at hm
    rcases List.mem_cons.1 hk with rfl | hk
    · exact hm.1
    · exact Nat.lt_trans hm.1 (key_above hm.2 kv hk)

theorem risesAbove_put {b k : Nat} {v : α} (hk : b < k) :
    ∀ {m : List (Nat × α)}, risesAbove b m = true → risesAbove b (put k v m) = true
  | [], _ => by simp [put, risesAbove, hk]
  | (j, w) :: m, hm => by
    simp only [risesAbove, Bool.and_eq_true, decide_eq_true_eq] at hm
    unfold put
    split
    · simp [risesAbove, hm.2, *]
    · split
      · subst_vars; simp [risesAbove, hk, hm.2]
      · have : j < k := by omega
        simp [risesAbove, hm.1, risesAbove_put this hm.2]

/-- A write keeps the canonical form. -/
theorem wf_put (k : Nat) (v : α) : ∀ {m : List (Nat × α)}, wf m = true → wf (put k v m) = true
  | [], _ => rfl
  | (j, w) :: m, hm => by
    simp only [wf] at hm
    unfold put
    split
    · simp [wf, risesAbove, *]
    · split
      · subst_vars; exact hm
      · exact risesAbove_put (by omega) hm

theorem risesAbove_erase {b k : Nat} :
    ∀ {m : List (Nat × α)}, risesAbove b m = true → risesAbove b (erase k m) = true
  | [], _ => rfl
  | (j, w) :: m, hm => by
    simp only [risesAbove, Bool.and_eq_true, decide_eq_true_eq] at hm
    unfold erase
    split
    · simp [risesAbove, hm]
    · split
      · exact risesAbove_mono (Nat.le_of_lt hm.1) hm.2
      · simp [risesAbove, hm.1, risesAbove_erase hm.2]

/-- Removing an entry keeps the canonical form. -/
theorem wf_erase (k : Nat) : ∀ {m : List (Nat × α)}, wf m = true → wf (erase k m) = true
  | [], _ => rfl
  | (j, w) :: m, hm => by
    simp only [wf] at hm
    unfold erase
    split
    · exact hm
    · split
      · exact wf_of_risesAbove hm
      · exact risesAbove_erase hm

/-- Reading after a write. -/
theorem find_put (k j : Nat) (v : α) :
    ∀ m : List (Nat × α), find j (put k v m) = if j = k then some v else find j m
  | [] => by unfold put find; split <;> simp [find]
  | (i, w) :: m => by
    unfold put
    split
    · by_cases h : j = k
      · simp [find, h]
      · simp only [find, h, if_false]
        split
        · rw [if_neg (by omega), if_pos (by omega)]
        · rfl
    · split
      · subst_vars
        by_cases h : j = i <;> simp [find, h]
      · simp only [find, find_put k j v m]
        split
        · rw [if_neg (by omega)]
        · split
          · rw [if_neg (by omega)]
          · rfl

/-- Reading after an entry is removed. -/
theorem find_erase (k j : Nat) :
    ∀ {m : List (Nat × α)}, wf m = true → find j (erase k m) = if j = k then none else find j m
  | [], _ => by simp [erase, find]
  | (i, w) :: m, hm => by
    simp only [wf] at hm
    unfold erase
    split
    · by_cases h : j = k
      · rw [if_pos h]; simp only [find]; rw [if_neg (by omega), if_pos (by omega)]
      · rw [if_neg h]
    · split
      · subst_vars
        by_cases h : j = i
        · rw [if_pos h, h, find_none_of_risesAbove (Nat.le_refl _) hm]
        · rw [if_neg h]
          simp only [find, h, if_false]
          split
          · exact find_none_of_risesAbove (by omega) hm
          · rfl
      · simp only [find, find_erase k j (wf_of_risesAbove hm)]
        split
        · rw [if_neg (by omega)]
        · split
          · by_cases h : j = k <;> simp [h]
          · rfl

/-- An entry that is found is listed. -/
theorem mem_of_find {k : Nat} {v : α} : ∀ {m : List (Nat × α)}, find k m = some v → (k, v) ∈ m
  | [], h => by simp [find] at h
  | (i, w) :: m, h => by
    simp only [find] at h
    split at h
    · cases h; subst_vars; exact List.mem_cons_self
    · split at h
      · simp at h
      · exact List.mem_cons_of_mem _ (mem_of_find h)

/-- What is listed after a write was listed before or is the entry written. -/
theorem mem_put {k : Nat} {v : α} {kv : Nat × α} :
    ∀ {m : List (Nat × α)}, kv ∈ put k v m → kv = (k, v) ∨ kv ∈ m
  | [], h => by simpa [put] using h
  | (i, w) :: m, h => by
    unfold put at h
    split at h
    · simpa using h
    · split at h
      · rcases List.mem_cons.1 h with h | h
        · exact .inl h
        · exact .inr (List.mem_cons_of_mem _ h)
      · rcases List.mem_cons.1 h with h | h
        · exact .inr (h ▸ List.mem_cons_self)
        · rcases mem_put h with h | h
          · exact .inl h
          · exact .inr (List.mem_cons_of_mem _ h)

/-- What is listed after a removal was listed before. -/
theorem mem_of_mem_erase {k : Nat} {kv : Nat × α} :
    ∀ {m : List (Nat × α)}, kv ∈ erase k m → kv ∈ m
  | [], h => h
  | (i, w) :: m, h => by
    unfold erase at h
    split at h
    · exact h
    · split at h
      · exact List.mem_cons_of_mem _ h
      · rcases List.mem_cons.1 h with h | h
        · exact h ▸ List.mem_cons_self
        · exact List.mem_cons_of_mem _ (mem_of_mem_erase h)

end Assoc

/-! ### Memory -/

/-- Reading a byte after a byte is stored. -/
theorem loadByte_storeByte (s : State) (a b : Nat) (v : Byte) :
    (s.storeByte a v).loadByte b = if b = a then v else s.loadByte b := by
  unfold State.loadByte State.storeByte
  simp only [Assoc.find_put]
  split <;> rfl

/-- Storing bytes changes memory and nothing else. -/
theorem storeBytes_eq : ∀ (bs : List Byte) (s : State) (a : Nat),
    s.storeBytes a bs = { s with mem := (s.storeBytes a bs).mem }
  | [], _, _ => rfl
  | b :: bs, s, a => by
    rw [State.storeBytes, storeBytes_eq bs]
    rfl

/-- A memory with bytes stored at consecutive addresses from `a` on. -/
def putBytes (a : Nat) : List Byte → List Host.Cell → List Host.Cell
  | [], m => m
  | b :: bs, m => putBytes (a + 1) bs (Assoc.put a b m)

/-- The memory after a store depends on the memory before it alone. -/
theorem storeBytes_mem : ∀ (bs : List Byte) (s : State) (a : Nat),
    (s.storeBytes a bs).mem = putBytes a bs s.mem
  | [], _, _ => rfl
  | b :: bs, s, a => storeBytes_mem bs (s.storeByte a b) (a + 1)

/-- What a byte reads as depends on the memory and on the number of resets. -/
theorem loadByte_congr {s t : State} (hm : s.mem = t.mem) (hr : s.resets = t.resets) (a : Nat) :
    s.loadByte a = t.loadByte a := by
  unfold State.loadByte
  rw [hm, hr]

/-- Storing bytes keeps the canonical form. -/
theorem wf_storeBytes : ∀ (bs : List Byte) (s : State) (a : Nat), Memory.wf s.mem = true →
    Memory.wf (s.storeBytes a bs).mem = true
  | [], _, _, h => h
  | b :: bs, s, a, h => wf_storeBytes bs (s.storeByte a b) (a + 1) (Assoc.wf_put a b h)

/-- A byte outside the stored ones is as before. -/
theorem loadByte_storeBytes_outside : ∀ (bs : List Byte) (s : State) (a b : Nat),
    b < a ∨ a + bs.length ≤ b → (s.storeBytes a bs).loadByte b = s.loadByte b
  | [], _, _, _, _ => rfl
  | v :: bs, s, a, b, h => by
    simp only [List.length_cons] at h
    rw [State.storeBytes, loadByte_storeBytes_outside bs _ _ _ (by omega), loadByte_storeByte,
      if_neg (by omega)]

/-- A stored byte reads as it was stored. -/
theorem loadByte_storeBytes_inside : ∀ (bs : List Byte) (s : State) (a i : Nat), i < bs.length →
    (s.storeBytes a bs).loadByte (a + i) = bs.getD i 0
  | [], _, _, _, h => by simp at h
  | v :: bs, s, a, 0, _ => by
    rw [State.storeBytes, loadByte_storeBytes_outside bs _ _ _ (by omega), loadByte_storeByte]
    simp
  | v :: bs, s, a, i + 1, h => by
    simp only [List.length_cons] at h
    rw [State.storeBytes, show a + (i + 1) = a + 1 + i by omega,
      loadByte_storeBytes_inside bs _ _ _ (by omega)]
    simp

theorem loadBytes_length (s : State) : ∀ (n a : Nat), (s.loadBytes a n).length = n
  | 0, _ => rfl
  | n + 1, a => by simp [State.loadBytes, loadBytes_length s n]

theorem loadBytes_getD (s : State) : ∀ (n a i : Nat), i < n →
    (s.loadBytes a n).getD i 0 = s.loadByte (a + i)
  | 0, _, _, h => by omega
  | n + 1, a, 0, _ => by simp [State.loadBytes]
  | n + 1, a, i + 1, h => by
    simp only [State.loadBytes, List.getD_cons_succ]
    rw [loadBytes_getD s n (a + 1) i (by omega)]
    congr 1
    omega

/-- A run of bytes depends on those bytes only. -/
theorem loadBytes_congr {s t : State} : ∀ (n a : Nat),
    (∀ b, a ≤ b → b < a + n → s.loadByte b = t.loadByte b) → s.loadBytes a n = t.loadBytes a n
  | 0, _, _ => rfl
  | n + 1, a, h => by
    rw [State.loadBytes, State.loadBytes, h a (by omega) (by omega),
      loadBytes_congr n (a + 1) fun b h1 h2 => h b (by omega) (by omega)]

theorem leBytes_length : ∀ n v, (leBytes n v).length = n
  | 0, _ => rfl
  | n + 1, v => by simp [leBytes, leBytes_length n]

theorem sampleBytes_length (l : List Sample) : (sampleBytes l).length = 2 * l.length := by
  induction l with
  | nil => rfl
  | cons v l ih =>
    have : sampleBytes (v :: l) = leBytes 2 v.toNat ++ sampleBytes l := rfl
    rw [this, List.length_append, ih, leBytes_length, List.length_cons]
    omega

theorem sampleBytes_getD : ∀ (l : List Sample) (i : Nat), i < l.length →
    (sampleBytes l).getD (2 * i) 0 = BitVec.ofNat 8 (l.getD i 0).toNat
      ∧ (sampleBytes l).getD (2 * i + 1) 0 = BitVec.ofNat 8 ((l.getD i 0).toNat / 256)
  | [], _, h => by simp at h
  | v :: l, 0, _ => by simp [sampleBytes, leBytes]
  | v :: l, i + 1, h => by
    have := sampleBytes_getD l i (by simpa using h)
    have e : sampleBytes (v :: l)
        = BitVec.ofNat 8 v.toNat :: BitVec.ofNat 8 (v.toNat / 256) :: sampleBytes l := rfl
    rw [e, show 2 * (i + 1) = 2 * i + 1 + 1 by omega]
    simpa using this

/-- OUTBUF holds the samples written. -/
theorem outSample_writeOutbuf (s : State) (l : List Sample) (i : Nat) (h : i < l.length) :
    (s.writeOutbuf l).outSample i = l.getD i 0 := by
  have hl := sampleBytes_length l
  have h0 := loadByte_storeBytes_inside (sampleBytes l) s outbufBase (2 * i) (by omega)
  have h1 := loadByte_storeBytes_inside (sampleBytes l) s outbufBase (2 * i + 1) (by omega)
  have hb := sampleBytes_getD l i h
  rw [hb.1] at h0
  rw [hb.2] at h1
  simp only [State.outSample, State.writeOutbuf, State.loadBytes, leValue]
  rw [show outbufBase + 2 * i + 1 = outbufBase + (2 * i + 1) by omega, h0, h1]
  apply BitVec.eq_of_toNat_eq
  have := (l.getD i 0).isLt
  simp only [BitVec.toNat_ofNat]
  omega

/-- A byte outside OUTBUF[0 .. n-1] is as before. -/
theorem loadByte_writeOutbuf (s : State) (l : List Sample) (a : Nat)
    (h : a < outbufBase ∨ outbufBase + 2 * l.length ≤ a) :
    (s.writeOutbuf l).loadByte a = s.loadByte a :=
  loadByte_storeBytes_outside _ _ _ _ (by rw [sampleBytes_length]; exact h)

/-- Writing OUTBUF changes memory and nothing else. -/
theorem writeOutbuf_eq (s : State) (l : List Sample) :
    s.writeOutbuf l = { s with mem := (s.writeOutbuf l).mem } := storeBytes_eq _ _ _

/-- The memory after OUTBUF is written depends on the memory before it alone. -/
theorem writeOutbuf_mem (s : State) (l : List Sample) :
    (s.writeOutbuf l).mem = putBytes outbufBase (sampleBytes l) s.mem := storeBytes_mem _ _ _

/-- Writing OUTBUF, as an update of the memory. -/
theorem writeOutbuf_put (s : State) (l : List Sample) :
    s.writeOutbuf l = { s with mem := putBytes outbufBase (sampleBytes l) s.mem } := by
  rw [writeOutbuf_eq, writeOutbuf_mem]

/-- What a sample of OUTBUF is depends on the memory and on the number of resets. -/
theorem outSample_congr {s t : State} (hm : s.mem = t.mem) (hr : s.resets = t.resets) (i : Nat) :
    s.outSample i = t.outSample i := by
  simp only [State.outSample, State.loadBytes, loadByte_congr hm hr]

/-- Writing OUTBUF keeps the canonical form. -/
theorem wf_writeOutbuf (s : State) (l : List Sample) (h : Memory.wf s.mem = true) :
    Memory.wf (s.writeOutbuf l).mem = true := wf_storeBytes _ _ _ h

/-- Memory has its canonical form right after reset. -/
theorem wf_reset_mem : Memory.wf State.reset.mem = true := rfl

end Sys2Proof.Machine
end

