-- ==== Sys2Proof/Laws/State.lean ====
section
/-!
SUPPORT. One lemma per field per update of the state: what each named operation leaves as it was, and
what it writes, so that no later proof unfolds a record update.
-/

namespace Sys2Proof.Machine.State

open Sys2Proof

/-! ### FAIL (45_host_commands.md R230) -/

@[simp] theorem fail_par (s : State) (e : Err) :
    (s.fail e).par = s.par := rfl
@[simp] theorem fail_host (s : State) (e : Err) :
    (s.fail e).host = s.host := rfl
@[simp] theorem fail_activity (s : State) (e : Err) :
    (s.fail e).activity = s.activity := rfl
@[simp] theorem fail_resets (s : State) (e : Err) :
    (s.fail e).resets = s.resets := rfl
@[simp] theorem fail_busData (s : State) (e : Err) :
    (s.fail e).busData = s.busData := rfl
@[simp] theorem fail_mem (s : State) (e : Err) :
    (s.fail e).mem = s.mem := rfl
@[simp] theorem fail_cfg (s : State) (e : Err) :
    (s.fail e).cfg = s.cfg := rfl
@[simp] theorem fail_adapter (s : State) (e : Err) :
    (s.fail e).adapter = s.adapter := rfl
@[simp] theorem fail_mode (s : State) (e : Err) :
    (s.fail e).mode = s.mode := rfl
@[simp] theorem fail_queue (s : State) (e : Err) :
    (s.fail e).queue = s.queue := rfl
@[simp] theorem fail_nextSeq (s : State) (e : Err) :
    (s.fail e).nextSeq = s.nextSeq := rfl
@[simp] theorem fail_pending (s : State) (e : Err) :
    (s.fail e).pending = s.pending := rfl
@[simp] theorem fail_frameIndex (s : State) (e : Err) :
    (s.fail e).frameIndex = s.frameIndex := rfl
@[simp] theorem fail_chan0 (s : State) (e : Err) :
    (s.fail e).chan0 = s.chan0 := rfl
@[simp] theorem fail_chan1 (s : State) (e : Err) :
    (s.fail e).chan1 = s.chan1 := rfl
@[simp] theorem fail_seed (s : State) (e : Err) :
    (s.fail e).seed = s.seed := rfl
@[simp] theorem fail_flags (s : State) (e : Err) :
    (s.fail e).flags = s.flags := rfl
@[simp] theorem fail_lastPktErr (s : State) (e : Err) :
    (s.fail e).lastPktErr = s.lastPktErr := rfl
@[simp] theorem fail_errBitpos (s : State) (e : Err) :
    (s.fail e).errBitpos = s.errBitpos := rfl
@[simp] theorem fail_badFrames (s : State) (e : Err) :
    (s.fail e).badFrames = s.badFrames := rfl
@[simp] theorem fail_err (s : State) (e : Err) :
    (s.fail e).err = e := rfl
@[simp] theorem fail_busErr (s : State) (e : Err) :
    (s.fail e).busErr = s.busErr := rfl
@[simp] theorem fail_vlcReady (s : State) (e : Err) :
    (s.fail e).vlcReady = s.vlcReady := rfl
@[simp] theorem fail_arg (s : State) (e : Err) :
    (s.fail e).arg = s.arg := rfl
@[simp] theorem fail_result (s : State) (e : Err) :
    (s.fail e).result = 0 := rfl
@[simp] theorem fail_work (s : State) (e : Err) :
    (s.fail e).work = s.work := rfl

/-! ### SUCCEED (45_host_commands.md R230) -/

@[simp] theorem succeed_par (s : State) (r : Word) :
    (s.succeed r).par = s.par := rfl
@[simp] theorem succeed_host (s : State) (r : Word) :
    (s.succeed r).host = s.host := rfl
@[simp] theorem succeed_activity (s : State) (r : Word) :
    (s.succeed r).activity = s.activity := rfl
@[simp] theorem succeed_resets (s : State) (r : Word) :
    (s.succeed r).resets = s.resets := rfl
@[simp] theorem succeed_busData (s : State) (r : Word) :
    (s.succeed r).busData = s.busData := rfl
@[simp] theorem succeed_mem (s : State) (r : Word) :
    (s.succeed r).mem = s.mem := rfl
@[simp] theorem succeed_cfg (s : State) (r : Word) :
    (s.succeed r).cfg = s.cfg := rfl
@[simp] theorem succeed_adapter (s : State) (r : Word) :
    (s.succeed r).adapter = s.adapter := rfl
@[simp] theorem succeed_mode (s : State) (r : Word) :
    (s.succeed r).mode = s.mode := rfl
@[simp] theorem succeed_queue (s : State) (r : Word) :
    (s.succeed r).queue = s.queue := rfl
@[simp] theorem succeed_nextSeq (s : State) (r : Word) :
    (s.succeed r).nextSeq = s.nextSeq := rfl
@[simp] theorem succeed_pending (s : State) (r : Word) :
    (s.succeed r).pending = s.pending := rfl
@[simp] theorem succeed_frameIndex (s : State) (r : Word) :
    (s.succeed r).frameIndex = s.frameIndex := rfl
@[simp] theorem succeed_chan0 (s : State) (r : Word) :
    (s.succeed r).chan0 = s.chan0 := rfl
@[simp] theorem succeed_chan1 (s : State) (r : Word) :
    (s.succeed r).chan1 = s.chan1 := rfl
@[simp] theorem succeed_seed (s : State) (r : Word) :
    (s.succeed r).seed = s.seed := rfl
@[simp] theorem succeed_flags (s : State) (r : Word) :
    (s.succeed r).flags = s.flags := rfl
@[simp] theorem succeed_lastPktErr (s : State) (r : Word) :
    (s.succeed r).lastPktErr = s.lastPktErr := rfl
@[simp] theorem succeed_errBitpos (s : State) (r : Word) :
    (s.succeed r).errBitpos = s.errBitpos := rfl
@[simp] theorem succeed_badFrames (s : State) (r : Word) :
    (s.succeed r).badFrames = s.badFrames := rfl
@[simp] theorem succeed_err (s : State) (r : Word) :
    (s.succeed r).err = .kOk := rfl
@[simp] theorem succeed_busErr (s : State) (r : Word) :
    (s.succeed r).busErr = s.busErr := rfl
@[simp] theorem succeed_vlcReady (s : State) (r : Word) :
    (s.succeed r).vlcReady = s.vlcReady := rfl
@[simp] theorem succeed_arg (s : State) (r : Word) :
    (s.succeed r).arg = s.arg := rfl
@[simp] theorem succeed_result (s : State) (r : Word) :
    (s.succeed r).result = r := rfl
@[simp] theorem succeed_work (s : State) (r : Word) :
    (s.succeed r).work = s.work := rfl

/-! ### A channel's record replaced -/

@[simp] theorem setChan_par (s : State) (c : Ch) (v : Chan) :
    (s.setChan c v).par = s.par := by cases c <;> rfl
@[simp] theorem setChan_host (s : State) (c : Ch) (v : Chan) :
    (s.setChan c v).host = s.host := by cases c <;> rfl
@[simp] theorem setChan_activity (s : State) (c : Ch) (v : Chan) :
    (s.setChan c v).activity = s.activity := by cases c <;> rfl
@[simp] theorem setChan_resets (s : State) (c : Ch) (v : Chan) :
    (s.setChan c v).resets = s.resets := by cases c <;> rfl
@[simp] theorem setChan_busData (s : State) (c : Ch) (v : Chan) :
    (s.setChan c v).busData = s.busData := by cases c <;> rfl
@[simp] theorem setChan_mem (s : State) (c : Ch) (v : Chan) :
    (s.setChan c v).mem = s.mem := by cases c <;> rfl
@[simp] theorem setChan_cfg (s : State) (c : Ch) (v : Chan) :
    (s.setChan c v).cfg = s.cfg := by cases c <;> rfl
@[simp] theorem setChan_adapter (s : State) (c : Ch) (v : Chan) :
    (s.setChan c v).adapter = s.adapter := by cases c <;> rfl
@[simp] theorem setChan_mode (s : State) (c : Ch) (v : Chan) :
    (s.setChan c v).mode = s.mode := by cases c <;> rfl
@[simp] theorem setChan_queue (s : State) (c : Ch) (v : Chan) :
    (s.setChan c v).queue = s.queue := by cases c <;> rfl
@[simp] theorem setChan_nextSeq (s : State) (c : Ch) (v : Chan) :
    (s.setChan c v).nextSeq = s.nextSeq := by cases c <;> rfl
@[simp] theorem setChan_pending (s : State) (c : Ch) (v : Chan) :
    (s.setChan c v).pending = s.pending := by cases c <;> rfl
@[simp] theorem setChan_frameIndex (s : State) (c : Ch) (v : Chan) :
    (s.setChan c v).frameIndex = s.frameIndex := by cases c <;> rfl
@[simp] theorem setChan_seed (s : State) (c : Ch) (v : Chan) :
    (s.setChan c v).seed = s.seed := by cases c <;> rfl
@[simp] theorem setChan_flags (s : State) (c : Ch) (v : Chan) :
    (s.setChan c v).flags = s.flags := by cases c <;> rfl
@[simp] theorem setChan_lastPktErr (s : State) (c : Ch) (v : Chan) :
    (s.setChan c v).lastPktErr = s.lastPktErr := by cases c <;> rfl
@[simp] theorem setChan_errBitpos (s : State) (c : Ch) (v : Chan) :
    (s.setChan c v).errBitpos = s.errBitpos := by cases c <;> rfl
@[simp] theorem setChan_badFrames (s : State) (c : Ch) (v : Chan) :
    (s.setChan c v).badFrames = s.badFrames := by cases c <;> rfl
@[simp] theorem setChan_err (s : State) (c : Ch) (v : Chan) :
    (s.setChan c v).err = s.err := by cases c <;> rfl
@[simp] theorem setChan_busErr (s : State) (c : Ch) (v : Chan) :
    (s.setChan c v).busErr = s.busErr := by cases c <;> rfl
@[simp] theorem setChan_vlcReady (s : State) (c : Ch) (v : Chan) :
    (s.setChan c v).vlcReady = s.vlcReady := by cases c <;> rfl
@[simp] theorem setChan_arg (s : State) (c : Ch) (v : Chan) :
    (s.setChan c v).arg = s.arg := by cases c <;> rfl
@[simp] theorem setChan_result (s : State) (c : Ch) (v : Chan) :
    (s.setChan c v).result = s.result := by cases c <;> rfl
@[simp] theorem setChan_work (s : State) (c : Ch) (v : Chan) :
    (s.setChan c v).work = s.work := by cases c <;> rfl

/-! ### One byte stored -/

@[simp] theorem storeByte_par (s : State) (a : Nat) (v : Byte) :
    (s.storeByte a v).par = s.par := rfl
@[simp] theorem storeByte_host (s : State) (a : Nat) (v : Byte) :
    (s.storeByte a v).host = s.host := rfl
@[simp] theorem storeByte_activity (s : State) (a : Nat) (v : Byte) :
    (s.storeByte a v).activity = s.activity := rfl
@[simp] theorem storeByte_resets (s : State) (a : Nat) (v : Byte) :
    (s.storeByte a v).resets = s.resets := rfl
@[simp] theorem storeByte_busData (s : State) (a : Nat) (v : Byte) :
    (s.storeByte a v).busData = s.busData := rfl
@[simp] theorem storeByte_mem (s : State) (a : Nat) (v : Byte) :
    (s.storeByte a v).mem = Assoc.put a v s.mem := rfl
@[simp] theorem storeByte_cfg (s : State) (a : Nat) (v : Byte) :
    (s.storeByte a v).cfg = s.cfg := rfl
@[simp] theorem storeByte_adapter (s : State) (a : Nat) (v : Byte) :
    (s.storeByte a v).adapter = s.adapter := rfl
@[simp] theorem storeByte_mode (s : State) (a : Nat) (v : Byte) :
    (s.storeByte a v).mode = s.mode := rfl
@[simp] theorem storeByte_queue (s : State) (a : Nat) (v : Byte) :
    (s.storeByte a v).queue = s.queue := rfl
@[simp] theorem storeByte_nextSeq (s : State) (a : Nat) (v : Byte) :
    (s.storeByte a v).nextSeq = s.nextSeq := rfl
@[simp] theorem storeByte_pending (s : State) (a : Nat) (v : Byte) :
    (s.storeByte a v).pending = s.pending := rfl
@[simp] theorem storeByte_frameIndex (s : State) (a : Nat) (v : Byte) :
    (s.storeByte a v).frameIndex = s.frameIndex := rfl
@[simp] theorem storeByte_chan0 (s : State) (a : Nat) (v : Byte) :
    (s.storeByte a v).chan0 = s.chan0 := rfl
@[simp] theorem storeByte_chan1 (s : State) (a : Nat) (v : Byte) :
    (s.storeByte a v).chan1 = s.chan1 := rfl
@[simp] theorem storeByte_seed (s : State) (a : Nat) (v : Byte) :
    (s.storeByte a v).seed = s.seed := rfl
@[simp] theorem storeByte_flags (s : State) (a : Nat) (v : Byte) :
    (s.storeByte a v).flags = s.flags := rfl
@[simp] theorem storeByte_lastPktErr (s : State) (a : Nat) (v : Byte) :
    (s.storeByte a v).lastPktErr = s.lastPktErr := rfl
@[simp] theorem storeByte_errBitpos (s : State) (a : Nat) (v : Byte) :
    (s.storeByte a v).errBitpos = s.errBitpos := rfl
@[simp] theorem storeByte_badFrames (s : State) (a : Nat) (v : Byte) :
    (s.storeByte a v).badFrames = s.badFrames := rfl
@[simp] theorem storeByte_err (s : State) (a : Nat) (v : Byte) :
    (s.storeByte a v).err = s.err := rfl
@[simp] theorem storeByte_busErr (s : State) (a : Nat) (v : Byte) :
    (s.storeByte a v).busErr = s.busErr := rfl
@[simp] theorem storeByte_vlcReady (s : State) (a : Nat) (v : Byte) :
    (s.storeByte a v).vlcReady = s.vlcReady := rfl
@[simp] theorem storeByte_arg (s : State) (a : Nat) (v : Byte) :
    (s.storeByte a v).arg = s.arg := rfl
@[simp] theorem storeByte_result (s : State) (a : Nat) (v : Byte) :
    (s.storeByte a v).result = s.result := rfl
@[simp] theorem storeByte_work (s : State) (a : Nat) (v : Byte) :
    (s.storeByte a v).work = s.work := rfl

/-! ### OUTBUF written (20_memory.md R62) -/

@[simp] theorem writeOutbuf_par (s : State) (l : List Sample) :
    (s.writeOutbuf l).par = s.par := by rw [writeOutbuf_eq]
@[simp] theorem writeOutbuf_host (s : State) (l : List Sample) :
    (s.writeOutbuf l).host = s.host := by rw [writeOutbuf_eq]
@[simp] theorem writeOutbuf_activity (s : State) (l : List Sample) :
    (s.writeOutbuf l).activity = s.activity := by rw [writeOutbuf_eq]
@[simp] theorem writeOutbuf_resets (s : State) (l : List Sample) :
    (s.writeOutbuf l).resets = s.resets := by rw [writeOutbuf_eq]
@[simp] theorem writeOutbuf_busData (s : State) (l : List Sample) :
    (s.writeOutbuf l).busData = s.busData := by rw [writeOutbuf_eq]
@[simp] theorem writeOutbuf_cfg (s : State) (l : List Sample) :
    (s.writeOutbuf l).cfg = s.cfg := by rw [writeOutbuf_eq]
@[simp] theorem writeOutbuf_adapter (s : State) (l : List Sample) :
    (s.writeOutbuf l).adapter = s.adapter := by rw [writeOutbuf_eq]
@[simp] theorem writeOutbuf_mode (s : State) (l : List Sample) :
    (s.writeOutbuf l).mode = s.mode := by rw [writeOutbuf_eq]
@[simp] theorem writeOutbuf_queue (s : State) (l : List Sample) :
    (s.writeOutbuf l).queue = s.queue := by rw [writeOutbuf_eq]
@[simp] theorem writeOutbuf_nextSeq (s : State) (l : List Sample) :
    (s.writeOutbuf l).nextSeq = s.nextSeq := by rw [writeOutbuf_eq]
@[simp] theorem writeOutbuf_pending (s : State) (l : List Sample) :
    (s.writeOutbuf l).pending = s.pending := by rw [writeOutbuf_eq]
@[simp] theorem writeOutbuf_frameIndex (s : State) (l : List Sample) :
    (s.writeOutbuf l).frameIndex = s.frameIndex := by rw [writeOutbuf_eq]
@[simp] theorem writeOutbuf_chan0 (s : State) (l : List Sample) :
    (s.writeOutbuf l).chan0 = s.chan0 := by rw [writeOutbuf_eq]
@[simp] theorem writeOutbuf_chan1 (s : State) (l : List Sample) :
    (s.writeOutbuf l).chan1 = s.chan1 := by rw [writeOutbuf_eq]
@[simp] theorem writeOutbuf_seed (s : State) (l : List Sample) :
    (s.writeOutbuf l).seed = s.seed := by rw [writeOutbuf_eq]
@[simp] theorem writeOutbuf_flags (s : State) (l : List Sample) :
    (s.writeOutbuf l).flags = s.flags := by rw [writeOutbuf_eq]
@[simp] theorem writeOutbuf_lastPktErr (s : State) (l : List Sample) :
    (s.writeOutbuf l).lastPktErr = s.lastPktErr := by rw [writeOutbuf_eq]
@[simp] theorem writeOutbuf_errBitpos (s : State) (l : List Sample) :
    (s.writeOutbuf l).errBitpos = s.errBitpos := by rw [writeOutbuf_eq]
@[simp] theorem writeOutbuf_badFrames (s : State) (l : List Sample) :
    (s.writeOutbuf l).badFrames = s.badFrames := by rw [writeOutbuf_eq]
@[simp] theorem writeOutbuf_err (s : State) (l : List Sample) :
    (s.writeOutbuf l).err = s.err := by rw [writeOutbuf_eq]
@[simp] theorem writeOutbuf_busErr (s : State) (l : List Sample) :
    (s.writeOutbuf l).busErr = s.busErr := by rw [writeOutbuf_eq]
@[simp] theorem writeOutbuf_vlcReady (s : State) (l : List Sample) :
    (s.writeOutbuf l).vlcReady = s.vlcReady := by rw [writeOutbuf_eq]
@[simp] theorem writeOutbuf_arg (s : State) (l : List Sample) :
    (s.writeOutbuf l).arg = s.arg := by rw [writeOutbuf_eq]
@[simp] theorem writeOutbuf_result (s : State) (l : List Sample) :
    (s.writeOutbuf l).result = s.result := by rw [writeOutbuf_eq]
@[simp] theorem writeOutbuf_work (s : State) (l : List Sample) :
    (s.writeOutbuf l).work = s.work := by rw [writeOutbuf_eq]

/-! ### COMMIT (43_spectral.md R190) -/

@[simp] theorem commit_par (s : State) (sh : Shadow) :
    (s.commit sh).par = s.par := rfl
@[simp] theorem commit_host (s : State) (sh : Shadow) :
    (s.commit sh).host = s.host := rfl
@[simp] theorem commit_activity (s : State) (sh : Shadow) :
    (s.commit sh).activity = s.activity := rfl
@[simp] theorem commit_resets (s : State) (sh : Shadow) :
    (s.commit sh).resets = s.resets := rfl
@[simp] theorem commit_busData (s : State) (sh : Shadow) :
    (s.commit sh).busData = s.busData := rfl
@[simp] theorem commit_mem (s : State) (sh : Shadow) :
    (s.commit sh).mem = s.mem := rfl
@[simp] theorem commit_cfg (s : State) (sh : Shadow) :
    (s.commit sh).cfg = s.cfg := rfl
@[simp] theorem commit_adapter (s : State) (sh : Shadow) :
    (s.commit sh).adapter = s.adapter := rfl
@[simp] theorem commit_mode (s : State) (sh : Shadow) :
    (s.commit sh).mode = s.mode := rfl
@[simp] theorem commit_queue (s : State) (sh : Shadow) :
    (s.commit sh).queue = s.queue := rfl
@[simp] theorem commit_nextSeq (s : State) (sh : Shadow) :
    (s.commit sh).nextSeq = s.nextSeq := rfl
@[simp] theorem commit_pending (s : State) (sh : Shadow) :
    (s.commit sh).pending = s.pending := rfl
@[simp] theorem commit_frameIndex (s : State) (sh : Shadow) :
    (s.commit sh).frameIndex = s.frameIndex := rfl
@[simp] theorem commit_chan0 (s : State) (sh : Shadow) :
    (s.commit sh).chan0 = { s.chan0 with env := sh.ch0.env, tones := sh.ch0.tones } := rfl
@[simp] theorem commit_chan1 (s : State) (sh : Shadow) :
    (s.commit sh).chan1 = { s.chan1 with env := sh.ch1.env, tones := sh.ch1.tones } := rfl
@[simp] theorem commit_seed (s : State) (sh : Shadow) :
    (s.commit sh).seed = sh.seed := rfl
@[simp] theorem commit_flags (s : State) (sh : Shadow) :
    (s.commit sh).flags = sh.flags := rfl
@[simp] theorem commit_lastPktErr (s : State) (sh : Shadow) :
    (s.commit sh).lastPktErr = s.lastPktErr := rfl
@[simp] theorem commit_errBitpos (s : State) (sh : Shadow) :
    (s.commit sh).errBitpos = s.errBitpos := rfl
@[simp] theorem commit_badFrames (s : State) (sh : Shadow) :
    (s.commit sh).badFrames = s.badFrames := rfl
@[simp] theorem commit_err (s : State) (sh : Shadow) :
    (s.commit sh).err = s.err := rfl
@[simp] theorem commit_busErr (s : State) (sh : Shadow) :
    (s.commit sh).busErr = s.busErr := rfl
@[simp] theorem commit_vlcReady (s : State) (sh : Shadow) :
    (s.commit sh).vlcReady = s.vlcReady := rfl
@[simp] theorem commit_arg (s : State) (sh : Shadow) :
    (s.commit sh).arg = s.arg := rfl
@[simp] theorem commit_result (s : State) (sh : Shadow) :
    (s.commit sh).result = s.result := rfl
@[simp] theorem commit_work (s : State) (sh : Shadow) :
    (s.commit sh).work = s.work := rfl

/-! ### Tone aging (43_spectral.md R191 to R193) -/

@[simp] theorem ageTones_par (s : State) (t0 t1 : List Nat) :
    (s.ageTones t0 t1).par = s.par := rfl
@[simp] theorem ageTones_host (s : State) (t0 t1 : List Nat) :
    (s.ageTones t0 t1).host = s.host := rfl
@[simp] theorem ageTones_activity (s : State) (t0 t1 : List Nat) :
    (s.ageTones t0 t1).activity = s.activity := rfl
@[simp] theorem ageTones_resets (s : State) (t0 t1 : List Nat) :
    (s.ageTones t0 t1).resets = s.resets := rfl
@[simp] theorem ageTones_busData (s : State) (t0 t1 : List Nat) :
    (s.ageTones t0 t1).busData = s.busData := rfl
@[simp] theorem ageTones_mem (s : State) (t0 t1 : List Nat) :
    (s.ageTones t0 t1).mem = s.mem := rfl
@[simp] theorem ageTones_cfg (s : State) (t0 t1 : List Nat) :
    (s.ageTones t0 t1).cfg = s.cfg := rfl
@[simp] theorem ageTones_adapter (s : State) (t0 t1 : List Nat) :
    (s.ageTones t0 t1).adapter = s.adapter := rfl
@[simp] theorem ageTones_mode (s : State) (t0 t1 : List Nat) :
    (s.ageTones t0 t1).mode = s.mode := rfl
@[simp] theorem ageTones_queue (s : State) (t0 t1 : List Nat) :
    (s.ageTones t0 t1).queue = s.queue := rfl
@[simp] theorem ageTones_nextSeq (s : State) (t0 t1 : List Nat) :
    (s.ageTones t0 t1).nextSeq = s.nextSeq := rfl
@[simp] theorem ageTones_pending (s : State) (t0 t1 : List Nat) :
    (s.ageTones t0 t1).pending = s.pending := rfl
@[simp] theorem ageTones_frameIndex (s : State) (t0 t1 : List Nat) :
    (s.ageTones t0 t1).frameIndex = s.frameIndex := rfl
@[simp] theorem ageTones_seed (s : State) (t0 t1 : List Nat) :
    (s.ageTones t0 t1).seed = s.seed := rfl
@[simp] theorem ageTones_flags (s : State) (t0 t1 : List Nat) :
    (s.ageTones t0 t1).flags = s.flags := rfl
@[simp] theorem ageTones_lastPktErr (s : State) (t0 t1 : List Nat) :
    (s.ageTones t0 t1).lastPktErr = s.lastPktErr := rfl
@[simp] theorem ageTones_errBitpos (s : State) (t0 t1 : List Nat) :
    (s.ageTones t0 t1).errBitpos = s.errBitpos := rfl
@[simp] theorem ageTones_badFrames (s : State) (t0 t1 : List Nat) :
    (s.ageTones t0 t1).badFrames = s.badFrames := rfl
@[simp] theorem ageTones_err (s : State) (t0 t1 : List Nat) :
    (s.ageTones t0 t1).err = s.err := rfl
@[simp] theorem ageTones_busErr (s : State) (t0 t1 : List Nat) :
    (s.ageTones t0 t1).busErr = s.busErr := rfl
@[simp] theorem ageTones_vlcReady (s : State) (t0 t1 : List Nat) :
    (s.ageTones t0 t1).vlcReady = s.vlcReady := rfl
@[simp] theorem ageTones_arg (s : State) (t0 t1 : List Nat) :
    (s.ageTones t0 t1).arg = s.arg := rfl
@[simp] theorem ageTones_result (s : State) (t0 t1 : List Nat) :
    (s.ageTones t0 t1).result = s.result := rfl
@[simp] theorem ageTones_work (s : State) (t0 t1 : List Nat) :
    (s.ageTones t0 t1).work = s.work := rfl

/-! ### The counters (44_synthesis.md R220) -/

@[simp] theorem advanceClock_par (s : State) :
    (s.advanceClock).par = s.par := rfl
@[simp] theorem advanceClock_host (s : State) :
    (s.advanceClock).host = s.host := rfl
@[simp] theorem advanceClock_activity (s : State) :
    (s.advanceClock).activity = s.activity := rfl
@[simp] theorem advanceClock_resets (s : State) :
    (s.advanceClock).resets = s.resets := rfl
@[simp] theorem advanceClock_busData (s : State) :
    (s.advanceClock).busData = s.busData := rfl
@[simp] theorem advanceClock_mem (s : State) :
    (s.advanceClock).mem = s.mem := rfl
@[simp] theorem advanceClock_cfg (s : State) :
    (s.advanceClock).cfg = s.cfg := rfl
@[simp] theorem advanceClock_adapter (s : State) :
    (s.advanceClock).adapter = s.adapter := rfl
@[simp] theorem advanceClock_mode (s : State) :
    (s.advanceClock).mode = s.mode := rfl
@[simp] theorem advanceClock_queue (s : State) :
    (s.advanceClock).queue = s.queue := rfl
@[simp] theorem advanceClock_nextSeq (s : State) :
    (s.advanceClock).nextSeq = s.nextSeq := rfl
@[simp] theorem advanceClock_pending (s : State) :
    (s.advanceClock).pending = s.pending := rfl
@[simp] theorem advanceClock_frameIndex (s : State) :
    (s.advanceClock).frameIndex = s.frameIndex + 1 := rfl
@[simp] theorem advanceClock_seed (s : State) :
    (s.advanceClock).seed = s.seed := rfl
@[simp] theorem advanceClock_flags (s : State) :
    (s.advanceClock).flags = s.flags := rfl
@[simp] theorem advanceClock_lastPktErr (s : State) :
    (s.advanceClock).lastPktErr = s.lastPktErr := rfl
@[simp] theorem advanceClock_errBitpos (s : State) :
    (s.advanceClock).errBitpos = s.errBitpos := rfl
@[simp] theorem advanceClock_badFrames (s : State) :
    (s.advanceClock).badFrames = s.badFrames := rfl
@[simp] theorem advanceClock_err (s : State) :
    (s.advanceClock).err = s.err := rfl
@[simp] theorem advanceClock_busErr (s : State) :
    (s.advanceClock).busErr = s.busErr := rfl
@[simp] theorem advanceClock_vlcReady (s : State) :
    (s.advanceClock).vlcReady = s.vlcReady := rfl
@[simp] theorem advanceClock_arg (s : State) :
    (s.advanceClock).arg = s.arg := rfl
@[simp] theorem advanceClock_result (s : State) :
    (s.advanceClock).result = s.result := rfl
@[simp] theorem advanceClock_work (s : State) :
    (s.advanceClock).work = s.work := rfl

/-! ### The error registers (44_synthesis.md R220) -/

@[simp] theorem recordFrame_par (s : State) (r : FrameResult) :
    (s.recordFrame r).par = s.par := by cases r <;> rfl
@[simp] theorem recordFrame_host (s : State) (r : FrameResult) :
    (s.recordFrame r).host = s.host := by cases r <;> rfl
@[simp] theorem recordFrame_activity (s : State) (r : FrameResult) :
    (s.recordFrame r).activity = s.activity := by cases r <;> rfl
@[simp] theorem recordFrame_resets (s : State) (r : FrameResult) :
    (s.recordFrame r).resets = s.resets := by cases r <;> rfl
@[simp] theorem recordFrame_busData (s : State) (r : FrameResult) :
    (s.recordFrame r).busData = s.busData := by cases r <;> rfl
@[simp] theorem recordFrame_mem (s : State) (r : FrameResult) :
    (s.recordFrame r).mem = s.mem := by cases r <;> rfl
@[simp] theorem recordFrame_cfg (s : State) (r : FrameResult) :
    (s.recordFrame r).cfg = s.cfg := by cases r <;> rfl
@[simp] theorem recordFrame_adapter (s : State) (r : FrameResult) :
    (s.recordFrame r).adapter = s.adapter := by cases r <;> rfl
@[simp] theorem recordFrame_mode (s : State) (r : FrameResult) :
    (s.recordFrame r).mode = s.mode := by cases r <;> rfl
@[simp] theorem recordFrame_queue (s : State) (r : FrameResult) :
    (s.recordFrame r).queue = s.queue := by cases r <;> rfl
@[simp] theorem recordFrame_nextSeq (s : State) (r : FrameResult) :
    (s.recordFrame r).nextSeq = s.nextSeq := by cases r <;> rfl
@[simp] theorem recordFrame_pending (s : State) (r : FrameResult) :
    (s.recordFrame r).pending = s.pending := by cases r <;> rfl
@[simp] theorem recordFrame_frameIndex (s : State) (r : FrameResult) :
    (s.recordFrame r).frameIndex = s.frameIndex := by cases r <;> rfl
@[simp] theorem recordFrame_chan0 (s : State) (r : FrameResult) :
    (s.recordFrame r).chan0 = s.chan0 := by cases r <;> rfl
@[simp] theorem recordFrame_chan1 (s : State) (r : FrameResult) :
    (s.recordFrame r).chan1 = s.chan1 := by cases r <;> rfl
@[simp] theorem recordFrame_seed (s : State) (r : FrameResult) :
    (s.recordFrame r).seed = s.seed := by cases r <;> rfl
@[simp] theorem recordFrame_flags (s : State) (r : FrameResult) :
    (s.recordFrame r).flags = s.flags := by cases r <;> rfl
@[simp] theorem recordFrame_err (s : State) (r : FrameResult) :
    (s.recordFrame r).err = s.err := by cases r <;> rfl
@[simp] theorem recordFrame_busErr (s : State) (r : FrameResult) :
    (s.recordFrame r).busErr = s.busErr := by cases r <;> rfl
@[simp] theorem recordFrame_vlcReady (s : State) (r : FrameResult) :
    (s.recordFrame r).vlcReady = s.vlcReady := by cases r <;> rfl
@[simp] theorem recordFrame_arg (s : State) (r : FrameResult) :
    (s.recordFrame r).arg = s.arg := by cases r <;> rfl
@[simp] theorem recordFrame_result (s : State) (r : FrameResult) :
    (s.recordFrame r).result = s.result := by cases r <;> rfl
@[simp] theorem recordFrame_work (s : State) (r : FrameResult) :
    (s.recordFrame r).work = s.work := by cases r <;> rfl

/-! ### Channels -/

@[simp] theorem chan_setChan (s : State) (c : Ch) (v : Chan) : (s.setChan c v).chan c = v := by
  cases c <;> rfl

theorem chan_setChan_of_ne (s : State) {c d : Ch} (v : Chan) (h : d ≠ c) :
    (s.setChan c v).chan d = s.chan d := by
  cases c <;> cases d <;> first | rfl | exact absurd rfl h

@[simp] theorem chan_c0 (s : State) : s.chan .c0 = s.chan0 := rfl

@[simp] theorem chan_c1 (s : State) : s.chan .c1 = s.chan1 := rfl

theorem chan_fail (s : State) (e : Err) (c : Ch) : (s.fail e).chan c = s.chan c := by
  cases c <;> rfl

theorem chan_succeed (s : State) (r : Word) (c : Ch) : (s.succeed r).chan c = s.chan c := by
  cases c <;> rfl

@[simp] theorem chan_commit (s : State) (sh : Shadow) (c : Ch) :
    (s.commit sh).chan c = { s.chan c with env := (sh.chan c).env, tones := (sh.chan c).tones } := by
  cases c <;> rfl

@[simp] theorem chan_recordFrame (s : State) (r : FrameResult) (c : Ch) :
    (s.recordFrame r).chan c = s.chan c := by
  cases c <;> cases r <;> rfl

/-- Aging one channel of the stream, or a channel the stream does not have. -/
@[simp] theorem chan_ageTones (s : State) (t0 t1 : List Nat) (c : Ch) :
    (s.ageTones t0 t1).chan c = if c.index < s.channelCount
      then (s.chan c).age s.par s.frameIndex (match c with | .c0 => t0 | .c1 => t1)
      else s.chan c := by
  cases c <;> rfl

/-- The sample count of one channel of the stream, or of one the stream does not have. -/
@[simp] theorem chan_advanceClock (s : State) (c : Ch) :
    s.advanceClock.chan c = { s.chan c with sampleCount :=
      if c.index < s.channelCount then (s.chan c).sampleCount + BitVec.ofNat 64 s.spf
      else (s.chan c).sampleCount } := by
  cases c <;> rfl

/-! ### The configuration of a model (00_scope.md R7; 40_bitreader_vlc.md R126) -/

/-- A model is configured exactly with an assignment that passes the check, and starts at its reset. -/
theorem configured_eq_ok {p : Params} {s : State} :
    State.configured p = .ok s ↔ paramsValid p = true ∧ s = State.resetWith p [] 0 := by
  unfold State.configured
  split
  · rename_i h; simp [h, eq_comm]
  · rename_i h; simp [h]

/-- The state a model starts in has the parameters it was configured with. -/
@[simp] theorem resetWith_par (p : Params) (h : List HostEvent) (n : Nat) :
    (State.resetWith p h n).par = p := rfl

end Sys2Proof.Machine.State
end

