-- ==== Sys2Proof/Laws/Frame.lean ====
section
/-!
SUPPORT. What the synthesis and the end of a frame decode can do (44_synthesis.md R219 to R221): each
channel's synthesis reads and changes its own record only, and nothing else but the work buffers.
-/

namespace Sys2Proof.Machine

open Sys2Proof

/-- The two states agree in all the synthesis of channel `c` reads. -/
structure SynthSame (s t : State) (c : Ch) : Prop where
  par : t.par = s.par
  cfg : t.cfg = s.cfg
  seed : t.seed = s.seed
  frameIndex : t.frameIndex = s.frameIndex
  chan : t.chan c = s.chan c

/-- What the synthesis `t` of channel `c` of `s` leaves unchanged. -/
structure SynthFrame (s t : State) (c : Ch) : Prop where
  eq : t = { s with chan0 := t.chan0, chan1 := t.chan1, work := t.work }
  other : ∀ d, d ≠ c → t.chan d = s.chan d
  env : (t.chan c).env = (s.chan c).env
  tones : (t.chan c).tones = (s.chan c).tones
  sampleCount : (t.chan c).sampleCount = (s.chan c).sampleCount

theorem spectrumBuild_frame (s : State) (c : Ch) : SynthFrame s (s.spectrumBuild c) c := by
  cases c <;> exact ⟨rfl, fun d h => by cases d <;> first | rfl | exact absurd rfl h, rfl, rfl, rfl⟩

theorem synth_frame (s : State) (c : Ch) : SynthFrame s (s.synth c).1 c := by
  cases c <;> exact ⟨rfl, fun d h => by cases d <;> first | rfl | exact absurd rfl h, rfl, rfl, rfl⟩

theorem badSynth_frame (s : State) (c : Ch) : SynthFrame s (s.badSynth c).1 c := by
  cases c <;> exact ⟨rfl, fun d h => by cases d <;> first | rfl | exact absurd rfl h, rfl, rfl, rfl⟩

/-- A bad frame's synthesis runs no spectrum build and no IFFT (43_spectral.md R203). -/
theorem badSynth_work (s : State) (c : Ch) : (s.badSynth c).1.work = s.work := by cases c <;> rfl

theorem frameResult_synth_frame (r : FrameResult) (s : State) (c : Ch) :
    SynthFrame s (r.synth s c).1 c := by
  cases r
  · exact synth_frame s c
  · exact badSynth_frame s c

/-- The synthesis of a channel depends on that channel's record, the configuration, SEED and
FRAME_INDEX only. -/
theorem synth_local {s t : State} {c : Ch} (h : SynthSame s t c) :
    (t.synth c).2 = (s.synth c).2 ∧ (t.synth c).1.chan c = (s.synth c).1.chan c := by
  obtain ⟨h1, h2, h3, h4, h5⟩ := h
  cases c <;> simp only [State.chan] at h5 <;>
    simp only [State.synth, State.spectrumBuild, State.setChan, State.chan, State.bandBins,
      State.band, State.numBands, State.fftN, State.fftL, State.spf, h1, h2, h3, h4, h5, and_self]

/-- The same for a bad frame. -/
theorem badSynth_local {s t : State} {c : Ch} (h : SynthSame s t c) :
    (t.badSynth c).2 = (s.badSynth c).2 ∧ (t.badSynth c).1.chan c = (s.badSynth c).1.chan c := by
  obtain ⟨h1, h2, h3, h4, h5⟩ := h
  cases c <;> simp only [State.chan] at h5 <;>
    simp only [State.badSynth, State.setChan, State.chan, State.fftN, State.spf, h1, h2, h5,
      and_self]

theorem frameResult_synth_local (r : FrameResult) {s t : State} {c : Ch} (h : SynthSame s t c) :
    (r.synth t c).2 = (r.synth s c).2 ∧ (r.synth t c).1.chan c = (r.synth s c).1.chan c := by
  cases r
  · exact synth_local h
  · exact badSynth_local h

/-- What the synthesis of the channels `cs` in turn gives. -/
structure SynthAllSpec (r : FrameResult) (cs : List Ch) (s : State)
    (a : State × List (List Sample)) : Prop where
  eq : a.1 = { s with chan0 := a.1.chan0, chan1 := a.1.chan1, work := a.1.work }
  pcm : a.2 = cs.map fun c => (r.synth s c).2
  done : ∀ c ∈ cs, a.1.chan c = (r.synth s c).1.chan c
  other : ∀ c, c ∉ cs → a.1.chan c = s.chan c

/-- The synthesis of the channels in turn: each from the state before all of them. -/
theorem synthAll_spec (r : FrameResult) : ∀ (cs : List Ch) (s : State), cs.Nodup →
    SynthAllSpec r cs s (synthAll r.synth cs s)
  | [], s, _ => ⟨rfl, rfl, by simp, fun _ _ => rfl⟩
  | c :: cs, s, h => by
    obtain ⟨hc, hcs⟩ := List.nodup_cons.1 h
    have f := frameResult_synth_frame r s c
    have ih := synthAll_spec r cs (r.synth s c).1 hcs
    have e : synthAll r.synth (c :: cs) s
        = ((synthAll r.synth cs (r.synth s c).1).1,
          (r.synth s c).2 :: (synthAll r.synth cs (r.synth s c).1).2) := rfl
    have same : ∀ d ∈ cs, SynthSame s (r.synth s c).1 d := fun d hd => by
      have hne : d ≠ c := fun e => hc (e ▸ hd)
      have := f.eq
      exact ⟨by rw [this], by rw [this], by rw [this], by rw [this], f.other d hne⟩
    rw [e]
    refine ⟨?_, ?_, ?_, ?_⟩
    · have h1 := ih.eq
      have h2 := f.eq
      generalize (synthAll r.synth cs (r.synth s c).1).1 = a at h1 ⊢
      generalize (r.synth s c).1 = b at h1 h2
      rw [h2] at h1
      exact h1
    · simp only [List.map_cons, ih.pcm, List.cons.injEq, true_and]
      exact List.map_congr_left fun d hd => (frameResult_synth_local r (same d hd)).1
    · intro d hd
      rcases List.mem_cons.1 hd with rfl | hd
      · exact ih.other d hc
      · exact (ih.done d hd).trans (frameResult_synth_local r (same d hd)).2
    · intro d hd
      simp only [List.mem_cons, not_or] at hd
      exact (ih.other d hd.2).trans (f.other d hd.1)

theorem channels_nodup (s : State) : s.channels.Nodup :=
  List.Nodup.sublist (List.take_sublist _ _) (by decide)

/-- Channel `c` is one of the stream's. -/
theorem mem_channels (s : State) (c : Ch) : c ∈ s.channels ↔ c.index < s.channelCount := by
  unfold State.channels
  rcases s.channelCount with _ | _ | n <;> cases c <;> simp [Ch.index]

theorem channels_length (s : State) (h : s.channelCount ≤ 2) : s.channels.length = s.channelCount := by
  simp [State.channels, h]

/-- A frame has spf samples of each channel's. -/
theorem interleave_length (spf : Nat) (pcm : List (List Sample)) :
    (interleave spf pcm).length = spf * pcm.length := by
  simp [interleave]

/-- Settling a parse changes SEED, FLAGS and the channels, as 43_spectral.md R190 to R193 say. -/
theorem settleParse_eq (s : State) (r : FrameResult) :
    s.settleParse r = { s with
      seed := match r with | .good sh => sh.seed | .bad _ _ => s.seed
      flags := match r with | .good sh => sh.flags | .bad _ _ => s.flags
      chan0 := (s.settleParse r).chan0, chan1 := (s.settleParse r).chan1 } := by
  cases r <;> rfl

/-- The end of a frame decode: the synthesis of the settled state, then the counters and the error
registers. -/
theorem endFrame_eq (s : State) (r : FrameResult) :
    s.endFrame r = ((synthAll r.synth s.channels (s.settleParse r)).1.advanceClock.recordFrame r,
      interleave s.spf (synthAll r.synth s.channels (s.settleParse r)).2) := by
  have h := (synthAll_spec r s.channels (s.settleParse r) (channels_nodup s)).eq
  have h2 := settleParse_eq s r
  unfold State.endFrame
  simp only
  congr 2
  rw [h, h2]
  rfl

/-- A frame decode ends with a state that differs from the one it began in by the decoder's own
registers only. -/
theorem endFrame_frame (s : State) (r : FrameResult) :
    (s.endFrame r).1 = { s with
      seed := (s.endFrame r).1.seed, flags := (s.endFrame r).1.flags
      lastPktErr := (s.endFrame r).1.lastPktErr, errBitpos := (s.endFrame r).1.errBitpos
      badFrames := (s.endFrame r).1.badFrames, frameIndex := s.frameIndex + 1
      chan0 := (s.endFrame r).1.chan0, chan1 := (s.endFrame r).1.chan1
      work := (s.endFrame r).1.work } := by
  have h := (synthAll_spec r s.channels (s.settleParse r) (channels_nodup s)).eq
  have h2 := settleParse_eq s r
  rw [endFrame_eq]
  generalize (synthAll r.synth s.channels (s.settleParse r)).1 = a at h ⊢
  rw [h2] at h
  rw [h]
  cases r <;> rfl

/-- One channel's record once a parse is settled (43_spectral.md R190 to R193). -/
theorem settleParse_chan (s : State) (r : FrameResult) (c : Ch) :
    (s.settleParse r).chan c = match r with
      | .good sh => { s.chan c with
          env := (sh.chan c).env
          tones := if c.index < s.channelCount
            then ageTones s.par s.frameIndex (sh.chan c).touched (sh.chan c).tones
            else (sh.chan c).tones }
      | .bad _ _ => { s.chan c with
          tones := if c.index < s.channelCount then ageTones s.par s.frameIndex [] (s.chan c).tones
            else (s.chan c).tones } := by
  have split : ∀ (b : Prop) [Decidable b] (x : Chan) (p : Params) (f : BitVec 64) (l : List Nat),
      (if b then x.age p f l else x)
        = { x with tones := if b then ageTones p f l x.tones else x.tones } := by
    intro b _ x p f l
    by_cases hb : b <;> simp [hb, Chan.age]
  cases r <;> cases c <;> exact split _ _ _ _ _

/-- One channel's record at the end of a frame decode (44_synthesis.md R220). -/
theorem endFrame_chan (s : State) (r : FrameResult) (c : Ch) :
    (s.endFrame r).1.chan c =
      { (if c.index < s.channelCount then (r.synth (s.settleParse r) c).1.chan c
         else (s.settleParse r).chan c) with
        sampleCount := if c.index < s.channelCount
          then (s.chan c).sampleCount + BitVec.ofNat 64 s.spf else (s.chan c).sampleCount } := by
  have sp := synthAll_spec r s.channels (s.settleParse r) (channels_nodup s)
  have hs : ((s.settleParse r).chan c).sampleCount = (s.chan c).sampleCount := by
    rw [settleParse_chan]
    cases r <;> rfl
  have hcfg : (synthAll r.synth s.channels (s.settleParse r)).1.cfg = s.cfg := by
    rw [sp.eq, settleParse_eq]
  have hcc : (synthAll r.synth s.channels (s.settleParse r)).1.channelCount = s.channelCount := by
    unfold State.channelCount; rw [hcfg]
  have hsp : (synthAll r.synth s.channels (s.settleParse r)).1.spf = s.spf := by
    unfold State.spf; rw [hcfg]
  rw [endFrame_eq]
  simp only [State.chan_recordFrame, State.chan_advanceClock, hcc, hsp]
  by_cases hc : c.index < s.channelCount
  · simp only [hc, if_true, sp.done c ((mem_channels s c).2 hc),
      (frameResult_synth_frame r (s.settleParse r) c).sampleCount, hs]
  · simp only [hc, if_false, sp.other c fun h => hc ((mem_channels s c).1 h), hs]

end Sys2Proof.Machine
end

