-- ==== Sys2Proof/Laws/Deliver.lean ====
section
/-!
SUPPORT. What the end of a command does with a frame's samples (45_host_commands.md R235, R236, R240),
and what a whole frame decode leaves unchanged.
-/

namespace Sys2Proof.Machine

open Sys2Proof

/-- How many samples a READ_BUFFER returns (45_host_commands.md R235). -/
def State.readCount (s : State) : Nat := min s.arg.toNat (min s.pendingCount outbufSamples)

theorem readCount_le_pending (s : State) : s.readCount ≤ s.pending.length := by
  unfold State.readCount State.pendingCount; omega

theorem readCount_le_outbuf (s : State) : s.readCount ≤ 2048 := by
  unfold State.readCount outbufSamples; omega

/-- READ_BUFFER's copy (45_host_commands.md R235). -/
theorem finishRead_eq (s : State) :
    s.finishRead = { s with
      mem := (s.writeOutbuf (s.pending.take s.readCount)).mem
      pending := s.pending.drop s.readCount
      err := .kOk, result := BitVec.ofNat 32 s.readCount } := by
  have h := writeOutbuf_eq s (s.pending.take s.readCount)
  unfold State.finishRead State.readCount at *
  simp only [State.succeed]
  generalize s.writeOutbuf _ = u at h ⊢
  rw [h]

theorem finishRead_outSample (s : State) {i : Nat} (h : i < s.readCount) :
    s.finishRead.outSample i = s.pending.getD i 0 := by
  have hl : (s.pending.take s.readCount).length = s.readCount := by
    simp [readCount_le_pending s]
  have := outSample_writeOutbuf s (s.pending.take s.readCount) i (by omega)
  rw [outSample_congr (t := s.writeOutbuf (s.pending.take s.readCount)) (by rw [finishRead_eq])
    (by rw [finishRead_eq, State.writeOutbuf_resets]), this]
  simp [List.getD, h]

theorem finishRead_loadByte (s : State) {a : Nat}
    (h : a < 0x4000 ∨ 0x4000 + 2 * s.readCount ≤ a) : s.finishRead.loadByte a = s.loadByte a := by
  have hl : (s.pending.take s.readCount).length = s.readCount := by
    simp [readCount_le_pending s]
  have := loadByte_writeOutbuf s (s.pending.take s.readCount) a (by rw [hl]; exact h)
  rw [loadByte_congr (t := s.writeOutbuf (s.pending.take s.readCount)) (by rw [finishRead_eq])
    (by rw [finishRead_eq, State.writeOutbuf_resets]), this]

/-- What the command that ran a frame decode does with its samples. -/
theorem deliver_frame (s : State) (via : Via) (out : List Sample) :
    s.deliver via out = { s with
      mem := (s.deliver via out).mem, pending := (s.deliver via out).pending
      err := .kOk, result := (s.deliver via out).result } := by
  cases via
  · unfold State.deliver
    rw [finishRead_eq]
  · unfold State.deliver
    rw [writeOutbuf_eq]
    rfl

theorem deliver_wf (s : State) (via : Via) (out : List Sample) (h : Memory.wf s.mem = true) :
    Memory.wf (s.deliver via out).mem = true := by
  cases via
  · unfold State.deliver
    rw [finishRead_eq]
    exact wf_writeOutbuf _ _ h
  · exact wf_writeOutbuf s out h

/-- The bytes outside OUTBUF keep their values, with no more samples than OUTBUF has. -/
theorem deliver_loadByte (s : State) (via : Via) (out : List Sample) (hl : out.length ≤ 2048) {a : Nat}
    (h : a < 0x4000 ∨ 0x5000 ≤ a) : (s.deliver via out).loadByte a = s.loadByte a := by
  cases via
  · have hc := readCount_le_outbuf { s with pending := s.pending ++ out }
    exact finishRead_loadByte { s with pending := s.pending ++ out } (by omega)
  · exact loadByte_writeOutbuf s out a (by unfold outbufBase; omega)

/-- A frame decode and its command change the decoder's registers, the output, and STATUS.ERR and
RESULT; nothing else, and nothing is in progress after them. -/
theorem completeFrame_frame (s : State) (via : Via) (r : FrameResult) :
    s.completeFrame via r = { s with
      activity := .idle, mem := (s.completeFrame via r).mem
      pending := (s.completeFrame via r).pending, frameIndex := s.frameIndex + 1
      chan0 := (s.endFrame r).1.chan0, chan1 := (s.endFrame r).1.chan1
      seed := (s.endFrame r).1.seed, flags := (s.endFrame r).1.flags
      lastPktErr := (s.endFrame r).1.lastPktErr, errBitpos := (s.endFrame r).1.errBitpos
      badFrames := (s.endFrame r).1.badFrames, work := (s.endFrame r).1.work
      err := .kOk, result := (s.completeFrame via r).result } := by
  have h := endFrame_frame s r
  have h2 := deliver_frame (s.endFrame r).1 via (s.endFrame r).2
  have e : s.completeFrame via r
      = { (s.endFrame r).1.deliver via (s.endFrame r).2 with activity := .idle } := rfl
  rw [e]
  generalize (s.endFrame r).1.deliver via (s.endFrame r).2 = d at h2 ⊢
  generalize (s.endFrame r).1 = b at h h2 ⊢
  rw [h2, h]

/-- The command a frame decode ran in finds the state the decode left, whatever was in progress. -/
theorem completeFrame_activity (s : State) (a : Activity) (via : Via) (r : FrameResult) :
    { s with activity := a }.completeFrame via r = s.completeFrame via r := by
  have h1 : { s with activity := a }.endFrame r
      = ({ (s.endFrame r).1 with activity := a }, (s.endFrame r).2) := by
    have hs : { s with activity := a }.settleParse r = { s.settleParse r with activity := a } := by
      cases r <;> rfl
    have key : ∀ (cs : List Ch) (u : State), synthAll r.synth cs { u with activity := a }
        = ({ (synthAll r.synth cs u).1 with activity := a }, (synthAll r.synth cs u).2) := by
      intro cs
      induction cs with
      | nil => intro u; rfl
      | cons c cs ih =>
        intro u
        have hf : r.synth { u with activity := a } c
            = ({ (r.synth u c).1 with activity := a }, (r.synth u c).2) := by
          cases r <;> cases c <;> rfl
        simp only [synthAll, hf, ih]
    rw [endFrame_eq, endFrame_eq, hs]
    have : State.channels { s with activity := a } = s.channels := rfl
    rw [this, key]
    cases r <;> rfl
  unfold State.completeFrame
  rw [h1]
  cases via <;> simp only [State.deliver]
  · rw [finishRead_eq, finishRead_eq]
    simp only [writeOutbuf_mem]
    rfl
  · simp only [writeOutbuf_put]
    rfl

/-- Between commands the end of a frame decode is its delivery. -/
theorem completeFrame_of_idle {s : State} (ha : s.activity = .idle) (via : Via) (r : FrameResult) :
    s.completeFrame via r = (s.endFrame r).1.deliver via (s.endFrame r).2 := by
  have key : ∀ u : State, u.activity = .idle → { u with activity := .idle } = u := by
    rintro ⟨⟩ h; simp_all
  refine key ((s.endFrame r).1.deliver via (s.endFrame r).2) ?_
  have h := endFrame_frame s r
  have h2 := deliver_frame (s.endFrame r).1 via (s.endFrame r).2
  generalize (s.endFrame r).1.deliver via (s.endFrame r).2 = d at h2 ⊢
  generalize (s.endFrame r).1 = b at h h2
  rw [h2, h]
  exact ha

end Sys2Proof.Machine
end

