-- ==== Sys2Proof/Laws/Vlc.lean ====
section
/-!
SUPPORT. The canonical code assignment (40_bitreader_vlc.md R126, R127): the entries come sorted by
length, and each codeword lies past every earlier one at its own length.
-/

namespace Sys2Proof.Machine

open Sys2Proof

/-- `d` comes after `c`: it is no shorter, and past every codeword that begins with `c`. -/
def Code.before (c d : Code) : Prop :=
  c.len ≤ d.len ∧ (c.code + 1) * 2 ^ (d.len - c.len) ≤ d.code

theorem vlcSorted_sorted (t : VlcTable) :
    (vlcSorted t).Pairwise fun a b => a.len ≤ b.len := by
  unfold vlcSorted
  rw [List.pairwise_flatMap]
  constructor
  · intro l _
    apply List.Pairwise.imp_of_mem _ (List.pairwise_of_forall fun _ _ => trivial)
    intro a b ha hb _
    simp only [List.mem_filter, decide_eq_true_eq] at ha hb
    omega
  · apply List.Pairwise.imp _ List.pairwise_lt_range
    intro a b hab x hx y hy
    simp only [List.mem_filter, decide_eq_true_eq] at hx hy
    omega

/-- The used entries of a table, whatever the order. -/
theorem mem_vlcSorted (t : VlcTable) (e : VlcEntry) :
    e ∈ vlcSorted t ↔ e ∈ t ∧ 1 ≤ e.len ∧ e.len ≤ 32 := by
  simp only [vlcSorted, List.mem_flatMap, List.mem_range, List.mem_filter, decide_eq_true_eq,
    vlcMaxLen]
  constructor
  · rintro ⟨l, hl, he, h⟩
    exact ⟨he, by omega, by omega⟩
  · rintro ⟨he, h1, h2⟩
    exact ⟨e.len - 1, by omega, he, by omega⟩

/-- A codeword lies past the running counter. -/
theorem assignCodes_ge : ∀ (es : List VlcEntry) (code prev : Nat),
    (es.Pairwise fun a b => a.len ≤ b.len) → (∀ e ∈ es, prev ≤ e.len) →
    ∀ c ∈ assignCodes es code prev, prev ≤ c.len ∧ code * 2 ^ (c.len - prev) ≤ c.code
  | [], _, _, _, _, c, hc => by simp [assignCodes] at hc
  | e :: es, code, prev, hs, hp, c, hc => by
    have he := hp e List.mem_cons_self
    obtain ⟨h1, h2⟩ := List.pairwise_cons.1 hs
    rcases List.mem_cons.1 hc with rfl | hc
    · exact ⟨he, Nat.le_refl _⟩
    · obtain ⟨h3, h4⟩ := assignCodes_ge es _ _ h2 h1 c hc
      refine ⟨by omega, Nat.le_trans ?_ h4⟩
      rw [show c.len - prev = (e.len - prev) + (c.len - e.len) by omega, Nat.pow_add,
        ← Nat.mul_assoc]
      exact Nat.mul_le_mul_right _ (by omega)

theorem assignCodes_before : ∀ (es : List VlcEntry) (code prev : Nat),
    (es.Pairwise fun a b => a.len ≤ b.len) → (∀ e ∈ es, prev ≤ e.len) →
    (assignCodes es code prev).Pairwise Code.before
  | [], _, _, _, _ => List.Pairwise.nil
  | e :: es, code, prev, hs, hp => by
    obtain ⟨h1, h2⟩ := List.pairwise_cons.1 hs
    refine List.Pairwise.cons ?_ (assignCodes_before es _ _ h2 h1)
    intro d hd
    exact assignCodes_ge es _ _ h2 h1 d hd

/-- The codewords of a table, each past every one before it. -/
theorem vlcCodes_before (t : VlcTable) : (vlcCodes t).Pairwise Code.before := by
  have hs := vlcSorted_sorted t
  unfold vlcCodes
  split
  · exact List.Pairwise.nil
  · rename_i e es h
    rw [h] at hs
    refine assignCodes_before _ _ _ hs fun a ha => ?_
    rcases List.mem_cons.1 ha with rfl | ha
    · exact Nat.le_refl _
    · exact (List.pairwise_cons.1 hs).1 a ha

theorem assignCodes_entries : ∀ (es : List VlcEntry) (code prev : Nat),
    (assignCodes es code prev).map (fun c => (c.len, c.sym)) = es.map fun e => (e.len, e.sym)
  | [], _, _ => rfl
  | e :: es, code, prev => by
    simp only [assignCodes, List.map_cons, assignCodes_entries es]

/-- The codewords' lengths and symbols are those of the table's used entries. -/
theorem vlcCodes_entries (t : VlcTable) :
    (vlcCodes t).map (fun c => (c.len, c.sym)) = (vlcSorted t).map fun e => (e.len, e.sym) := by
  unfold vlcCodes
  split
  · rename_i h; rw [h]; rfl
  · rename_i e es h; rw [h, assignCodes_entries]

/-- A codeword's length is 1 to 32. -/
theorem vlcCodes_len (t : VlcTable) {c : Code} (hc : c ∈ vlcCodes t) : 1 ≤ c.len ∧ c.len ≤ 32 := by
  have h : (c.len, c.sym) ∈ (vlcCodes t).map fun c => (c.len, c.sym) :=
    List.mem_map.2 ⟨c, hc, rfl⟩
  rw [vlcCodes_entries] at h
  obtain ⟨e, he, heq⟩ := List.mem_map.1 h
  have := (mem_vlcSorted t e).1 he
  simp only [Prod.mk.injEq] at heq
  omega

/-- A codeword's symbol is that of a used entry of its length. -/
theorem vlcCodes_entry (t : VlcTable) {c : Code} (hc : c ∈ vlcCodes t) :
    ∃ e ∈ t, e.len = c.len ∧ e.sym = c.sym := by
  have h : (c.len, c.sym) ∈ (vlcCodes t).map fun c => (c.len, c.sym) :=
    List.mem_map.2 ⟨c, hc, rfl⟩
  rw [vlcCodes_entries] at h
  obtain ⟨e, he, heq⟩ := List.mem_map.1 h
  simp only [Prod.mk.injEq] at heq
  exact ⟨e, ((mem_vlcSorted t e).1 he).1, heq.1, heq.2⟩

/-- Every used entry of a table has a codeword. -/
theorem vlcCodes_of_entry (t : VlcTable) {e : VlcEntry} (he : e ∈ t) (h1 : 1 ≤ e.len)
    (h2 : e.len ≤ 32) : ∃ c ∈ vlcCodes t, c.len = e.len ∧ c.sym = e.sym := by
  have h : (e.len, e.sym) ∈ (vlcSorted t).map fun e => (e.len, e.sym) :=
    List.mem_map.2 ⟨e, (mem_vlcSorted t e).2 ⟨he, h1, h2⟩, rfl⟩
  rw [← vlcCodes_entries] at h
  obtain ⟨c, hc, heq⟩ := List.mem_map.1 h
  simp only [Prod.mk.injEq] at heq
  exact ⟨c, hc, heq.1, heq.2⟩

theorem le_foldl_max (t : VlcTable) : ∀ (m : Nat), m ≤ t.foldl (fun m e => max m e.len) m := by
  induction t with
  | nil => intro m; exact Nat.le_refl _
  | cons e t ih => intro m; exact Nat.le_trans (Nat.le_max_left _ _) (ih _)

/-- No entry is longer than the maximum length M. -/
theorem len_le_vlcMax {t : VlcTable} {e : VlcEntry} (h : e ∈ t) : e.len ≤ vlcMax t := by
  unfold vlcMax
  generalize 0 = m
  induction t generalizing m with
  | nil => simp at h
  | cons a t ih =>
    rcases List.mem_cons.1 h with rfl | h
    · exact Nat.le_trans (Nat.le_max_right _ _) (le_foldl_max t _)
    · exact ih h _

/-- The maximum length of a valid table is at most 32. -/
theorem vlcMax_le {t : VlcTable} (h : ∀ e ∈ t, e.len ≤ 32) : vlcMax t ≤ 32 := by
  unfold vlcMax
  have : ∀ m ≤ 32, t.foldl (fun m e => max m e.len) m ≤ 32 := by
    induction t with
    | nil => intro m hm; exact hm
    | cons a t ih =>
      intro m hm
      exact ih (fun e he => h e (List.mem_cons_of_mem _ he)) _
        (Nat.max_le.2 ⟨hm, h a List.mem_cons_self⟩)
  exact this 0 (by decide)

/-- What a valid table says of its entries and codewords (40_bitreader_vlc.md R126). -/
structure VlcValidSpec (t : VlcTable) : Prop where
  lens : ∀ e ∈ t, e.len ≤ 32
  symMin : ∀ e ∈ t, -32768 ≤ e.sym
  symMax : ∀ e ∈ t, e.sym ≤ 32767
  distinct : ((vlcCodes t).map Code.sym).Nodup
  fits : ∀ c ∈ vlcCodes t, c.code < 2 ^ c.len

theorem vlcValid_spec {t : VlcTable} (h : vlcValid t = true) : VlcValidSpec t := by
  simp only [vlcValid, vlcMaxLen, Bool.and_eq_true, List.all_eq_true, List.any_eq_true,
    decide_eq_true_eq] at h
  have hr : ∀ e ∈ t, e.len ≤ 32 ∧ -32768 ≤ e.sym ∧ e.sym ≤ 32767 := fun e he => by
    have := h.1.1.1 e he
    exact ⟨of_decide_eq_true this.1.1, this.1.2, this.2⟩
  refine ⟨fun e he => (hr e he).1, fun e he => (hr e he).2.1, fun e he => (hr e he).2.2, h.1.2,
    h.2⟩

/-- All that VLC.decode can do (40_bitreader_vlc.md R128): a codeword of the table, with BITPOS past
it, or kTruncated or kInvalidCode at the codeword's first bit, or the refusal of a length above 32. -/
theorem vlcScan_cases (codes : List Code) (rd : BitReader) : ∀ n l,
    (∃ c ∈ codes, rd.pos + c.len ≤ rd.limit
        ∧ vlcScan codes rd n l = .ok (c.sym, c.len, { rd with pos := rd.pos + c.len }))
      ∨ (∃ e, (e = .kTruncated ∨ e = .kInvalidCode)
        ∧ vlcScan codes rd n l = .error (.raised e rd.pos))
      ∨ (32 < l + n - 1 ∧ vlcScan codes rd n l = .error (.refuse .bitReaderWidth))
  | 0, l => .inr (.inl ⟨_, .inr rfl, rfl⟩)
  | n + 1, l => by
    unfold vlcScan
    split
    · exact .inr (.inl ⟨_, .inl rfl, rfl⟩)
    · rename_i hl
      unfold BitReader.peek
      by_cases h32 : 32 < l
      · rw [if_pos h32]
        exact .inr (.inr ⟨by omega, rfl⟩)
      · rw [if_neg h32, if_neg hl]
        simp only
        split
        · rename_i c hc
          have hm := List.mem_of_find?_eq_some hc
          have hp := List.find?_some hc
          simp only [Bool.and_eq_true, decide_eq_true_eq] at hp
          refine .inl ⟨c, hm, by omega, by rw [hp.1]⟩
        · rcases vlcScan_cases codes rd n (l + 1) with h | h | h
          · exact .inl h
          · exact .inr (.inl h)
          · exact .inr (.inr ⟨by omega, h.2⟩)

/-- VLC.decode of a table whose entries are at most 32 bits long never refuses. -/
theorem vlcDecode_cases {t : VlcTable} (h : ∀ e ∈ t, e.len ≤ 32) (rd : BitReader) :
    (∃ e ∈ t, rd.pos + e.len ≤ rd.limit
        ∧ vlcDecode t rd = .ok (e.sym, e.len, { rd with pos := rd.pos + e.len }))
      ∨ ∃ e, (e = .kTruncated ∨ e = .kInvalidCode)
        ∧ vlcDecode t rd = .error (.raised e rd.pos) := by
  unfold vlcDecode
  rcases vlcScan_cases (vlcCodes t) rd (vlcMax t) 1 with ⟨c, hc, hl, h1⟩ | h1 | h1
  · obtain ⟨e, he, h2, h3⟩ := vlcCodes_entry t hc
    exact .inl ⟨e, he, by omega, by rw [h1, h2, h3]⟩
  · exact .inr h1
  · have := vlcMax_le h
    omega

end Sys2Proof.Machine
end

