-- ==== Sys2Proof/Laws/Parse.lean ====
section
/-!
SUPPORT. What each operation of the packet parser can do (42_packet_parser.md R151 to R180), said once:
where it succeeds, what it leaves; where it stops, that it raised an error and refused nothing.
-/

namespace Sys2Proof.Machine

open Sys2Proof

/-- The operation gives a value with `Q`, or raises an error; it refuses nothing. -/
def Parses {α : Type} (Q : α → Prop) : Except Stop α → Prop
  | .ok a => Q a
  | .error (.raised _ _) => True
  | .error (.refuse _) => False

theorem parses_bind {α β : Type} {Q : α → Prop} {R : β → Prop} {x : Except Stop α}
    {f : α → Except Stop β} (h : Parses Q x) (hf : ∀ a, Q a → Parses R (f a)) :
    Parses R (x >>= f) := by
  match x, h with
  | .ok a, h => exact hf a h
  | .error (.raised _ _), _ => exact trivial

theorem parses_pure {α : Type} {Q : α → Prop} {a : α} (h : Q a) :
    Parses Q (pure a : Except Stop α) := h

theorem parses_raise {α : Type} {Q : α → Prop} {e : Err} {pos : Nat} :
    Parses Q (.error (.raised e pos) : Except Stop α) := trivial

theorem parses_imp {α : Type} {Q R : α → Prop} {x : Except Stop α} (h : Parses Q x)
    (hi : ∀ a, Q a → R a) : Parses R x := by
  match x, h with
  | .ok a, h => exact hi a h
  | .error (.raised _ _), _ => exact trivial

/-- What is known of a result that is a value. -/
theorem parses_ok {α : Type} {Q : α → Prop} {x : Except Stop α} {a : α} (h : Parses Q x)
    (e : x = .ok a) : Q a := by subst e; exact h

theorem parses_not_refuse {α : Type} {Q : α → Prop} {x : Except Stop α} {r : Refusal}
    (h : Parses Q x) : x ≠ .error (.refuse r) := by
  rintro rfl; exact h

/-- The readers read one buffer up to one limit. -/
def SameBuf (rd rd' : BitReader) : Prop := rd'.buf = rd.buf ∧ rd'.limit = rd.limit

theorem SameBuf.refl (rd : BitReader) : SameBuf rd rd := ⟨rfl, rfl⟩

theorem SameBuf.trans {a b c : BitReader} (h : SameBuf a b) (g : SameBuf b c) : SameBuf a c :=
  ⟨g.1.trans h.1, g.2.trans h.2⟩

theorem read_parses {rd : BitReader} {n : Nat} (hn : n ≤ 32) :
    Parses (fun v => v.1 < 2 ^ n ∧ SameBuf rd v.2) (rd.read n) := by
  rcases read_cases rd n with ⟨_, _, h⟩ | ⟨_, _, h⟩ | ⟨h, _⟩
  · rw [h]; exact ⟨bits_lt rd n rd.pos, rfl, rfl⟩
  · rw [h]; exact trivial
  · omega

theorem peek_parses {rd : BitReader} {n : Nat} (hn : n ≤ 32) :
    Parses (fun v => v < 2 ^ n) (rd.peek n) := by
  unfold BitReader.peek
  rw [if_neg (by omega)]
  split
  · exact trivial
  · exact bits_lt rd n rd.pos

theorem skip_parses (rd : BitReader) (n : Nat) : Parses (SameBuf rd) (rd.skip n) := by
  unfold BitReader.skip
  split
  · exact trivial
  · exact ⟨rfl, rfl⟩

theorem vlcDecode_parses {t : VlcTable} (h : ∀ e ∈ t, e.len ≤ 32) (rd : BitReader) :
    Parses (fun v => (∃ e ∈ t, e.sym = v.1) ∧ SameBuf rd v.2.2) (vlcDecode t rd) := by
  rcases vlcDecode_cases h rd with ⟨e, he, _, h1⟩ | ⟨e, _, h1⟩
  · rw [h1]; exact ⟨⟨e, he, rfl⟩, rfl, rfl⟩
  · rw [h1]; exact trivial

theorem chsel_parses (ch : Word) (rd : BitReader) :
    Parses (fun v => SameBuf rd v.2) (chsel ch rd) := by
  unfold chsel
  split
  · have := read_parses (rd := rd) (n := 1) (by decide)
    revert this
    match rd.read 1 with
    | .ok (v, rd') => exact fun h => h.2
    | .error (.raised _ _) => exact fun _ => trivial
    | .error (.refuse _) => exact fun h => h
  · exact SameBuf.refl rd

/-! ### The parameters -/

/-- What the constraints of 00_scope.md R7 and 40_bitreader_vlc.md R126 say. -/
structure ParamsSpec (p : Params) : Prop where
  energy : p.eMin ≤ p.eMax
  decay : p.decayNum ≤ 2 ^ p.decayShift
  phase : p.phaseLog ≤ 16
  layout256 : layoutValid 512 p.layout256 = true
  layout512 : layoutValid 1024 p.layout512 = true
  layout1024 : layoutValid 2048 p.layout1024 = true
  noise : ∀ b, ∀ e ∈ noiseTableOf p b, e.len ≤ 32
  amp : vlcValid p.ampVlc = true
  phaseTable : vlcValid p.phaseVlc = true

theorem paramsValid_spec {p : Params} (h : paramsValid p = true) : ParamsSpec p := by
  simp only [paramsValid, Bool.and_eq_true, decide_eq_true_eq, List.all_eq_true] at h
  obtain ⟨⟨⟨⟨⟨⟨⟨⟨⟨⟨⟨⟨⟨_, h1⟩, h2⟩, h3⟩, h4⟩, _⟩, h5⟩, _⟩, h6⟩, h7⟩, h8⟩, h9⟩, _⟩, _⟩ := h
  refine ⟨h4, h5, h6, h1, h2, h3, fun b e he => ?_, h8, h9⟩
  unfold noiseTableOf at he
  generalize p.noiseSel.getD b 0 = k at he
  by_cases hk : k < p.noiseVlc.length
  · rw [List.getD_eq_getElem _ _ hk] at he
    exact (vlcValid_spec (h7 _ (List.getElem_mem hk))).lens e he
  · rw [List.getD_eq_default _ _ (by omega)] at he
    simp at he

/-! ### The shadow state -/

@[simp] theorem shadow_chan_setChan (sh : Shadow) (c : Ch) (v : ShadowChan) :
    (sh.setChan c v).chan c = v := by cases c <;> rfl

theorem shadow_chan_setChan_of_ne (sh : Shadow) {c d : Ch} (v : ShadowChan) (h : d ≠ c) :
    (sh.setChan c v).chan d = sh.chan d := by
  cases c <;> cases d <;> first | rfl | exact absurd rfl h

@[simp] theorem shadow_setChan_seed (sh : Shadow) (c : Ch) (v : ShadowChan) :
    (sh.setChan c v).seed = sh.seed := by cases c <;> rfl

@[simp] theorem shadow_setChan_flags (sh : Shadow) (c : Ch) (v : ShadowChan) :
    (sh.setChan c v).flags = sh.flags := by cases c <;> rfl

/-- Both channels of the shadow are legal. -/
def AllLegal (s : State) (sh : Shadow) : Prop := ∀ c, ShadowLegal s (sh.chan c)

theorem allLegal_setChan {s : State} {sh : Shadow} {c : Ch} {v : ShadowChan} (h : AllLegal s sh)
    (hv : ShadowLegal s v) : AllLegal s (sh.setChan c v) := by
  intro d
  by_cases e : d = c
  · subst e; rw [shadow_chan_setChan]; exact hv
  · rw [shadow_chan_setChan_of_ne _ _ e]; exact h d

theorem clamp_range {v lo hi : Int} (h : lo ≤ hi) : lo ≤ clamp v lo hi ∧ clamp v lo hi ≤ hi := by
  unfold clamp
  split
  · exact ⟨Int.le_refl _, h⟩
  · split
    · exact ⟨h, Int.le_refl _⟩
    · omega

/-- An energy set to a clamped value keeps the energies legal. -/
theorem envLegal_set {p : Params} (hp : p.eMin ≤ p.eMax) {env : List Int} (h : EnvLegal p env)
    (b : Nat) (v : Int) : EnvLegal p (env.set b (clamp v p.eMin p.eMax)) := by
  refine ⟨by rw [List.length_set]; exact h.length, fun e he => ?_⟩
  rcases List.mem_or_eq_of_mem_set he with he | rfl
  · exact h.range e he
  · exact clamp_range (by exact_mod_cast hp)

/-- A legal tone stored at its bin keeps the tones legal. -/
theorem tonesLegal_put {s : State} {m : ToneMap} {k : Nat} {t : Tone} (h : TonesLegal s m)
    (ht : ToneLegal s k t) : TonesLegal s (Assoc.put k t m) := by
  refine ⟨Assoc.wf_put k t h.wf, fun kt hkt => ?_⟩
  rcases Assoc.mem_put hkt with rfl | hkt
  · exact ht
  · exact h.slots kt hkt

theorem tonesLegal_erase {s : State} {m : ToneMap} (k : Nat) (h : TonesLegal s m) :
    TonesLegal s (Assoc.erase k m) :=
  ⟨Assoc.wf_erase k h.wf, fun kt hkt => h.slots kt (Assoc.mem_of_mem_erase hkt)⟩

/-! ### Sub-packets -/

/-- What a sub-packet or a record leaves of the parse it stands in, beside its own place. -/
structure Advances (s : State) (p q : Parse) : Prop where
  via : q.via = p.via
  buf : SameBuf p.rd q.rd
  legal : AllLegal s p.sh → AllLegal s q.sh

theorem Advances.trans {s : State} {a b c : Parse} (h : Advances s a b) (g : Advances s b c) :
    Advances s a c :=
  ⟨g.via.trans h.via, h.buf.trans g.buf, fun x => g.legal (h.legal x)⟩

/-- What a whole sub-packet leaves: the parse at the next one. -/
structure SubpacketSpec (s : State) (p q : Parse) : Prop extends Advances s p q where
  left : q.left = p.left - 1
  tone : q.tone = none

theorem openSub_parses (s : State) (t : Nat) (p : Parse) :
    Parses (fun q => Advances s p q ∧ q.left = p.left ∧ q.tone = p.tone ∧ q.sh = p.sh)
      (openSub t p) := by
  unfold openSub
  refine parses_bind (read_parses (by decide)) fun v hv => ?_
  simp only
  split
  · exact trivial
  · exact ⟨⟨rfl, hv.2, fun h => h⟩, rfl, rfl, rfl⟩

theorem openLen_parses (s : State) (p : Parse) :
    Parses (fun q => Advances s p q.2 ∧ q.2.left = p.left ∧ q.2.tone = p.tone ∧ q.2.sh = p.sh)
      (openLen p) := by
  unfold openLen
  refine parses_bind (read_parses (by decide)) fun v hv => ?_
  simp only
  split
  · exact trivial
  · exact ⟨⟨rfl, hv.2, fun h => h⟩, rfl, rfl, rfl⟩

theorem closePayload_parses (s : State) (start len : Nat) (p : Parse) :
    Parses (SubpacketSpec s p) (closePayload start len p) := by
  unfold closePayload
  split
  · exact trivial
  · exact parses_bind (skip_parses _ _) fun rd hrd => ⟨⟨rfl, hrd, fun h => h⟩, rfl, rfl⟩

theorem spSeed_parses (s : State) (p : Parse) : Parses (SubpacketSpec s p) (spSeed s p) := by
  unfold spSeed
  refine parses_bind (openSub_parses s 0 p) fun q ⟨h, hl, _, hs⟩ => ?_
  refine parses_bind (read_parses (by decide)) fun v hv => ?_
  refine ⟨⟨h.via, h.buf.trans hv.2, fun g c => ?_⟩, by simp [endSub, hl], rfl⟩
  have := (hs ▸ g : AllLegal s q.sh) c
  cases c <;> exact this

theorem spFlags_parses (s : State) (p : Parse) : Parses (SubpacketSpec s p) (spFlags s p) := by
  unfold spFlags
  refine parses_bind (openSub_parses s 1 p) fun q ⟨h, hl, _, hs⟩ => ?_
  refine parses_bind (read_parses (by decide)) fun v hv => ?_
  refine ⟨⟨h.via, h.buf.trans hv.2, fun g c => ?_⟩, by simp [endSub, hl], rfl⟩
  have := (hs ▸ g : AllLegal s q.sh) c
  cases c <;> exact this

theorem spReserved_parses (s : State) (p : Parse) : Parses (SubpacketSpec s p) (spReserved s p) := by
  unfold spReserved
  exact parses_bind (read_parses (by decide)) fun v hv => trivial

theorem noiseBand_parses {s : State} (hp : ParamsSpec s.par) (c : Ch) (b : Nat) (p : Parse) :
    Parses (fun q => Advances s p q ∧ q.left = p.left ∧ q.tone = p.tone) (noiseBand s c b p) := by
  unfold noiseBand
  refine parses_bind (vlcDecode_parses (hp.noise b) p.rd) fun v hv => ?_
  refine ⟨⟨rfl, hv.2, fun g => allLegal_setChan g ⟨(g c).tones, envLegal_set hp.energy (g c).env _ _⟩⟩,
    rfl, rfl⟩

theorem noiseBands_parses {s : State} (hp : ParamsSpec s.par) (c : Ch) : ∀ (n b : Nat) (p : Parse),
    Parses (fun q => Advances s p q ∧ q.left = p.left ∧ q.tone = p.tone) (noiseBands s c n b p)
  | 0, _, p => ⟨⟨rfl, SameBuf.refl _, fun h => h⟩, rfl, rfl⟩
  | n + 1, b, p => by
    unfold noiseBands
    refine parses_bind (noiseBand_parses hp c b p) fun q ⟨h, hl, ht⟩ => ?_
    refine parses_imp (noiseBands_parses hp c n (b + 1) q) fun r ⟨h', hl', ht'⟩ => ?_
    exact ⟨h.trans h', hl'.trans hl, ht'.trans ht⟩

theorem noisePayload_parses {s : State} (hp : ParamsSpec s.par) (t : Nat) (p : Parse) :
    Parses (fun q => Advances s p q ∧ q.left = p.left ∧ q.tone = p.tone) (noisePayload s t p) := by
  unfold noisePayload
  refine parses_bind (chsel_parses _ _) fun v hv => ?_
  refine parses_bind (read_parses (by decide)) fun fb hfb => ?_
  refine parses_bind (read_parses (by decide)) fun cnt hcnt => ?_
  simp only
  split
  · refine parses_imp (noiseBands_parses hp _ _ _ _) fun q ⟨h, hl, ht⟩ => ?_
    exact ⟨⟨h.via, ((hv.trans hfb.2).trans hcnt.2).trans h.buf, h.legal⟩, hl, ht⟩
  · exact trivial

theorem spNoise_parses {s : State} (hp : ParamsSpec s.par) (t : Nat) (p : Parse) :
    Parses (SubpacketSpec s p) (spNoise t s p) := by
  unfold spNoise
  refine parses_bind (openSub_parses s t p) fun q ⟨h, hl, _, _⟩ => ?_
  refine parses_bind (openLen_parses s q) fun ⟨len, r⟩ ⟨h2, hl2, _, _⟩ => ?_
  refine parses_bind (noisePayload_parses hp t r) fun u ⟨h3, hl3, _⟩ => ?_
  refine parses_imp (closePayload_parses s _ len u) fun w h4 => ?_
  exact ⟨((h.trans h2).trans h3).trans h4.toAdvances,
    by rw [h4.left, hl3, hl2, hl], h4.tone⟩

/-! ### Tone records -/

/-- What a record of the tone payload `tp` leaves: the payload at its next record. -/
structure RecordSpec (s : State) (tp : TonePart) (p q : Parse) : Prop extends Advances s p q where
  left : q.left = p.left
  tone : q.tone = some { tp with left := tp.left - 1 }

theorem recordHead_parses (s : State) (p : Parse) :
    Parses (fun r => r.1 < 4 ∧ r.2.1 < 32 ∧ r.2.2.1 < 128 ∧ Advances s p r.2.2.2
      ∧ r.2.2.2.left = p.left ∧ r.2.2.2.tone = p.tone ∧ r.2.2.2.sh = p.sh) (recordHead p) := by
  unfold recordHead
  refine parses_bind (read_parses (by decide)) fun op hop => ?_
  refine parses_bind (read_parses (by decide)) fun band hband => ?_
  refine parses_bind (read_parses (by decide)) fun pos hpos => ?_
  exact ⟨hop.1, hband.1, hpos.1, ⟨rfl, (hop.2.trans hband.2).trans hpos.2, fun h => h⟩, rfl, rfl, rfl⟩

/-- What the slot check says (42_packet_parser.md R180). -/
theorem slotLegal_spec {s : State} {t band pos : Nat} (h : slotLegal s t band pos = true) :
    band < s.numBands ∧ (rangeOf s.par.toneRanges t s.numBands).1 ≤ band
      ∧ band ≤ (rangeOf s.par.toneRanges t s.numBands).2
      ∧ tonePosition t pos < (s.band band).width := by
  simp only [slotLegal, Bool.and_eq_true, decide_eq_true_eq] at h
  exact ⟨h.1.1.1, h.1.1.2, h.1.2, h.2⟩

theorem touchTone_legal {s : State} {p : Parse} {c : Ch} {k : Nat} {t : Tone}
    (ht : AllLegal s p.sh → ToneLegal s k t) (h : AllLegal s p.sh) :
    AllLegal s (p.touchTone c k t).sh :=
  allLegal_setChan h ⟨tonesLegal_put (h c).tones (ht h), (h c).env⟩

theorem dropTone_legal {s : State} {p : Parse} {c : Ch} {k : Nat} (h : AllLegal s p.sh) :
    AllLegal s (p.dropTone c k).sh :=
  allLegal_setChan h ⟨tonesLegal_erase k (h c).tones, (h c).env⟩

theorem toneAdd_parses {s : State} (hp : ParamsSpec s.par) (tp : TonePart) (band pos r0 : Nat)
    (p : Parse) : Parses (RecordSpec s tp p) (toneAdd s tp band pos r0 p) := by
  unfold toneAdd
  split
  · rename_i hs
    obtain ⟨h1, _, _, h4⟩ := slotLegal_spec hs
    refine parses_bind (vlcDecode_parses (vlcValid_spec hp.amp).lens _) fun a ha => ?_
    refine parses_bind (vlcDecode_parses (vlcValid_spec hp.phaseTable).lens _) fun ph hph => ?_
    refine parses_bind (read_parses (by decide)) fun dur hdur => ?_
    simp only
    split
    · exact trivial
    · rename_i hneg
      refine ⟨⟨rfl, (ha.2.trans hph.2).trans hdur.2, ?_⟩, rfl, rfl⟩
      refine touchTone_legal (p := { p with rd := dur.2 }) fun _ => ?_
      obtain ⟨e, he, hsym⟩ := ha.1
      have hmax := (vlcValid_spec hp.amp).symMax e he
      have hpos : (0 : Int) < (s.par.phaseSteps : Int) := by
        have : 0 < s.par.phaseSteps := Nat.two_pow_pos _
        exact_mod_cast this
      have h0 := Int.emod_nonneg ph.1 (Int.ne_of_gt hpos)
      have h1' := Int.emod_lt_of_pos ph.1 hpos
      exact ⟨h1, h4, rfl, by simp only; omega, by simp only; omega, by simp, by simp; omega⟩
  · exact trivial

theorem toneRefresh_parses {s : State} (tp : TonePart) (band pos r0 : Nat) (p : Parse) :
    Parses (RecordSpec s tp p) (toneRefresh s tp band pos r0 p) := by
  unfold toneRefresh
  split
  · simp only
    split
    · exact trivial
    · rename_i t ht
      refine ⟨⟨rfl, SameBuf.refl _, touchTone_legal fun h => ?_⟩, rfl, rfl⟩
      have := (h tp.ch).tones.slots _ (Assoc.mem_of_find ht)
      exact ⟨this.band, this.position, this.bin, this.amplitude, this.phase, this.durationMin,
        this.durationMax⟩
  · exact trivial

theorem toneDelete_parses {s : State} (tp : TonePart) (band pos r0 : Nat) (p : Parse) :
    Parses (RecordSpec s tp p) (toneDelete s tp band pos r0 p) := by
  unfold toneDelete
  split
  · simp only
    split
    · exact trivial
    · exact ⟨⟨rfl, SameBuf.refl _, dropTone_legal⟩, rfl, rfl⟩
  · exact trivial

theorem toneReserved_parses {s : State} (tp : TonePart) (band pos r0 : Nat) (p : Parse) :
    Parses (RecordSpec s tp p) (toneReserved s tp band pos r0 p) := trivial

theorem toneOp_parses {s : State} (hp : ParamsSpec s.par) (op : Nat) (tp : TonePart)
    (band pos r0 : Nat) (p : Parse) : Parses (RecordSpec s tp p) (toneOp op s tp band pos r0 p) := by
  unfold toneOp
  split
  · exact toneAdd_parses hp tp band pos r0 p
  · exact toneRefresh_parses tp band pos r0 p
  · exact toneDelete_parses tp band pos r0 p
  · exact toneReserved_parses tp band pos r0 p

/-- A record with its head. -/
theorem record_parses {s : State} {tp : TonePart} {p : Parse}
    {act : State → TonePart → Nat → Nat → Nat → Parse → Except Stop Parse}
    (ha : ∀ band pos r0 q, Parses (RecordSpec s tp q) (act s tp band pos r0 q)) (band pos : Nat) :
    Parses (RecordSpec s tp p)
      (do let (_, _, _, q) ← recordHead p; act s tp band pos p.rd.pos q) := by
  refine parses_bind (recordHead_parses s p) fun r ⟨_, _, _, h, hl, _, _⟩ => ?_
  refine parses_imp (ha band pos _ r.2.2.2) fun q hq => ?_
  exact ⟨h.trans hq.toAdvances, hq.left.trans hl, hq.tone⟩

theorem nextRecord_parses {s : State} (hp : ParamsSpec s.par) (p : Parse) :
    Parses (fun q => Advances s p q ∧ q.left = p.left) (nextRecord s p) := by
  unfold nextRecord
  split
  · exact ⟨⟨rfl, SameBuf.refl _, fun h => h⟩, rfl⟩
  · rename_i tp _
    refine parses_bind (recordHead_parses s p) fun r ⟨_, _, _, h, hl, _, _⟩ => ?_
    refine parses_imp (toneOp_parses hp r.1 tp r.2.1 r.2.2.1 p.rd.pos r.2.2.2) fun q hq => ?_
    exact ⟨h.trans hq.toAdvances, hq.left.trans hl⟩

theorem runRecords_parses {s : State} (hp : ParamsSpec s.par) : ∀ (n : Nat) (p : Parse),
    Parses (fun q => Advances s p q ∧ q.left = p.left) (runRecords s n p)
  | 0, _ => ⟨⟨rfl, SameBuf.refl _, fun h => h⟩, rfl⟩
  | n + 1, p => by
    unfold runRecords
    refine parses_bind (nextRecord_parses hp p) fun q ⟨h, hl⟩ => ?_
    refine parses_imp (runRecords_parses hp n q) fun r ⟨h', hl'⟩ => ?_
    exact ⟨h.trans h', hl'.trans hl⟩

theorem openTone_parses (s : State) (t : Nat) (p : Parse) :
    Parses (fun q => Advances s p q ∧ q.left = p.left ∧ q.tone.isSome) (openTone t s p) := by
  unfold openTone
  refine parses_bind (openSub_parses s t p) fun q ⟨h, hl, _, _⟩ => ?_
  refine parses_bind (openLen_parses s q) fun ⟨len, r⟩ ⟨h2, hl2, _, _⟩ => ?_
  refine parses_bind (chsel_parses _ _) fun v hv => ?_
  refine parses_bind (read_parses (by decide)) fun cnt hcnt => ?_
  exact ⟨⟨h2.via.trans h.via, ((h.buf.trans h2.buf).trans hv).trans hcnt.2,
    fun g => h2.legal (h.legal g)⟩, hl2.trans hl, rfl⟩

theorem closeTone_parses (s : State) {p : Parse} (h : p.tone.isSome) :
    Parses (SubpacketSpec s p) (closeTone p) := by
  unfold closeTone
  split
  · rename_i h'; simp [h'] at h
  · exact closePayload_parses s _ _ p

/-- Records keep the payload they stand in. -/
theorem nextRecord_tone {s : State} (hp : ParamsSpec s.par) {p : Parse} (h : p.tone.isSome) :
    Parses (fun q => q.tone.isSome) (nextRecord s p) := by
  unfold nextRecord
  split
  · rename_i h'; simp [h'] at h
  · rename_i tp _
    refine parses_bind (recordHead_parses s p) fun r _ => ?_
    exact parses_imp (toneOp_parses hp r.1 tp r.2.1 r.2.2.1 p.rd.pos r.2.2.2) fun q hq => by
      rw [hq.tone]; rfl

theorem runRecords_tone {s : State} (hp : ParamsSpec s.par) : ∀ (n : Nat) {p : Parse},
    p.tone.isSome → Parses (fun q => q.tone.isSome) (runRecords s n p)
  | 0, _, h => h
  | n + 1, _, h => by
    unfold runRecords
    exact parses_bind (nextRecord_tone hp h) fun q hq => runRecords_tone hp n hq

theorem parses_and {α : Type} {Q R : α → Prop} {x : Except Stop α} (h : Parses Q x)
    (g : Parses R x) : Parses (fun a => Q a ∧ R a) x := by
  match x, h, g with
  | .ok a, h, g => exact ⟨h, g⟩
  | .error (.raised _ _), _, _ => exact trivial

theorem spTone_parses {s : State} (hp : ParamsSpec s.par) (t : Nat) (p : Parse) :
    Parses (SubpacketSpec s p) (spTone t s p) := by
  unfold spTone
  refine parses_bind (openTone_parses s t p) fun q ⟨h, hl, ht⟩ => ?_
  refine parses_bind (parses_and (runRecords_parses hp q.recordsLeft q)
    (runRecords_tone hp q.recordsLeft ht)) fun r ⟨⟨h2, hl2⟩, ht2⟩ => ?_
  refine parses_imp (closeTone_parses s ht2) fun w h4 => ?_
  exact ⟨(h.trans h2).trans h4.toAdvances, by rw [h4.left, hl2, hl], h4.tone⟩

/-! ### Packets -/

theorem subpacketOf_parses {s : State} (hp : ParamsSpec s.par) (t : Nat) (p : Parse) :
    Parses (SubpacketSpec s p) (subpacketOf t s p) := by
  unfold subpacketOf
  split <;> first
    | exact spSeed_parses s p
    | exact spFlags_parses s p
    | exact spNoise_parses hp _ p
    | exact spTone_parses hp _ p
    | exact spReserved_parses s p

theorem nextSubpacket_parses {s : State} (hp : ParamsSpec s.par) (p : Parse) :
    Parses (SubpacketSpec s p) (nextSubpacket s p) :=
  parses_bind (peek_parses (by decide)) fun t _ => subpacketOf_parses hp t p

theorem runSubpackets_parses {s : State} (hp : ParamsSpec s.par) : ∀ (n : Nat) (p : Parse),
    Parses (Advances s p) (runSubpackets s n p)
  | 0, _ => ⟨rfl, SameBuf.refl _, fun h => h⟩
  | n + 1, p => by
    unfold runSubpackets
    refine parses_bind (nextSubpacket_parses hp p) fun q h => ?_
    exact parses_imp (runSubpackets_parses hp n q) fun r h' => h.toAdvances.trans h'

/-- What the start of a parse gives: the shadow copy of the state, at the first sub-packet. -/
structure StartSpec (s : State) (via : Via) (packet : List Byte) (p : Parse) : Prop where
  via : p.via = via
  buf : SameBuf (BitReader.start packet) p.rd
  sh : p.sh = Shadow.ofState s
  left : p.left < 256
  rank : p.lastRank = 0
  tone : p.tone = none

theorem startParse_parses (s : State) (via : Via) (packet : List Byte) :
    Parses (StartSpec s via packet) (startParse s via packet) := by
  unfold startParse
  split
  · exact trivial
  · refine parses_bind (read_parses (by decide)) fun v hv => ?_
    refine parses_bind (read_parses (by decide)) fun w hw => ?_
    exact ⟨rfl, hv.2.trans hw.2, rfl, hw.1, rfl, rfl⟩

/-- A packet parse with valid parameters ends with a shadow state or with a raised error. -/
theorem parsePacket_parses {s : State} (hp : ParamsSpec s.par) (via : Via) (packet : List Byte) :
    Parses (fun p => p.via = via ∧ (AllLegal s (Shadow.ofState s) → AllLegal s p.sh))
      (parsePacket s via packet) := by
  unfold parsePacket
  refine parses_bind (startParse_parses s via packet) fun p h => ?_
  refine parses_imp (runSubpackets_parses hp p.left p) fun q h' => ?_
  exact ⟨h'.via.trans h.via, fun g => h'.legal (h.sh ▸ g)⟩

end Sys2Proof.Machine
end

