-- ==== Sys2Proof/Laws/Elements.lean ====
section
/-!
SUPPORT. What the parts of a syntax element answer where the bits they read lie in the body: the type
field, the len field, the end of a payload, and a record's head (42_packet_parser.md R152, R153, R175).
-/

namespace Sys2Proof.Machine

open Sys2Proof

@[simp] theorem parse_at_rd (p : Parse) (q : Nat) : (p.at q).rd = p.rd.at q := rfl
@[simp] theorem parse_at_tone (p : Parse) (q : Nat) : (p.at q).tone = p.tone := rfl
@[simp] theorem parse_at_left (p : Parse) (q : Nat) : (p.at q).left = p.left := rfl
@[simp] theorem parse_at_sh (p : Parse) (q : Nat) : (p.at q).sh = p.sh := rfl
@[simp] theorem parse_at_via (p : Parse) (q : Nat) : (p.at q).via = p.via := rfl
@[simp] theorem parse_at_lastRank (p : Parse) (q : Nat) : (p.at q).lastRank = p.lastRank := rfl
@[simp] theorem parse_at_at (p : Parse) (q r : Nat) : (p.at q).at r = p.at r := rfl

/-- READ of readable bits moves BITPOS past them. -/
theorem read_ok {rd : BitReader} {n : Nat} (hn : n ≤ 32) (hl : rd.pos + n ≤ rd.limit) :
    rd.read n = .ok (rd.bits rd.pos n, rd.at (rd.pos + n)) := read_of_le hn hl

/-- SKIP of readable bits. -/
theorem skip_ok {rd : BitReader} {n : Nat} (hl : rd.pos + n ≤ rd.limit) :
    rd.skip n = .ok (rd.at (rd.pos + n)) := by
  rw [BitReader.skip, if_neg (by omega)]; rfl

theorem openSub_ok {t : Nat} {p : Parse} (hl : p.rd.pos + 5 ≤ p.rd.limit)
    (hr : p.lastRank ≤ typeRank t) :
    openSub t p = .ok { p.at (p.rd.pos + 5) with lastRank := typeRank t } := by
  simp only [openSub, read_ok (by decide) hl, bind, Except.bind, pure, Except.pure]
  rw [if_neg (by omega)]
  rfl

/-- A sub-packet of a class below the one before it (42_packet_parser.md R152). -/
theorem openSub_low {t : Nat} {p : Parse} (hl : p.rd.pos + 5 ≤ p.rd.limit)
    (hr : typeRank t < p.lastRank) : openSub t p = .error (.raised .kMalformed p.rd.pos) := by
  simp only [openSub, read_ok (by decide) hl, bind, Except.bind]
  rw [if_pos hr]

theorem openLen_ok {p : Parse} (hl : p.rd.pos + 16 + p.rd.bits p.rd.pos 16 ≤ p.rd.limit) :
    openLen p = .ok (p.rd.bits p.rd.pos 16, p.at (p.rd.pos + 16)) := by
  have hr : p.rd.read 16 = _ := read_ok (by decide) (by omega)
  simp only [openLen, hr, bind, Except.bind, pure, Except.pure]
  exact if_neg (Nat.not_lt.2 hl)

/-- A declared payload that ends past the body (42_packet_parser.md R153). -/
theorem openLen_over {p : Parse} (h16 : p.rd.pos + 16 ≤ p.rd.limit)
    (hl : p.rd.limit < p.rd.pos + 16 + p.rd.bits p.rd.pos 16) :
    openLen p = .error (.raised .kMalformed (p.rd.pos + 16)) := by
  have hr : p.rd.read 16 = _ := read_ok (by decide) h16
  simp only [openLen, hr, bind, Except.bind]
  exact if_pos hl

theorem closePayload_ok {start len : Nat} {p : Parse} (hs : start ≤ p.rd.pos)
    (hp : p.rd.pos ≤ start + len) (hl : start + len ≤ p.rd.limit) :
    closePayload start len p = .ok (endSub (p.at (start + len))) := by
  have hk : p.rd.skip (len - (p.rd.pos - start)) = .ok (p.rd.at (start + len)) := by
    rw [skip_ok (by omega)]; congr 2; omega
  unfold closePayload
  rw [if_neg (by omega)]
  simp only [hk, bind, Except.bind, pure, Except.pure]
  rfl

/-- A payload that consumed more than its declared length (42_packet_parser.md R153). -/
theorem closePayload_over {start len : Nat} {p : Parse} (h : start + len < p.rd.pos) :
    closePayload start len p = .error (.raised .kMalformed start) := by
  unfold closePayload
  rw [if_pos (by omega)]

/-- A sub-packet in a parse that expects one, where its rule gives a parse. -/
theorem onSubpacket_ok {body : State → Parse → Except Stop Parse} {s : State} {p q : Parse}
    (ha : s.activity = .packet p) (he : p.expectsSubpacket) (hb : body s p = .ok q) :
    onSubpacket body s = .next { s with activity := .packet q } := by
  obtain ⟨ht, hl⟩ := he
  unfold onSubpacket
  simp only [ha, ht, Option.isNone_none, hl, decide_true, Bool.and_self, if_true, hb]

/-- A sub-packet in a parse that expects one, where its rule raises an error. -/
theorem onSubpacket_raised {body : State → Parse → Except Stop Parse} {s : State} {p : Parse}
    {e : Err} {pos : Nat} (ha : s.activity = .packet p) (he : p.expectsSubpacket)
    (hb : body s p = .error (.raised e pos)) :
    onSubpacket body s = .next (s.takePacketError p.via e pos) := by
  obtain ⟨ht, hl⟩ := he
  unfold onSubpacket
  simp only [ha, ht, Option.isNone_none, hl, decide_true, Bool.and_self, if_true, hb]
  rfl

/-- A record's head. -/
theorem recordHead_ok {p : Parse} (hl : p.rd.pos + 14 ≤ p.rd.limit) :
    recordHead p = .ok (p.rd.bits p.rd.pos 2, p.rd.bits (p.rd.pos + 2) 5,
      p.rd.bits (p.rd.pos + 7) 7, p.at (p.rd.pos + 14)) := by
  have h2 : p.rd.read 2 = _ := read_ok (by decide) (by omega)
  have h5 : (p.rd.at (p.rd.pos + 2)).read 5 = _ := read_at (by decide) (by omega)
  have h7 : (p.rd.at (p.rd.pos + 2 + 5)).read 7 = _ := read_at (by decide) (by omega)
  simp only [recordHead, h2, h5, h7, bind, Except.bind, pure, Except.pure]
  rfl

/-- A record in a tone payload that expects one, where its operation gives a parse. -/
theorem onRecord_ok {act : State → TonePart → Nat → Nat → Nat → Parse → Except Stop Parse}
    {band pos : Nat} {s : State} {p q : Parse} {tp : TonePart} (ha : s.activity = .packet p)
    (ht : p.tone = some tp) (hl : 0 < tp.left) (hb : p.rd.pos + 14 ≤ p.rd.limit)
    (h : act s tp band pos p.rd.pos (p.at (p.rd.pos + 14)) = .ok q) :
    onRecord act band pos s = .next { s with activity := .packet q } := by
  unfold onRecord
  simp only [ha, ht, hl, if_true, recordHead_ok hb, bind, Except.bind, h]

/-- A record in a tone payload that expects one, where its operation raises an error. -/
theorem onRecord_raised {act : State → TonePart → Nat → Nat → Nat → Parse → Except Stop Parse}
    {band pos : Nat} {s : State} {p : Parse} {tp : TonePart} {e : Err} {n : Nat}
    (ha : s.activity = .packet p) (ht : p.tone = some tp) (hl : 0 < tp.left)
    (hb : p.rd.pos + 14 ≤ p.rd.limit)
    (h : act s tp band pos p.rd.pos (p.at (p.rd.pos + 14)) = .error (.raised e n)) :
    onRecord act band pos s = .next (s.takePacketError p.via e n) := by
  unfold onRecord
  simp only [ha, ht, hl, if_true, recordHead_ok hb, bind, Except.bind, h]
  rfl

end Sys2Proof.Machine
end

