-- ==== Sys2Proof/Laws/Exec.lean ====
section
/-!
SUPPORT. All that an instruction and a step can do, said once: if `exec i s` or `step s` answers a next
state, one of the cases below holds. An invariant is proved by going through the cases.
-/

namespace Sys2Proof.Machine

open Sys2Proof

/-- The end of a frame decode of `packet` begun in `s` (44_synthesis.md R220). -/
inductive FrameTo (s : State) (via : Via) (packet : List Byte) : State → Prop
  | good (p : Parse) (h : parsePacket s via packet = .ok p) :
      FrameTo s via packet (s.completeFrame via (.good p.sh))
  | bad (e : Err) (pos : Nat) (h : parsePacket s via packet = .error (.raised e pos)) :
      FrameTo s via packet (s.takePacketError via e pos)

theorem frameDecode_next {s t : State} {via : Via} {packet : List Byte}
    (h : frameDecode s via packet = .next t) : FrameTo s via packet t := by
  unfold frameDecode at h
  split at h
  · rename_i p hp; cases h; exact .good p hp
  · rename_i e he
    cases e with
    | raised e pos => cases h; exact .bad e pos he
    | refuse r => cases h

/-- What a bitstream element of a packet parse can do. -/
inductive ElementTo (s : State) (p : Parse) : State → Prop
  | next (q : Parse) (h : ParamsSpec s.par → Advances s p q) :
      ElementTo s p { s with activity := .packet q }
  | error (e : Err) (pos : Nat) : ElementTo s p (s.takePacketError p.via e pos)

/-- What an extradata chunk can do in the parse `x`. -/
inductive ChunkTo (s : State) (x : ChunkParse) : State → Prop
  | second (h : frmaOk x.blob = true) :
      ChunkTo s x { s with activity := .chunks { x with place := .second } }
  | third (hx : x.place = .second) (h : qdcaOk x.blob = true) : ChunkTo s x
      { s with activity := .chunks { x with place := .third, record := qdcaRecord x.blob } }
  | done (h : x.place = .third) : ChunkTo s x (s.construct x.mode x.record)
  | bad : ChunkTo s x (State.fail { s with activity := .idle } .kBadExtradata)

/-- What a host command can do; nothing is in progress when it starts. -/
inductive CommandTo (s : State) : State → Prop
  | fail (e : Err) : CommandTo s (s.fail e)
  | succeed (r : Word) : CommandTo s (s.succeed r)
  | badExtradata (h : s.live = false) :
      CommandTo s (State.fail { s with vlcReady := true } .kBadExtradata)
  | construct (md : Mode) (r : ExtraRec) (h : s.live = false) (ha : s.arg.toNat ≤ inbufBytes)
      (hr : extradataParse (s.inbuf s.arg.toNat) = .ok r) :
      CommandTo s (State.construct { s with vlcReady := true } md r)
  | queue (hl : s.live = true) (hm : s.mode = .stream) (hd : s.adapter ≠ .draining)
      (ha : s.arg = s.cfg.frameSize) (hq : s.queueCount ≠ queueDepth) :
      CommandTo s (State.succeed { s with
        queue := s.queue ++ [{ bytes := s.inbuf s.arg.toNat, seq := s.nextSeq }]
        nextSeq := s.nextSeq + 1 } 0)
  | finish (hl : s.live = true) (hm : s.mode = .stream) (hd : s.adapter ≠ .draining) :
      CommandTo s (State.succeed { s with adapter := .draining } 0)
  | read (hl : s.live = true) (hm : s.mode = .stream)
      (h : s.frameSamples ≤ s.pendingCount ∨ s.queue = []) : CommandTo s s.finishRead
  | readFrame (hl : s.live = true) (hm : s.mode = .stream) (hn : s.pendingCount < s.frameSamples)
      (q : Packet) (qs : List Packet) (hq : s.queue = q :: qs) (t : State)
      (h : FrameTo { s with queue := qs } .readBuffer q.bytes t) : CommandTo s t
  | packetFrame (hl : s.live = true) (hm : s.mode = .codec) (ha : s.arg = s.cfg.frameSize)
      (t : State) (h : FrameTo s .decodePacket (s.inbuf s.arg.toNat) t) : CommandTo s t
  | destroy (hl : s.live = true) :
      CommandTo s (State.succeed { s with queue := [], pending := [], adapter := .closed } 0)

/-! ### Commands -/

theorem onCommand_next {gate : State → Option Err} {body : State → Out} {s t : State}
    (h : onCommand gate body s = .next t) :
    s.activity = .idle ∧ ((∃ e, t = s.fail e) ∨ (gate s = none ∧ body s = .next t)) := by
  unfold onCommand at h
  split at h
  · rename_i ha
    refine ⟨ha, ?_⟩
    split at h
    · cases h; exact .inl ⟨_, rfl⟩
    · rename_i hg; exact .inr ⟨hg, h⟩
  · cases h

/-- A command whose checks fail changes STATUS.ERR and RESULT only (45_host_commands.md R230). -/
theorem onCommand_some {gate : State → Option Err} {s : State} {e : Err} (ha : s.activity = .idle)
    (hg : gate s = some e) (body : State → Out) : onCommand gate body s = .next (s.fail e) := by
  unfold onCommand
  split
  · rw [hg]
  · rename_i h; exact absurd ha (by simpa using h)

/-- A command whose checks pass runs its own rule. -/
theorem onCommand_none {gate : State → Option Err} {s : State} (ha : s.activity = .idle)
    (hg : gate s = none) (body : State → Out) : onCommand gate body s = body s := by
  unfold onCommand
  split
  · rw [hg]
  · rename_i h; exact absurd ha (by simpa using h)

theorem gateConfigure_none {s : State} (h : gateConfigure s = none) : s.live = false := by
  unfold gateConfigure at h
  cases hl : s.live <;> simp [hl] at h ⊢

theorem gateLive_none {s : State} (h : gateLive s = none) : s.live = true := by
  unfold gateLive at h
  cases hl : s.live <;> simp [hl] at h ⊢

theorem gateStream_none {s : State} (h : gateStream s = none) : s.live = true ∧ s.mode = .stream := by
  unfold gateStream at h
  cases hl : s.live <;> cases hm : s.mode <;> simp [hl, hm] at h ⊢

theorem gateCodec_none {s : State} (h : gateCodec s = none) : s.live = true ∧ s.mode = .codec := by
  unfold gateCodec at h
  cases hl : s.live <;> cases hm : s.mode <;> simp [hl, hm] at h ⊢

theorem configure_next {md : Mode} {s t : State} (hl : s.live = false)
    (h : configure md s = .next t) : CommandTo s t := by
  unfold configure at h
  simp only at h
  split at h
  · cases h; exact .badExtradata hl
  · rename_i ha
    split at h
    · rename_i e he
      cases h
      have : e = .kBadExtradata := by
        unfold extradataParse at he
        repeat' split at he
        all_goals first | (injection he with he; exact he.symm) | exact nomatch he
      rw [this]
      exact .badExtradata hl
    · rename_i r hr
      cases h
      have e : State.inbuf { s with vlcReady := true } s.arg.toNat = s.inbuf s.arg.toNat :=
        loadBytes_congr _ _ fun _ _ _ => rfl
      exact .construct md r hl (Nat.le_of_not_lt ha) (e ▸ hr)

theorem readBuffer_next {s t : State} (hl : s.live = true) (hm : s.mode = .stream)
    (h : readBuffer s = .next t) : CommandTo s t := by
  unfold readBuffer at h
  split at h
  · rename_i hn
    split at h
    · rename_i q qs hq; exact .readFrame hl hm hn q qs hq t (frameDecode_next h)
    · rename_i hq; cases h; exact .read hl hm (.inr hq)
  · rename_i hn
    cases h
    exact .read hl hm (.inl (Nat.le_of_not_lt hn))

theorem exec_command_next {i : Instr} {s t : State} (hi : isCommand i = true)
    (h : exec i s = .next t) : s.activity = .idle ∧ CommandTo s t := by
  have close : ∀ {gate : State → Option Err} {body : State → Out},
      (gate s = none → body s = .next t → CommandTo s t) → onCommand gate body s = .next t →
      s.activity = .idle ∧ CommandTo s t := by
    intro gate body hb h
    obtain ⟨ha, h⟩ := onCommand_next h
    refine ⟨ha, ?_⟩
    rcases h with ⟨e, rfl⟩ | ⟨hg, h⟩
    · exact .fail e
    · exact hb hg h
  have obs : ∀ {body : State → Word}, onCommand gateLive (fun s => .next (s.succeed (body s))) s
      = .next t → s.activity = .idle ∧ CommandTo s t := fun h =>
    close (fun _ hb => by cases hb; exact .succeed _) h
  cases i <;> try (exfalso; revert hi; simp [isCommand, Instr.layer]; done)
  · exact close (fun hg hb => configure_next (gateConfigure_none hg) hb) h
  · exact close (fun hg hb => configure_next (gateConfigure_none hg) hb) h
  · refine close (fun hg hb => ?_) h
    obtain ⟨hl, hm⟩ := gateStream_none hg
    unfold queuePacket at hb
    split at hb
    · cases hb; exact .fail _
    · split at hb
      · cases hb; exact .fail _
      · split at hb
        · cases hb; exact .fail _
        · rename_i hd ha hq
          cases hb
          exact .queue hl hm hd (not_not.1 ha) hq
  · refine close (fun hg hb => ?_) h
    obtain ⟨hl, hm⟩ := gateStream_none hg
    unfold finish at hb
    split at hb
    · cases hb; exact .fail _
    · rename_i hd; cases hb; exact .finish hl hm hd
  · exact close (fun hg hb => readBuffer_next (gateStream_none hg).1 (gateStream_none hg).2 hb) h
  · exact obs (body := fun s => if s.eod then 1 else 0) h
  · exact obs (body := fun s => if s.cfg.channels = 2 then 1 else 0) h
  · exact obs (body := fun s => s.cfg.sampleRate) h
  · refine close (fun hg hb => ?_) h
    obtain ⟨hl, hm⟩ := gateCodec_none hg
    unfold decodePacket at hb
    split at hb
    · cases hb; exact .fail _
    · rename_i ha; exact .packetFrame hl hm (not_not.1 ha) t (frameDecode_next hb)
  · refine close (gate := gateLive) (body := fun s => .next (State.succeed
      { s with queue := [], pending := [], adapter := .closed } 0)) (fun hg hb => ?_) h
    cases hb
    exact .destroy (gateLive_none hg)

/-! ### Elements -/

theorem catchStop_next {s t : State} {via : Via} {e : Stop} (h : s.catchStop via e = .next t) :
    ∃ err pos, e = .raised err pos ∧ t = s.takePacketError via err pos := by
  cases e with
  | raised err pos => cases h; exact ⟨err, pos, rfl, rfl⟩
  | refuse r => cases h

theorem onSubpacket_next {body : State → Parse → Except Stop Parse} {s t : State}
    (h : onSubpacket body s = .next t) : ∃ p, s.activity = .packet p ∧ p.tone = none ∧ 0 < p.left
      ∧ ((∃ q, body s p = .ok q ∧ t = { s with activity := .packet q })
        ∨ ∃ e pos, body s p = .error (.raised e pos) ∧ t = s.takePacketError p.via e pos) := by
  unfold onSubpacket at h
  split at h
  · rename_i p hp
    split at h
    · rename_i hc
      simp only [Bool.and_eq_true, Option.isNone_iff_eq_none, decide_eq_true_eq] at hc
      refine ⟨p, hp, hc.1, hc.2, ?_⟩
      split at h
      · rename_i q hq; cases h; exact .inl ⟨q, hq, rfl⟩
      · rename_i e he
        obtain ⟨err, pos, rfl, ht⟩ := catchStop_next h
        exact .inr ⟨err, pos, he, ht⟩
    · cases h
  · cases h

theorem onRecord_next {act : State → TonePart → Nat → Nat → Nat → Parse → Except Stop Parse}
    {band pos : Nat} {s t : State} (h : onRecord act band pos s = .next t) :
    ∃ p tp, s.activity = .packet p ∧ p.tone = some tp ∧ 0 < tp.left
      ∧ ((∃ q, (do let (_, _, _, r) ← recordHead p; act s tp band pos p.rd.pos r) = .ok q
          ∧ t = { s with activity := .packet q })
        ∨ ∃ e n, t = s.takePacketError p.via e n) := by
  unfold onRecord at h
  split at h
  · rename_i p hp
    split at h
    · rename_i tp htp
      split at h
      · rename_i hl
        refine ⟨p, tp, hp, htp, hl, ?_⟩
        split at h
        · rename_i q hq; cases h; exact .inl ⟨q, hq, rfl⟩
        · obtain ⟨err, n, _, ht⟩ := catchStop_next h
          exact .inr ⟨err, n, ht⟩
      · cases h
    · cases h
  · cases h

theorem settleChunk_bad {s t : State} {x : ChunkParse} (h : settleChunk s x .bad = .next t) :
    ChunkTo s x t := by cases h; exact .bad

theorem settleChunk_done {s t : State} {x : ChunkParse} (hx : x.place = .third)
    (h : settleChunk s x .done = .next t) : ChunkTo s x t := by
  cases h
  exact .done hx

theorem onChunk_next {f : ChunkParse → ChunkNext} {s t : State} (h : onChunk f s = .next t) :
    ∃ x, s.activity = .chunks x ∧ settleChunk s x (f x) = .next t := by
  unfold onChunk at h
  split at h
  · rename_i x hx; exact ⟨x, hx, h⟩
  · cases h

theorem exec_chunk_next {i : Instr} {s t : State} (hi : i.layer = .chunk)
    (h : exec i s = .next t) : ∃ x, s.activity = .chunks x ∧ ChunkTo s x t := by
  cases i <;> try (exfalso; revert hi; simp [Instr.layer]; done)
  · obtain ⟨x, hx, h⟩ := onChunk_next h
    refine ⟨x, hx, ?_⟩
    unfold frmaChunk at h
    split at h
    · split at h
      · rename_i hf; cases h; exact .second hf
      · exact settleChunk_bad h
    · exact settleChunk_bad h
    · rename_i hp; exact settleChunk_done hp h
  · obtain ⟨x, hx, h⟩ := onChunk_next h
    refine ⟨x, hx, ?_⟩
    unfold qdcaChunk at h
    split at h
    · exact settleChunk_bad h
    · rename_i hp
      split at h
      · rename_i hq; cases h; exact .third hp hq
      · exact settleChunk_bad h
    · rename_i hp; exact settleChunk_done hp h
  · obtain ⟨x, hx, h⟩ := onChunk_next h
    refine ⟨x, hx, ?_⟩
    unfold qdcpChunk at h
    split at h
    · exact settleChunk_bad h
    · exact settleChunk_bad h
    · rename_i hp
      split at h
      · exact settleChunk_bad h
      · exact settleChunk_done hp h

/-- A sub-packet's meaning is its rule in the parse (42_packet_parser.md R152). -/
theorem exec_subpacketInstr (t : Nat) (s : State) :
    exec (subpacketInstr t) s = onSubpacket (subpacketOf t) s := by
  unfold subpacketInstr subpacketOf
  split <;> first | rfl | skip
  split <;> first | rfl | simp at *

/-- A tone record's meaning is its operation (42_packet_parser.md R175). -/
theorem exec_toneInstr (op band pos : Nat) (s : State) :
    exec (toneInstr op band pos) s = onRecord (toneOp op) band pos s := by
  match op with
  | 0 | 1 | 2 => rfl
  | _ + 3 => rfl

theorem subpacket_body {i : Instr} (hi : i.layer = .subpacket) :
    ∃ body, (∀ s, exec i s = onSubpacket body s)
      ∧ ∀ s p, ParamsSpec s.par → Parses (SubpacketSpec s p) (body s p) := by
  cases i <;> try (exfalso; revert hi; simp [Instr.layer]; done)
  · exact ⟨spSeed, fun _ => rfl, fun s p _ => spSeed_parses s p⟩
  · exact ⟨spFlags, fun _ => rfl, fun s p _ => spFlags_parses s p⟩
  · exact ⟨spNoise 2, fun _ => rfl, fun s p hp => spNoise_parses hp 2 p⟩
  · exact ⟨spNoise 3, fun _ => rfl, fun s p hp => spNoise_parses hp 3 p⟩
  · exact ⟨spNoise 4, fun _ => rfl, fun s p hp => spNoise_parses hp 4 p⟩
  · exact ⟨spNoise 13, fun _ => rfl, fun s p hp => spNoise_parses hp 13 p⟩
  · exact ⟨spNoise 14, fun _ => rfl, fun s p hp => spNoise_parses hp 14 p⟩
  · exact ⟨spNoise 15, fun _ => rfl, fun s p hp => spNoise_parses hp 15 p⟩
  · exact ⟨spTone 8, fun _ => rfl, fun s p hp => spTone_parses hp 8 p⟩
  · exact ⟨spTone 9, fun _ => rfl, fun s p hp => spTone_parses hp 9 p⟩
  · exact ⟨spTone 10, fun _ => rfl, fun s p hp => spTone_parses hp 10 p⟩
  · exact ⟨spTone 11, fun _ => rfl, fun s p hp => spTone_parses hp 11 p⟩
  · exact ⟨spTone 12, fun _ => rfl, fun s p hp => spTone_parses hp 12 p⟩
  · exact ⟨spReserved, fun _ => rfl, fun s p _ => spReserved_parses s p⟩
  · exact ⟨spReserved, fun _ => rfl, fun s p _ => spReserved_parses s p⟩
  · exact ⟨spReserved, fun _ => rfl, fun s p _ => spReserved_parses s p⟩

theorem tone_body {i : Instr} (hi : i.layer = .toneRecord) :
    ∃ act band pos, (∀ s, exec i s = onRecord act band pos s)
      ∧ ∀ s tp b n r0 p, ParamsSpec s.par → Parses (RecordSpec s tp p) (act s tp b n r0 p) := by
  cases i <;> try (exfalso; revert hi; simp [Instr.layer]; done)
  · exact ⟨toneAdd, _, _, fun _ => rfl, fun s tp b n r0 p hp => toneAdd_parses hp tp b n r0 p⟩
  · exact ⟨toneRefresh, _, _, fun _ => rfl, fun s tp b n r0 p _ => toneRefresh_parses tp b n r0 p⟩
  · exact ⟨toneDelete, _, _, fun _ => rfl, fun s tp b n r0 p _ => toneDelete_parses tp b n r0 p⟩
  · exact ⟨toneReserved, _, _, fun _ => rfl, fun s tp b n r0 p _ => toneReserved_parses tp b n r0 p⟩

theorem exec_element_next {i : Instr} {s t : State}
    (hi : i.layer = .subpacket ∨ i.layer = .toneRecord) (h : exec i s = .next t) :
    ∃ p, s.activity = .packet p ∧ ElementTo s p t := by
  rcases hi with hi | hi
  · obtain ⟨body, he, hb⟩ := subpacket_body hi
    rw [he] at h
    obtain ⟨p, hp, _, _, h⟩ := onSubpacket_next h
    refine ⟨p, hp, ?_⟩
    rcases h with ⟨q, hq, rfl⟩ | ⟨e, pos, _, rfl⟩
    · exact .next q fun hs => (parses_ok (hb s p hs) hq).toAdvances
    · exact .error e pos
  · obtain ⟨act, band, pos, he, hb⟩ := tone_body hi
    rw [he] at h
    obtain ⟨p, tp, hp, _, _, h⟩ := onRecord_next h
    refine ⟨p, hp, ?_⟩
    rcases h with ⟨q, hq, rfl⟩ | ⟨e, n, rfl⟩
    · exact .next q fun hs => (parses_ok
        (record_parses (fun b n r0 p => hb s tp b n r0 p hs) band pos) hq).toAdvances
    · exact .error e n

/-- All that an instruction can do. -/
theorem exec_next {i : Instr} {s t : State} (h : exec i s = .next t) :
    (isCommand i = true ∧ s.activity = .idle ∧ CommandTo s t)
      ∨ (isCommand i = false ∧ ∃ p, s.activity = .packet p ∧ ElementTo s p t)
      ∨ (isCommand i = false ∧ ∃ x, s.activity = .chunks x ∧ ChunkTo s x t) := by
  cases hl : i.layer
  · have hc : isCommand i = true := by simp [isCommand, hl]
    exact .inl ⟨hc, exec_command_next hc h⟩
  · exact .inr (.inl ⟨by simp [isCommand, hl], exec_element_next (.inl hl) h⟩)
  · exact .inr (.inl ⟨by simp [isCommand, hl], exec_element_next (.inr hl) h⟩)
  · exact .inr (.inr ⟨by simp [isCommand, hl], exec_chunk_next hl h⟩)

/-! ### The step -/

/-- All that a step can do. -/
inductive StepTo (s : State) : State → Prop
  | wait (ha : s.activity = .idle) (hh : s.host = []) : StepTo s s
  | reset (ha : s.activity = .idle) (h : List HostEvent) (hh : s.host = .reset :: h) :
      StepTo s (State.resetWith s.par h (s.resets + 1))
  | read (ha : s.activity = .idle) (h : List HostEvent) (w : Width) (a : BitVec 16)
      (hh : s.host = .access (.read w a) :: h) :
      StepTo s (State.busRead { s with host := h } w a.toNat)
  | write (ha : s.activity = .idle) (h : List HostEvent) (w : Width) (a : BitVec 16) (v : Word)
      (hh : s.host = .access (.write w a v) :: h) :
      StepTo s (State.busWrite { s with host := h } w a.toNat v)
  | illegal (ha : s.activity = .idle) (h : List HostEvent) (w : Word)
      (hh : s.host = .access (.write .w32 0 w) :: h) :
      StepTo s (State.fail { s with host := h } .kBadCommand)
  | command (ha : s.activity = .idle) (h : List HostEvent) (w : Word)
      (hh : s.host = .access (.write .w32 0 w) :: h) (t : State)
      (ht : CommandTo { s with host := h } t) : StepTo s t
  | element (p : Parse) (ha : s.activity = .packet p) (t : State) (ht : ElementTo s p t) :
      StepTo s t
  | frame (p : Parse) (ha : s.activity = .packet p) :
      StepTo s (s.completeFrame p.via (.good p.sh))
  | chunk (x : ChunkParse) (ha : s.activity = .chunks x) (t : State) (ht : ChunkTo s x t) :
      StepTo s t

theorem isCommand_of_decode {w : Nat} {i : Instr} (h : decodeCommand w = .ok i) :
    isCommand i = true := by
  unfold decodeCommand at h
  repeat' split at h
  all_goals first | (injection h with h; subst h; rfl) | exact nomatch h

theorem layer_of_decodeChunk {w : Nat} {i : Instr} (h : decodeChunk w = .ok i) :
    i.layer = .chunk := by
  unfold decodeChunk at h
  repeat' split at h
  all_goals first | (injection h with h; subst h; rfl) | exact nomatch h

theorem layer_subpacketInstr (t : Nat) : (subpacketInstr t).layer = .subpacket := by
  unfold subpacketInstr
  split <;> rfl

theorem layer_toneInstr (op band pos : Nat) : (toneInstr op band pos).layer = .toneRecord := by
  unfold toneInstr
  split <;> rfl

/-- The outcome of what a step takes next. -/
def Fetched.out : Fetched → Out
  | .run i s => exec i s
  | .settled o => o

theorem step_eq (s : State) : step s = (fetch s).out := by
  unfold step Fetched.out
  split <;> simp_all

theorem fetchCommand_next {s t : State} {w : Word} (h : (fetchCommand s w).out = .next t) :
    t = s.fail .kBadCommand ∨ CommandTo s t := by
  unfold fetchCommand at h
  split at h
  · rename_i i hd; exact .inr (exec_command_next (isCommand_of_decode hd) h).2
  · cases h; exact .inl rfl

theorem fetchHost_next {s t : State} (ha : s.activity = .idle) (h : (fetchHost s).out = .next t) :
    StepTo s t := by
  unfold fetchHost at h
  match hh : s.host with
  | [] => rw [hh] at h; cases h; exact .wait ha hh
  | .reset :: l => rw [hh] at h; cases h; exact .reset ha l hh
  | .unordered _ _ :: l => rw [hh] at h; cases h
  | .access (.read w a) :: l => rw [hh] at h; cases h; exact .read ha l w a hh
  | .access (.write w a v) :: l =>
    rw [hh] at h
    simp only [fetchAccess] at h
    split at h
    · rename_i hc
      obtain ⟨rfl, rfl⟩ := hc
      rcases fetchCommand_next h with rfl | ht
      · exact .illegal ha l v hh
      · exact .command ha l v hh t ht
    · cases h; exact .write ha l w a v hh

theorem fetchChunk_next {s t : State} {x : ChunkParse} (ha : s.activity = .chunks x)
    (h : (fetchChunk s x).out = .next t) : ChunkTo s x t := by
  have run : ∀ {n : Nat} {i : Instr}, decodeChunk n = .ok i → exec i s = .next t →
      ChunkTo s x t := by
    intro n i hd he
    obtain ⟨y, hy, hc⟩ := exec_chunk_next (layer_of_decodeChunk hd) he
    rw [ha] at hy
    cases hy
    exact hc
  unfold fetchChunk at h
  split at h <;> rename_i hx
  · split at h <;> rename_i hd
    · exact run hd h
    · exact settleChunk_bad h
  · split at h <;> rename_i hd
    · exact run hd h
    · exact settleChunk_bad h
  · split at h
    · split at h <;> rename_i hd
      · exact run hd h
      · exact settleChunk_done hx h
    · exact settleChunk_done hx h

theorem fetchElement_next {s t : State} {p : Parse} (ha : s.activity = .packet p)
    (h : (fetchElement s p).out = .next t) :
    ElementTo s p t ∨ t = s.completeFrame p.via (.good p.sh) := by
  have run : ∀ {i : Instr}, i.layer = .subpacket ∨ i.layer = .toneRecord → exec i s = .next t →
      ElementTo s p t := by
    intro i hi he
    obtain ⟨q, hq, hc⟩ := exec_element_next hi he
    rw [ha] at hq
    cases hq
    exact hc
  have stop : ∀ {e : Stop}, s.catchStop p.via e = .next t → ElementTo s p t := fun hc => by
    obtain ⟨e, pos, _, rfl⟩ := catchStop_next hc
    exact .error e pos
  unfold fetchElement at h
  split at h
  · rename_i tp htp
    split at h
    · refine .inl ?_
      simp only [Fetched.out, afterElement] at h
      split at h
      · rename_i q hq
        cases h
        exact .next q fun _ =>
          (parses_ok (closeTone_parses s (by rw [htp]; rfl)) hq).toAdvances
      · exact stop h
    · split at h
      · exact .inl (run (.inr (layer_toneInstr _ _ _)) h)
      · exact .inl (stop h)
  · split at h
    · cases h; exact .inr rfl
    · split at h
      · exact .inl (run (.inl (layer_subpacketInstr _)) h)
      · exact .inl (stop h)

/-- One of these cases holds of every step that gives a next state. -/
theorem step_next {s t : State} (h : step s = .next t) : StepTo s t := by
  rw [step_eq] at h
  unfold fetch at h
  match ha : s.activity with
  | .idle => rw [ha] at h; exact fetchHost_next ha h
  | .chunks x => rw [ha] at h; exact .chunk x ha t (fetchChunk_next ha h)
  | .packet p =>
    rw [ha] at h
    rcases fetchElement_next ha h with ht | rfl
    · exact .element p ha t ht
    · exact .frame p ha

end Sys2Proof.Machine
end

