-- ==== Sys2Proof/Laws/PerInstr.lean ====
section
/-!
SUPPORT. Statements about every instruction, one lemma per constructor. The family `EncodeFits`: a
well-formed instruction's encoding fits the width of its field, and is stored in as many bytes as that
width takes (30_encoding.md R80, R85, R91, R100).
-/

namespace Sys2Proof.Laws.EncodeFits

open Sys2Proof

/-- The encoding of `i` fits its width and its bytes. -/
def Statement (i : Instr) : Prop :=
  i.wf = true →
    i.encodeWord < 2 ^ i.encodeWidth ∧ (encode i).length = (i.encodeWidth + 7) / 8

/-- A record head fits 14 bits. -/
theorem head_fits {op band pos : Nat} (ho : op < 4) (h : slotFits band pos = true) :
    op * 4096 + band * 128 + pos < 2 ^ 14 := by
  simp only [slotFits, Bool.and_eq_true, decide_eq_true_eq] at h
  omega

/-- A type code stands in one byte. -/
theorem subpacket_bytes {i : Instr} (h : i.layer = .subpacket) :
    (encode i).length = (i.encodeWidth + 7) / 8 := by
  simp [encode, Instr.encodeWidth, h, bytesOfWord, Layer.bits]

/-- A record head stands in two bytes. -/
theorem record_bytes {i : Instr} (h : i.layer = .toneRecord) :
    (encode i).length = (i.encodeWidth + 7) / 8 := by
  simp [encode, Instr.encodeWidth, h, bytesOfWord, Layer.bits]

theorem configureStream : Statement .configureStream := fun _ => by decide

theorem configureCodec : Statement .configureCodec := fun _ => by decide

theorem queuePacket : Statement .queuePacket := fun _ => by decide

theorem finish : Statement .finish := fun _ => by decide

theorem readBuffer : Statement .readBuffer := fun _ => by decide

theorem endOfData : Statement .endOfData := fun _ => by decide

theorem isStereo : Statement .isStereo := fun _ => by decide

theorem getRate : Statement .getRate := fun _ => by decide

theorem decodePacket : Statement .decodePacket := fun _ => by decide

theorem destroy : Statement .destroy := fun _ => by decide

theorem spSeed : Statement .spSeed := fun _ => by decide

theorem spFlags : Statement .spFlags := fun _ => by decide

theorem spNoise2 : Statement .spNoise2 := fun _ => by decide

theorem spNoise3 : Statement .spNoise3 := fun _ => by decide

theorem spNoise4 : Statement .spNoise4 := fun _ => by decide

theorem spNoise13 : Statement .spNoise13 := fun _ => by decide

theorem spNoise14 : Statement .spNoise14 := fun _ => by decide

theorem spNoise15 : Statement .spNoise15 := fun _ => by decide

theorem spTone8 : Statement .spTone8 := fun _ => by decide

theorem spTone9 : Statement .spTone9 := fun _ => by decide

theorem spTone10 : Statement .spTone10 := fun _ => by decide

theorem spTone11 : Statement .spTone11 := fun _ => by decide

theorem spTone12 : Statement .spTone12 := fun _ => by decide

theorem spReserved5 : Statement .spReserved5 := fun _ => by decide

theorem spReserved67 (t : Nat) : Statement (.spReserved67 t) := fun h => by
  simp only [Instr.wf, Bool.or_eq_true, decide_eq_true_eq] at h
  refine ⟨?_, subpacket_bytes rfl⟩
  show t < 2 ^ 5
  omega

theorem spReserved1631 (t : Nat) : Statement (.spReserved1631 t) := fun h => by
  simp only [Instr.wf, Bool.and_eq_true, decide_eq_true_eq] at h
  refine ⟨?_, subpacket_bytes rfl⟩
  show t < 2 ^ 5
  omega

theorem toneAdd (band pos : Nat) : Statement (.toneAdd band pos) :=
  fun h => ⟨head_fits (by decide) h, record_bytes rfl⟩

theorem toneRefresh (band pos : Nat) : Statement (.toneRefresh band pos) :=
  fun h => ⟨head_fits (by decide) h, record_bytes rfl⟩

theorem toneDelete (band pos : Nat) : Statement (.toneDelete band pos) :=
  fun h => ⟨head_fits (by decide) h, record_bytes rfl⟩

theorem toneReserved (band pos : Nat) : Statement (.toneReserved band pos) :=
  fun h => ⟨head_fits (by decide) h, record_bytes rfl⟩

theorem chunkFrma : Statement .chunkFrma := fun _ => by decide

theorem chunkQdca : Statement .chunkQdca := fun _ => by decide

theorem chunkQdcp : Statement .chunkQdcp := fun _ => by decide

end Sys2Proof.Laws.EncodeFits
end

