-- ==== Sys2Proof/Tests/Slice0.lean ====
section
/-!
SUPPORT. The model's own tests: encodings written out from 30_encoding.md, the vectors V-... and the
programs of 95_test_vectors.md, and one witness for the hypotheses of each statement that has some.
Expected values are the spec's; a test with none in the spec says how its value was computed by hand.
-/

namespace Sys2Proof.Tests

open Sys2Proof Sys2Proof.Machine

-- One theorem at a time: the kernel evaluates each, and many at once need a thread and a stack each.
set_option Elab.async false

/-! ### The test configuration and small states -/

/-- Bytes from numbers. -/
def bytes (l : List Nat) : List Byte := l.map (BitVec.ofNat 8)

/-- The bands of TESTCFG (95_test_vectors.md section 1). -/
def bands4 : List Band := [⟨0, 8⟩, ⟨8, 8⟩, ⟨16, 16⟩, ⟨32, 32⟩]

/-- TESTCFG (95_test_vectors.md section 1). -/
def testcfg : Params :=
  { checksumInit := List.replicate 256 0
    noiseVlc := [[⟨1, 0⟩, ⟨2, 1⟩, ⟨3, -1⟩, ⟨3, 2⟩]]
    noiseSel := List.replicate 32 0
    ampVlc := [⟨2, 100⟩, ⟨2, 1000⟩, ⟨2, 10000⟩, ⟨3, 0⟩, ⟨3, -1⟩]
    phaseVlc := [⟨1, 0⟩, ⟨2, 2⟩, ⟨3, 4⟩, ⟨3, -1⟩]
    layout256 := bands4, layout512 := bands4, layout1024 := bands4
    eMin := 0, eMax := 4095, decayNum := 3, decayShift := 2, ampThresh := 16
    lcgA := 1664525, lcgC := 1013904223, phaseLog := 3, seedInit := 0
    badFrameOla := .mute, noiseRanges := [], toneRanges := [] }

/-- TESTCFG-B: NOISE_VLC[0] = ((2, 5), (2, 7)). -/
def testcfgB : Params := { testcfg with noiseVlc := [[⟨2, 5⟩, ⟨2, 7⟩]] }

/-- TESTCFG-C: CHECKSUM_INIT[7] = 0x1234. -/
def testcfgC : Params := { testcfg with checksumInit := testcfg.checksumInit.set 7 0x1234 }

/-- The blob X1. -/
def x1 : List Byte := bytes
  [0, 0, 0, 0x0c, 0x66, 0x72, 0x6d, 0x61, 0x51, 0x44, 0x4d, 0x32, 0, 0, 0, 0x24, 0x51, 0x44, 0x43, 0x41,
    0, 0, 0, 1, 0, 0, 0, 1, 0, 0, 0x56, 0x22, 0, 0, 0x3e, 0x80, 0, 0, 0, 0x40, 0, 0, 0, 0x40, 0, 0, 2, 0]

/-- X1's record. -/
def r1 : ExtraRec :=
  { version := 1, channels := 1, sampleRate := 22050, bitrate := 16000, blockSize := 64,
    frameSize := 64, packetSize := 512 }

/-- The record of X2 (`ch` = 1) and of X3 but for its rates (`ch` = 2): frame size 16, spf 256. -/
def r2 (ch : Word) : ExtraRec :=
  { version := 1, channels := ch, sampleRate := 8000, bitrate := 8000, blockSize := 16,
    frameSize := 16, packetSize := 256 }

/-- Reset under the parameters `p`. -/
def start (p : Params) : State := State.resetWith p [] 0

/-- An instance of mode `md` with `ch` channels, spf 256 and frame size 16, just constructed. -/
def opened (md : Mode) (ch : Word) : State := (start testcfg).construct md (r2 ch)

/-- The state with the bytes `b` in INBUF and their number in ARG. -/
def loaded (s : State) (b : List Byte) : State :=
  { s.storeBytes inbufBase b with arg := BitVec.ofNat 32 b.length }

/-- The state whose host issues `e` next. -/
def issuing (e : HostEvent) (s : State) : State := { s with host := [e] }

/-- A host write of `w` to CMD. -/
def cmdWrite (w : Word) : HostEvent := .access (.write .w32 0 w)

/-- What `f` gives on the next state of an outcome. -/
def after {β : Type} (o : Out) (f : State → β) : Option β :=
  match o with
  | .next t => some (f t)
  | _ => none

/-- The parse of the 14-byte body `b`, about to read a sub-packet at bit `pos`. -/
def parseAt (s : State) (b : List Nat) (pos : Nat) : Parse :=
  { via := .decodePacket, rd := { buf := bytes b, pos := pos, limit := 112 }, sh := Shadow.ofState s,
    left := 1, lastRank := 0, tone := none }

/-- `s` inside that parse, at its first sub-packet. -/
def inPacket (s : State) (b : List Nat) : State := { s with activity := .packet (parseAt s b 16) }

/-- The tone payload of one record in a mono packet: type `t`, length 112, its first bit 37. -/
def onePart (t : Nat) : TonePart := { type := t, ch := .c0, start := 37, len := 60, left := 1 }

/-- `s` inside a parse of `b` at the first record of a tone payload of type `t` (bit 43 in a mono
stream). -/
def inTones (s : State) (t : Nat) (b : List Nat) : State :=
  { s with activity := .packet { parseAt s b 43 with tone := some (onePart t) } }

/-- `s` at the chunk place `pl` of the blob `b`. -/
def inChunks (s : State) (pl : ChunkAt) (b : List Byte) : State :=
  { s with activity := .chunks { mode := .stream, blob := b, place := pl, record := r1 } }

/-- A view of the parse in progress. -/
def viewParse {β : Type} (f : Parse → β) (s : State) : Option β :=
  match s.activity with
  | .packet p => some (f p)
  | _ => none

/-- How a parse ended: the shadow state's view, or the error and its position. -/
def parsed {β : Type} (s : State) (b : List Nat) (f : Shadow → β) : β ⊕ Err × Nat :=
  match parsePacket s .decodePacket (bytes b) with
  | .ok p => .inl (f p.sh)
  | .error (.raised e pos) => .inr (e, pos)
  | .error (.refuse _) => .inr (.kOk, 0)

/-- A tone with the numbers given, started at frame 0. -/
def tone (band position amplitude phase duration : Nat) : Tone :=
  { band, position, amplitude, phase, duration, startFrame := 0 }

/-! ### Well-formedness: each check refuses an ill-formed term -/

theorem test_wf_reserved67 : (Instr.spReserved67 5).wf = false ∧ (Instr.spReserved67 8).wf = false := by
  decide
theorem test_wf_reserved1631 :
    (Instr.spReserved1631 15).wf = false ∧ (Instr.spReserved1631 32).wf = false := by decide
theorem test_wf_band : (Instr.toneAdd 32 0).wf = false ∧ (Instr.toneRefresh 32 0).wf = false
    ∧ (Instr.toneDelete 32 0).wf = false ∧ (Instr.toneReserved 32 0).wf = false := by decide
theorem test_wf_pos : (Instr.toneAdd 0 128).wf = false ∧ (Instr.toneRefresh 0 128).wf = false
    ∧ (Instr.toneDelete 0 128).wf = false ∧ (Instr.toneReserved 0 128).wf = false := by decide
theorem test_params_valid : paramsValid testcfg = true ∧ paramsValid testcfgB = true := by decide +kernel
/-- 40_bitreader_vlc.md R126: three codes of one bit, and a duplicate symbol, are refused. -/
theorem test_vlc_invalid : vlcValid [⟨1, 0⟩, ⟨1, 1⟩, ⟨1, 2⟩] = false ∧ vlcValid [⟨2, 5⟩, ⟨2, 5⟩] = false := by
  decide

/-- 00_scope.md R7, 40_bitreader_vlc.md R126: an assignment is refused for bands that overlap and for an
invalid table. -/
theorem test_params_invalid :
    paramsValid { testcfg with layout256 := [⟨0, 8⟩, ⟨7, 8⟩] } = false
      ∧ paramsValid { testcfg with ampVlc := [⟨1, 0⟩, ⟨1, 1⟩, ⟨1, 2⟩] } = false := by decide +kernel

/-- A model is configured with TESTCFG, and with no assignment that fails. -/
theorem test_configured :
    State.configured testcfg = .ok (start testcfg)
      ∧ ∀ p, paramsValid p = false → State.configured p = .error .badParameters :=
  ⟨if_pos test_params_valid.1, fun _ h => if_neg (by rw [h]; decide)⟩

/-- 42_packet_parser.md R154: the views of a SP_SEED, of a type-13 sub-packet of 300 bits, and none of
a reserved type (30_encoding.md R94) or of a header after a noise sub-packet. -/
theorem test_view :
    let v := fun (b : List Nat) (rank : Nat) =>
      (subpacketView { parseAt (start testcfg) b 0 with lastRank := rank }).toOption
    v [0] 0 = some ⟨0, 32, 5, true⟩ ∧ v [0x68, 0x09, 0x60] 0 = some ⟨13, 300, 21, true⟩
      ∧ v [0x28] 0 = none ∧ v [0xF8] 0 = none ∧ v [0] 1 = none := by decide +kernel

/-! ### Decoding: each constructor's word, written out from the spec's encoding -/

/-- 30_encoding.md R80, R81: OPC in bits 7:0, MODE in bit 8, in little-endian lanes. -/
theorem test_decode_commands :
    [[1, 0, 0, 0], [1, 1, 0, 0], [2, 0, 0, 0], [3, 0, 0, 0], [4, 0, 0, 0], [5, 0, 0, 0], [6, 0, 0, 0],
        [7, 0, 0, 0], [8, 0, 0, 0], [9, 0, 0, 0]].map
      (fun l => (decodeBytes .command (bytes l)).toOption)
    = [some .configureStream, some .configureCodec, some .queuePacket, some .finish, some .readBuffer,
        some .endOfData, some .isStereo, some .getRate, some .decodePacket, some .destroy] := by decide

/-- 30_encoding.md R82; V-H4, V-H5, V-H6. -/
theorem test_decode_illegal :
    decodeCommand 0 = .error .illegalOpcode ∧ decodeCommand 0x0A = .error .illegalOpcode
      ∧ decodeCommand 0x109 = .error .modeBit ∧ decodeCommand 0x80000002 = .error .reservedBits
      ∧ decodeCommand 0x201 = .error .reservedBits ∧ decodeCommand 0x100 = .error .illegalOpcode := by
  decide

/-- 30_encoding.md R93, R94: the five bits of each type code at the top of a byte. -/
theorem test_decode_types :
    [0b00000000, 0b00001000, 0b00010000, 0b00011000, 0b00100000, 0b01101000, 0b01110000, 0b01111000,
        0b01000000, 0b01001000, 0b01010000, 0b01011000, 0b01100000, 0b00101000, 0b00110000, 0b00111000,
        0b10000000, 0b11111000].map (fun b => (decodeBytes .subpacket (bytes [b])).toOption)
    = [some .spSeed, some .spFlags, some .spNoise2, some .spNoise3, some .spNoise4, some .spNoise13,
        some .spNoise14, some .spNoise15, some .spTone8, some .spTone9, some .spTone10, some .spTone11,
        some .spTone12, some .spReserved5, some (.spReserved67 6), some (.spReserved67 7),
        some (.spReserved1631 16), some (.spReserved1631 31)] := by decide

/-- 30_encoding.md R100, R101: op (2), band (5), pos (7), MSB-first: band 1 pos 3; band 31 pos 127;
band 0 pos 64; band 16 pos 0. -/
theorem test_decode_records :
    [[0b00000010, 0b00001100], [0b01111111, 0b11111100], [0b10000001, 0b00000000],
        [0b11100000, 0b00000000]].map (fun l => (decodeBytes .toneRecord (bytes l)).toOption)
    = [some (.toneAdd 1 3), some (.toneRefresh 31 127), some (.toneDelete 0 64),
        some (.toneReserved 16 0)] := by decide

/-- 30_encoding.md R86: the tags' characters, the first at the lowest address; 'frmb' is no tag. -/
theorem test_decode_chunks :
    [[0x66, 0x72, 0x6d, 0x61], [0x51, 0x44, 0x43, 0x41], [0x51, 0x44, 0x43, 0x50],
        [0x66, 0x72, 0x6d, 0x62]].map (fun l => (decodeBytes .chunk (bytes l)).toOption)
    = [some .chunkFrma, some .chunkQdca, some .chunkQdcp, none] := by decide

/-- The rows as the host numbers them: a command, a type code, a record's op and a tag. -/
theorem test_decode_table_words :
    decodeTableWord 32 0x101 = some .configureCodec ∧ decodeTableWord 8 13 = some .spNoise13
      ∧ decodeTableWord 2 2 = some (.toneDelete 0 0) ∧ decodeTableWord 32 0x51444341 = some .chunkQdca := by
  decide

/-! ### The bit reader and the codes (V-BR, V-VLC) -/

/-- The buffer of the V-BR vectors at bit `pos`. -/
def brAt (pos : Nat) : BitReader := { buf := bytes [0xa5, 0x3c, 0xf0, 0x0f, 0, 0], pos := pos, limit := 32 }

/-- V-BR1, V-BR3, V-BR4 to V-BR9. -/
theorem test_br_values :
    [(brAt 0).bits 0 3, (brAt 3).bits 3 5, (brAt 0).bits 0 8, (brAt 4).bits 4 8, (brAt 0).bits 0 16,
        (brAt 0).bits 0 32, (brAt 8).bits 8 0, (brAt 28).bits 28 4]
      = [5, 5, 0xA5, 0x53, 0xA53C, 0xA53CF00F, 0, 0xF] := by decide

/-- V-BR2, V-BR9 to V-BR14. -/
theorem test_br_ends :
    (brAt 0).read 3 = .ok (5, brAt 3) ∧ (brAt 28).read 4 = .ok (15, brAt 32)
      ∧ (brAt 29).read 4 = .error (.raised .kTruncated 29) ∧ (brAt 10).skip 22 = .ok (brAt 32)
      ∧ (brAt 32).skip 1 = .error (.raised .kTruncated 32) ∧ (brAt 3).align = .ok (brAt 8)
      ∧ (brAt 8).align = .ok (brAt 8) ∧ (brAt 0).read 33 = .error (.refuse .bitReaderWidth)
      ∧ (brAt 13).tell = 13 := ⟨rfl, rfl, rfl, rfl, rfl, rfl, rfl, rfl, rfl⟩

/-- The symbol and length a table decodes the byte `b` to within `n` bits, or the error. -/
def vlcOn (t : VlcTable) (b n : Nat) : (Int × Nat) ⊕ Err × Nat :=
  match vlcDecode t { buf := bytes [b], pos := 0, limit := n } with
  | .ok (s, l, _) => .inl (s, l)
  | .error (.raised e p) => .inr (e, p)
  | .error (.refuse _) => .inr (.kOk, 0)

/-- V-VLC1 to V-VLC9. -/
theorem test_vlc_decode :
    [vlcOn testcfg.noiseVlc[0] 0x00 8, vlcOn testcfg.noiseVlc[0] 0x80 8, vlcOn testcfg.noiseVlc[0] 0xC0 8,
        vlcOn testcfg.noiseVlc[0] 0xE0 8, vlcOn testcfg.ampVlc 0xC0 8, vlcOn testcfg.phaseVlc 0xE0 8,
        vlcOn testcfgB.noiseVlc[0] 0x80 2, vlcOn testcfg.noiseVlc[0] 0xC0 2,
        vlcOn testcfgB.noiseVlc[0] 0x80 1]
      = [.inl (0, 1), .inl (1, 2), .inl (-1, 3), .inl (2, 3), .inl (0, 3), .inl (-1, 3),
        .inr (.kInvalidCode, 0), .inr (.kTruncated, 0), .inr (.kTruncated, 0)] := by decide +kernel

/-- The tie order of section 3.2: 4 -> 0, 9 -> 10, 3 -> 11. -/
theorem test_vlc_ties : vlcCodes [⟨2, 9⟩, ⟨1, 4⟩, ⟨2, 3⟩] = [⟨1, 0, 4⟩, ⟨2, 2, 9⟩, ⟨2, 3, 3⟩] := by decide

/-! ### Numbers, the inverse FFT, the window (V-F, V-W, V-S) -/

/-- The tables: PH_C, PH_S at 8 steps, the window's and the twiddles' values of 3.7 to 3.9. -/
theorem test_sines :
    (List.range 8).map (phaseCos testcfg) = [0x3F800000, 0x3F3504F3, 0, 0xBF3504F3, 0xBF800000,
        0xBF3504F3, 0, 0x3F3504F3]
      ∧ (List.range 8).map (phaseSin testcfg) = [0, 0x3F3504F3, 0x3F800000, 0x3F3504F3, 0, 0xBF3504F3,
        0xBF800000, 0xBF3504F3]
      ∧ [window 512 0, window 512 1, window 512 128, window 512 255, window 1024 0, window 2048 1023]
        = [0x3B490FC6, 0x3C16CB58, 0x3F3592E7, 0x3F7FFFB1, 0x3AC90FD5, 0x3F7FFFFB] := by decide +kernel

/-- V-W1, V-W2, V-W4, V-W5 (3 + -1.5), and cmul of 3.8: (1,2)(3,4) = (-5, 10). -/
theorem test_arith :
    mul32 (f32 100) 0x3B490FC6 = 0x3E9D1453 ∧ mul32 (f32 100) 0x3F7FFFB1 = 0x42C7FFC2
      ∧ add32 0x3E6B9E7C 0x42C7FFC2 = 0x42C87591 ∧ add32 (f32 3) 0xBFC00000 = 0x3FC00000
      ∧ cmul ⟨f32 1, f32 2⟩ ⟨f32 3, f32 4⟩ = ⟨f32 (-5), f32 10⟩ := by decide +kernel

/-- V-W6, V-W7: 0.5, 1.5, 2.5, their negatives, 32767.4 (as binary32), 32767.5, 40000, -32768.5, -40000, -0.0. -/
theorem test_pcm16 :
    [0x3F000000, 0x3FC00000, 0x40200000, 0xBF000000, 0xBFC00000, 0xC0200000, 0x46FFFECD, 0x46FFFF00,
        0x471C4000, 0xC7000040, 0xC71C4000, 0x80000000].map (fun v => (pcm16 v).toInt)
      = [0, 2, 2, 0, -2, -2, 32767, 32767, 32767, -32768, -32768, 0] := by decide +kernel

/-- V-F1 and V-F4. -/
theorem test_ifft :
    ifft 2 [⟨f32 1, 0⟩, ⟨f32 2, 0⟩, ⟨f32 3, 0⟩, ⟨f32 4, 0⟩]
        = [⟨f32 10, 0⟩, ⟨f32 (-2), f32 (-2)⟩, ⟨f32 (-2), 0⟩, ⟨f32 (-2), f32 2⟩]
      ∧ (ifft 3 ((List.replicate 8 cxZero).set 1 ⟨f32 1, 0⟩)).map Cx.re
        = [0x3F800000, 0x3F3504F3, 0, 0xBF3504F3, 0xBF800000, 0xBF3504F3, 0, 0x3F3504F3] := by
  decide +kernel

/-- V-F6, the value with most roundings. -/
theorem test_ifft_f6 :
    ((ifft 3 ((List.range 8).map fun k => ⟨f32 k, f32 (-k)⟩)).take 4)
      = [⟨0x41E00000, 0xC1E00000⟩, ⟨0xC15A827A, 0xC0B504F3⟩, ⟨0xC1000000, 0⟩, ⟨0xC0B504F3, 0x4015F61A⟩] := by
  decide +kernel

/-- V-S1: the first bins of the build at seed 0, and RNG after its 64 draws. -/
theorem test_noise :
    [noiseValue testcfg 2 0x3C6EF35F, noiseValue testcfg 2 0x47502932, noiseValue testcfg 1 0x9D23E50B]
        = [⟨0x3FB504F3, 0x3FB504F3⟩, ⟨0, f32 2⟩, ⟨f32 (-1), 0⟩]
      ∧ Nat.iterate (lcgNext testcfg) 64 0 = 0x74A4C940 := by decide +kernel

/-- V-S2: the tone's bin takes no draw, so the next bin takes draw 4 (j 5), here at E = 1. -/
theorem test_build_tone :
    let s := opened .codec 1
    let s := { s with chan0 := { s.chan0 with env := [1, 1], tones := [(3, tone 0 3 100 2 16)] } }
    let t := s.spectrumBuild .c0
    t.work.x[3]? = some ⟨0, f32 100⟩ ∧ t.work.x[4]? = some ⟨0xBF3504F3, 0xBF3504F3⟩
      ∧ t.chan0.rngPos = 63 := by decide +kernel

/-! ### Host commands (V-H, P1 to P5) -/

/-- V-X1, V-H3's other side: CONFIGURE.STREAM 48 with X1. -/
theorem test_configure_stream :
    after (step (issuing (cmdWrite 0x001) (loaded (start testcfg) x1)))
      (fun t => (t.adapter, t.cfg.sampleRate, t.fftN, t.fftL, t.numBands, t.statusWord))
      = some (.opened, 22050, 1024, 10, 4, 0x210) := by decide +kernel

/-- V-X3, V-H3: channels 3 gives kBadExtradata, STATUS 0x201. -/
theorem test_configure_fails :
    after (exec .configureStream (loaded (start testcfg) (x1.set 27 3)))
      (fun t => (t.statusWord, t.result, t.cfg)) = some (0x201, 0, Cfg.reset) := by decide +kernel

/-- V-X14, P5 step 5: STATUS 0x250. -/
theorem test_configure_codec :
    after (step (issuing (cmdWrite 0x101) (loaded (start testcfg) x1)))
      (fun t => (t.mode, t.statusWord, t.cfg.packetSize)) = some (.codec, 0x250, 512) := by
  decide +kernel

/-- P5 step 6: a second CONFIGURE on a live instance is kBadCommand. -/
theorem test_configure_live :
    after (exec .configureCodec (opened .codec 1)) (fun t => (t.err, t.adapter))
      = some (.kBadCommand, .opened) := by decide +kernel

/-- P2: QUEUE_PACKET appends the packet with the next sequence index. -/
theorem test_queue_packet :
    after (exec .queuePacket (loaded (opened .stream 1) (bytes (List.replicate 16 7))))
      (fun t => (t.err, t.queue, t.nextSeq))
      = some (.kOk, [⟨bytes (List.replicate 16 7), 0⟩], 1) := by decide +kernel

/-- V-H10, V-H11: kQueueFull with four packets queued, kMalformed first for a wrong length. -/
theorem test_queue_packet_refuses :
    let s := { opened .stream 1 with queue := List.replicate 4 ⟨bytes (List.replicate 16 0), 0⟩ }
    after (exec .queuePacket { s with arg := 16 }) (fun t => (t.err, t.queueCount)) = some (.kQueueFull, 4)
      ∧ after (exec .queuePacket { s with arg := 15 }) (fun t => t.err) = some .kMalformed := by
  decide +kernel

/-- P2, V-H12: FINISH drains, and a second one is kClosed. -/
theorem test_finish :
    after (exec .finish (opened .stream 1)) (fun t => (t.err, t.adapter)) = some (.kOk, .draining)
      ∧ after (exec .finish { opened .stream 1 with adapter := .draining }) State.err = some .kClosed := by
  decide +kernel

/-- 45_host_commands.md R235: of three pending samples two are asked for; the oldest two go out. -/
theorem test_read_buffer :
    after (exec .readBuffer { opened .stream 1 with pending := [1, 2, 0x8003], arg := 2 })
      (fun t => (t.result, t.pending, t.outSample 0, t.outSample 1)) = some (2, [0x8003], 1, 2) := by
  decide +kernel

/-- P4 frame 1: a packet with a wrong checksum is one muted frame; V-H15: READ_BUFFER 0 decodes. -/
theorem test_read_buffer_bad_frame :
    after (exec .readBuffer { opened .stream 2 with
        queue := [⟨bytes (List.replicate 15 0 ++ [0xff]), 0⟩], arg := 0 })
      (fun t => ((t.result, t.pending.length, t.queueCount), t.lastPktErr, t.errBitpos, t.badFrames, t.frameIndex))
      = some ((0, 512, 0), .kChecksumMismatch, 112, 1, 1) := by decide +kernel

/-- V-H13, V-H14. -/
theorem test_end_of_data :
    after (exec .endOfData { opened .stream 1 with adapter := .draining }) State.result = some 1
      ∧ after (exec .endOfData (opened .stream 1)) State.result = some 0 := by decide +kernel

/-- 45_host_commands.md R238. -/
theorem test_is_stereo :
    after (exec .isStereo (opened .stream 2)) State.result = some 1
      ∧ after (exec .isStereo (opened .stream 1)) State.result = some 0 := by decide +kernel

/-- P5 step 10 (here at X2's rate); V-H2. -/
theorem test_get_rate :
    after (exec .getRate (opened .codec 1)) State.result = some 8000
      ∧ after (exec .getRate (start testcfg)) State.statusWord = some 0x006 := by decide +kernel

/-- P5 step 8: a wrong length is kMalformed and decodes nothing. -/
theorem test_decode_packet_length :
    after (exec .decodePacket { opened .codec 1 with arg := 15 })
      (fun t => (t.err, t.result, t.frameIndex)) = some (.kMalformed, 0, 0) := by decide +kernel

/-- V-P28 as a command: the error is recovered, the command succeeds with 256 samples. -/
theorem test_decode_packet_bad :
    after (exec .decodePacket (loaded (opened .codec 1) (bytes (List.replicate 15 0 ++ [1]))))
      (fun t => (t.err, t.result, t.lastPktErr, t.errBitpos, t.chan0.sampleCount))
      = some (.kOk, 256, .kChecksumMismatch, 112, 256) := by decide +kernel

/-- V-H18: DESTROY closes; GET_RATE is then kClosed; P5 step 12's STATUS 0x070 without VLC_READY. -/
theorem test_destroy :
    after (exec .destroy (opened .codec 1)) (fun t => (t.adapter, t.cfg.sampleRate, t.statusWord))
      = some (.closed, 8000, 0x070) := by decide +kernel

/-! ### Sub-packets and records, one step each (V-P) -/

/-- V-P2: SEED 0x12345678, and the reader 37 bits on. -/
theorem test_sp_seed :
    (after (exec .spSeed (inPacket (opened .codec 1)
        [0, 2, 0x00, 0x91, 0xa2, 0xb3, 0xc0, 0x60, 0, 0, 0, 0, 0, 0]))
      (viewParse fun p => (p.sh.seed, p.rd.pos, p.left))) = some (some (0x12345678, 53, 0)) := by
  decide +kernel

/-- V-P2's second sub-packet: type 00001 and FLAGS 10000000. -/
theorem test_sp_flags :
    (after (exec .spFlags (inPacket (opened .codec 1) [0, 1, 0b00001100, 0, 0, 0, 0, 0, 0, 0, 0, 0, 0, 0]))
      (viewParse fun p => (p.sh.flags, p.rd.pos))) = some (some (0x80, 29)) := by decide +kernel

/-- ENV[0][0..3] after a step. -/
def envAfter (o : Out) : Option (Option (List Int)) := after o (viewParse fun p => p.sh.ch0.env.take 4)

/-- V-P3: NOISE2 first=0 deltas=[+2, +1]. -/
theorem test_sp_noise2 :
    envAfter (exec .spNoise2 (inPacket (opened .codec 1)
      [0, 1, 0x10, 0x00, 0x80, 0x02, 0xf0, 0, 0, 0, 0, 0, 0, 0])) = some (some [2, 1, 0, 0]) := by
  decide +kernel

/-- V-P6: NOISE3 of bands 3 and 4 is kMalformed(37). -/
theorem test_sp_noise3 :
    after (exec .spNoise3 (inPacket (opened .codec 1)
      [0, 1, 0x18, 0x00, 0x68, 0xc2, 0x00, 0, 0, 0, 0, 0, 0, 0])) (fun t => (t.lastPktErr, t.errBitpos))
      = some (.kMalformed, 37) := by decide +kernel

/-- V-P3 with the type field 00100. -/
theorem test_sp_noise4 :
    envAfter (exec .spNoise4 (inPacket (opened .codec 1)
      [0, 1, 0x20, 0x00, 0x80, 0x02, 0xf0, 0, 0, 0, 0, 0, 0, 0])) = some (some [2, 1, 0, 0]) := by
  decide +kernel

/-- V-P5: NOISE13 clamps 4094 + 2 at E_MAX. -/
theorem test_sp_noise13 :
    let s := opened .codec 1
    envAfter (exec .spNoise13 (inPacket { s with chan0 := { s.chan0 with env := [0, 0, 0, 4094] } }
      [0, 1, 0x68, 0x00, 0x70, 0xc1, 0xe0, 0, 0, 0, 0, 0, 0, 0])) = some (some [0, 0, 0, 4095]) := by
  decide +kernel

/-- V-P4 with the type field 01110: the clamp at E_MIN. -/
theorem test_sp_noise14 :
    let s := opened .codec 1
    envAfter (exec .spNoise14 (inPacket { s with chan0 := { s.chan0 with env := [5, 0, 0, 0] } }
      [0, 1, 0x70, 0x00, 0x80, 0x02, 0xb0, 0, 0, 0, 0, 0, 0, 0])) = some (some [6, 0, 0, 0]) := by
  decide +kernel

/-- V-P29 with the type field 01111: channel 1 of a stereo stream. -/
theorem test_sp_noise15 :
    after (exec .spNoise15 (inPacket (opened .codec 2)
        [0, 1, 0x78, 0x00, 0xac, 0x21, 0xff, 0xc0, 0, 0, 0, 0, 0, 0]))
      (viewParse fun p => (p.sh.ch0.env.take 4, p.sh.ch1.env.take 4))
      = some (some ([0, 0, 0, 0], [0, 2, 2, 2])) := by decide +kernel

/-- The tones of channel 0 after a step. -/
def tonesAfter (o : Out) : Option (Option ToneMap) := after o (viewParse fun p => p.sh.ch0.tones)

/-- V-P14. -/
theorem test_sp_tone8 :
    tonesAfter (exec .spTone8 (inPacket (opened .codec 1)
      [0, 1, 0x40, 0x00, 0xd8, 0x20, 0, 0, 0, 0, 0, 0, 0, 0])) = some (some [(0, tone 0 0 100 0 1)]) := by
  decide +kernel

/-- V-P16: position 6, bin 22. -/
theorem test_sp_tone9 :
    tonesAfter (exec .spTone9 (inPacket (opened .codec 1)
      [0, 1, 0x48, 0x00, 0xe8, 0x20, 0x81, 0xdf, 0xc0, 0, 0, 0, 0, 0]))
      = some (some [(22, tone 2 6 10000 7 16)]) := by decide +kernel

/-- V-P16 with the type field 01010: position 3 x 4, bin 28 (R103). -/
theorem test_sp_tone10 :
    tonesAfter (exec .spTone10 (inPacket (opened .codec 1)
      [0, 1, 0x50, 0x00, 0xe8, 0x20, 0x81, 0xdf, 0xc0, 0, 0, 0, 0, 0]))
      = some (some [(28, tone 2 12 10000 7 16)]) := by decide +kernel

/-- V-P17 with the type field 01011: position 1 x 8, bin 40 (R103). -/
theorem test_sp_tone11 :
    tonesAfter (exec .spTone11 (inPacket (opened .codec 1)
      [0, 1, 0x58, 0x00, 0xf0, 0x20, 0xc0, 0xec, 0, 0, 0, 0, 0, 0]))
      = some (some [(40, tone 3 8 0 4 1)]) := by decide +kernel

/-- V-P17: position 16, bin 48. -/
theorem test_sp_tone12 :
    tonesAfter (exec .spTone12 (inPacket (opened .codec 1)
      [0, 1, 0x60, 0x00, 0xf0, 0x20, 0xc0, 0xec, 0, 0, 0, 0, 0, 0]))
      = some (some [(48, tone 3 16 0 4 1)]) := by decide +kernel

/-- V-P7, V-P8, and type 6: kMalformed(16). -/
theorem test_sp_reserved :
    [(Instr.spReserved5, 0x28), (.spReserved67 6, 0x30), (.spReserved1631 16, 0x80)].map
      (fun ib => after (exec ib.1 (inPacket (opened .codec 1) [0, 1, ib.2, 0, 0, 0, 0, 0, 0, 0, 0, 0, 0, 0]))
        (fun t => (t.lastPktErr, t.errBitpos)))
      = List.replicate 3 (some (.kMalformed, 16)) := by decide +kernel

/-- V-P15's record at bit 43: bin 8 + 3. -/
theorem test_tone_add :
    tonesAfter (exec (.toneAdd 1 3) (inTones (opened .codec 1) 8
      [0, 1, 0x40, 0x00, 0xe0, 0x20, 0x41, 0xb1, 0x80, 0, 0, 0, 0, 0]))
      = some (some [(11, tone 1 3 1000 2 4)]) := by decide +kernel

/-- V-P22: a negative amplitude is kMalformed at the record's op field. -/
theorem test_tone_add_negative :
    after (exec (.toneAdd 0 0) (inTones (opened .codec 1) 8
      [0, 1, 0x40, 0x00, 0xe0, 0x20, 0x00, 0x70, 0, 0, 0, 0, 0, 0])) (fun t => (t.lastPktErr, t.errBitpos))
      = some (.kMalformed, 43) := by decide +kernel

/-- `opened` in frame 4 with TONES[0][9] = {500, 3, 5, start 0} (V-A4, V-P25). -/
def withTone9 : State :=
  let s := opened .codec 1
  { s with frameIndex := 4, chan0 := { s.chan0 with tones := [(9, tone 1 1 500 3 5)] } }

/-- V-P25 in frame 4 (V-A4): start_frame 4, TOUCHED. -/
theorem test_tone_refresh :
    after (exec (.toneRefresh 1 1) (inTones withTone9 8
        [0, 1, 0x40, 0x00, 0xa0, 0x28, 0x40, 0x80, 0, 0, 0, 0, 0, 0]))
      (viewParse fun p => (p.sh.ch0.tones, p.sh.ch0.touched))
      = some (some ([(9, { tone 1 1 500 3 5 with startFrame := 4 })], [9])) := by decide +kernel

/-- V-P24's kind of DELETE: the slot becomes EMPTY; V-P21: an EMPTY slot is kMalformed(43). -/
theorem test_tone_delete :
    tonesAfter (exec (.toneDelete 1 1) (inTones withTone9 8
        [0, 1, 0x40, 0x00, 0xa0, 0x30, 0x40, 0x80, 0, 0, 0, 0, 0, 0])) = some (some [])
      ∧ after (exec (.toneDelete 1 2) (inTones withTone9 8
        [0, 1, 0x40, 0x00, 0xa0, 0x30, 0x41, 0x00, 0, 0, 0, 0, 0, 0])) (fun t => (t.lastPktErr, t.errBitpos))
        = some (.kMalformed, 43) := by decide +kernel

/-- V-P23. -/
theorem test_tone_reserved :
    after (exec (.toneReserved 0 0) (inTones (opened .codec 1) 8
      [0, 1, 0x40, 0x00, 0xa0, 0x38, 0, 0, 0, 0, 0, 0, 0, 0])) (fun t => (t.lastPktErr, t.errBitpos))
      = some (.kMalformed, 43) := by decide +kernel

/-! ### Whole parses (V-CS, V-P) -/

/-- V-CS3 to V-CS5, V-CS1, V-CS2. -/
theorem test_checksum :
    [([7, 1, 8, 0x18, 0, 0, 0, 0x28], testcfg), ([7, 1, 8, 0x18, 0, 0, 0, 0x28], testcfgC),
        ([7, 1, 8, 0x18, 0, 0, 0x12, 0x5c], testcfgC), ([0, 0, 0, 0], testcfg), ([0, 0, 0, 1], testcfg)].map
      (fun bp => decide (packetSum bp.2 (bytes bp.1) = checksumField (bytes bp.1)))
      = [true, false, true, true, false] := by decide +kernel

/-- V-P9, V-P10, V-P11, V-P12, V-P18, V-P26, V-P27. -/
theorem test_parse_errors :
    [[0, 2, 0x40, 0, 0x30, 2, 0, 0x0b, 0, 0, 0, 0, 0, 0, 0, 0x7f],
        [0, 1, 0x10, 6, 0x40, 0, 0, 0, 0, 0, 0, 0, 0, 0, 0, 0x57],
        [0, 1, 0x10, 0, 0x58, 1, 0, 0, 0, 0, 0, 0, 0, 0, 0, 0x6a],
        [0, 2, 0x10, 0, 0xa0, 0, 0xff, 0x86, 0xa8, 0, 0, 0, 0, 0, 2, 0xdf],
        [0, 1, 0x40, 0, 0xd8, 0x20, 4, 0, 0, 0, 0, 0, 0, 0, 1, 0x3d], [0, 1, 0, 1],
        [0, 1, 0x10, 0, 0, 0x11]].map (fun b => parsed (opened .codec 1) b fun _ => ())
      = [.inr (.kMalformed, 43), .inr (.kMalformed, 37), .inr (.kMalformed, 37), .inr (.kMalformed, 57),
        .inr (.kMalformed, 43), .inr (.kTruncated, 16), .inr (.kTruncated, 21)] := by decide +kernel

/-- V-P13, V-P24, V-P30. -/
theorem test_parse_good :
    parsed (opened .codec 1) [0, 2, 0x10, 0, 0xa0, 0, 0xff, 0x8c, 0, 0x30, 0x20, 0x80, 0, 0, 3, 0x0d]
        (fun sh => sh.ch0.env.take 4) = .inl [0, 0, 0, 0]
      ∧ parsed (opened .codec 1) [0, 1, 0x40, 2, 0, 0x60, 0, 0x80, 0x80, 4, 0, 0x27, 8, 0, 1, 0xd6]
        (fun sh => (sh.ch0.tones, sh.ch0.touched)) = .inl ([(2, tone 0 2 1000 4 2)], [2])
      ∧ parsed (opened .codec 2) [0, 1, 0x40, 0, 0xec, 0x10, 1, 0x58, 0x40, 0, 0, 0, 0, 0, 1, 0xd6]
        (fun sh => (sh.ch0.tones, sh.ch1.tones)) = .inl ([], [(5, tone 0 5 1000 2 2)]) := by decide +kernel

/-- V-P31, V-P32 under TESTCFG-B. -/
theorem test_parse_incomplete_table :
    let s := (start testcfgB).construct .codec (r2 1)
    parsed s [0, 1, 0x10, 0, 0x68, 1, 0x80, 0, 0, 0, 0, 0, 0, 0, 0, 0xfa] (fun _ => ()) = .inr (.kInvalidCode, 48)
      ∧ parsed s [0, 1, 0x10, 0, 0x68, 1, 0x40, 0, 0, 0, 0, 0, 0, 0, 0, 0xba] (fun sh => sh.ch0.env[0]?)
        = .inl (some 7) := by decide +kernel

/-- The notation's encoder writes V-P24's and P4's packet A's bytes. -/
theorem test_encode_packet :
    encodePacket testcfg false 16 0 [.tone 8 0 [.add 0 1 100 0 0, .delete 0 1, .add 0 2 1000 4 1]]
        = bytes [0, 1, 0x40, 2, 0, 0x60, 0, 0x80, 0x80, 4, 0, 0x27, 8, 0, 1, 0xd6]
      ∧ encodePacket testcfg true 16 0 [.noise 2 0 0 [2], .tone 8 1 [.add 1 0 1000 2 0]]
        = bytes [0, 2, 0x10, 0, 0x78, 0, 0xf4, 0, 0x0e, 0xc1, 2, 1, 0x80, 0, 2, 0xd0] := by decide +kernel

/-- V-A1 in frame 1, V-A2, and a touched tone: 100 decays to 75, a tone past its duration is removed. -/
theorem test_aging :
    ageTones testcfg 1 [] [(0, tone 0 0 100 0 16)] = [(0, tone 0 0 75 0 16)]
      ∧ ageTones testcfg 1 [] [(0, tone 0 0 100 0 1)] = []
      ∧ ageTones testcfg 0 [0] [(0, tone 0 0 100 0 1)] = [(0, tone 0 0 100 0 1)]
      ∧ ageTones testcfg 0 [0] [(0, tone 0 0 0 4 1)] = [] := by decide +kernel

/-- V-W9, V-W10. -/
theorem test_bad_synth_and_interleave :
    let s := opened .codec 1
    let s := { s with par := { testcfg with badFrameOla := .continueTail },
                      chan0 := { s.chan0 with prev := List.replicate 256 0 ++ [0x422A0000] } }
    (s.badSynth .c0).2 = [42] ∧ interleave 2 [[1, 2], [-1, -2]] = [1, -1, 2, -2] := by decide +kernel

/-! ### Extradata and chunks (V-X) -/

/-- V-X1, V-X2, V-X4 to V-X12. -/
theorem test_extradata :
    [x1, x1.take 47, x1.set 7 0x62, x1.set 27 0, x1.set 3 0x0d, x1.set 43 3, (x1.set 46 1).set 47 0x2c,
        x1 ++ bytes [0, 0, 0, 0x0c, 0x51, 0x44, 0x43, 0x50, 0xde, 0xad, 0xbe, 0xef],
        x1 ++ bytes [0, 0, 0, 0x64, 0x51, 0x44, 0x43, 0x50, 0xde, 0xad, 0xbe, 0xef],
        x1 ++ bytes [1, 2, 3, 4, 5, 6, 7, 8], (x1.set 30 0).set 31 0].map
      (fun b => (extradataParse b).toOption)
    = [some r1, none, none, none, none, none, none, some r1, none, some r1,
        some { r1 with sampleRate := 0 }] := by decide +kernel

/-- S-RT on X1. -/
theorem test_serialise : r1.serialise = x1 := by decide +kernel

/-- The frma chunk of X1, V-X6's, and V-X2's: X1 cut to 47 bytes. -/
theorem test_chunk_frma :
    after (exec .chunkFrma (inChunks (start testcfg) .first x1)) State.activity
        = some (.chunks { mode := .stream, blob := x1, place := .second, record := r1 })
      ∧ after (exec .chunkFrma (inChunks (start testcfg) .first (x1.set 3 0x0d))) State.err
        = some .kBadExtradata
      ∧ after (exec .chunkFrma (inChunks (start testcfg) .first (x1.take 47))) State.err
        = some .kBadExtradata := by decide +kernel

/-- The QDCA chunk of X1 with a sample rate of 0 (V-X12), and V-X5's. -/
theorem test_chunk_qdca :
    after (exec .chunkQdca (inChunks (start testcfg) .second ((x1.set 30 0).set 31 0)))
        (fun t => match t.activity with | .chunks x => some x.record.sampleRate | _ => none)
        = some (some 0)
      ∧ after (exec .chunkQdca (inChunks (start testcfg) .second (x1.set 27 0))) State.err
        = some .kBadExtradata := by decide +kernel

/-- V-X9 and V-X10: a QDCP chunk of a legal size constructs the instance, a longer one fails. -/
theorem test_chunk_qdcp :
    let blob := fun n => x1 ++ bytes [0, 0, 0, n, 0x51, 0x44, 0x43, 0x50, 0xde, 0xad, 0xbe, 0xef]
    after (exec .chunkQdcp (inChunks (start testcfg) .third (blob 0x0c))) (fun t => (t.adapter, t.cfg.sampleRate))
        = some (.opened, 22050)
      ∧ after (exec .chunkQdcp (inChunks (start testcfg) .third (blob 0x64))) (fun t => (t.adapter, t.err))
        = some (.unconfigured, .kBadExtradata) := by decide +kernel

/-! ### The bus -/

/-- V-H20 to V-H23: a refused write of ARG, a misaligned read of INBUF, a write of OUTBUF, a reserved
register. -/
theorem test_bus :
    [HostEvent.access (.write .w16 4 5), .access (.read .w32 0x1002), .access (.write .w16 0x4000 1),
        .access (.read .w32 0x070)].map
      (fun e => after (step (issuing e (start testcfg))) fun t => (t.arg, t.busData, t.busErr))
      = [some (0, 0, true), some (0, 0, true), some (0, 0, true), some (0, 0, false)] := by decide +kernel

/-- V-H24's lanes on INBUF, and on OUTBUF: {s1, s0} in one 32-bit read. -/
theorem test_bus_lanes :
    after (step (issuing (.access (.read .w32 0x1000)) (loaded (start testcfg) (bytes [1, 2, 3, 4]))))
        State.busData = some 0x04030201
      ∧ after (step (issuing (.access (.read .w32 0x4000)) ((start testcfg).writeOutbuf [0x1234, 0xABCD])))
        State.busData = some 0xABCD1234 := by decide +kernel

/-- The host words: step runs the row's instruction first. -/
theorem test_fetch_words :
    after (step ((start testcfg).withFetchWord 32 0x007)) (fun t => (t.err, t.host)) = some (.kClosed, [])
      ∧ after (step ((start testcfg).withFetchWord 8 1)) (viewParse fun p => p.left) = some (some 0) := by
  decide +kernel

/-! ### Witnesses: for each statement with hypotheses, a state and operands that meet all of them -/

theorem next_of_after {o : Out} (h : after o (fun _ => ()) = some ()) : ∃ t, o = .next t := by
  cases o with
  | next t => exact ⟨t, rfl⟩
  | fault r => cases h
  | refused r => cases h

theorem ok_of_some {ε α : Type} {o : Except ε α} (h : o.toOption.isSome = true) : ∃ a, o = .ok a := by
  cases o with
  | ok a => exact ⟨a, rfl⟩
  | error e => cases h

theorem some_of_isSome {α : Type} {o : Option α} (h : o.isSome = true) : ∃ a, o = some a :=
  Option.isSome_iff_exists.mp h

theorem configInv_of_idle {s : State} (h : s.activity = .idle) (hl : s.CfgLegal)
    (hd : s.adapter = .draining → s.mode = .stream) : ConfigInv s :=
  ⟨hl.params, fun _ => hl, fun _ hx => absurd (h.symm.trans hx) (by simp), fun _ hp => absurd (h.symm.trans hp) (by simp), hd⟩

/-- An instance in the middle of its work: draining, one packet and 200 samples waiting, one tone
sounding, and the host about to issue `e`. -/
def busy (e : HostEvent) : State :=
  let s := opened .stream 1
  { s with
    adapter := .draining, queue := [⟨bytes (List.replicate 15 0 ++ [1]), 4⟩], nextSeq := 5,
    pending := List.replicate 200 3, frameIndex := 4, arg := 100, vlcReady := true, busErr := true,
    chan0 := { s.chan0 with tones := [(9, tone 1 1 500 3 5)] }, host := [e] }

theorem test_witness_cfgLegal : (opened .stream 1).CfgLegal ∧ (opened .stream 2).CfgLegal
    ∧ (opened .codec 1).CfgLegal ∧ (busy .reset).CfgLegal := by
  refine ⟨?_, ?_, ?_, ?_⟩ <;> constructor <;> decide +kernel

theorem busy_configInv (e : HostEvent) : ConfigInv (busy e) := by
  refine configInv_of_idle rfl ?_ (fun _ => rfl)
  have h := test_witness_cfgLegal.2.2.2
  exact ⟨h.1, h.2, h.3, h.4, h.5, h.6, h.7, h.8, h.9⟩

theorem test_witness_EncodeDecodeRoundTrip : (Instr.toneAdd 31 127).wf = true
    ∧ (Instr.spReserved67 6).wf = true ∧ (Instr.spReserved67 7).wf = true
    ∧ (Instr.spReserved1631 16).wf = true ∧ (Instr.spReserved1631 31).wf = true := by decide

theorem test_witness_DecodedWordReencodes : decodeWord .toneRecord 0x3FFF = .ok (.toneReserved 31 127)
    ∧ decodeWord .command 9 = .ok .destroy := by decide

/-- Each clause at the edge of its range: bit 9 and bit 31, OPC 0 and 10, MODE with the last opcode. -/
theorem test_witness_IllegalCommandWords :
    let bad := fun w : Word => w.extractLsb' 9 23 ≠ 0 ∨ w.extractLsb' 0 8 = 0
      ∨ 0x09 < (w.extractLsb' 0 8).toNat ∨ (w.extractLsb' 8 1 = 1 ∧ w.extractLsb' 0 8 ≠ 1)
    bad 0x201 ∧ bad 0x80000002 ∧ bad 0x000 ∧ bad 0x00A ∧ bad 0x109 ∧ ¬ bad 0x101 ∧ ¬ bad 0x009
      ∧ (busy (cmdWrite 0x201)).activity = .idle
      ∧ (busy (cmdWrite 0x201)).host = .access (.write .w32 0 0x201) :: [] := by decide +kernel

theorem test_witness_StepRunsDecodedCommand : (busy (cmdWrite 9)).activity = .idle
    ∧ (busy (cmdWrite 9)).host = .access (.write .w32 0 9) :: [] ∧ decodeCommand 9 = .ok .destroy := by
  decide +kernel

/-- A type field that ends at the body's last bit, a record there, and a tag at each place. -/
theorem test_witness_StepRunsDecodedElement :
    (let p := parseAt (opened .codec 1) [] 107;
      p.expectsSubpacket ∧ p.rd.pos + 5 ≤ p.rd.limit ∧ decodeSubpacket (p.rd.bits 107 5) = .ok .spSeed)
    ∧ (let p := { parseAt (opened .codec 1) [] 98 with tone := some (onePart 8) };
      0 < (onePart 8).left ∧ p.rd.pos + 14 ≤ p.rd.limit
        ∧ decodeTone (p.rd.bits 98 2) (p.rd.bits 100 5) (p.rd.bits 105 7) = .ok (.toneAdd 0 0))
    ∧ decodeChunk (be32 x1 4) = .ok .chunkFrma ∧ decodeChunk (be32 x1 16) = .ok .chunkQdca
    ∧ (let b := x1 ++ bytes [0, 0, 0, 8, 0x51, 0x44, 0x43, 0x50];
      56 ≤ b.length ∧ decodeChunk (be32 b 52) = .ok .chunkQdcp) := by decide +kernel

theorem test_witness_StepNeverRefuses :
    paramsValid (busy .reset).par = true ∧ (busy .reset).ordered = true
      ∧ (inPacket (opened .codec 1) []).ordered = true := by decide +kernel

theorem test_witness_ResetEvent : (busy .reset).activity = .idle ∧ (busy .reset).host = .reset :: [] := by
  decide +kernel

/-- Each kind of refused access at an edge, and accesses beside them that are not refused. -/
theorem test_witness_RefusedAccesses :
    (∀ a ∈ [Access.read .w16 0x004, .write .w8 0x06C 0, .read .w32 0x002, .read .w32 0x2FFE,
        .write .w16 0x1001 0, .read .w8 0x4000, .read .w32 0x4FFE, .write .w16 0x4FFE 0,
        .write .w32 0x4000 0], refusedByBus a = true)
    ∧ (∀ a ∈ [Access.read .w32 0x000, .read .w32 0x06C, .write .w32 0x004 5, .read .w8 0x2FFF,
        .write .w16 0x2FFE 0, .read .w16 0x4FFE, .read .w8 0x3FFF, .write .w8 0x5000 0, .read .w16 0x03D,
        .read .w32 0x03E, .write .w32 0xFFE 0, .read .w32 0x3FFE],
        refusedByBus a = false)
    ∧ (busy (.access (.read .w16 0x004))).host = .access (.read .w16 0x004) :: [] := by decide +kernel

theorem test_witness_ReservedAddresses :
    (∀ a ∈ [0x03C, 0x03F, 0x070, 0xFFF, 0x3000, 0x3FFF, 0x5000, 0xFFFF], reservedAddr a = true)
    ∧ (∀ a ∈ [0x038, 0x040, 0x06F, 0x1000, 0x2FFF, 0x4000, 0x4FFF], reservedAddr a = false)
    ∧ (∀ a ∈ [0x008, 0x00C, 0x038, 0x040, 0x06C], registerAddr a = true ∧ a % 4 = 0) := by decide

theorem test_witness_RegisterMap :
    let s := busy (.access (.read .w32 0x06C))
    s.activity = .idle ∧ s.host = .access (.read .w32 0x06C) :: [] ∧ (0x06C, 0) ∈ s.registerMap
      ∧ (0x01C, 1) ∈ s.registerMap ∧ (0x020, 200) ∈ s.registerMap := by decide +kernel

theorem test_witness_BufferByteLanes :
    (inbufAddr 0x1000 = true ∧ 0x1000 % Width.bytes .w32 = 0)
    ∧ (inbufAddr 0x2FFF = true ∧ 0x2FFF % Width.bytes .w8 = 0)
    ∧ (inbufAddr 0x2FFC = true ∧ 0x2FFC % Width.bytes .w32 = 0)
    ∧ (outbufAddr 0x4FFE = true ∧ 0x4FFE % Width.bytes .w16 = 0 ∧ Width.w16 ≠ .w8)
    ∧ (busy (.access (.write .w8 0x2FFF 1))).host = .access (.write .w8 0x2FFF 1) :: [] := by
  decide +kernel

theorem test_witness_CommandChecks :
    commandError .getRate (start testcfg) = some .kClosed
    ∧ commandError .configureStream (busy .reset) = some .kBadCommand
    ∧ commandError .queuePacket (opened .codec 1) = some .kBadCommand
    ∧ commandError .decodePacket (opened .stream 1) = some .kBadCommand
    ∧ commandError .finish (busy .reset) = some .kClosed
    ∧ isCommand .getRate = true ∧ isCommand .finish = true ∧ (busy .reset).activity = .idle := by
  decide +kernel

theorem r1_legal : r1.Legal := ⟨.inl rfl, by decide, by decide, by decide⟩

/-- X1 alone, and X1 with a QDCP chunk of the least size. -/
theorem test_witness_ConfigureConstructs :
    (let s := loaded (start testcfg) x1;
      s.activity = .idle ∧ s.adapter = .unconfigured ∧ s.arg.toNat ≤ 8192
        ∧ blobOfRecord (s.inbuf s.arg.toNat) r1)
    ∧ blobOfRecord (x1 ++ bytes [0, 0, 0, 8, 0x51, 0x44, 0x43, 0x50]) r1 :=
  ⟨⟨rfl, rfl, by decide +kernel, ⟨[], by decide +kernel, r1_legal, rfl⟩⟩,
    ⟨bytes [0, 0, 0, 8, 0x51, 0x44, 0x43, 0x50], by decide +kernel, r1_legal, by decide +kernel⟩⟩

/-- A blob of 8193 bytes, and one of 47. -/
theorem test_witness_ConfigureFails :
    (let s := { start testcfg with arg := 8193 };
      s.activity = .idle ∧ s.adapter = .unconfigured ∧ 8192 < s.arg.toNat)
    ∧ (let s := { start testcfg with arg := 47 };
      s.activity = .idle ∧ ¬∃ r, blobOfRecord (s.inbuf s.arg.toNat) r) := by
  refine ⟨by decide +kernel, rfl, ?_⟩
  rintro ⟨r, rest, h, -, -⟩
  have h := congrArg List.length h
  have h1 : ({ start testcfg with arg := 47 }.inbuf 47).length = 47 := by decide +kernel
  have h2 : r.serialise.length = 48 := rfl
  have h3 : (47 : Nat) = 48 + rest.length := by rw [← h1, ← h2, ← List.length_append]; exact h
  omega

theorem test_witness_ExtradataRoundTrip : ∃ r, extradataParse x1 = .ok r :=
  ok_of_some (by decide +kernel)

theorem test_witness_QueuePacketResult :
    let s := loaded (opened .stream 1) (bytes (List.replicate 16 7))
    s.activity = .idle ∧ s.adapter = .opened ∧ s.mode = .stream ∧ s.arg = s.cfg.frameSize
      ∧ (busy .reset).mode = .stream ∧ (busy .reset).adapter = .draining := by decide +kernel

theorem test_witness_ObserverResults : (busy .reset).activity = .idle
    ∧ (busy .reset).adapter = .draining ∧ (opened .codec 2).adapter = .opened
    ∧ (start testcfg).activity = .idle ∧ (start testcfg).adapter = .unconfigured := by decide +kernel

theorem test_witness_FinishResult :
    (opened .stream 1).activity = .idle ∧ (opened .stream 1).adapter = .opened
      ∧ (opened .stream 1).mode = .stream ∧ (opened .stream 1).queue = [] ∧ (opened .stream 1).pending = []
      ∧ (∃ t, exec .finish (opened .stream 1) = .next t)
      ∧ (busy .reset).mode = .stream ∧ (busy .reset).adapter = .draining :=
  ⟨rfl, rfl, rfl, rfl, rfl, next_of_after (by decide +kernel), rfl, rfl⟩

theorem test_witness_DestroyResult :
    (opened .codec 1).activity = .idle ∧ (opened .codec 1).adapter = .opened
      ∧ (busy .reset).adapter = .draining := by decide +kernel

/-- A frame's samples waiting beside a packet, and an empty queue; nothing asked for, and all of it. -/
theorem test_witness_ReadBufferCopies :
    (let s := { busy .reset with pending := List.replicate 256 3, arg := 0 };
      s.activity = .idle ∧ s.adapter = .draining ∧ s.mode = .stream ∧ s.frameSamples ≤ s.pending.length)
    ∧ (let s := { busy .reset with queue := [] };
      s.activity = .idle ∧ s.adapter = .draining ∧ s.mode = .stream ∧ s.queue = []
        ∧ 100 = min (min s.arg.toNat s.pending.length) 2048) := by decide +kernel

theorem test_witness_ReadBufferDecodes :
    let s := { busy .reset with pending := List.replicate 255 3 }
    s.activity = .idle ∧ s.adapter = .draining ∧ s.mode = .stream ∧ s.pending.length < s.frameSamples
      ∧ s.queue = ⟨bytes (List.replicate 15 0 ++ [1]), 4⟩ :: [] ∧ paramsValid s.par = true := by
  decide +kernel

theorem test_witness_DecodePacketDecodes :
    let s := { opened .codec 2 with arg := 16 }
    s.activity = .idle ∧ s.adapter = .opened ∧ s.mode = .codec ∧ s.arg = s.cfg.frameSize
      ∧ paramsValid s.par = true ∧ s.channelCount ≤ 2
      ∧ { s with arg := 15 }.arg ≠ s.cfg.frameSize := by decide +kernel

theorem test_witness_ReadBufferConservesSamples :
    (busy .reset).activity = .idle ∧ (busy .reset).live = true ∧ (busy .reset).mode = .stream
      ∧ (busy .reset).CfgLegal ∧ (∃ t, exec .readBuffer (busy .reset) = .next t)
      ∧ ∃ t, exec .readBuffer { opened .stream 1 with arg := 1 } = .next t ∧ t.result = 0 := by
  refine ⟨rfl, by decide +kernel, rfl, test_witness_cfgLegal.2.2.2, next_of_after (by decide +kernel), ?_⟩
  obtain ⟨t, ht⟩ := next_of_after (o := exec .readBuffer { opened .stream 1 with arg := 1 }) (by decide +kernel)
  refine ⟨t, ht, ?_⟩
  have h : after (exec .readBuffer { opened .stream 1 with arg := 1 }) State.result = some 0 := by
    decide +kernel
  rw [ht] at h
  exact Option.some.inj h

theorem test_witness_ModeEquivalence :
    let b := bytes (List.replicate 16 0)
    let s := { opened .stream 1 with queue := [⟨b, 0⟩], nextSeq := 1, arg := 256 }
    let u := loaded (opened .codec 1) b
    s.activity = .idle ∧ u.activity = .idle ∧ s.live = true ∧ u.live = true ∧ s.mode = .stream
      ∧ u.mode = .codec ∧ s.CfgLegal ∧ SameDecoder s u ∧ s.queue = ⟨b, 0⟩ :: [] ∧ s.pending = []
      ∧ s.frameSamples ≤ s.arg.toNat ∧ u.arg = u.cfg.frameSize ∧ u.loadBytes 0x1000 u.arg.toNat = b := by
  refine ⟨rfl, rfl, by decide +kernel, by decide +kernel, rfl, rfl, ?_, ?_, rfl, rfl, by decide +kernel,
    by decide +kernel, by decide +kernel⟩
  · constructor <;> decide +kernel
  · constructor <;> rfl

theorem test_witness_GoodFrameCommits (s : State) (sh : Shadow) :
    ∃ t out, s.endFrame (.good sh) = (t, out) := ⟨_, _, rfl⟩

/-- Both settings of BAD_FRAME_OLA, and a bin of PREV's upper half. -/
theorem test_witness_PacketErrorRecovery :
    (opened .stream 2).channelCount ≤ 2 ∧ (opened .stream 2).par.badFrameOla = .mute
      ∧ { opened .stream 2 with par := { testcfg with badFrameOla := .continueTail } }.par.badFrameOla
        = .continueTail
      ∧ (opened .stream 2).spf + 255 < ((opened .stream 2).chan .c1).prev.length
      ∧ ∃ t out, (opened .stream 2).endFrame (.bad .kMalformed 16) = (t, out) :=
  ⟨by decide +kernel, rfl, rfl, by decide +kernel, _, _, rfl⟩

theorem test_witness_ChannelsAreIndependent :
    Ch.c1 ∈ (opened .stream 2).channels ∧ ∀ r, ∃ t out, (opened .stream 2).endFrame r = (t, out) :=
  ⟨by decide +kernel, fun _ => ⟨_, _, rfl⟩⟩

/-- A codeword that ends at the last readable bit; V-VLC9, a bit too few; V-VLC7, no codeword. -/
theorem test_witness_VlcRoundTrip :
    (let e : VlcEntry := ⟨3, -1⟩;
      let rd : BitReader := { buf := bytes [0x0E], pos := 4, limit := 7 };
      vlcValid testcfg.ampVlc = true ∧ e ∈ testcfg.ampVlc ∧ e.len ≠ 0
        ∧ rd.holds (codeword testcfg.ampVlc e.sym) ∧ rd.pos + e.len ≤ rd.limit)
    ∧ (let t := testcfgB.noiseVlc.getD 0 [];
      let rd := fun n : Nat => ({ buf := bytes [0x80], pos := 0, limit := n } : BitReader);
      vlcValid t = true
        ∧ (∀ n ∈ [1, 2], ∀ e ∈ t, e.len ≠ 0 → (rd n).holds (codeword t e.sym) → n < 0 + e.len)
        ∧ (∃ e ∈ t, 1 < 0 + e.len) ∧ ¬∃ e ∈ t, 2 < 0 + e.len) := by decide +kernel

theorem test_witness_VlcPrefixFree :
    (let c : Code := ⟨2, 0, 100⟩;
      let d : Code := ⟨3, 7, -1⟩;
      vlcValid testcfg.ampVlc = true ∧ c ∈ vlcCodes testcfg.ampVlc ∧ d ∈ vlcCodes testcfg.ampVlc ∧ c ≠ d
        ∧ c.len ≤ d.len)
    ∧ (vlcValid [⟨2, 5⟩, ⟨2, 5⟩] = false
      ∧ { testcfg with phaseVlc := [⟨2, 5⟩, ⟨2, 5⟩] }.phaseVlc = [⟨2, 5⟩, ⟨2, 5⟩]) := by decide +kernel

/-- Each header sub-packet ending at the body's last bit. -/
theorem test_witness_HeaderSubpackets :
    let p := parseAt (opened .codec 1) [] 75
    p.expectsSubpacket ∧ p.lastRank = 0 ∧ p.rd.pos + 37 ≤ p.rd.limit
      ∧ (parseAt (opened .codec 1) [] 99).rd.pos + 13 ≤ 112 := by decide +kernel

/-- V-P3 with its exact length, and V-P13's first sub-packet: no band, nine bits of padding. -/
theorem test_witness_NoiseSubpackets :
    let s := opened .codec 1
    (let p := parseAt s [0, 1, 0x10, 0x00, 0x80, 0x02, 0xf0] 16;
      p.expectsSubpacket ∧ p.lastRank ≤ 1 ∧ chFits s .c0 = true ∧ noiseFits s 2 0 [2, 1] = true
        ∧ p.rd.holds (msbBits 5 2 ++ msbBits 16 16 ++ noiseBits s.par (s.cfg.channels = 2) 0 0 [2, 1])
        ∧ (noiseBits s.par (s.cfg.channels = 2) 0 0 [2, 1]).length ≤ 16 ∧ p.rd.pos + 21 + 16 ≤ p.rd.limit)
    ∧ (let p := parseAt s [0, 2, 0x10, 0, 0xa0, 0, 0xff, 0x80] 16;
      noiseFits s 2 0 [] = true
        ∧ p.rd.holds (msbBits 5 2 ++ msbBits 16 20 ++ noiseBits s.par (s.cfg.channels = 2) 0 0 [])
        ∧ (noiseBits s.par (s.cfg.channels = 2) 0 0 []).length ≤ 20) := by decide +kernel

/-- V-P24's three records, and V-P30 in a stereo stream. -/
theorem test_witness_ToneSubpackets :
    (let s := opened .codec 1;
      let recs : List RecordText := [.add 0 1 100 0 0, .delete 0 1, .add 0 2 1000 4 1];
      let p := parseAt s [0, 1, 0x40, 2, 0, 0x60, 0, 0x80, 0x80, 4, 0, 0x27, 8, 0] 16;
      p.expectsSubpacket ∧ p.lastRank ≤ 2 ∧ chFits s .c0 = true ∧ recs.length < 64
        ∧ recs.all (RecordText.fits s.par) = true ∧ vlcValid s.par.ampVlc = true
        ∧ vlcValid s.par.phaseVlc = true ∧ (∃ ch, applyRecords s 8 (p.sh.chan .c0) recs = some ch)
        ∧ p.rd.holds (msbBits 5 8 ++ msbBits 16 64 ++ toneBits s.par (s.cfg.channels = 2) 0 recs)
        ∧ (toneBits s.par (s.cfg.channels = 2) 0 recs).length ≤ 64 ∧ p.rd.pos + 21 + 64 ≤ p.rd.limit)
    ∧ (let s := opened .codec 2;
      let p := parseAt s [0, 1, 0x40, 0, 0xec, 0x10, 1, 0x58, 0x40] 16;
      chFits s .c1 = true ∧ p.rd.holds (msbBits 5 8 ++ msbBits 16 29
        ++ toneBits s.par (s.cfg.channels = 2) 1 [.add 0 5 1000 2 1])) :=
  ⟨⟨by decide +kernel, by decide +kernel, by decide +kernel, by decide, by decide +kernel, by decide +kernel,
    by decide +kernel, some_of_isSome (by decide +kernel), by decide +kernel, by decide +kernel,
    by decide +kernel⟩, by decide +kernel⟩

/-- A type field, and a record, that end at the body's last bit. -/
theorem test_witness_ReservedElementsRaise :
    (parseAt (opened .codec 1) [] 107).expectsSubpacket
      ∧ (parseAt (opened .codec 1) [] 107).rd.pos + 5 ≤ 112
      ∧ 0 < (onePart 8).left ∧ (parseAt (opened .codec 1) [] 98).rd.pos + 14 ≤ 112 := by decide +kernel

/-- A header after a noise sub-packet, a noise sub-packet after a tone sub-packet, and a payload of 76
declared bits where the body has 75 left (V-P10's check at its edge). -/
theorem test_witness_SubpacketHeaderErrors :
    (let p := { parseAt (opened .codec 1) [] 107 with lastRank := 1 };
      p.expectsSubpacket ∧ 0 < p.lastRank ∧ p.rd.pos + 5 ≤ p.rd.limit)
    ∧ (let p := { parseAt (opened .codec 1) [] 107 with lastRank := 2 };
      p.expectsSubpacket ∧ 1 < p.lastRank ∧ p.rd.pos + 5 ≤ p.rd.limit)
    ∧ (let p := parseAt (opened .codec 1) [0, 1, 0x10, 0x02, 0x60] 16;
      p.expectsSubpacket ∧ p.lastRank ≤ 1 ∧ p.rd.pos + 21 ≤ p.rd.limit ∧ p.rd.bits (p.rd.pos + 5) 16 = 76
        ∧ p.rd.limit < p.rd.pos + 21 + p.rd.bits (p.rd.pos + 5) 16) := by decide +kernel

/-- A mono parse of the bits `bs` from bit `pos` of a 14-byte body on. -/
def parseBits (s : State) (pos : Nat) (bs : List Bool) : Parse :=
  { parseAt s [] pos with
    rd := { buf := packBits 14 (List.replicate pos false ++ bs), pos := pos, limit := 112 } }

/-- A stream of `ch` channels whose type-2 noise range is the bands 1 and 2. -/
def ranged (ch : Word) : State :=
  { opened .codec ch with par := { testcfg with noiseRanges := [⟨2, 1, 2⟩] } }

/-- A parse of `ranged ch` at a type-2 sub-packet of the one band `fb`. -/
def runParse (ch : Word) (fb : Nat) : Parse :=
  parseBits (ranged ch) 16 (msbBits 5 2 ++ msbBits 16 13 ++ chBits (ch = 2) 0 ++ msbBits 5 fb ++ msbBits 6 1)

/-- A run of one band, past the layout, below a type's range and above it, in a mono stream and in a
stereo one, whose first_band is a bit later. -/
theorem test_witness_SubpacketHeaderErrors_run :
    (4 < 4 + 1 ∧ (ranged 1).numBands = 4)
    ∧ (0 < (rangeOf (ranged 1).par.noiseRanges 2 4).1 ∧ (rangeOf (ranged 1).par.noiseRanges 2 4).2 < 3 + 1 - 1)
    ∧ (∀ fb ∈ [0, 3, 4], (runParse 1 fb).rd.bits 37 5 = fb ∧ (runParse 1 fb).rd.bits 42 6 = 1
      ∧ 37 + (runParse 1 fb).rd.bits 21 16 ≤ (runParse 1 fb).rd.limit)
    ∧ (∀ fb ∈ [0, 3, 4], (runParse 2 fb).rd.bits 38 5 = fb ∧ (runParse 2 fb).rd.bits 43 6 = 1
      ∧ 37 + (runParse 2 fb).rd.bits 21 16 ≤ (runParse 2 fb).rd.limit)
    ∧ (runParse 2 4).expectsSubpacket ∧ (runParse 2 4).lastRank ≤ 1 ∧ (runParse 2 4).rd.pos = 16 :=
  ⟨by decide +kernel, by decide +kernel, by decide +kernel, by decide +kernel, by decide +kernel⟩

/-- A noise payload and a tone payload, each declared one bit short. -/
theorem test_witness_SubpacketHeaderErrors_long :
    let s := opened .codec 1
    (let payload := noiseBits s.par (s.cfg.channels = 2) 0 0 [2, 1];
      let p := parseBits s 16 (msbBits 5 2 ++ msbBits 16 15 ++ payload);
      p.lastRank ≤ typeRank 2 ∧ chFits s .c0 = true ∧ (Instr.spNoise2, 2) ∈ noiseInstrs
        ∧ noiseFits s 2 0 [2, 1] = true ∧ p.rd.holds (msbBits 5 2 ++ msbBits 16 15 ++ payload)
        ∧ 15 < payload.length ∧ payload.length = 16 ∧ p.rd.pos + 21 + payload.length ≤ p.rd.limit)
    ∧ (let recs : List RecordText := [.add 1 3 1000 2 3];
      let payload := toneBits s.par (s.cfg.channels = 2) 0 recs;
      let p := parseBits s 16 (msbBits 5 8 ++ msbBits 16 27 ++ payload);
      p.lastRank ≤ typeRank 8 ∧ (Instr.spTone8, 8) ∈ toneInstrs ∧ recs.length < 64
        ∧ recs.all (RecordText.fits s.par) = true ∧ vlcValid s.par.ampVlc = true
        ∧ vlcValid s.par.phaseVlc = true ∧ (applyRecords s 8 (p.sh.chan .c0) recs).isSome = true
        ∧ p.rd.holds (msbBits 5 8 ++ msbBits 16 27 ++ payload)
        ∧ 27 < payload.length ∧ payload.length = 28 ∧ p.rd.pos + 21 + payload.length ≤ p.rd.limit) := by
  decide +kernel

/-- V-P15's record. -/
theorem test_witness_ToneAddStores :
    let s := opened .codec 1
    let p := parseAt s [0, 1, 0x40, 0x00, 0xe0, 0x20, 0x41, 0xb1, 0x80] 43
    let r : RecordText := .add 1 3 1000 2 3
    0 < (onePart 8).left ∧ slotLegal s 8 1 3 = true ∧ vlcValid s.par.ampVlc = true
      ∧ vlcValid s.par.phaseVlc = true ∧ r.fits s.par = true ∧ p.rd.holds (r.bits s.par)
      ∧ p.rd.pos + (r.bits s.par).length ≤ p.rd.limit := by decide +kernel

/-- V-P25's slot, at a record that ends at the body's last bit. -/
theorem test_witness_ToneRefreshAndDelete :
    let p := parseAt withTone9 [] 98
    0 < (onePart 8).left ∧ slotLegal withTone9 8 1 1 = true ∧ p.rd.pos + 14 ≤ p.rd.limit
      ∧ Assoc.wf (p.sh.chan .c0).tones = true
      ∧ Assoc.find (slotBin withTone9 8 1 1) (p.sh.chan .c0).tones = some (tone 1 1 500 3 5) := by
  decide +kernel

/-- Each clause at its edge: band NUM_BANDS, one below and one above a type's range, the position at
the band's width (types 8 and 9), and an EMPTY slot. -/
theorem test_witness_MalformedRecords :
    let s := { opened .codec 1 with par := { testcfg with toneRanges := [⟨8, 1, 2⟩] } }
    s.numBands ≤ 4 ∧ 0 < (rangeOf s.par.toneRanges 8 s.numBands).1
      ∧ (rangeOf s.par.toneRanges 8 s.numBands).2 < 3 ∧ (s.band 0).width ≤ 8 * 2 ^ (8 - 8)
      ∧ (s.band 0).width ≤ 4 * 2 ^ (9 - 8)
      ∧ Assoc.find ((s.band 1).base + 2 * 2 ^ (8 - 8))
        ((parseAt withTone9 [] 98).sh.chan .c0).tones = none := by decide +kernel

/-- An add of a legal slot with TESTCFG's one negative amplitude, ending at the body's last bit. -/
theorem test_witness_MalformedRecords_negative :
    let s := opened .codec 1
    let r : RecordText := .add 1 3 (-1) 0 3
    let p := parseBits s 90 (r.bits s.par)
    (-1 : Int) < 0 ∧ slotLegal s 8 1 3 = true ∧ vlcValid s.par.ampVlc = true
      ∧ vlcValid s.par.phaseVlc = true ∧ r.fits s.par = true ∧ p.rd.holds (r.bits s.par)
      ∧ p.rd.pos + (r.bits s.par).length = p.rd.limit := by decide +kernel

theorem test_witness_ChunksParse :
    (x1.length = 48 ∧ be32 x1 0 = 12 ∧ be32 x1 8 = 0x51444D32)
    ∧ ((x1.take 47).length < 48 ∧ be32 (x1.set 3 0x0d) 0 ≠ 12 ∧ be32 (x1.set 8 0) 8 ≠ 0x51444D32)
    ∧ (x1.take 12).length = 12 ∧ r1.Legal ∧ x1 = x1.take 12 ++ r1.serialise.drop 12 ++ []
    ∧ (let rest := fun n => bytes [0, 0, 0, n, 0x51, 0x44, 0x43, 0x50];
      (x1.length = 48 ∧ be32 (rest 8) 4 = 0x51444350 ∧ qdcpFits (rest 8) = true)
        ∧ qdcpFits (rest 7) = false ∧ qdcpFits (rest 9) = false) :=
  ⟨by decide +kernel, by decide +kernel, by decide +kernel, r1_legal, by decide +kernel, by decide +kernel⟩

theorem test_witness_ToneAging : Assoc.wf [(9, tone 1 1 500 3 5), (11, tone 1 3 16 0 16)] = true := by decide

theorem test_witness_SpectrumBuildBins :
    layoutValid withTone9.fftN withTone9.cfg.bands = true
      ∧ withTone9.numBands = withTone9.cfg.bands.length
      ∧ withTone9.bandBins[9]? = some (1, 9) ∧ withTone9.bandBins[63]? = some (3, 63)
      ∧ (∃ t, withTone9.spectrumBuild .c0 = t)
      ∧ Assoc.find 9 (withTone9.chan .c0).tones = some (tone 1 1 500 3 5) :=
  ⟨by decide +kernel, by decide +kernel, by decide +kernel, by decide +kernel, ⟨_, rfl⟩, rfl⟩

/-- The last butterfly of the last stage, and of the first, at N = 8. -/
theorem test_witness_FftStageButterflies :
    let a := List.replicate 8 cxZero
    (1 ≤ 3 ∧ a.length = 8 ∧ 2 ^ 3 ∣ 8 ∧ 0 < 8 / 2 ^ 3 ∧ 3 < 2 ^ 3 / 2)
      ∧ (1 ≤ 1 ∧ 2 ^ 1 ∣ 8 ∧ 3 < 8 / 2 ^ 1 ∧ 0 < 2 ^ 1 / 2) := by decide

theorem test_witness_BitReversal :
    let x := List.replicate 8 cxZero
    x.length = 2 ^ 3 ∧ 7 < 2 ^ 3
      ∧ ∃ a : Nat → List Cx, a 0 = bitReversed 3 x ∧ ∀ s < 3, a (s + 1) = fftStage x.length (s + 1) (a s) :=
  ⟨rfl, by decide, Nat.rec (motive := fun _ => List Cx) (bitReversed 3 (List.replicate 8 cxZero))
    fun s a => fftStage (List.replicate 8 cxZero).length (s + 1) a, rfl, fun _ _ => rfl⟩

theorem test_witness_SynthOutput :
    (opened .codec 1).CfgLegal ∧ ((opened .codec 1).chan .c0).prev.length = 2048
      ∧ ∃ t pcm, (opened .codec 1).synth .c0 = (t, pcm) :=
  ⟨test_witness_cfgLegal.2.2.1, by decide +kernel, _, _, rfl⟩

theorem test_witness_InterleaveOrder :
    let pcm : List (List Sample) := [[1, 2], [-1, -2]]
    1 < 2 ∧ 1 < pcm.length := by decide

/-- The largest finite value, and the least nonzero one. -/
theorem test_witness_PcmRounding : finite32 0x7F7FFFFF = true ∧ finite32 0x80000001 = true := by decide +kernel

theorem busy_next (w : Word) (h : after (step (busy (cmdWrite w))) (fun _ => ()) = some ()) :
    ∃ t, step (busy (cmdWrite w)) = .next t := next_of_after h

/-- A READ_BUFFER that decodes a bad packet and writes OUTBUF. -/
theorem test_witness_StepKeepsMemoryCanonical :
    Memory.wf (busy (cmdWrite 4)).mem = true ∧ ∃ t, step (busy (cmdWrite 4)) = .next t :=
  ⟨by decide +kernel, busy_next 4 (by decide +kernel)⟩

theorem test_witness_StepKeepsConfigInv :
    ConfigInv (busy (cmdWrite 9)) ∧ ∃ t, step (busy (cmdWrite 9)) = .next t :=
  ⟨busy_configInv _, busy_next 9 (by decide +kernel)⟩

theorem busy_queueInv (e : HostEvent) : QueueInv (busy e) := by
  refine ⟨?_, ?_, ?_, ?_, ?_, ?_, fun p hp => by cases hp⟩
  · exact (by decide +kernel : 1 ≤ queueDepth)
  · exact (by decide +kernel : ∀ q ∈ (busy .reset).queue, q.bytes.length = (busy .reset).cfg.frameSize.toNat)
  · exact (by decide +kernel : (busy .reset).queue.map Packet.seq = (List.range (busy .reset).queueCount).map
      fun i => (busy .reset).nextSeq - BitVec.ofNat 64 ((busy .reset).queueCount - i))
  · exact fun h => absurd h (by decide : ¬ (true = false))
  · exact fun h => by cases h
  · exact fun _ => (by decide +kernel : (busy .reset).pendingCount < 2 * (busy .reset).frameSamples)

theorem test_witness_StepKeepsQueueInv :
    ConfigInv (busy (cmdWrite 4)) ∧ QueueInv (busy (cmdWrite 4)) ∧ ∃ t, step (busy (cmdWrite 4)) = .next t :=
  ⟨busy_configInv _, busy_queueInv _, busy_next 4 (by decide +kernel)⟩

theorem busy_channelInv (e : HostEvent) : ChannelInv (busy e) := by
  refine ⟨fun _ c => ?_, fun _ _ => rfl, fun p hp => by cases hp⟩
  have env : EnvLegal testcfg (List.replicate 32 0) := ⟨rfl, by decide⟩
  cases c with
  | c0 =>
    refine ⟨(by decide +kernel : (List.replicate maxFftSize zero32).length = maxFftSize),
      ⟨rfl, fun kt h => ?_⟩, env⟩
    obtain rfl : kt = (9, tone 1 1 500 3 5) := List.mem_singleton.mp h
    constructor
    · exact (by decide : 1 < 4)
    · exact (by decide : 1 < 8)
    · exact rfl
    · exact (by decide : 500 ≤ 32767)
    · exact (by decide : 3 < 8)
    · exact (by decide : 1 ≤ 5)
    · exact (by decide : 5 ≤ 16)
  | c1 =>
    exact ⟨(by decide +kernel : (List.replicate maxFftSize zero32).length = maxFftSize), ⟨rfl, fun kt h => by cases h⟩, env⟩

theorem test_witness_StepKeepsChannelInv :
    ConfigInv (busy (cmdWrite 4)) ∧ ChannelInv (busy (cmdWrite 4))
      ∧ ∃ t, step (busy (cmdWrite 4)) = .next t :=
  ⟨busy_configInv _, busy_channelInv _, busy_next 4 (by decide +kernel)⟩

theorem test_witness_AdapterTransitions :
    ConfigInv (busy (cmdWrite 9)) ∧ (busy (cmdWrite 9)).resetNext = false
      ∧ ∃ t, step (busy (cmdWrite 9)) = .next t :=
  ⟨busy_configInv _, rfl, busy_next 9 (by decide +kernel)⟩

theorem test_witness_StickyAndFrozen :
    ConfigInv (busy (cmdWrite 4)) ∧ (busy (cmdWrite 4)).resetNext = false ∧ (busy (cmdWrite 4)).busErr = true
      ∧ (busy (cmdWrite 4)).vlcReady = true ∧ (busy (cmdWrite 4)).live = true
      ∧ ∃ t, step (busy (cmdWrite 4)) = .next t :=
  ⟨busy_configInv _, rfl, rfl, rfl, rfl, busy_next 4 (by decide +kernel)⟩

theorem test_witness_InstructionsKeepInputs :
    (busy .reset).channelCount ≤ 2 ∧ (busy .reset).spf ≤ 1024
      ∧ ∃ t, exec .readBuffer (busy .reset) = .next t :=
  ⟨by decide +kernel, by decide +kernel, next_of_after (by decide +kernel)⟩

/-- A record that goes on, one that ends its command, and a chunk that ends its parse. -/
theorem test_witness_ElementOutcomes :
    isCommand (.toneRefresh 1 1) = false ∧ isCommand .chunkQdcp = false
      ∧ (∃ t, exec (.toneRefresh 1 1) (inTones withTone9 8 []) = .next t)
      ∧ (∃ t, exec (.toneRefresh 1 2) (inTones withTone9 8 []) = .next t)
      ∧ ∃ t, exec .chunkQdcp (inChunks (start testcfg) .third x1) = .next t :=
  ⟨rfl, rfl, next_of_after (by decide +kernel), next_of_after (by decide +kernel),
    next_of_after (by decide +kernel)⟩

/-- V-P24's packet, X1 at the first chunk place, and X1 in INBUF. -/
theorem test_witness_FrameDecodeIsItsSteps :
    (paramsValid (opened .codec 1).par = true
      ∧ ∃ p, startParse (opened .codec 1) .decodePacket
        (bytes [0, 1, 0x40, 2, 0, 0x60, 0, 0x80, 0x80, 4, 0, 0x27, 8, 0, 1, 0xd6]) = .ok p)
    ∧ (∃ x, (inChunks (start testcfg) .first x1).activity = .chunks x ∧ x.place = .first)
    ∧ (let s := loaded (start testcfg) x1;
      s.activity = .idle ∧ s.adapter = .unconfigured ∧ s.arg.toNat ≤ 8192
        ∧ x1 = s.loadBytes 0x1000 s.arg.toNat) :=
  ⟨⟨by decide +kernel, ok_of_some (by decide +kernel)⟩, ⟨_, rfl, rfl⟩, by decide +kernel⟩

/-- One sub-packet of each class in a 16-byte packet, and none. -/
theorem test_witness_EncodedPacketDecodes :
    let s := opened .codec 1
    let subs : List SubpacketText := [.flags 0xAA, .noise 2 0 0 [2], .tone 8 0 [.delete 1 1]]
    let s9 := withTone9
    4 ≤ 16 ∧ 255 < 256 ∧ subs.length < 256 ∧ (∀ q ∈ subs, q.fits s9 = true)
      ∧ 16 + (subs.flatMap (SubpacketText.bits s9.par (s9.cfg.channels = 2))).length ≤ 8 * (16 - 2)
      ∧ (∃ sh, applySubpackets s9 0 (Shadow.ofState s9) subs = some sh)
      ∧ ∃ sh, applySubpackets s 0 (Shadow.ofState s) [] = some sh :=
  ⟨by decide, by decide, by decide, by decide +kernel, by decide +kernel, some_of_isSome (by decide +kernel),
    _, rfl⟩

end Sys2Proof.Tests
end

section
/-!
PROOFS. The model stops nowhere a program can go (00_scope.md R7; 70_reset_and_hazards.md R290). What a
step takes next runs where the sequencer executes elements of its kind, so no refusal by place arises,
and with valid parameters no operation of the packet parser refuses (Laws/Parse), so that what a parse
raises is caught.
-/

namespace Sys2Proof.Machine

open Sys2Proof

/-- The outcome is a next state: the machine neither faults nor refuses. -/
def Proceeds (o : Out) : Prop := ∃ t, o = .next t

theorem proceeds_next (t : State) : Proceeds (.next t) := ⟨t, rfl⟩

theorem safeStep_iff (s : State) : safeStep s ↔ Proceeds (fetch s).out := by
  rw [← step_eq]; rfl

/-! ### Parses -/

theorem parses_ok_or_raised {α : Type} {Q : α → Prop} {x : Except Stop α} (h : Parses Q x) :
    (∃ a, x = .ok a) ∨ ∃ e pos, x = .error (.raised e pos) := by
  match x, h with
  | .ok a, _ => exact .inl ⟨a, rfl⟩
  | .error (.raised e pos), _ => exact .inr ⟨e, pos, rfl⟩

theorem catchStop_raised_proceeds (s : State) (via : Via) (e : Err) (pos : Nat) :
    Proceeds (s.catchStop via (.raised e pos)) := ⟨s.takePacketError via e pos, rfl⟩

/-- A parse that stops without refusing is recovered from (60_exceptions.md R262). -/
theorem catchStop_proceeds_of_parses {α : Type} {Q : α → Prop} {x : Except Stop α} {e : Stop}
    (h : Parses Q x) (hx : x = .error e) (s : State) (via : Via) : Proceeds (s.catchStop via e) := by
  subst hx
  match e, h with
  | .raised e pos, _ => exact catchStop_raised_proceeds s via e pos

theorem afterElement_proceeds {Q : Parse → Prop} {x : Except Stop Parse} (h : Parses Q x)
    (s : State) (via : Via) : Proceeds (afterElement s via x) := by
  rcases parses_ok_or_raised h with ⟨p, rfl⟩ | ⟨e, pos, rfl⟩
  · exact proceeds_next _
  · exact catchStop_raised_proceeds s via e pos

theorem frameDecode_proceeds {s : State} (hp : ParamsSpec s.par) (via : Via) (packet : List Byte) :
    Proceeds (frameDecode s via packet) := by
  unfold frameDecode
  rcases parses_ok_or_raised (parsePacket_parses hp via packet) with ⟨p, h⟩ | ⟨e, pos, h⟩
  · rw [h]; exact proceeds_next _
  · rw [h]; exact catchStop_raised_proceeds s via e pos

/-! ### Commands -/

theorem onCommand_proceeds {gate : State → Option Err} {body : State → Out} {s : State}
    (ha : s.activity = .idle) (hb : Proceeds (body s)) : Proceeds (onCommand gate body s) := by
  cases hg : gate s with
  | some e => rw [onCommand_some ha hg]; exact proceeds_next _
  | none => rw [onCommand_none ha hg]; exact hb

theorem configure_proceeds (md : Mode) (s : State) : Proceeds (configure md s) := by
  unfold configure
  dsimp only
  split
  · exact proceeds_next _
  · split <;> exact proceeds_next _

theorem queuePacket_proceeds (s : State) : Proceeds (queuePacket s) := by
  unfold queuePacket
  repeat' split
  all_goals exact proceeds_next _

theorem finish_proceeds (s : State) : Proceeds (finish s) := by
  unfold finish
  split <;> exact proceeds_next _

theorem readBuffer_proceeds {s : State} (hp : ParamsSpec s.par) : Proceeds (readBuffer s) := by
  unfold readBuffer
  split
  · split
    · rename_i q qs _
      exact frameDecode_proceeds (s := { s with queue := qs }) hp .readBuffer q.bytes
    · exact proceeds_next _
  · exact proceeds_next _

theorem decodePacket_proceeds {s : State} (hp : ParamsSpec s.par) : Proceeds (decodePacket s) := by
  unfold decodePacket
  split
  · exact proceeds_next _
  · exact frameDecode_proceeds hp _ _

/-- A command that starts with none in progress ends, with success or with an error code
(45_host_commands.md R230). -/
theorem exec_command_proceeds {i : Instr} {s : State} (hi : i.layer = .command)
    (ha : s.activity = .idle) (hp : ParamsSpec s.par) : Proceeds (exec i s) := by
  cases i with
  | configureStream => exact onCommand_proceeds ha (configure_proceeds _ s)
  | configureCodec => exact onCommand_proceeds ha (configure_proceeds _ s)
  | queuePacket => exact onCommand_proceeds ha (queuePacket_proceeds s)
  | finish => exact onCommand_proceeds ha (finish_proceeds s)
  | readBuffer => exact onCommand_proceeds ha (readBuffer_proceeds hp)
  | endOfData | isStereo | getRate | destroy =>
    dsimp only [exec, execEndOfData, execIsStereo, execGetRate, execDestroy]
    exact onCommand_proceeds ha (proceeds_next _)
  | decodePacket => exact onCommand_proceeds ha (decodePacket_proceeds hp)
  | _ => cases hi

/-! ### Chunks -/

theorem settleChunk_proceeds (s : State) (x : ChunkParse) (n : ChunkNext) :
    Proceeds (settleChunk s x n) := by
  cases n <;> exact proceeds_next _

theorem onChunk_proceeds {f : ChunkParse → ChunkNext} {s : State} {x : ChunkParse}
    (ha : s.activity = .chunks x) : Proceeds (onChunk f s) := by
  unfold onChunk
  rw [ha]
  exact settleChunk_proceeds s x (f x)

theorem exec_chunk_proceeds {i : Instr} {s : State} {x : ChunkParse} (hi : i.layer = .chunk)
    (ha : s.activity = .chunks x) : Proceeds (exec i s) := by
  cases i with
  | chunkFrma | chunkQdca | chunkQdcp => exact onChunk_proceeds ha
  | _ => cases hi

/-! ### Elements of a packet parse -/

/-- In a parse that expects a sub-packet, executing one is running its rule in the parse. -/
theorem onSubpacket_eq {body : State → Parse → Except Stop Parse} {s : State} {p : Parse}
    (ha : s.activity = .packet p) (he : p.expectsSubpacket) :
    onSubpacket body s = afterElement s p.via (body s p) := by
  obtain ⟨ht, hl⟩ := he
  unfold onSubpacket
  simp only [ha, ht, Option.isNone_none, hl, decide_true, Bool.and_self, if_true]
  rfl

/-- In a tone payload that expects a record, executing one is passing its head and running its
operation. -/
theorem onRecord_eq {act : State → TonePart → Nat → Nat → Nat → Parse → Except Stop Parse}
    {band pos : Nat} {s : State} {p : Parse} {tp : TonePart} (ha : s.activity = .packet p)
    (ht : p.tone = some tp) (hl : 0 < tp.left) :
    onRecord act band pos s = afterElement s p.via
      (do let (_, _, _, q) ← recordHead p; act s tp band pos p.rd.pos q) := by
  unfold onRecord
  simp only [ha, ht, hl, if_true]
  rfl

theorem exec_subpacketInstr_proceeds {s : State} {p : Parse} (hp : ParamsSpec s.par)
    (ha : s.activity = .packet p) (he : p.expectsSubpacket) (t : Nat) :
    Proceeds (exec (subpacketInstr t) s) := by
  rw [exec_subpacketInstr, onSubpacket_eq ha he]
  exact afterElement_proceeds (subpacketOf_parses hp t p) s p.via

theorem exec_toneInstr_proceeds {s : State} {p : Parse} {tp : TonePart} (hp : ParamsSpec s.par)
    (ha : s.activity = .packet p) (ht : p.tone = some tp) (hl : 0 < tp.left) (op band pos : Nat) :
    Proceeds (exec (toneInstr op band pos) s) := by
  rw [exec_toneInstr, onRecord_eq ha ht hl]
  exact afterElement_proceeds (record_parses (toneOp_parses hp op tp) band pos) s p.via

/-! ### The fetch -/

theorem fetchCommand_proceeds {s : State} (ha : s.activity = .idle) (hp : ParamsSpec s.par)
    (w : Word) : Proceeds (fetchCommand s w).out := by
  unfold fetchCommand
  split
  · rename_i i hd
    have hi : i.layer = .command := of_decide_eq_true (isCommand_of_decode hd)
    exact exec_command_proceeds hi ha hp
  · exact proceeds_next _

theorem fetchAccess_proceeds {s : State} (ha : s.activity = .idle) (hp : ParamsSpec s.par)
    (a : Access) : Proceeds (fetchAccess s a).out := by
  cases a with
  | read w addr => exact proceeds_next _
  | write w addr v =>
    simp only [fetchAccess]
    split
    · exact fetchCommand_proceeds ha hp v
    · exact proceeds_next _

/-- Between commands the host's event is refused only where the host does not order its accesses
(70_reset_and_hazards.md R290). -/
theorem fetchHost_proceeds {s : State} (ha : s.activity = .idle) (hp : ParamsSpec s.par)
    (ho : s.ordered = true) : Proceeds (fetchHost s).out := by
  unfold State.ordered at ho
  unfold fetchHost
  match hh : s.host with
  | [] => exact proceeds_next _
  | .reset :: h => exact proceeds_next _
  | .unordered a b :: h => simp [hh] at ho
  | .access a :: h => exact fetchAccess_proceeds (s := { s with host := h }) ha hp a

theorem fetchChunk_proceeds {s : State} {x : ChunkParse} (ha : s.activity = .chunks x) :
    Proceeds (fetchChunk s x).out := by
  have run {n : Nat} {i : Instr} (hd : decodeChunk n = .ok i) : Proceeds (exec i s) :=
    exec_chunk_proceeds (layer_of_decodeChunk hd) ha
  have settle (n : ChunkNext) : Proceeds (Fetched.settled (settleChunk s x n)).out :=
    settleChunk_proceeds s x n
  unfold fetchChunk
  split
  case h_1 | h_2 =>
    split
    · rename_i hd; exact run hd
    · exact settle _
  case h_3 =>
    split
    · split
      · rename_i hd; exact run hd
      · exact settle _
    · exact settle _

/-- Inside a tone payload: the end of the payload, or its next record (42_packet_parser.md R175). -/
theorem fetchElement_tone_proceeds {s : State} {p : Parse} {tp : TonePart} (hp : ParamsSpec s.par)
    (ha : s.activity = .packet p) (ht : p.tone = some tp) : Proceeds (fetchElement s p).out := by
  unfold fetchElement
  simp only [ht]
  split
  · exact afterElement_proceeds (closeTone_parses s (by rw [ht]; rfl)) s p.via
  · rename_i hl
    split
    · exact exec_toneInstr_proceeds hp ha ht (Nat.pos_of_ne_zero hl) _ _ _
    · rename_i e he
      exact catchStop_proceeds_of_parses (recordHead_parses s p) he s p.via

/-- Between payloads: the end of the frame decode, or the next sub-packet (42_packet_parser.md
R151). -/
theorem fetchElement_sub_proceeds {s : State} {p : Parse} (hp : ParamsSpec s.par)
    (ha : s.activity = .packet p) (ht : p.tone = none) : Proceeds (fetchElement s p).out := by
  unfold fetchElement
  simp only [ht]
  split
  · exact proceeds_next _
  · rename_i hl
    split
    · exact exec_subpacketInstr_proceeds hp ha ⟨ht, Nat.pos_of_ne_zero hl⟩ _
    · rename_i e he
      exact catchStop_proceeds_of_parses (peek_parses (by decide)) he s p.via

theorem fetchElement_proceeds {s : State} {p : Parse} (hp : ParamsSpec s.par)
    (ha : s.activity = .packet p) : Proceeds (fetchElement s p).out := by
  cases ht : p.tone with
  | some tp => exact fetchElement_tone_proceeds hp ha ht
  | none => exact fetchElement_sub_proceeds hp ha ht

theorem fetch_proceeds {s : State} (hp : ParamsSpec s.par) (ho : s.ordered = true) :
    Proceeds (fetch s).out := by
  unfold fetch
  match ha : s.activity with
  | .idle => exact fetchHost_proceeds ha hp ho
  | .chunks x => exact fetchChunk_proceeds ha
  | .packet p => exact fetchElement_proceeds hp ha

/-- Settles O7, by the three things a step can take next: the host's event, a chunk, an element of a
packet parse. -/
theorem stepNeverRefuses : Obligations.StepNeverRefuses := by
  intro s hvalid hordered
  exact (safeStep_iff s).mpr (fetch_proceeds (paramsValid_spec hvalid) hordered)

end Sys2Proof.Machine
end

section
/-!
PROOFS. The control registers and the parameters (10_state.md R21 to R23, R34, R38;
45_host_commands.md R231): what an instruction and a step do to STATE, MODE, the configuration and the
sticky bits of STATUS, said once; the configuration invariant, the transitions of STATE and the frozen
configuration follow from it.
-/

namespace Sys2Proof.Machine

open Sys2Proof

/-! ### A bus access that starts no command (20_memory.md R63, R64) -/

/-- A read changes the data returned and may set STATUS.BUS_ERR. -/
theorem busRead_frame (s : State) (w : Width) (a : Nat) :
    s.busRead w a = { s with
      busData := (s.busRead w a).busData, busErr := s.busErr || !readLegal w a } := by
  unfold State.busRead
  by_cases h : readLegal w a = true <;> simp [h]

/-- A write changes ARG or INBUF, or sets STATUS.BUS_ERR. -/
theorem busWrite_frame (s : State) (w : Width) (a : Nat) (v : Word) :
    s.busWrite w a v = { s with
      arg := (s.busWrite w a v).arg, mem := (s.busWrite w a v).mem
      busErr := s.busErr || !writeLegal w a } := by
  unfold State.busWrite
  by_cases h : writeLegal w a = true
  · simp only [h, if_true, Bool.not_true, Bool.or_false]
    split
    · split <;> rfl
    · rw [storeBytes_eq]
    · rfl
    · rfl
  · simp [h]

/-! ### Legal configurations -/

theorem spfLegal_iff (n : Nat) : spfLegal n = true ↔ n = 256 ∨ n = 512 ∨ n = 1024 := by
  simp [spfLegal, or_assoc]

/-- The record of a QDCA chunk whose fields pass the checks (41_extradata.md R141). -/
theorem qdcaRecord_legal {b : List Byte} (h : qdcaFieldsOk b = true) : (qdcaRecord b).Legal := by
  simp only [qdcaFieldsOk, Bool.and_eq_true, Bool.or_eq_true, decide_eq_true_eq] at h
  obtain ⟨⟨⟨hch, hmin⟩, hmax⟩, hspf⟩ := h
  have small : ∀ n ≤ 8192, (BitVec.ofNat 32 n).toNat = n := fun n hn => by
    rw [BitVec.toNat_ofNat]; omega
  have hsize : be32 b 44 ≤ 8192 := by
    rcases (spfLegal_iff _).1 hspf with h | h | h <;> omega
  exact {
    channels := hch.imp (fun h => by simp [qdcaRecord, h]) (fun h => by simp [qdcaRecord, h])
    frameMin := by simpa [qdcaRecord, small _ hmax] using hmin
    frameMax := by simpa [qdcaRecord, small _ hmax] using hmax
    spf := by simpa [qdcaRecord, small _ hsize] using hspf }

/-- A blob the parser accepts passed the field checks, and its record is its QDCA chunk's. -/
theorem extradataParse_ok {b : List Byte} {r : ExtraRec} (h : extradataParse b = .ok r) :
    r = qdcaRecord b ∧ qdcaFieldsOk b = true := by
  unfold extradataParse at h
  repeat' split at h
  all_goals cases h
  rename_i hf _
  exact ⟨rfl, by simpa using hf⟩

theorem extradataParse_legal {b : List Byte} {r : ExtraRec} (h : extradataParse b = .ok r) :
    r.Legal := by
  obtain ⟨rfl, hf⟩ := extradataParse_ok h
  exact qdcaRecord_legal hf

/-- A configuration has at most MAX_BANDS bands (00_scope.md R7). -/
theorem layoutOf_length_le {p : Params} (hp : paramsValid p = true) (spf : Nat) :
    (layoutOf p spf).length ≤ 32 := by
  have len : ∀ {n : Nat} {l : List Band}, layoutValid n l = true → l.length ≤ 32 := by
    intro n l h
    simp only [layoutValid, maxBands, Bool.and_eq_true, decide_eq_true_eq] at h
    obtain ⟨⟨hlen, _⟩, _⟩ := h
    exact of_decide_eq_true hlen
  have spec := paramsValid_spec hp
  unfold layoutOf
  split
  · exact len spec.layout256
  · split
    · exact len spec.layout512
    · split
      · exact len spec.layout1024
      · simp

/-- The registers derived from a legal record are legal (10_state.md R21, R22). -/
theorem cfgLegal_ofRecord {t : State} {r : ExtraRec} (hp : paramsValid t.par = true)
    (hr : r.Legal) (hc : t.cfg = Cfg.ofRecord t.par r) : t.CfgLegal := by
  have hb := layoutOf_length_le hp r.packetSize.toNat
  have hs := (spfLegal_iff _).1 hr.spf
  have hspf : t.spf = r.packetSize.toNat := by rw [State.spf, hc]; rfl
  have hN : t.fftN = 2 * r.packetSize.toNat := by
    rw [State.fftN, hc]
    simp only [Cfg.ofRecord, BitVec.toNat_ofNat]
    omega
  have hL : t.fftL = (2 * r.packetSize.toNat).log2 % 2 ^ 32 := by
    rw [State.fftL, hc, Cfg.ofRecord, BitVec.toNat_ofNat]
  exact {
    channels := by rw [hc]; exact hr.channels
    frameMin := by rw [hc]; exact hr.frameMin
    frameMax := by rw [hc]; exact hr.frameMax
    spf := by rw [hspf]; exact hr.spf
    fftSize := by rw [hN, hspf]
    fftOrder := by
      rw [hL, hN]
      rcases hs with h | h | h <;> rw [h] <;> decide
    bands := by rw [hspf, hc]; rfl
    numBands := by
      rw [State.numBands, hc]
      simp only [Cfg.ofRecord, BitVec.toNat_ofNat]
      omega
    params := hp }

/-- Whether a configuration is legal depends on the registers and the parameters only. -/
theorem cfgLegal_congr {s t : State} (h : s.CfgLegal) (hp : t.par = s.par) (hc : t.cfg = s.cfg) :
    t.CfgLegal := by
  have hspf : t.spf = s.spf := by rw [State.spf, State.spf, hc]
  have hN : t.fftN = s.fftN := by rw [State.fftN, State.fftN, hc]
  have hL : t.fftL = s.fftL := by rw [State.fftL, State.fftL, hc]
  have hB : t.numBands = s.numBands := by rw [State.numBands, State.numBands, hc]
  constructor <;> simp only [hp, hc, hspf, hN, hL, hB]
  exacts [h.channels, h.frameMin, h.frameMax, h.spf, h.fftSize, h.fftOrder, h.bands, h.numBands,
    h.params]

/-- What is live, by STATE (10_state.md R34). -/
theorem live_iff (s : State) : s.live = true ↔ s.adapter = .opened ∨ s.adapter = .draining := by
  simp [State.live]

theorem not_live_iff (s : State) :
    s.live = false ↔ s.adapter = .unconfigured ∨ s.adapter = .closed := by
  cases h : s.adapter <;> simp [State.live, h]

theorem live_congr {s t : State} (h : t.adapter = s.adapter) : t.live = s.live := by
  simp only [State.live, h]

/-! ### What a step does to STATE, MODE and the configuration -/

/-- What can happen to STATE, MODE and the configuration outside reset (10_state.md R23): they stay,
or CONFIGURE constructs, FINISH drains or DESTROY closes. -/
inductive ControlTo (s t : State) : Prop
  | keep (hc : t.cfg = s.cfg) (ha : t.adapter = s.adapter) (hm : t.mode = s.mode)
  | construct (hl : s.live = false) (r : ExtraRec) (hr : r.Legal)
      (hc : t.cfg = Cfg.ofRecord t.par r) (ha : t.adapter = .opened)
  | drain (hs : s.adapter = .opened) (hs' : s.mode = .stream) (hc : t.cfg = s.cfg)
      (ha : t.adapter = .draining) (hm : t.mode = s.mode)
  | destroy (hl : s.live = true) (hc : t.cfg = s.cfg) (ha : t.adapter = .closed)
      (hm : t.mode = s.mode)

/-- What no step but reset undoes (10_state.md R34, R38; 00_scope.md R7). -/
structure Sticky (s t : State) : Prop where
  par : t.par = s.par
  busErr : s.busErr = true → t.busErr = true
  vlcReady : s.vlcReady = true → t.vlcReady = true

/-- What a bus access, a check that fails and a read-only command leave alone: all that the invariants
read but the command in progress. -/
structure SameInstance (s t : State) : Prop where
  par : t.par = s.par
  cfg : t.cfg = s.cfg
  adapter : t.adapter = s.adapter
  mode : t.mode = s.mode
  queue : t.queue = s.queue
  nextSeq : t.nextSeq = s.nextSeq
  pending : t.pending = s.pending
  chan0 : t.chan0 = s.chan0
  chan1 : t.chan1 = s.chan1

theorem SameInstance.control {s t : State} (h : SameInstance s t) : ControlTo s t :=
  .keep h.cfg h.adapter h.mode

/-- The start of a transition counts by its own control registers only. -/
theorem ControlTo.of_start {s u t : State} (h : ControlTo u t) (hc : u.cfg = s.cfg)
    (ha : u.adapter = s.adapter) (hm : u.mode = s.mode) : ControlTo s t := by
  cases h with
  | keep h1 h2 h3 => exact .keep (h1.trans hc) (h2.trans ha) (h3.trans hm)
  | construct hl r hr h1 h2 => exact .construct (live_congr ha ▸ hl) r hr h1 h2
  | drain hs hs' h1 h2 h3 => exact .drain (ha ▸ hs) (hm ▸ hs') (h1.trans hc) h2 (h3.trans hm)
  | destroy hl h1 h2 h3 => exact .destroy (live_congr ha ▸ hl) (h1.trans hc) h2 (h3.trans hm)

theorem Sticky.of_start {s u t : State} (h : Sticky u t) (hp : u.par = s.par)
    (hb : u.busErr = s.busErr) (hv : u.vlcReady = s.vlcReady) : Sticky s t :=
  ⟨h.par.trans hp, fun e => h.busErr (hb.trans e), fun e => h.vlcReady (hv.trans e)⟩

theorem SameInstance.trans {s t u : State} (h : SameInstance s t) (g : SameInstance t u) :
    SameInstance s u :=
  ⟨g.par.trans h.par, g.cfg.trans h.cfg, g.adapter.trans h.adapter, g.mode.trans h.mode,
    g.queue.trans h.queue, g.nextSeq.trans h.nextSeq, g.pending.trans h.pending,
    g.chan0.trans h.chan0, g.chan1.trans h.chan1⟩

theorem sameInstance_host (s : State) (l : List HostEvent) : SameInstance s { s with host := l } :=
  ⟨rfl, rfl, rfl, rfl, rfl, rfl, rfl, rfl, rfl⟩

theorem sameInstance_activity (s : State) (a : Activity) :
    SameInstance s { s with activity := a } :=
  ⟨rfl, rfl, rfl, rfl, rfl, rfl, rfl, rfl, rfl⟩

theorem sameInstance_vlcReady (s : State) (b : Bool) : SameInstance s { s with vlcReady := b } :=
  ⟨rfl, rfl, rfl, rfl, rfl, rfl, rfl, rfl, rfl⟩

theorem sameInstance_fail (s : State) (e : Err) : SameInstance s (s.fail e) :=
  ⟨rfl, rfl, rfl, rfl, rfl, rfl, rfl, rfl, rfl⟩

theorem sameInstance_succeed (s : State) (r : Word) : SameInstance s (s.succeed r) :=
  ⟨rfl, rfl, rfl, rfl, rfl, rfl, rfl, rfl, rfl⟩

theorem busRead_sameInstance (s : State) (w : Width) (a : Nat) :
    SameInstance s (s.busRead w a) := by
  rw [busRead_frame]; exact ⟨rfl, rfl, rfl, rfl, rfl, rfl, rfl, rfl, rfl⟩

theorem busWrite_sameInstance (s : State) (w : Width) (a : Nat) (v : Word) :
    SameInstance s (s.busWrite w a v) := by
  rw [busWrite_frame]; exact ⟨rfl, rfl, rfl, rfl, rfl, rfl, rfl, rfl, rfl⟩

theorem busRead_sticky (s : State) (w : Width) (a : Nat) : Sticky s (s.busRead w a) := by
  rw [busRead_frame]; exact ⟨rfl, fun h => by simp [h], id⟩

theorem busWrite_sticky (s : State) (w : Width) (a : Nat) (v : Word) :
    Sticky s (s.busWrite w a v) := by
  rw [busWrite_frame]; exact ⟨rfl, fun h => by simp [h], id⟩

theorem completeFrame_control (s : State) (via : Via) (r : FrameResult) :
    ControlTo s (s.completeFrame via r) := by
  rw [completeFrame_frame]; exact .keep rfl rfl rfl

theorem completeFrame_sticky (s : State) (via : Via) (r : FrameResult) :
    Sticky s (s.completeFrame via r) := by
  rw [completeFrame_frame]; exact ⟨rfl, id, id⟩

/-- The end of a frame decode, whichever way its parse ended. -/
theorem FrameTo.eq_completeFrame {s t : State} {via : Via} {packet : List Byte}
    (h : FrameTo s via packet t) : ∃ r, t = s.completeFrame via r := by
  cases h with
  | good p _ => exact ⟨.good p.sh, rfl⟩
  | bad e pos _ => exact ⟨.bad e pos, rfl⟩

theorem commandTo_idle {s t : State} (ha : s.activity = .idle) (h : CommandTo s t) :
    t.activity = .idle := by
  cases h with
  | fail | succeed | badExtradata | queue | finish | destroy => exact ha
  | construct => rfl
  | read => rw [finishRead_eq]; exact ha
  | readFrame _ _ _ _ _ _ _ h | packetFrame _ _ _ _ h =>
    obtain ⟨r, rfl⟩ := h.eq_completeFrame
    rfl

theorem commandTo_control {s t : State} (h : CommandTo s t) : ControlTo s t := by
  cases h with
  | fail | succeed | badExtradata | queue => exact .keep rfl rfl rfl
  | construct md r hl _ hr => exact .construct hl r (extradataParse_legal hr) rfl rfl
  | finish hl hm hd => exact .drain (((live_iff s).1 hl).resolve_right hd) hm rfl rfl rfl
  | read => rw [finishRead_eq]; exact .keep rfl rfl rfl
  | readFrame _ _ _ _ qs _ _ h =>
    obtain ⟨r, rfl⟩ := h.eq_completeFrame
    exact (completeFrame_control { s with queue := qs } _ r).of_start rfl rfl rfl
  | packetFrame _ _ _ _ h =>
    obtain ⟨r, rfl⟩ := h.eq_completeFrame
    exact completeFrame_control s _ r
  | destroy hl => exact .destroy hl rfl rfl rfl

theorem commandTo_sticky {s t : State} (h : CommandTo s t) : Sticky s t := by
  cases h with
  | fail | succeed | queue | finish | destroy => exact ⟨rfl, id, id⟩
  | badExtradata | construct => exact ⟨rfl, id, fun _ => rfl⟩
  | read => rw [finishRead_eq]; exact ⟨rfl, id, id⟩
  | readFrame _ _ _ _ qs _ _ h =>
    obtain ⟨r, rfl⟩ := h.eq_completeFrame
    exact (completeFrame_sticky { s with queue := qs } _ r).of_start rfl rfl rfl
  | packetFrame _ _ _ _ h =>
    obtain ⟨r, rfl⟩ := h.eq_completeFrame
    exact completeFrame_sticky s _ r

theorem elementTo_control {s t : State} {p : Parse} (h : ElementTo s p t) : ControlTo s t := by
  cases h with
  | next q _ => exact .keep rfl rfl rfl
  | error e pos => exact completeFrame_control s _ _

theorem elementTo_sticky {s t : State} {p : Parse} (h : ElementTo s p t) : Sticky s t := by
  cases h with
  | next q _ => exact ⟨rfl, id, id⟩
  | error e pos => exact completeFrame_sticky s _ _

theorem chunkTo_control {s t : State} {x : ChunkParse} (hi : ConfigInv s)
    (ha : s.activity = .chunks x) (h : ChunkTo s x t) : ControlTo s t := by
  obtain ⟨hlive, _, _, hrecord⟩ := hi.chunks x ha
  cases h with
  | second | third | bad => exact .keep rfl rfl rfl
  | done hx => exact .construct hlive x.record (hrecord hx) rfl rfl

theorem chunkTo_sticky {s t : State} {x : ChunkParse} (h : ChunkTo s x t) : Sticky s t := by
  cases h <;> exact ⟨rfl, id, id⟩

/-- The step is the reset event where the host's next event between commands is
(70_reset_and_hazards.md R280). -/
theorem resetNext_of_reset {s : State} {h : List HostEvent} (ha : s.activity = .idle)
    (hh : s.host = .reset :: h) : s.resetNext = true := by
  simp [State.resetNext, ha, hh]

/-- The step of the reset event (70_reset_and_hazards.md R280). -/
theorem step_of_resetNext {s : State} (h : s.resetNext = true) :
    ∃ l, step s = .next (State.resetWith s.par l (s.resets + 1)) := by
  unfold State.resetNext at h
  split at h
  · rename_i l ha hh
    exact ⟨l, by rw [step_eq, fetch, ha]; simp only [fetchHost, hh, Fetched.out]⟩
  · cases h

/-- A bus access, an illegal command word and a command leave nothing in progress. -/
theorem stepTo_idle {s t : State} (ha : s.activity = .idle) (h : StepTo s t) :
    t.activity = .idle := by
  cases h with
  | wait => exact ha
  | reset => rfl
  | read => rw [busRead_frame]; exact ha
  | write => rw [busWrite_frame]; exact ha
  | illegal => exact ha
  | command _ l w hh t ht => exact commandTo_idle (s := { s with host := l }) ha ht
  | element p hp => cases ha.symm.trans hp
  | frame p => rfl
  | chunk x hx => cases ha.symm.trans hx

/-- The kinds of step: an idle block, a bus access and an illegal command word leave the registers of
`SameInstance` alone, and a command finds them as they were. -/
inductive StepKind (s : State) : State → Prop
  | quiet (t : State) (hs : SameInstance s t) (ht : t.activity = .idle) : StepKind s t
  | reset (hr : s.resetNext = true) (l : List HostEvent) (n : Nat) :
      StepKind s (State.resetWith s.par l n)
  | command (u : State) (hs : SameInstance s u) (hu : u.activity = .idle) (t : State)
      (ht : CommandTo u t) : StepKind s t
  | element (p : Parse) (ha : s.activity = .packet p) (t : State) (ht : ElementTo s p t) :
      StepKind s t
  | frame (p : Parse) (ha : s.activity = .packet p) :
      StepKind s (s.completeFrame p.via (.good p.sh))
  | chunk (x : ChunkParse) (ha : s.activity = .chunks x) (t : State) (ht : ChunkTo s x t) :
      StepKind s t

theorem stepTo_kind {s t : State} (h : StepTo s t) : StepKind s t := by
  have quiet : s.activity = .idle → SameInstance s t → StepKind s t := fun ha hs =>
    .quiet t hs (stepTo_idle ha h)
  cases h with
  | wait ha => exact quiet ha ⟨rfl, rfl, rfl, rfl, rfl, rfl, rfl, rfl, rfl⟩
  | reset ha l hh => exact .reset (resetNext_of_reset ha hh) l _
  | read ha l w a =>
    exact quiet ha ((sameInstance_host s l).trans (busRead_sameInstance _ w a.toNat))
  | write ha l w a v =>
    exact quiet ha ((sameInstance_host s l).trans (busWrite_sameInstance _ w a.toNat v))
  | illegal ha l => exact quiet ha ((sameInstance_host s l).trans (sameInstance_fail _ _))
  | command ha l w hh t ht => exact .command _ (sameInstance_host s l) ha t ht
  | element p ha t ht => exact .element p ha t ht
  | frame p ha => exact .frame p ha
  | chunk x ha t ht => exact .chunk x ha t ht

/-- Every step but the reset event makes one of the transitions of 10_state.md R23, or none. -/
theorem step_control {s t : State} (hi : ConfigInv s) (h : step s = .next t)
    (hr : s.resetNext = false) : ControlTo s t := by
  cases stepTo_kind (step_next h) with
  | quiet _ hs _ => exact hs.control
  | reset hr' => cases hr.symm.trans hr'
  | command u hs _ t ht => exact (commandTo_control ht).of_start hs.cfg hs.adapter hs.mode
  | element p ha t ht => exact elementTo_control ht
  | frame p => exact completeFrame_control s _ _
  | chunk x ha t ht => exact chunkTo_control hi ha ht

theorem step_sticky {s t : State} (h : step s = .next t) (hr : s.resetNext = false) :
    Sticky s t := by
  cases step_next h with
  | wait => exact ⟨rfl, id, id⟩
  | reset ha l hh => cases hr.symm.trans (resetNext_of_reset ha hh)
  | read ha l w a =>
    exact (busRead_sticky { s with host := l } w a.toNat).of_start rfl rfl rfl
  | write ha l w a v =>
    exact (busWrite_sticky { s with host := l } w a.toNat v).of_start rfl rfl rfl
  | illegal => exact ⟨rfl, id, id⟩
  | command ha l w hh t ht => exact (commandTo_sticky ht).of_start rfl rfl rfl
  | element p ha t ht => exact elementTo_sticky ht
  | frame p => exact completeFrame_sticky s _ _
  | chunk x ha t ht => exact chunkTo_sticky ht

/-! ### The invariant (10_state.md R21 to R23; 45_host_commands.md R231) -/

/-- Between commands the configuration invariant is one of the control registers. -/
theorem configInv_of_control {s t : State} (hi : ConfigInv s) (hc : ControlTo s t)
    (hp : t.par = s.par) (ha : t.activity = .idle) : ConfigInv t where
  params := hp ▸ hi.params
  live := fun hl => by
    cases hc with
    | keep hc had => exact cfgLegal_congr (hi.live (live_congr had ▸ hl)) hp hc
    | construct _ r hr hc => exact cfgLegal_ofRecord (hp ▸ hi.params) hr hc
    | drain hs _ hc => exact cfgLegal_congr (hi.live ((live_iff s).2 (.inl hs))) hp hc
    | destroy _ _ had => simp [State.live, had] at hl
  chunks := fun x hx => by simp [ha] at hx
  packet := fun p hx => by simp [ha] at hx
  draining := fun hd => by
    cases hc with
    | keep _ had hm => exact hm.trans (hi.draining (had.symm.trans hd))
    | construct _ _ _ _ had => simp [had] at hd
    | drain _ hs' _ _ hm => exact hm.trans hs'
    | destroy _ _ had => simp [had] at hd

/-- The invariant right after reset. -/
theorem configInv_resetWith {p : Params} (hp : paramsValid p = true) (l : List HostEvent)
    (n : Nat) : ConfigInv (State.resetWith p l n) where
  params := hp
  live := fun hl => by cases hl
  chunks := fun x hx => by cases hx
  packet := fun q hq => by cases hq
  draining := fun hd => by cases hd

/-- A chunk that leaves the parse going leaves it past its own checks (41_extradata.md R141). -/
theorem configInv_nextChunk {s : State} {x y : ChunkParse} (hi : ConfigInv s)
    (ha : s.activity = .chunks x) (hlen : y.place ≠ .first → 48 ≤ y.blob.length)
    (hrec : y.place = .third → y.record.Legal) : ConfigInv { s with activity := .chunks y } := by
  obtain ⟨hlive, hvlc, _, _⟩ := hi.chunks x ha
  exact {
    params := hi.params
    live := fun hl => by cases hlive.symm.trans hl
    chunks := fun z hz => by cases hz; exact ⟨hlive, hvlc, hlen, hrec⟩
    packet := fun p hp => by cases hp
    draining := hi.draining }

theorem chunkTo_configInv {s t : State} {x : ChunkParse} (hi : ConfigInv s)
    (ha : s.activity = .chunks x) (h : ChunkTo s x t) : ConfigInv t := by
  obtain ⟨_, _, hlen, _⟩ := hi.chunks x ha
  have hcontrol := chunkTo_control hi ha h
  cases h with
  | second hf =>
    simp only [frmaOk, Bool.and_eq_true, decide_eq_true_eq] at hf
    obtain ⟨⟨hblob, _⟩, _⟩ := hf
    exact configInv_nextChunk hi ha (fun _ => hblob) fun hx => by cases hx
  | third hx hq =>
    simp only [qdcaOk, Bool.and_eq_true] at hq
    exact configInv_nextChunk hi ha (fun _ => hlen (by simp [hx])) fun _ => qdcaRecord_legal hq.2
  | done => exact configInv_of_control hi hcontrol rfl rfl
  | bad => exact configInv_of_control hi hcontrol rfl rfl

theorem elementTo_configInv {s t : State} {p : Parse} (hi : ConfigInv s)
    (ha : s.activity = .packet p) (h : ElementTo s p t) : ConfigInv t := by
  obtain ⟨hlive, hmode⟩ := hi.packet p ha
  have hcontrol := elementTo_control h
  have hpar := (elementTo_sticky h).par
  cases h with
  | next q hq =>
    have hvia := (hq (paramsValid_spec hi.params)).via
    exact {
      params := hi.params
      live := fun hl => cfgLegal_congr (hi.live hl) rfl rfl
      chunks := fun x hx => by cases hx
      packet := fun r hr => by cases hr; exact ⟨hlive, by rw [hvia]; exact hmode⟩
      draining := hi.draining }
  | error e pos => exact configInv_of_control hi hcontrol hpar rfl

theorem configInv_congr_idle {s t : State} (hi : ConfigInv s) (hs : SameInstance s t)
    (ha : t.activity = .idle) : ConfigInv t :=
  configInv_of_control hi hs.control hs.par ha

theorem commandTo_configInv {s t : State} (hi : ConfigInv s) (ha : s.activity = .idle)
    (h : CommandTo s t) : ConfigInv t :=
  configInv_of_control hi (commandTo_control h) (commandTo_sticky h).par (commandTo_idle ha h)

/-- Settles O51, by the kinds of step: what leaves nothing in progress is decided by the control
registers, a chunk stands at its next place, and an element in the same parse. -/
theorem stepKeepsConfigInv : Obligations.StepKeepsConfigInv := by
  intro s t hi h
  cases stepTo_kind (step_next h) with
  | quiet _ hs ha => exact configInv_congr_idle hi hs ha
  | reset _ l n => exact configInv_resetWith hi.params l n
  | command u hs hu t ht => exact commandTo_configInv (configInv_congr_idle hi hs hu) hu ht
  | element p ha t ht => exact elementTo_configInv hi ha ht
  | frame p =>
    exact configInv_of_control hi (completeFrame_control s _ _) (completeFrame_sticky s _ _).par rfl
  | chunk x ha t ht => exact chunkTo_configInv hi ha ht

/-- Settles O55, by what a step does to the control registers. -/
theorem adapterTransitions : Obligations.AdapterTransitions := by
  intro s t hi h hr
  cases step_control hi h hr with
  | keep _ ha hm => exact .inl ⟨ha, hm⟩
  | construct hl _ _ _ ha => exact .inr (.inl ⟨(not_live_iff s).1 hl, ha⟩)
  | drain hs _ _ ha hm => exact .inr (.inr (.inl ⟨hs, ha, hm⟩))
  | destroy hl _ ha hm => exact .inr (.inr (.inr ⟨(live_iff s).1 hl, ha, hm⟩))

/-- Settles O56: the reset event keeps the parameters, and every other step the sticky bits as well;
of the transitions only a construction, made where nothing is live, writes the configuration. -/
theorem stickyAndFrozen : Obligations.StickyAndFrozen := by
  intro s t hi h
  cases hr : s.resetNext with
  | true =>
    obtain ⟨l, hreset⟩ := step_of_resetNext hr
    cases hreset.symm.trans h
    exact ⟨rfl, fun hf => by cases hf⟩
  | false =>
    obtain ⟨hpar, hbus, hvlc⟩ := step_sticky h hr
    refine ⟨hpar, fun _ => ⟨hbus, hvlc, fun hlive => ?_⟩⟩
    cases step_control hi h hr with
    | keep hc | drain _ _ hc | destroy _ hc => exact hc
    | construct hl => cases hl.symm.trans hlive

end Sys2Proof.Machine
end

section
/-!
PROOFS. What an instruction by itself leaves alone: the host's side of the block (10_state.md R36;
20_memory.md R61, R62, R64), and for a bitstream element everything but the parse it stands in
(10_state.md R41).
-/

namespace Sys2Proof.Machine

open Sys2Proof

/-- A frame has spf samples of each channel (44_synthesis.md R222). -/
theorem endFrame_length (s : State) (r : FrameResult) :
    (s.endFrame r).2.length = s.spf * s.channels.length := by
  rw [endFrame_eq, interleave_length,
    (synthAll_spec r s.channels (s.settleParse r) (channels_nodup s)).pcm, List.length_map]

/-- The samples of a frame of a stream of at most two channels (44_synthesis.md R224). -/
theorem endFrame_length_eq {s : State} (r : FrameResult) (h : s.channelCount ≤ 2) :
    (s.endFrame r).2.length = s.frameSamples := by
  rw [endFrame_length, channels_length s h]; rfl

/-- What no instruction writes (10_state.md R36; 20_memory.md R61, R62, R64). -/
structure KeepsInputs (s t : State) : Prop where
  arg : t.arg = s.arg
  busErr : t.busErr = s.busErr
  host : t.host = s.host
  bytes : ∀ a, a < 0x4000 ∨ 0x5000 ≤ a → t.loadByte a = s.loadByte a

/-- A change of other registers than these. -/
theorem keepsInputs_of_eq {s t : State} (ha : t.arg = s.arg) (hb : t.busErr = s.busErr)
    (hh : t.host = s.host) (hm : t.mem = s.mem) (hr : t.resets = s.resets) : KeepsInputs s t :=
  ⟨ha, hb, hh, fun a _ => loadByte_congr hm hr a⟩

theorem finishRead_keepsInputs (s : State) : KeepsInputs s s.finishRead where
  arg := by rw [finishRead_eq]
  busErr := by rw [finishRead_eq]
  host := by rw [finishRead_eq]
  bytes := fun a ha => finishRead_loadByte s (by have := readCount_le_outbuf s; omega)

theorem completeFrame_keepsInputs {s : State} (via : Via) (r : FrameResult)
    (hch : s.channelCount ≤ 2) (hspf : s.spf ≤ 1024) :
    KeepsInputs s (s.completeFrame via r) where
  arg := by rw [completeFrame_frame]
  busErr := by rw [completeFrame_frame]
  host := by rw [completeFrame_frame]
  bytes := fun a ha => by
    have hlen : (s.endFrame r).2.length ≤ 2048 := by
      rw [endFrame_length_eq r hch]
      exact Nat.mul_le_mul hspf hch
    have hframe : (s.endFrame r).1.loadByte a = s.loadByte a := by
      rw [endFrame_frame]; rfl
    exact (deliver_loadByte (s.endFrame r).1 via _ hlen ha).trans hframe

theorem commandTo_keepsInputs {s t : State} (hch : s.channelCount ≤ 2) (hspf : s.spf ≤ 1024)
    (h : CommandTo s t) : KeepsInputs s t := by
  cases h with
  | fail | succeed | badExtradata | construct | queue | finish | destroy =>
    exact keepsInputs_of_eq rfl rfl rfl rfl rfl
  | read => exact finishRead_keepsInputs s
  | readFrame _ _ _ _ qs _ _ h =>
    obtain ⟨r, rfl⟩ := h.eq_completeFrame
    obtain ⟨harg, hbus, hhost, hbytes⟩ :=
      completeFrame_keepsInputs (s := { s with queue := qs }) .readBuffer r hch hspf
    exact ⟨harg, hbus, hhost, hbytes⟩
  | packetFrame _ _ _ _ h =>
    obtain ⟨r, rfl⟩ := h.eq_completeFrame
    exact completeFrame_keepsInputs _ r hch hspf

theorem elementTo_keepsInputs {s t : State} {p : Parse} (hch : s.channelCount ≤ 2)
    (hspf : s.spf ≤ 1024) (h : ElementTo s p t) : KeepsInputs s t := by
  cases h with
  | next => exact keepsInputs_of_eq rfl rfl rfl rfl rfl
  | error e pos => exact completeFrame_keepsInputs _ _ hch hspf

theorem chunkTo_keepsInputs {s t : State} {x : ChunkParse} (h : ChunkTo s x t) :
    KeepsInputs s t := by
  cases h <;> exact keepsInputs_of_eq rfl rfl rfl rfl rfl

/-- Settles O57, by the three kinds of instruction: of what they write, only the samples go to
memory, and those fit OUTBUF. -/
theorem instructionsKeepInputs : Obligations.InstructionsKeepInputs := by
  intro i s t h hch hspf
  have keeps : KeepsInputs s t := by
    rcases exec_next h with ⟨_, _, hc⟩ | ⟨_, p, _, he⟩ | ⟨_, x, _, hx⟩
    · exact commandTo_keepsInputs hch hspf hc
    · exact elementTo_keepsInputs hch hspf he
    · exact chunkTo_keepsInputs hx
  exact ⟨keeps.arg, keeps.busErr, keeps.host, keeps.bytes⟩

/-- Settles O58, by the two kinds of element: one of a packet parse moves on or is recovered from, a
chunk moves on or ends the extradata parse. -/
theorem elementOutcomes : Obligations.ElementOutcomes := by
  intro i s t hi h
  rcases exec_next h with ⟨hc, _⟩ | ⟨_, p, ha, he⟩ | ⟨_, x, ha, hx⟩
  · cases hc.symm.trans hi
  · cases he with
    | next q => exact .inl ⟨_, rfl⟩
    | error e pos => exact .inr (.inl ⟨p, e, pos, ha, rfl⟩)
  · cases hx with
    | second | third => exact .inl ⟨_, rfl⟩
    | done => exact .inr (.inr ⟨x, ha, .inl rfl⟩)
    | bad => exact .inr (.inr ⟨x, ha, .inr rfl⟩)

end Sys2Proof.Machine
end

section
/-!
PROOFS. The packet queue and the pending output (10_state.md R24, R25; 45_host_commands.md R233 to
R236): a QUEUE_PACKET appends the next sequence index, a READ_BUFFER takes the oldest packet, and the
samples of its frame join fewer than one frame's.
-/

namespace Sys2Proof.Machine

open Sys2Proof

/-! ### Sizes of a legal configuration -/

theorem cfgLegal_channelCount {s : State} (h : s.CfgLegal) :
    s.channelCount = 1 ∨ s.channelCount = 2 := by
  unfold State.channelCount
  rcases h.channels with h | h <;> simp [h]

theorem cfgLegal_channelCount_le {s : State} (h : s.CfgLegal) : s.channelCount ≤ 2 := by
  rcases cfgLegal_channelCount h with h | h <;> omega

/-- A frame of a legal configuration has samples. -/
theorem cfgLegal_frameSamples_pos {s : State} (h : s.CfgLegal) : 0 < s.frameSamples := by
  have hspf : 0 < s.spf := by rcases (spfLegal_iff _).1 h.spf with h | h | h <;> omega
  have hch : 0 < s.channelCount := by rcases cfgLegal_channelCount h with h | h <;> omega
  exact Nat.mul_pos hspf hch

theorem frameSamples_congr {s t : State} (h : t.cfg = s.cfg) : t.frameSamples = s.frameSamples := by
  simp only [State.frameSamples, State.spf, State.channelCount, h]

/-! ### Sequence indices (10_state.md R24) -/

/-- The `n` sequence indices before `next`, ascending. -/
def seqRun (next : BitVec 64) (n : Nat) : List (BitVec 64) :=
  (List.range n).map fun i => next - BitVec.ofNat 64 (n - i)

/-- The indices after the oldest. -/
theorem seqRun_succ (next : BitVec 64) (n : Nat) :
    seqRun next (n + 1) = (next - BitVec.ofNat 64 (n + 1)) :: seqRun next n := by
  simp only [seqRun, List.range_succ_eq_map, List.map_cons, List.map_map, Nat.sub_zero,
    Function.comp_def, Nat.succ_eq_add_one, Nat.add_sub_add_right]

/-- The indices with the next one appended. -/
theorem seqRun_append (next : BitVec 64) (n : Nat) :
    seqRun (next + 1) (n + 1) = seqRun next n ++ [next] := by
  have shift : ∀ k, next + 1 - BitVec.ofNat 64 (k + 1) = next - BitVec.ofNat 64 k := fun k => by
    rw [BitVec.ofNat_add]; exact add_sub_add_right_eq_sub _ _ _
  simp only [seqRun, List.range_succ, List.map_append, List.map_cons, List.map_nil]
  congr 1
  · refine List.map_congr_left fun i hi => ?_
    rw [Nat.succ_sub (Nat.le_of_lt (List.mem_range.1 hi)), shift]
  · rw [Nat.add_sub_cancel_left, shift 0]
    simp

/-- The queue holds consecutive sequence indices. -/
theorem queueInv_seqRun {s : State} (h : QueueInv s) :
    s.queue.map Packet.seq = seqRun s.nextSeq s.queueCount := h.seqs

/-! ### The invariant through the operations -/

/-- The queue, the indices, the configuration and MODE are as before, and what is pending keeps its
bounds. -/
theorem queueInv_of_pending {s t : State} (h : QueueInv s) (hcfg : t.cfg = s.cfg)
    (hlive : t.live = s.live) (hmode : t.mode = s.mode) (hqueue : t.queue = s.queue)
    (hseq : t.nextSeq = s.nextSeq)
    (hempty : s.live = false ∨ s.mode = .codec → t.pending = s.pending)
    (hbound : s.live = true → t.pendingCount < 2 * s.frameSamples)
    (hreading : ∀ p, t.activity = .packet p → p.via = .readBuffer →
      t.pendingCount < s.frameSamples) : QueueInv t where
  depth := by rw [State.queueCount, hqueue]; exact h.depth
  sizes := by rw [hqueue, hcfg]; exact h.sizes
  seqs := by rw [State.queueCount, hqueue, hseq]; exact h.seqs
  dead := fun hl => by
    have hl := hlive.symm.trans hl
    rw [hqueue, hempty (.inl hl)]
    exact h.dead hl
  codec := fun hm => by
    have hm := hmode.symm.trans hm
    rw [hqueue, hempty (.inr hm)]
    exact h.codec hm
  bound := fun hl => by
    rw [frameSamples_congr hcfg]; exact hbound (hlive.symm.trans hl)
  reading := fun p hp hv => by rw [frameSamples_congr hcfg]; exact hreading p hp hv

/-- The registers of `SameInstance` are as before, inside the same command or inside none. -/
theorem queueInv_congr {s t : State} (h : QueueInv s) (hs : SameInstance s t)
    (hact : ∀ p, t.activity = .packet p → ∃ q, s.activity = .packet q ∧ q.via = p.via) :
    QueueInv t := by
  have hcount : t.pendingCount = s.pendingCount := by
    rw [State.pendingCount, State.pendingCount, hs.pending]
  refine queueInv_of_pending h hs.cfg (live_congr hs.adapter) hs.mode hs.queue hs.nextSeq
    (fun _ => hs.pending) (fun hl => hcount ▸ h.bound hl) fun p hp hv => ?_
  obtain ⟨q, hq, hvia⟩ := hact p hp
  exact hcount ▸ h.reading q hq (hvia.trans hv)

theorem queueInv_congr_idle {s t : State} (h : QueueInv s) (hs : SameInstance s t)
    (ha : t.activity = .idle) : QueueInv t :=
  queueInv_congr h hs fun p hp => by cases ha.symm.trans hp

/-- Empty queues, as after a construction, a DESTROY and a reset. -/
theorem queueInv_of_empty {t : State} (hq : t.queue = []) (hp : t.pending = [])
    (ha : t.activity = .idle) (hlive : t.live = true → t.CfgLegal) : QueueInv t where
  depth := by simp [State.queueCount, hq]
  sizes := by simp [hq]
  seqs := by simp [State.queueCount, hq]
  dead := fun _ => ⟨hq, hp⟩
  codec := fun _ => ⟨hq, hp⟩
  bound := fun hl => by
    have := cfgLegal_frameSamples_pos (hlive hl)
    rw [State.pendingCount, hp, List.length_nil]
    omega
  reading := fun p hx => by cases ha.symm.trans hx

/-- The oldest packet is taken (45_host_commands.md R236). -/
theorem queueInv_tail {s : State} {q : Packet} {qs : List Packet} (h : QueueInv s)
    (hq : s.queue = q :: qs) : QueueInv { s with queue := qs } where
  depth := by
    have := h.depth
    rw [State.queueCount, hq, List.length_cons] at this
    exact Nat.le_of_succ_le this
  sizes := fun p hp => h.sizes p (by rw [hq]; exact List.mem_cons_of_mem _ hp)
  seqs := by
    have := queueInv_seqRun h
    rw [State.queueCount, hq, List.map_cons, List.length_cons, seqRun_succ] at this
    exact (List.cons.inj this).2
  dead := fun hl => by cases hq.symm.trans (h.dead hl).1
  codec := fun hm => by cases hq.symm.trans (h.codec hm).1
  bound := h.bound
  reading := h.reading

/-- A packet of INBUF is queued (45_host_commands.md R233). -/
theorem queueInv_append {s : State} (h : QueueInv s) (hlive : s.live = true)
    (hmode : s.mode = .stream) (hsize : s.arg = s.cfg.frameSize)
    (hroom : s.queueCount ≠ queueDepth) :
    QueueInv (State.succeed { s with
      queue := s.queue ++ [{ bytes := s.inbuf s.arg.toNat, seq := s.nextSeq }]
      nextSeq := s.nextSeq + 1 } 0) where
  depth := by
    have hdepth := h.depth
    simp only [State.queueCount, State.succeed_queue, List.length_append,
      List.length_singleton] at *
    omega
  sizes := fun p hp => by
    rcases List.mem_append.1 hp with hp | hp
    · exact h.sizes p hp
    · rw [List.mem_singleton.1 hp]
      exact (loadBytes_length s _ _).trans (congrArg BitVec.toNat hsize)
  seqs := by
    simp only [State.queueCount, State.succeed_queue, State.succeed_nextSeq, List.map_append,
      queueInv_seqRun h, List.length_append, List.length_singleton]
    exact (seqRun_append s.nextSeq s.queueCount).symm
  dead := fun hl => by cases hlive.symm.trans hl
  codec := fun hm => by cases hmode.symm.trans hm
  bound := h.bound
  reading := h.reading

/-- READ_BUFFER's copy takes samples away (45_host_commands.md R235). -/
theorem finishRead_queueInv {s : State} (h : QueueInv s) (hlive : s.live = true)
    (hmode : s.mode = .stream) (ha : s.activity = .idle) : QueueInv s.finishRead := by
  have hcount : s.finishRead.pendingCount ≤ s.pendingCount := by
    rw [finishRead_eq]; simp [State.pendingCount]
  refine queueInv_of_pending h ?_ ?_ ?_ ?_ ?_ ?_
    (fun hl => Nat.lt_of_le_of_lt hcount (h.bound hl)) ?_
  · rw [finishRead_eq]
  · rw [finishRead_eq]; rfl
  · rw [finishRead_eq]
  · rw [finishRead_eq]
  · rw [finishRead_eq]
  · simp [hlive, hmode]
  · rw [finishRead_eq]
    intro p hp
    cases ha.symm.trans hp

/-- A READ_BUFFER's frame joins the pending samples, of which its copy then takes some
(45_host_commands.md R235, R236). -/
theorem completeFrame_pendingCount_le (s : State) (r : FrameResult) :
    (s.completeFrame .readBuffer r).pendingCount ≤ s.pendingCount + (s.endFrame r).2.length := by
  have e : (s.completeFrame .readBuffer r).pending
      = (State.finishRead { (s.endFrame r).1 with
          pending := (s.endFrame r).1.pending ++ (s.endFrame r).2 }).pending := rfl
  have hpending : (s.endFrame r).1.pending = s.pending := by rw [endFrame_frame]
  rw [State.pendingCount, e, finishRead_eq, hpending, List.length_drop, List.length_append]
  exact Nat.sub_le _ _

/-- A DECODE_PACKET's frame goes to OUTBUF at once (45_host_commands.md R240). -/
theorem completeFrame_pending_decodePacket (s : State) (r : FrameResult) :
    (s.completeFrame .decodePacket r).pending = s.pending := by
  have e : (s.completeFrame .decodePacket r).pending
      = ((s.endFrame r).1.writeOutbuf (s.endFrame r).2).pending := rfl
  rw [e, State.writeOutbuf_pending, endFrame_frame]

/-- The end of a frame decode: fewer than one frame's samples were pending, and one frame's join
them. -/
theorem completeFrame_queueInv {s : State} {via : Via} (h : QueueInv s) (r : FrameResult)
    (hlive : s.live = true) (hmode : s.mode = via.mode) (hch : s.channelCount ≤ 2)
    (hreading : via = .readBuffer → s.pendingCount < s.frameSamples) :
    QueueInv (s.completeFrame via r) := by
  have hlen := endFrame_length_eq r hch
  have frame := completeFrame_frame s via r
  refine queueInv_of_pending h ?_ ?_ ?_ ?_ ?_ (fun hdead => ?_) (fun hl => ?_) ?_
  · rw [frame]
  · rw [frame]; rfl
  · rw [frame]
  · rw [frame]
  · rw [frame]
  · cases via with
    | readBuffer => simp [hlive, hmode, Via.mode] at hdead
    | decodePacket => exact completeFrame_pending_decodePacket s r
  · cases via with
    | readBuffer =>
      have := completeFrame_pendingCount_le s r
      have := hreading rfl
      omega
    | decodePacket =>
      rw [State.pendingCount, completeFrame_pending_decodePacket]
      exact h.bound hl
  · intro p hp
    cases hp

/-! ### The invariant through a step -/

theorem commandTo_queueInv {s t : State} (hc : ConfigInv s) (hi : QueueInv s)
    (ha : s.activity = .idle) (h : CommandTo s t) : QueueInv t := by
  have hct := commandTo_configInv hc ha h
  cases h with
  | fail e => exact queueInv_congr_idle hi (sameInstance_fail s e) ha
  | succeed r => exact queueInv_congr_idle hi (sameInstance_succeed s r) ha
  | badExtradata =>
    exact queueInv_congr_idle hi ((sameInstance_vlcReady s true).trans (sameInstance_fail _ _)) ha
  | construct md r => exact queueInv_of_empty rfl rfl rfl hct.live
  | queue hl hm _ hsize hroom => exact queueInv_append hi hl hm hsize hroom
  | finish hl =>
    exact queueInv_of_pending hi rfl (hl.symm ▸ rfl) rfl rfl rfl (fun _ => rfl) hi.bound hi.reading
  | read hl hm => exact finishRead_queueInv hi hl hm ha
  | readFrame hl hm hn q qs hq t h =>
    obtain ⟨r, rfl⟩ := h.eq_completeFrame
    exact completeFrame_queueInv (queueInv_tail hi hq) r hl hm
      (cfgLegal_channelCount_le (s := s) (hc.live hl)) fun _ => hn
  | packetFrame hl hm _ t h =>
    obtain ⟨r, rfl⟩ := h.eq_completeFrame
    exact completeFrame_queueInv hi r hl hm (cfgLegal_channelCount_le (hc.live hl)) nofun
  | destroy => exact queueInv_of_empty rfl rfl ha hct.live

/-- A parse in progress ends its frame decode within the bounds. -/
theorem completeFrame_queueInv_of_packet {s : State} {p : Parse} (hc : ConfigInv s)
    (hi : QueueInv s) (ha : s.activity = .packet p) (r : FrameResult) :
    QueueInv (s.completeFrame p.via r) := by
  obtain ⟨hl, hm⟩ := hc.packet p ha
  exact completeFrame_queueInv hi r hl hm (cfgLegal_channelCount_le (hc.live hl)) (hi.reading p ha)

theorem elementTo_queueInv {s t : State} {p : Parse} (hc : ConfigInv s) (hi : QueueInv s)
    (ha : s.activity = .packet p) (h : ElementTo s p t) : QueueInv t := by
  cases h with
  | next q hq =>
    have hvia := (hq (paramsValid_spec hc.params)).via
    refine queueInv_congr hi (sameInstance_activity s _) fun p' hp => ?_
    cases hp
    exact ⟨p, ha, hvia.symm⟩
  | error e pos => exact completeFrame_queueInv_of_packet hc hi ha _

theorem chunkTo_queueInv {s t : State} {x : ChunkParse} (hct : ConfigInv t) (hi : QueueInv s)
    (h : ChunkTo s x t) : QueueInv t := by
  cases h with
  | second | third => exact queueInv_congr hi (sameInstance_activity s _) nofun
  | done => exact queueInv_of_empty rfl rfl rfl hct.live
  | bad =>
    exact queueInv_congr_idle hi ((sameInstance_activity s .idle).trans (sameInstance_fail _ _)) rfl

/-- Settles O52, by the kinds of step. -/
theorem stepKeepsQueueInv : Obligations.StepKeepsQueueInv := by
  intro s t hc hi h
  have hct := stepKeepsConfigInv s t hc h
  cases stepTo_kind (step_next h) with
  | quiet _ hs ha => exact queueInv_congr_idle hi hs ha
  | reset => exact queueInv_of_empty rfl rfl rfl hct.live
  | command u hs hu t ht =>
    exact commandTo_queueInv (configInv_congr_idle hc hs hu) (queueInv_congr_idle hi hs hu) hu ht
  | element p ha t ht => exact elementTo_queueInv hc hi ha ht
  | frame p ha => exact completeFrame_queueInv_of_packet hc hi ha _
  | chunk x ha t ht => exact chunkTo_queueInv hct hi ht

end Sys2Proof.Machine
end

section
/-!
PROOFS. The channels while the block is live (10_state.md R27 to R30): aging only lowers amplitudes
and removes tones, the packet parser writes legal tones and clamped energies (Laws/Parse), and the
synthesis writes a frame over the first entries of PREV.
-/

namespace Sys2Proof.Machine

open Sys2Proof

/-! ### What legality of a channel depends on -/

theorem band_congr {s t : State} (h : t.cfg = s.cfg) (b : Nat) : t.band b = s.band b := by
  simp only [State.band, h]

theorem numBands_congr {s t : State} (h : t.cfg = s.cfg) : t.numBands = s.numBands := by
  simp only [State.numBands, h]

theorem toneLegal_congr {s t : State} {k : Nat} {x : Tone} (h : ToneLegal s k x)
    (hp : t.par = s.par) (hc : t.cfg = s.cfg) : ToneLegal t k x where
  band := by rw [numBands_congr hc]; exact h.band
  position := by rw [band_congr hc]; exact h.position
  bin := by rw [band_congr hc]; exact h.bin
  amplitude := h.amplitude
  phase := by rw [hp]; exact h.phase
  durationMin := h.durationMin
  durationMax := h.durationMax

theorem tonesLegal_congr {s t : State} {m : ToneMap} (h : TonesLegal s m) (hp : t.par = s.par)
    (hc : t.cfg = s.cfg) : TonesLegal t m :=
  ⟨h.wf, fun kt hkt => toneLegal_congr (h.slots kt hkt) hp hc⟩

theorem chanLegal_congr {s t : State} {c : Chan} (h : ChanLegal s c) (hp : t.par = s.par)
    (hc : t.cfg = s.cfg) : ChanLegal t c :=
  ⟨h.prev, tonesLegal_congr h.tones hp hc, hp ▸ h.env⟩

theorem shadowLegal_congr {s t : State} {c : ShadowChan} (h : ShadowLegal s c) (hp : t.par = s.par)
    (hc : t.cfg = s.cfg) : ShadowLegal t c :=
  ⟨tonesLegal_congr h.tones hp hc, hp ▸ h.env⟩

/-- A channel at construction is legal (10_state.md R47). -/
theorem chanLegal_init {s : State} (hp : paramsValid s.par = true) :
    ChanLegal s (Chan.init s.par) where
  prev := List.length_replicate
  tones := ⟨rfl, nofun⟩
  env := ⟨List.length_replicate, fun e he => by
    rw [List.eq_of_mem_replicate he]
    exact clamp_range (by exact_mod_cast (paramsValid_spec hp).energy)⟩

/-- The shadow copied from legal channels is legal (10_state.md R41). -/
theorem allLegal_ofState {s : State} (h : ∀ c, ChanLegal s (s.chan c)) :
    AllLegal s (Shadow.ofState s) := by
  intro c
  cases c with
  | c0 => exact ⟨(h .c0).tones, (h .c0).env⟩
  | c1 => exact ⟨(h .c1).tones, (h .c1).env⟩

/-! ### Aging (43_spectral.md R191, R192) -/

/-- A slot that outlives its aging keeps its bin, and its tone but for one decay. -/
theorem ageSlot_some {p : Params} {f : BitVec 64} {touched : List Nat} {kt kt' : Nat × Tone}
    (h : ageSlot p f touched kt = some kt') :
    kt'.1 = kt.1 ∧ (kt'.2 = kt.2 ∨ kt'.2 = kt.2.decay p) := by
  obtain ⟨_, h⟩ := Option.ite_none_left_eq_some.1 h
  cases h
  refine ⟨rfl, ?_⟩
  by_cases ht : kt.1 ∈ touched
  · exact .inl (if_pos ht)
  · exact .inr (if_neg ht)

theorem risesAbove_ageTones {p : Params} {f : BitVec 64} {touched : List Nat} :
    ∀ {m : ToneMap} {b : Nat}, Assoc.risesAbove b m = true →
      Assoc.risesAbove b (ageTones p f touched m) = true
  | [], _, _ => rfl
  | (j, t) :: m, b, h => by
    simp only [Assoc.risesAbove, Bool.and_eq_true, decide_eq_true_eq] at h
    obtain ⟨hj, hm⟩ := h
    have ih := risesAbove_ageTones (p := p) (f := f) (touched := touched) hm
    rw [ageTones, List.filterMap_cons]
    split
    · exact Assoc.risesAbove_mono (Nat.le_of_lt hj) ih
    · rename_i kt' hkt
      have hkey : kt'.1 = j := (ageSlot_some hkt).1
      obtain ⟨j', t'⟩ := kt'
      subst hkey
      simp only [Assoc.risesAbove, Bool.and_eq_true, decide_eq_true_eq]
      exact ⟨hj, ih⟩

/-- Aging keeps the canonical form. -/
theorem wf_ageTones {p : Params} {f : BitVec 64} {touched : List Nat} :
    ∀ {m : ToneMap}, Assoc.wf m = true → Assoc.wf (ageTones p f touched m) = true
  | [], _ => rfl
  | (j, t) :: m, h => by
    have ih := risesAbove_ageTones (p := p) (f := f) (touched := touched) (b := j) h
    rw [ageTones, List.filterMap_cons]
    split
    · exact Assoc.wf_of_risesAbove ih
    · rename_i kt' hkt
      have hkey : kt'.1 = j := (ageSlot_some hkt).1
      obtain ⟨j', t'⟩ := kt'
      subst hkey
      exact ih

/-- DECAY_NUM / 2^DECAY_SHIFT is at most 1, so a decay raises no amplitude (43_spectral.md R191). -/
theorem toneLegal_decay {s : State} {k : Nat} {t : Tone}
    (hd : s.par.decayNum ≤ 2 ^ s.par.decayShift) (h : ToneLegal s k t) :
    ToneLegal s k (t.decay s.par) where
  band := h.band
  position := h.position
  bin := h.bin
  amplitude := by
    refine Nat.le_trans (Nat.div_le_of_le_mul ?_) h.amplitude
    rw [Nat.mul_comm]
    exact Nat.mul_le_mul_right _ hd
  phase := h.phase
  durationMin := h.durationMin
  durationMax := h.durationMax

theorem tonesLegal_ageTones {s : State} {m : ToneMap} (hp : ParamsSpec s.par) (f : BitVec 64)
    (touched : List Nat) (h : TonesLegal s m) : TonesLegal s (ageTones s.par f touched m) := by
  refine ⟨wf_ageTones h.wf, fun kt' hkt' => ?_⟩
  obtain ⟨kt, hmem, hage⟩ := List.mem_filterMap.1 hkt'
  obtain ⟨hkey, htone⟩ := ageSlot_some hage
  have hkt := h.slots kt hmem
  rw [hkey]
  rcases htone with e | e
  · rw [e]; exact hkt
  · rw [e]; exact toneLegal_decay hp.decay hkt

/-! ### The end of a frame decode (44_synthesis.md R220) -/

/-- A parse that succeeded left a legal shadow. -/
def FrameResult.Legal (s : State) : FrameResult → Prop
  | .good sh => AllLegal s sh
  | .bad _ _ => True

theorem settleParse_chanLegal {s : State} {r : FrameResult} (hp : ParamsSpec s.par)
    (hr : r.Legal s) {c : Ch} (h : ChanLegal s (s.chan c)) :
    ChanLegal s ((s.settleParse r).chan c) := by
  have aged : ∀ {m : ToneMap} (touched : List Nat), TonesLegal s m → TonesLegal s
      (if c.index < s.channelCount then ageTones s.par s.frameIndex touched m else m) := by
    intro m touched hm
    split
    · exact tonesLegal_ageTones hp _ _ hm
    · exact hm
  rw [settleParse_chan]
  cases r with
  | good sh => exact ⟨h.prev, aged _ (hr c).tones, (hr c).env⟩
  | bad => exact ⟨h.prev, aged _ h.tones, h.env⟩

/-- A frame no longer than PREV keeps PREV's length (44_synthesis.md R216). -/
theorem nextPrev_length {y prev : List Num} (h : y.length ≤ prev.length) :
    (nextPrev y prev).length = prev.length := by
  rw [nextPrev, List.length_append, List.length_drop]
  omega

theorem windowed_length_le (size : Nat) (a : List Cx) : (windowed size a).length ≤ size := by
  simp [windowed]

theorem synth_prev (s : State) (c : Ch) : ((s.synth c).1.chan c).prev
    = nextPrev (windowed s.fftN (ifft s.fftL (s.spectrumBuild c).work.x)) (s.chan c).prev := by
  cases c <;> rfl

theorem badSynth_prev (s : State) (c : Ch) : ((s.badSynth c).1.chan c).prev
    = nextPrev (List.replicate s.fftN zero32) (s.chan c).prev := by
  cases c <;> rfl

theorem synth_prev_length {s : State} {c : Ch} (r : FrameResult)
    (h : s.fftN ≤ (s.chan c).prev.length) :
    ((r.synth s c).1.chan c).prev.length = (s.chan c).prev.length := by
  cases r with
  | good =>
    rw [FrameResult.synth, synth_prev]
    exact nextPrev_length (Nat.le_trans (windowed_length_le _ _) h)
  | bad =>
    rw [FrameResult.synth, badSynth_prev]
    exact nextPrev_length (by rw [List.length_replicate]; exact h)

/-- The FFT size is at most 2 x MAX_SPF (20_memory.md R77). -/
theorem cfgLegal_fftN_le {s : State} (h : s.CfgLegal) : s.fftN ≤ maxFftSize := by
  rw [h.fftSize, maxFftSize]
  rcases (spfLegal_iff _).1 h.spf with h | h | h <;> omega

/-- Channel `c` at the end of a frame decode. -/
theorem endFrame_chanLegal {s : State} {r : FrameResult} (hc : s.CfgLegal) (hr : r.Legal s) {c : Ch}
    (h : ChanLegal s (s.chan c)) : ChanLegal s ((s.endFrame r).1.chan c) := by
  have settled := settleParse_chanLegal (paramsValid_spec hc.params) hr h
  have frame := frameResult_synth_frame r (s.settleParse r) c
  have hN : (s.settleParse r).fftN = s.fftN := by rw [settleParse_eq]; rfl
  have hprev : ((r.synth (s.settleParse r) c).1.chan c).prev.length = maxFftSize := by
    rw [synth_prev_length r (by rw [hN, settled.prev]; exact cfgLegal_fftN_le hc), settled.prev]
  rw [endFrame_chan]
  split
  · exact ⟨hprev, frame.tones ▸ settled.tones, frame.env ▸ settled.env⟩
  · exact ⟨settled.prev, settled.tones, settled.env⟩

/-! ### The invariant through the operations -/

/-- The channels, the configuration and the parameters are as before. -/
theorem channelInv_congr {s t : State} (h : ChannelInv s) (hp : t.par = s.par) (hc : t.cfg = s.cfg)
    (hl : t.live = true → s.live = true) (h0 : t.chan0 = s.chan0) (h1 : t.chan1 = s.chan1)
    (hact : ∀ p, t.activity = .packet p → AllLegal s p.sh) : ChannelInv t where
  chan := fun hlive c => by
    have hchan : t.chan c = s.chan c := by cases c <;> assumption
    rw [hchan]
    exact chanLegal_congr (h.chan (hl hlive) c) hp hc
  mono := fun hlive hmono => by
    rw [h1]
    exact h.mono (hl hlive) (hc ▸ hmono)
  shadow := fun p hx c => shadowLegal_congr (hact p hx c) hp hc

theorem channelInv_congr_idle {s t : State} (h : ChannelInv s) (hs : SameInstance s t)
    (ha : t.activity = .idle) : ChannelInv t :=
  channelInv_congr h hs.par hs.cfg (fun hl => live_congr hs.adapter ▸ hl) hs.chan0 hs.chan1
    fun p hp => by cases ha.symm.trans hp

theorem construct_channelInv {s : State} (hp : paramsValid s.par = true) (md : Mode)
    (r : ExtraRec) : ChannelInv (s.construct md r) where
  chan := fun _ c => by
    have e : (s.construct md r).chan c = Chan.init s.par := by cases c <;> rfl
    rw [e]
    exact chanLegal_init (s := s.construct md r) hp
  mono := fun _ _ => rfl
  shadow := nofun

theorem resetWith_channelInv (p : Params) (l : List HostEvent) (n : Nat) :
    ChannelInv (State.resetWith p l n) := ⟨nofun, nofun, nofun⟩

theorem completeFrame_chan (s : State) (via : Via) (r : FrameResult) (c : Ch) :
    (s.completeFrame via r).chan c = (s.endFrame r).1.chan c := by
  rw [completeFrame_frame]
  cases c <;> rfl

/-- The end of a frame decode keeps the channels legal, and leaves the sample count of a channel that
the stream does not have (44_synthesis.md R220). -/
theorem completeFrame_channelInv {s : State} {r : FrameResult} (hc : s.CfgLegal)
    (hi : ChannelInv s) (hlive : s.live = true) (hr : r.Legal s) (via : Via) :
    ChannelInv (s.completeFrame via r) where
  chan := fun _ c => by
    rw [completeFrame_chan]
    exact chanLegal_congr (endFrame_chanLegal hc hr (hi.chan hlive c))
      (by rw [completeFrame_frame]) (by rw [completeFrame_frame])
  mono := fun _ hmono => by
    have hmono : s.cfg.channels = 1 := by rw [completeFrame_frame] at hmono; exact hmono
    have hcount : ¬ Ch.c1.index < s.channelCount := by
      simp [Ch.index, State.channelCount, hmono]
    rw [← State.chan_c1, completeFrame_chan, endFrame_chan]
    simp only [hcount, if_false, State.chan_c1]
    exact hi.mono hlive hmono
  shadow := nofun

/-- A frame decode begun with legal channels ends with a legal result. -/
theorem FrameTo.legal {s t : State} {via : Via} {packet : List Byte} (h : FrameTo s via packet t)
    (hp : ParamsSpec s.par) (hs : ∀ c, ChanLegal s (s.chan c)) :
    ∃ r : FrameResult, r.Legal s ∧ t = s.completeFrame via r := by
  cases h with
  | good p hparse =>
    obtain ⟨_, hlegal⟩ := parses_ok (parsePacket_parses hp via packet) hparse
    exact ⟨.good p.sh, hlegal (allLegal_ofState hs), rfl⟩
  | bad e pos _ => exact ⟨.bad e pos, trivial, rfl⟩

theorem frameTo_channelInv {s t : State} {via : Via} {packet : List Byte} (hc : s.CfgLegal)
    (hi : ChannelInv s) (hlive : s.live = true) (h : FrameTo s via packet t) : ChannelInv t := by
  obtain ⟨r, hr, rfl⟩ := h.legal (paramsValid_spec hc.params) (hi.chan hlive)
  exact completeFrame_channelInv hc hi hlive hr via

/-! ### The invariant through a step -/

theorem commandTo_channelInv {s t : State} (hc : ConfigInv s) (hi : ChannelInv s)
    (ha : s.activity = .idle) (h : CommandTo s t) : ChannelInv t := by
  have idle : ∀ p, s.activity = .packet p → AllLegal s p.sh := fun p hp => by cases ha.symm.trans hp
  cases h with
  | fail e => exact channelInv_congr_idle hi (sameInstance_fail s e) ha
  | succeed r => exact channelInv_congr_idle hi (sameInstance_succeed s r) ha
  | badExtradata =>
    exact channelInv_congr_idle hi ((sameInstance_vlcReady s true).trans (sameInstance_fail _ _)) ha
  | construct md r => exact construct_channelInv (s := { s with vlcReady := true }) hc.params md r
  | queue => exact channelInv_congr hi rfl rfl id rfl rfl idle
  | finish hl => exact channelInv_congr hi rfl rfl (fun _ => hl) rfl rfl idle
  | read => rw [finishRead_eq]; exact channelInv_congr hi rfl rfl id rfl rfl idle
  | readFrame hl _ _ q qs _ t h =>
    have hi' : ChannelInv { s with queue := qs } := channelInv_congr hi rfl rfl id rfl rfl idle
    exact frameTo_channelInv (s := { s with queue := qs }) (cfgLegal_congr (hc.live hl) rfl rfl) hi'
      hl h
  | packetFrame hl _ _ t h => exact frameTo_channelInv (hc.live hl) hi hl h
  | destroy => exact channelInv_congr hi rfl rfl nofun rfl rfl idle

theorem elementTo_channelInv {s t : State} {p : Parse} (hc : ConfigInv s) (hi : ChannelInv s)
    (ha : s.activity = .packet p) (h : ElementTo s p t) : ChannelInv t := by
  obtain ⟨hlive, _⟩ := hc.packet p ha
  cases h with
  | next q hq =>
    refine channelInv_congr hi rfl rfl id rfl rfl fun p' hp => ?_
    cases hp
    exact (hq (paramsValid_spec hc.params)).legal (hi.shadow p ha)
  | error e pos =>
    exact completeFrame_channelInv (r := .bad e pos) (hc.live hlive) hi hlive trivial p.via

theorem chunkTo_channelInv {s t : State} {x : ChunkParse} (hc : ConfigInv s) (hi : ChannelInv s)
    (h : ChunkTo s x t) : ChannelInv t := by
  cases h with
  | second | third => exact channelInv_congr hi rfl rfl id rfl rfl nofun
  | done => exact construct_channelInv hc.params _ _
  | bad => exact channelInv_congr hi rfl rfl id rfl rfl nofun

/-- Settles O53, by the kinds of step. -/
theorem stepKeepsChannelInv : Obligations.StepKeepsChannelInv := by
  intro s t hc hi h
  cases stepTo_kind (step_next h) with
  | quiet _ hs ha => exact channelInv_congr_idle hi hs ha
  | reset _ l n => exact resetWith_channelInv _ l n
  | command u hs hu t ht =>
    exact commandTo_channelInv (configInv_congr_idle hc hs hu) (channelInv_congr_idle hi hs hu) hu
      ht
  | element p ha t ht => exact elementTo_channelInv hc hi ha ht
  | frame p ha =>
    obtain ⟨hlive, _⟩ := hc.packet p ha
    exact completeFrame_channelInv (r := .good p.sh) (hc.live hlive) hi hlive (hi.shadow p ha) p.via
  | chunk x ha t ht => exact chunkTo_channelInv hc hi ht

end Sys2Proof.Machine
end

section
/-!
PROOFS. The registers as the host sees them (10_state.md R34, R46; 20_memory.md R63), and the state
right after reset (10_state.md R47; 70_reset_and_hazards.md R280).
-/

namespace Sys2Proof.Machine

open Sys2Proof

/-! ### STATUS (10_state.md R34) -/

theorem errCode_lt (e : Err) : e.code < 16 := by cases e <;> decide

theorem adapterCode_lt (a : Adapter) : a.code < 4 := by cases a <;> decide

theorem modeCode_lt (m : Mode) : m.code < 2 := by cases m <;> decide

theorem modeCode_eq_one (m : Mode) : m.code = 1 ↔ m = .codec := by cases m <;> decide

/-- Each field of the sum STATUS is made of lies at its own bits. -/
theorem packed_fields {e a m d t r b : Nat} (he : e < 16) (ha : a < 4) (hm : m < 2) (hd : d < 2)
    (ht : t < 2) (hr : r < 2) (hb : b < 2) {n : Nat}
    (hn : n = e + 16 * a + 64 * m + 128 * d + 256 * t + 512 * r + 1024 * b) :
    n % 16 = e ∧ n / 16 % 4 = a ∧ n / 64 % 2 = m ∧ n / 128 % 2 = d ∧ n / 256 % 2 = t
      ∧ n / 512 % 2 = r ∧ n / 1024 % 2 = b ∧ n < 2048 := by
  omega

/-- The fields of STATUS as numbers. -/
theorem statusWord_fields (s : State) :
    let n := s.statusWord.toNat
    n % 16 = s.err.code ∧ n / 16 % 4 = s.adapter.code ∧ n / 64 % 2 = s.mode.code
      ∧ n / 128 % 2 = s.eod.toNat ∧ n / 256 % 2 = s.stereoBit.toNat
      ∧ n / 512 % 2 = s.vlcReady.toNat ∧ n / 1024 % 2 = s.busErr.toNat ∧ n < 2048 := by
  have fields := packed_fields (errCode_lt s.err) (adapterCode_lt s.adapter) (modeCode_lt s.mode)
    (Bool.toNat_lt s.eod) (Bool.toNat_lt s.stereoBit) (Bool.toNat_lt s.vlcReady)
    (Bool.toNat_lt s.busErr) rfl
  have ⟨_, _, _, _, _, _, _, hlt⟩ := fields
  rw [State.statusWord, BitVec.toNat_ofNat, Nat.mod_eq_of_lt (by omega)]
  exact fields

theorem getLsbD_eq_one_iff {w : Nat} (x : BitVec w) (i : Nat) :
    x.getLsbD i = true ↔ x.toNat / 2 ^ i % 2 = 1 := by
  rw [BitVec.getLsbD, Nat.testBit_eq_decide_div_mod_eq, decide_eq_true_eq]

theorem getLsbD_eq_of_toNat {w : Nat} {x : BitVec w} {i : Nat} {b : Bool}
    (h : x.toNat / 2 ^ i % 2 = b.toNat) : x.getLsbD i = b := by
  rw [Bool.eq_iff_iff, getLsbD_eq_one_iff, h, Bool.toNat_eq_one]

theorem eod_iff (s : State) :
    s.eod = true ↔ s.adapter = .draining ∧ s.queue = [] ∧ s.pending = [] := by
  simp [State.eod, and_assoc]

theorem stereoBit_iff (s : State) :
    s.stereoBit = true ↔ (s.adapter = .opened ∨ s.adapter = .draining) ∧ s.cfg.channels = 2 := by
  simp [State.stereoBit, live_iff]

/-- Settles O13, from the places of the fields in the sum. -/
theorem statusFields : Obligations.StatusFields := by
  intro s
  obtain ⟨herr, hadapter, hmode, heod, hstereo, hvlc, hbus, hlt⟩ := statusWord_fields s
  refine ⟨?_, ?_, ?_, ?_, ?_, getLsbD_eq_of_toNat hvlc, getLsbD_eq_of_toNat hbus, ?_⟩
  · rw [BitVec.extractLsb'_toNat, Nat.shiftRight_zero]
    exact herr
  · rw [BitVec.extractLsb'_toNat, Nat.shiftRight_eq_div_pow]
    exact hadapter
  · rw [getLsbD_eq_one_iff, ← modeCode_eq_one]
    exact hmode ▸ Iff.rfl
  · rw [getLsbD_eq_of_toNat heod, eod_iff]
  · rw [getLsbD_eq_of_toNat hstereo, stereoBit_iff]
  · apply BitVec.eq_of_toNat_eq
    rw [BitVec.extractLsb'_toNat, Nat.shiftRight_eq_div_pow, Nat.div_eq_of_lt hlt]
    rfl

/-! ### Bus accesses (20_memory.md R63) -/

theorem fetch_of_idle {s : State} (ha : s.activity = .idle) : fetch s = fetchHost s := by
  simp only [fetch, ha]

theorem step_read {s : State} {h : List HostEvent} {w : Width} {a : BitVec 16}
    (ha : s.activity = .idle) (hh : s.host = .access (.read w a) :: h) :
    step s = .next (State.busRead { s with host := h } w a.toNat) := by
  rw [step_eq, fetch_of_idle ha]
  simp only [fetchHost, hh, fetchAccess, Fetched.out]

/-- A write starts a command only at CMD and at full width (10_state.md R35). -/
theorem step_write {s : State} {h : List HostEvent} {w : Width} {a : BitVec 16} {v : Word}
    (ha : s.activity = .idle) (hh : s.host = .access (.write w a v) :: h)
    (hcmd : ¬ (w = .w32 ∧ a = 0)) :
    step s = .next (State.busWrite { s with host := h } w a.toNat v) := by
  rw [step_eq, fetch_of_idle ha]
  simp only [fetchHost, hh, fetchAccess, if_neg hcmd, Fetched.out]

theorem regionOf_reserved {a : Nat} (h : reservedAddr a = true) : regionOf a = .reserved := by
  simp only [reservedAddr, Bool.or_eq_true, Bool.and_eq_true, decide_eq_true_eq] at h
  unfold regionOf
  dsimp only
  split
  · exact if_neg (by omega)
  · rw [if_neg (by omega), if_neg (by omega)]

theorem regionOf_register {a : Nat} (h : registerAddr a = true) :
    regionOf a = .register (a / 4 * 4) := by
  simp only [registerAddr, Bool.and_eq_true, decide_eq_true_eq] at h
  unfold regionOf
  rw [if_pos (by omega)]
  exact if_pos (by omega)

theorem busRead_legal {s : State} {w : Width} {a : Nat} (h : readLegal w a = true) :
    s.busRead w a = { s with busData := s.readData w a } := if_pos h

theorem busRead_reserved (s : State) (w : Width) {a : Nat} (h : regionOf a = .reserved) :
    s.busRead w a = { s with busData := 0 } := by
  rw [busRead_legal (by rw [readLegal, h]), State.readData, h]

theorem busWrite_reserved (s : State) (w : Width) {a : Nat} (v : Word)
    (h : regionOf a = .reserved) : s.busWrite w a v = s := by
  have legal : writeLegal w a = true := by rw [writeLegal, h]
  rw [State.busWrite, if_pos legal, h]

/-- A full-width write of a register reaches ARG or nothing (10_state.md R46). -/
theorem busWrite_register (s : State) {a : Nat} (v : Word) (h : registerAddr a = true)
    (h4 : a % 4 = 0) :
    s.busWrite .w32 a v = if a = 4 then { s with arg := v } else s := by
  have hoff : a / 4 * 4 = a := by omega
  have legal : writeLegal .w32 a = true := by
    rw [writeLegal, regionOf_register h]
    simp [aligned, Width.bytes, h4]
  rw [State.busWrite, if_pos legal, regionOf_register h, hoff]

/-- Settles O10, by the region of the address. -/
theorem reservedAddresses : Obligations.ReservedAddresses := by
  intro s h ha
  refine ⟨fun w a hh haddr => ?_, fun w a v hh haddr => ?_⟩
  · rw [step_read ha hh]
    rcases haddr with hres | ⟨rfl, rfl⟩
    · rw [busRead_reserved _ w (regionOf_reserved hres)]
    · rfl
  · rcases haddr with hres | ⟨rfl, hreg, h4, h0, hne⟩
    · have hcmd : ¬ (w = .w32 ∧ a = 0) := by
        rintro ⟨_, rfl⟩
        exact absurd hres (by decide)
      rw [step_write ha hh hcmd, busWrite_reserved _ w v (regionOf_reserved hres)]
    · have hne : a.toNat ≠ 4 := fun e => hne (BitVec.eq_of_toNat_eq e)
      rw [step_write ha hh fun hcmd => h0 hcmd.2, busWrite_register _ v hreg h4, if_neg hne]

/-- The low word of a 64-bit counter (10_state.md R46). -/
theorem extract_low (x : BitVec 64) : x.extractLsb' 0 32 = x.setWidth 32 := by
  apply BitVec.eq_of_toNat_eq
  rw [BitVec.extractLsb'_toNat, BitVec.toNat_setWidth, Nat.shiftRight_zero]

/-- The high word of a 64-bit counter (10_state.md R46). -/
theorem extract_high (x : BitVec 64) : x.extractLsb' 32 32 = (x >>> 32).setWidth 32 := by
  apply BitVec.eq_of_toNat_eq
  rw [BitVec.extractLsb'_toNat, BitVec.toNat_setWidth, BitVec.toNat_ushiftRight]

/-- Every register of the map is readable at full width, with its value (10_state.md R46). -/
theorem registerMap_read (s : State) : ∀ av ∈ s.registerMap,
    readLegal .w32 av.1.toNat = true ∧ s.readData .w32 av.1.toNat = av.2 := by
  simp only [State.registerMap, extract_low, extract_high, List.forall_mem_cons]
  refine ⟨?_, ?_, ?_, ?_, ?_, ?_, ?_, ?_, ?_, ?_, ?_, ?_, ?_, ?_, ?_, ?_, ?_, ?_, ?_, ?_, ?_, ?_,
    ?_, ?_, ?_, ?_, ?_, nofun⟩
  all_goals exact ⟨rfl, rfl⟩

/-- Settles O11: each entry of the map by its address, and ARG's write by the register it reaches. -/
theorem registerMap : Obligations.RegisterMap := by
  intro s h ha
  refine ⟨fun a v hh hmem => ?_, fun v hh => ?_⟩
  · obtain ⟨legal, data⟩ := registerMap_read { s with host := h } (a, v) hmem
    rw [step_read ha hh, busRead_legal legal, data]
  · rw [step_write ha hh (by decide), busWrite_register _ v (by decide) (by decide)]
    rfl

/-! ### Reset (10_state.md R47; 70_reset_and_hazards.md R280) -/

/-- Every register of the map reads 0 right after reset. -/
theorem resetWith_registerMap (p : Params) (l : List HostEvent) (n : Nat) :
    ∀ ov ∈ (State.resetWith p l n).registerMap, ov.2 = 0 := by
  have low : (0 : BitVec 64).extractLsb' 0 32 = 0 := by decide
  have high : (0 : BitVec 64).extractLsb' 32 32 = 0 := by decide
  simp only [State.registerMap, List.forall_mem_cons]
  exact ⟨trivial, rfl, rfl, rfl, rfl, rfl, rfl, rfl, rfl, low, high, low, high, low, high, rfl, rfl,
    rfl, rfl, rfl, rfl, rfl, rfl, rfl, rfl, rfl, rfl, nofun⟩

theorem resetWith_chan (p : Params) (l : List HostEvent) (n : Nat) (c : Ch) :
    (State.resetWith p l n).chan c = constructedChan p := by
  cases c <;> rfl

/-- Settles O8: the reset event gives the state right after reset, whatever it finds. -/
theorem resetEvent : Obligations.ResetEvent := by
  intro s h ha hh
  obtain ⟨l, hstep⟩ := step_of_resetNext (resetNext_of_reset ha hh)
  exact ⟨_, hstep, rfl, rfl, rfl, rfl, rfl, rfl, rfl, rfl, rfl, rfl, rfl, rfl, rfl, rfl, rfl, rfl,
    rfl, resetWith_chan _ _ _, resetWith_registerMap _ _ _⟩

/-- Settles O54: the given parameters passed the check, the queues are empty, and nothing is live or in
progress. -/
theorem invariantsAtReset : Obligations.InvariantsAtReset :=
  ⟨State.configured_eq_ok.2 ⟨Config.params_valid, rfl⟩, wf_reset_mem,
    configInv_resetWith Config.params_valid [] 0, queueInv_of_empty rfl rfl rfl nofun,
    resetWith_channelInv Config.params [] 0⟩

end Sys2Proof.Machine
end

section
/-!
PROOFS. Host bus accesses (20_memory.md R61 to R65): which of them the bus refuses, and the byte lanes
of INBUF and OUTBUF.
-/

namespace Sys2Proof.Machine

open Sys2Proof

/-! ### Refused accesses (20_memory.md R64) -/

theorem regionOf_inbuf {a : Nat} (h : inbufAddr a = true) : regionOf a = .inbuf := by
  simp only [inbufAddr, Bool.and_eq_true, decide_eq_true_eq] at h
  rw [regionOf, if_neg (by omega), if_pos h.2]

theorem regionOf_outbuf {a : Nat} (h : outbufAddr a = true) : regionOf a = .outbuf := by
  simp only [outbufAddr, Bool.and_eq_true, decide_eq_true_eq] at h
  rw [regionOf, if_neg (by omega), if_neg (by omega), if_pos h]

/-- Every address lies in exactly one range of the address map (20_memory.md R60). -/
theorem address_range (a : Nat) :
    (registerAddr a = true ∧ inbufAddr a = false ∧ outbufAddr a = false)
      ∨ (registerAddr a = false ∧ inbufAddr a = true ∧ outbufAddr a = false)
      ∨ (registerAddr a = false ∧ inbufAddr a = false ∧ outbufAddr a = true)
      ∨ (registerAddr a = false ∧ inbufAddr a = false ∧ outbufAddr a = false
        ∧ reservedAddr a = true) := by
  simp only [registerAddr, inbufAddr, outbufAddr, reservedAddr, Bool.and_eq_true, Bool.or_eq_true,
    Bool.and_eq_false_iff, decide_eq_true_eq, decide_eq_false_iff_not]
  omega

/-- A register access is legal at full width and word-aligned (20_memory.md R64). -/
theorem register_access_legal (w : Width) (a : Nat) :
    (decide (w = .w32) && aligned w a) = !(decide (w ≠ .w32) || decide (a % 4 ≠ 0)) := by
  cases w with
  | w8 => rfl
  | w16 => rfl
  | w32 =>
    have full : decide (a % 4 = 0) = !decide (a % 4 ≠ 0) := by simp
    exact full

/-- A read is refused where it is not legal. -/
theorem readLegal_eq_not_refused (w : Width) (a : BitVec 16) :
    readLegal w a.toNat = !refusedByBus (.read w a) := by
  rcases address_range a.toNat with
    ⟨hreg, hin, hout⟩ | ⟨hreg, hin, hout⟩ | ⟨hreg, hin, hout⟩ | ⟨hreg, hin, hout, hres⟩
  · rw [readLegal, regionOf_register hreg]
    simp [refusedByBus, hreg, hin, hout, register_access_legal]
  · rw [readLegal, regionOf_inbuf hin]
    simp [refusedByBus, hreg, hin, hout, aligned]
  · rw [readLegal, regionOf_outbuf hout]
    simp [refusedByBus, hreg, hin, hout, aligned]
  · rw [readLegal, regionOf_reserved hres]
    simp [refusedByBus, hreg, hin, hout]

/-- A write is refused where it is not legal. -/
theorem writeLegal_eq_not_refused (w : Width) (a : BitVec 16) (v : Word) :
    writeLegal w a.toNat = !refusedByBus (.write w a v) := by
  rcases address_range a.toNat with
    ⟨hreg, hin, hout⟩ | ⟨hreg, hin, hout⟩ | ⟨hreg, hin, hout⟩ | ⟨hreg, hin, hout, hres⟩
  · rw [writeLegal, regionOf_register hreg]
    simp [refusedByBus, hreg, hin, hout, register_access_legal]
  · rw [writeLegal, regionOf_inbuf hin]
    simp [refusedByBus, hreg, hin, hout, aligned]
  · rw [writeLegal, regionOf_outbuf hout]
    simp [refusedByBus, hout]
  · rw [writeLegal, regionOf_reserved hres]
    simp [refusedByBus, hreg, hin, hout]

theorem busRead_refused (s : State) {w : Width} {a : BitVec 16}
    (h : refusedByBus (.read w a) = true) :
    s.busRead w a.toNat = { s with busData := 0, busErr := true } :=
  if_neg (by simp [readLegal_eq_not_refused, h])

theorem busWrite_refused (s : State) {w : Width} {a : BitVec 16} {v : Word}
    (h : refusedByBus (.write w a v) = true) :
    s.busWrite w a.toNat v = { s with busErr := true } :=
  if_neg (by simp [writeLegal_eq_not_refused w a v, h])

theorem busRead_busErr (s : State) {w : Width} {a : BitVec 16}
    (h : refusedByBus (.read w a) = false) : (s.busRead w a.toNat).busErr = s.busErr := by
  rw [busRead_frame, readLegal_eq_not_refused, h]
  exact Bool.or_false _

theorem busWrite_busErr (s : State) {w : Width} {a : BitVec 16} {v : Word}
    (h : refusedByBus (.write w a v) = false) :
    (s.busWrite w a.toNat v).busErr = s.busErr := by
  rw [busWrite_frame, writeLegal_eq_not_refused w a v, h]
  exact Bool.or_false _

/-- A write of CMD is never refused. -/
theorem not_cmd_of_refused {w : Width} {a : BitVec 16} {v : Word}
    (h : refusedByBus (.write w a v) = true) : ¬ (w = .w32 ∧ a = 0) := by
  rintro ⟨rfl, rfl⟩
  exact absurd h (by decide : ¬ refusedByBus (.write .w32 0 0) = true)

/-- Settles O9: the refused accesses are those that are not legal, and a write that is no command takes
effect on the bus alone. -/
theorem refusedAccesses : Obligations.RefusedAccesses := by
  intro s h a ha hh
  cases a with
  | read w a =>
    refine ⟨fun href => ⟨0, ?_, fun _ => rfl, nofun⟩,
      fun hleg _ => ⟨_, step_read ha hh, busRead_busErr _ hleg⟩⟩
    rw [step_read ha hh, busRead_refused _ href]
  | write w a v =>
    refine ⟨fun href => ⟨s.busData, ?_, nofun, fun _ => rfl⟩, fun hleg hne => ?_⟩
    · rw [step_write ha hh (not_cmd_of_refused href), busWrite_refused _ href]
    · have hcmd : ¬ (w = .w32 ∧ a = 0) := by
        rintro ⟨rfl, rfl⟩
        exact hne v rfl
      exact ⟨_, step_write ha hh hcmd, busWrite_busErr _ hleg⟩

/-! ### Byte lanes (20_memory.md R65) -/

/-- Lane `i` of a value is its digit `i` in base 256. -/
theorem leBytes_getD : ∀ (n v i : Nat), i < n →
    (leBytes n v).getD i 0 = BitVec.ofNat 8 (v / 256 ^ i)
  | 0, _, _, h => by omega
  | n + 1, v, 0, _ => by simp [leBytes]
  | n + 1, v, i + 1, h => by
    rw [leBytes, List.getD_cons_succ, leBytes_getD n _ i (by omega), Nat.div_div_eq_div_mul,
      Nat.pow_succ']

/-- The digits of the value of lanes are the bytes in them, zero above the last. -/
theorem leValue_digit : ∀ (l : List Byte) (i : Nat),
    BitVec.ofNat 8 (leValue l / 256 ^ i) = l.getD i 0
  | [], i => by simp [leValue]
  | b :: l, 0 => by
    have := b.isLt
    apply BitVec.eq_of_toNat_eq
    rw [leValue, Nat.pow_zero, Nat.div_one, BitVec.toNat_ofNat, List.getD_cons_zero]
    omega
  | b :: l, i + 1 => by
    have tail : (b.toNat + 256 * leValue l) / 256 = leValue l := by
      have := b.isLt
      omega
    rw [leValue, Nat.pow_succ', ← Nat.div_div_eq_div_mul, tail, leValue_digit l i,
      List.getD_cons_succ]

/-- Data bits 8i+7:8i as a digit in base 256. -/
theorem extract_lane (v : Word) (i : Nat) :
    v.extractLsb' (8 * i) 8 = BitVec.ofNat 8 (v.toNat / 256 ^ i) := by
  rw [BitVec.extractLsb', Nat.shiftRight_eq_div_pow, Nat.pow_mul]

/-- The data bus carries four lanes. -/
theorem extract_lane_ofNat (n : Nat) {i : Nat} (h : i < 4) :
    (BitVec.ofNat 32 n).extractLsb' (8 * i) 8 = BitVec.ofNat 8 (n / 256 ^ i) := by
  have lanes : 2 ^ 32 = 256 ^ i * (256 * 256 ^ (3 - i)) := by
    rw [← Nat.pow_succ', ← Nat.pow_add, show i + (3 - i + 1) = 4 by omega]
    rfl
  apply BitVec.eq_of_toNat_eq
  rw [extract_lane, BitVec.toNat_ofNat, BitVec.toNat_ofNat, BitVec.toNat_ofNat, lanes,
    Nat.mod_mul_right_div_self, Nat.mod_mul_right_mod]

/-- The lanes of bytes read from a buffer, zero above the width. -/
theorem extract_lane_loadBytes (s : State) (a n : Nat) {i : Nat} (h : i < 4) :
    (BitVec.ofNat 32 (leValue (s.loadBytes a n))).extractLsb' (8 * i) 8
      = if i < n then s.loadByte (a + i) else 0 := by
  rw [extract_lane_ofNat _ h, leValue_digit]
  split
  · next hi => exact loadBytes_getD s n a i hi
  · next hi => exact List.getD_eq_default _ _ (by rw [loadBytes_length]; omega)

/-- An aligned read of a buffer returns its bytes; OUTBUF has no 8-bit read. -/
theorem busRead_buffer (s : State) {w : Width} {a : Nat} (hal : a % w.bytes = 0)
    (hbuf : inbufAddr a = true ∨ (outbufAddr a = true ∧ w ≠ .w8)) :
    s.busRead w a = { s with busData := BitVec.ofNat 32 (leValue (s.loadBytes a w.bytes)) } := by
  rcases hbuf with hin | ⟨hout, hw⟩
  · have legal : readLegal w a = true := by simp [readLegal, regionOf_inbuf hin, aligned, hal]
    rw [busRead_legal legal, State.readData, regionOf_inbuf hin]
  · have legal : readLegal w a = true := by
      simp [readLegal, regionOf_outbuf hout, aligned, hal, hw]
    rw [busRead_legal legal, State.readData, regionOf_outbuf hout]

/-- An aligned write of INBUF stores its lanes. -/
theorem busWrite_inbuf (s : State) {w : Width} {a : Nat} (v : Word) (hal : a % w.bytes = 0)
    (hin : inbufAddr a = true) : s.busWrite w a v = s.storeBytes a (leBytes w.bytes v.toNat) := by
  have legal : writeLegal w a = true := by simp [writeLegal, regionOf_inbuf hin, aligned, hal]
  rw [State.busWrite, if_pos legal, regionOf_inbuf hin]

/-- Settles O12, lane by lane. -/
theorem bufferByteLanes : Obligations.BufferByteLanes := by
  intro s h w a ha
  refine ⟨fun v hh hin hal => ?_, fun hh hal hbuf => ?_⟩
  · have hcmd : ¬ (w = .w32 ∧ a = 0) := by
      rintro ⟨_, rfl⟩
      exact absurd hin (by decide)
    have hlen := leBytes_length w.bytes v.toNat
    refine ⟨_, step_write ha hh hcmd, ?_⟩
    rw [busWrite_inbuf _ v hal hin]
    refine ⟨storeBytes_eq _ _ _, fun i hi => ?_, fun b hb => ?_⟩
    · rw [loadByte_storeBytes_inside _ _ _ _ (by rwa [hlen]), leBytes_getD _ _ _ hi, extract_lane]
    · rw [loadByte_storeBytes_outside _ _ _ _ (by rwa [hlen])]
      rfl
  · rw [step_read ha hh, busRead_buffer _ hal hbuf]
    exact ⟨_, rfl, fun i hi => extract_lane_loadBytes _ _ _ hi⟩

end Sys2Proof.Machine
end

section
/-!
PROOFS. The four encodings (30_encoding.md R80 to R101): decoding and encoding are inverse to each
other on values, the bytes of a value determine it, and the command words that decode are the ten of
R81.
-/

namespace Sys2Proof.Machine

open Sys2Proof

/-! ### From instructions to values and back -/

theorem subpacketInstr_of_le {t : Nat} (h : 16 ≤ t) : subpacketInstr t = .spReserved1631 t := by
  unfold subpacketInstr
  split <;> first | rfl | omega

/-- A record head decodes to the record of its three fields. -/
theorem decodeWord_head {op band pos : Nat} (ho : op < 4) (h : slotFits band pos = true) :
    decodeWord .toneRecord (op * 4096 + band * 128 + pos) = .ok (toneInstr op band pos) := by
  simp only [slotFits, Bool.and_eq_true, decide_eq_true_eq] at h
  have hop : (op * 4096 + band * 128 + pos) / 4096 = op := by omega
  have hband : (op * 4096 + band * 128 + pos) / 128 % 32 = band := by omega
  have hpos : (op * 4096 + band * 128 + pos) % 128 = pos := by omega
  rw [decodeWord, hop, hband, hpos, decodeTone, if_pos ⟨ho, h⟩]

theorem decodeWord_encodeWord {i : Instr} (h : i.wf = true) :
    decodeWord i.layer i.encodeWord = .ok i := by
  cases i with
  | spReserved67 t =>
    simp only [Instr.wf, Bool.or_eq_true, decide_eq_true_eq] at h
    rcases h with rfl | rfl <;> rfl
  | spReserved1631 t =>
    simp only [Instr.wf, Bool.and_eq_true, decide_eq_true_eq] at h
    show decodeSubpacket t = _
    rw [decodeSubpacket, if_pos h.2, subpacketInstr_of_le h.1]
  | toneAdd band pos => exact decodeWord_head (op := 0) (by decide) h
  | toneRefresh band pos => exact decodeWord_head (op := 1) (by decide) h
  | toneDelete band pos => exact decodeWord_head (op := 2) (by decide) h
  | toneReserved band pos => exact decodeWord_head (op := 3) (by decide) h
  | _ => rfl

/-- `i` is the well-formed instruction of layer `l` whose encoding is `w`. -/
def Encodes (l : Layer) (w : Nat) (i : Instr) : Prop := i.layer = l ∧ i.encodeWord = w ∧ i.wf = true

theorem decodeCommand_encodes {w : Nat} {i : Instr} (h : decodeCommand w = .ok i) :
    Encodes .command w i := by
  unfold decodeCommand at h
  split at h
  · cases h
  · split at h
    · split at h
      · cases h
        exact ⟨rfl, by show 0x101 = w; omega, rfl⟩
      · split at h <;> cases h
    · split at h <;> cases h <;> exact ⟨rfl, rfl, rfl⟩

theorem subpacketInstr_encodes {t : Nat} (h : t < 32) :
    Encodes .subpacket t (subpacketInstr t) := by
  rcases Nat.lt_or_ge t 16 with hlt | hge
  · interval_cases t <;> exact ⟨rfl, rfl, rfl⟩
  · rw [subpacketInstr_of_le hge]
    exact ⟨rfl, rfl, by simp [Instr.wf, hge, h]⟩

theorem toneInstr_encodes {op band pos : Nat} (ho : op < 4) (h : slotFits band pos = true) :
    Encodes .toneRecord (op * 4096 + band * 128 + pos) (toneInstr op band pos) := by
  refine ⟨layer_toneInstr op band pos, ?_⟩
  match op, ho with
  | 0, _ | 1, _ | 2, _ | 3, _ => exact ⟨rfl, h⟩

theorem decodeSubpacket_encodes {t : Nat} {i : Instr} (h : decodeSubpacket t = .ok i) :
    Encodes .subpacket t i := by
  unfold decodeSubpacket at h
  split at h
  · next ht => cases h; exact subpacketInstr_encodes ht
  · cases h

theorem decodeChunk_encodes {tag : Nat} {i : Instr} (h : decodeChunk tag = .ok i) :
    Encodes .chunk tag i := by
  unfold decodeChunk at h
  split_ifs at h with hfrma hqdca hqdcp <;> cases h
  exacts [⟨rfl, hfrma.symm, rfl⟩, ⟨rfl, hqdca.symm, rfl⟩, ⟨rfl, hqdcp.symm, rfl⟩]

theorem decodeTone_encodes {op band pos : Nat} {i : Instr} (h : decodeTone op band pos = .ok i) :
    op < 4 ∧ Encodes .toneRecord (op * 4096 + band * 128 + pos) i := by
  unfold decodeTone at h
  split at h
  · next hf =>
    obtain ⟨hop, hband, hpos⟩ := hf
    cases h
    exact ⟨hop, toneInstr_encodes hop (by simp [slotFits, hband, hpos])⟩
  · cases h

theorem decodeWord_encodes {l : Layer} {w : Nat} {i : Instr} (h : decodeWord l w = .ok i) :
    Encodes l w i := by
  cases l with
  | command => exact decodeCommand_encodes h
  | subpacket => exact decodeSubpacket_encodes h
  | chunk => exact decodeChunk_encodes h
  | toneRecord =>
    have hfields : w / 4096 * 4096 + w / 128 % 32 * 128 + w % 128 = w := by omega
    exact hfields ▸ (decodeTone_encodes h).2

/-- Settles O3, encoding by encoding. -/
theorem decodedWordReencodes : Obligations.DecodedWordReencodes :=
  fun _ _ _ h => decodeWord_encodes h

/-! ### From values to bytes and back -/

theorem encodeWord_lt {i : Instr} (h : i.wf = true) : i.encodeWord < 2 ^ i.layer.bits := by
  cases i with
  | spReserved67 t => exact (Laws.EncodeFits.spReserved67 t h).1
  | spReserved1631 t => exact (Laws.EncodeFits.spReserved1631 t h).1
  | toneAdd band pos => exact (Laws.EncodeFits.toneAdd band pos h).1
  | toneRefresh band pos => exact (Laws.EncodeFits.toneRefresh band pos h).1
  | toneDelete band pos => exact (Laws.EncodeFits.toneDelete band pos h).1
  | toneReserved band pos => exact (Laws.EncodeFits.toneReserved band pos h).1
  | _ => decide

/-- The bytes a value is stored in give the value back: its lanes, or its bits from bit 7 of the
first byte on (20_memory.md R65, R66; 00_scope.md R8). -/
theorem decodeBytes_bytesOfWord {l : Layer} {w : Nat} (h : w < 2 ^ l.bits) (rest : List Byte) :
    decodeBytes l (bytesOfWord l w ++ rest) = decodeWord l w := by
  cases l <;>
    simp only [Layer.bits] at h <;>
    simp only [bytesOfWord, List.cons_append, List.nil_append, decodeBytes, decodeWord,
      BitVec.toNat_ofNat]
  case command => congr 1; omega
  case subpacket => congr 1; omega
  case toneRecord => congr 1 <;> omega
  case chunk => congr 1; omega

/-- Settles O2: the bytes give the value back, and the value the instruction. -/
theorem encodeDecodeRoundTrip : Obligations.EncodeDecodeRoundTrip := by
  intro i rest h
  rw [encode, decodeBytes_bytesOfWord (encodeWord_lt h), decodeWord_encodeWord h]

/-- Settles O1 by running the decoder on the five words. -/
theorem decodeSampleWords : Obligations.DecodeSampleWords := ⟨rfl, rfl, rfl, rfl, rfl⟩

/-! ### Illegal command words (30_encoding.md R82) -/

/-- The legal command words: CONFIGURE.CODEC, and an opcode of 1 to 9 alone. -/
theorem decodeCommand_legal {w : Nat} {i : Instr} (h : decodeCommand w = .ok i) :
    w = 0x101 ∨ (1 ≤ w ∧ w ≤ 9) := by
  obtain ⟨hlayer, rfl, _⟩ := decodeCommand_encodes h
  cases i with
  | configureCodec => exact .inl rfl
  | configureStream | queuePacket | finish | readBuffer | endOfData | isStereo | getRate
  | decodePacket | destroy => exact .inr (by decide)
  | _ => cases hlayer

theorem decodeCommand_illegal {w : Nat}
    (h : w / 512 ≠ 0 ∨ w % 256 = 0 ∨ 9 < w % 256 ∨ (w / 256 % 2 = 1 ∧ w % 256 ≠ 1)) :
    ∃ e, decodeCommand w = .error e := by
  cases hd : decodeCommand w with
  | error e => exact ⟨e, rfl⟩
  | ok i =>
    have hlegal := decodeCommand_legal hd
    omega

/-- The fields of a command word as numbers (30_encoding.md R80). -/
theorem commandFields_toNat (w : Word) :
    (w.extractLsb' 9 23).toNat = w.toNat / 512 ∧ (w.extractLsb' 0 8).toNat = w.toNat % 256
      ∧ (w.extractLsb' 8 1).toNat = w.toNat / 256 % 2 := by
  have hlt := w.isLt
  simp only [BitVec.extractLsb'_toNat, Nat.shiftRight_eq_div_pow, Nat.pow_zero, Nat.div_one,
    Nat.reducePow, and_true]
  omega

/-- A step at a write of CMD does what the word written stands for. -/
theorem step_cmd {s : State} {h : List HostEvent} {w : Word} (ha : s.activity = .idle)
    (hh : s.host = .access (.write .w32 0 w) :: h) :
    step s = (fetchCommand { s with host := h } w).out := by
  rw [step_eq, fetch_of_idle ha]
  simp only [fetchHost, hh, fetchAccess, and_self, if_true]

/-- Settles O4: an illegal word decodes to nothing, and the fetch settles it with kBadCommand. -/
theorem illegalCommandWords : Obligations.IllegalCommandWords := by
  intro s h w ha hh hw
  obtain ⟨hres, hopc, hmode⟩ := commandFields_toNat w
  simp only [ne_eq, ← BitVec.toNat_inj, hres, hopc, hmode] at hw
  obtain ⟨e, he⟩ := decodeCommand_illegal hw
  rw [step_cmd ha hh, fetchCommand, he]
  rfl

end Sys2Proof.Machine
end

section
/-!
PROOFS. Reading bits that a bit reader holds in its readable part (40_bitreader_vlc.md R120 to
R128): fields, codewords of a valid table, and the channel selector.
-/

namespace Sys2Proof.Machine

open Sys2Proof

/-! ### Held bits that are readable -/

/-- The bits `bs` stand at BITPOS and end within BITLIMIT. -/
def BitReader.Offers (rd : BitReader) (bs : List Bool) : Prop :=
  rd.holds bs ∧ rd.pos + bs.length ≤ rd.limit

/-- The reader past the bits `bs`. -/
def BitReader.past (rd : BitReader) (bs : List Bool) : BitReader := rd.at (rd.pos + bs.length)

@[simp] theorem past_pos (rd : BitReader) (bs : List Bool) :
    (rd.past bs).pos = rd.pos + bs.length := rfl
@[simp] theorem past_limit (rd : BitReader) (bs : List Bool) : (rd.past bs).limit = rd.limit := rfl

@[simp] theorem past_past (rd : BitReader) (as bs : List Bool) :
    (rd.past as).past bs = rd.past (as ++ bs) := by
  simp [BitReader.past, Nat.add_assoc]

theorem past_msbBits (rd : BitReader) (n v : Nat) : rd.past (msbBits n v) = rd.at (rd.pos + n) := by
  rw [BitReader.past, msbBits_length]

theorem BitReader.Offers.left {rd : BitReader} {as bs : List Bool} (h : rd.Offers (as ++ bs)) :
    rd.Offers as := by
  obtain ⟨hheld, hroom⟩ := h
  rw [List.length_append] at hroom
  exact ⟨holds_left hheld, by omega⟩

theorem BitReader.Offers.right {rd : BitReader} {as bs : List Bool} (h : rd.Offers (as ++ bs)) :
    (rd.past as).Offers bs := by
  obtain ⟨hheld, hroom⟩ := h
  rw [List.length_append, ← Nat.add_assoc] at hroom
  exact ⟨holds_drop hheld, hroom⟩

theorem BitReader.Offers.room {rd : BitReader} {n v : Nat} {bs : List Bool}
    (h : rd.Offers (msbBits n v ++ bs)) : rd.pos + n ≤ rd.limit := by
  have := h.left.2
  rwa [msbBits_length] at this

/-- PEEK of an offered field. -/
theorem peek_of_offers {rd : BitReader} {n v : Nat} {bs : List Bool}
    (h : rd.Offers (msbBits n v ++ bs)) (hv : v < 2 ^ n) (hn : n ≤ 32) : rd.peek n = .ok v :=
  peek_of_holds h.1 hv hn h.room

/-- READ of an offered field. -/
theorem read_of_offers {rd : BitReader} {n v : Nat} {bs : List Bool}
    (h : rd.Offers (msbBits n v ++ bs)) (hv : v < 2 ^ n) (hn : n ≤ 32) :
    rd.read n = .ok (v, rd.past (msbBits n v)) := by
  rw [past_msbBits]
  exact read_of_holds h.1 hv hn h.room

/-- The value of an offered field. -/
theorem bits_of_offers {rd : BitReader} {n v : Nat} {bs : List Bool}
    (h : rd.Offers (msbBits n v ++ bs)) (hv : v < 2 ^ n) : rd.bits rd.pos n = v := by
  have := bits_of_holds h.1 (Nat.le_refl n) hv
  rwa [Nat.sub_self, Nat.pow_zero, Nat.div_one] at this

/-! ### Codewords (40_bitreader_vlc.md R126 to R128) -/

/-- A codeword is not the beginning of one that comes after it. -/
theorem Code.before.not_prefix {c d : Code} (h : c.before d) :
    d.code / 2 ^ (d.len - c.len) ≠ c.code := by
  have := (Nat.le_div_iff_mul_le (Nat.two_pow_pos (d.len - c.len))).2 h.2
  omega

/-- No codeword of a table is the beginning of another. -/
theorem vlcCodes_prefixFree {t : VlcTable} {c d : Code} (hc : c ∈ vlcCodes t) (hd : d ∈ vlcCodes t)
    (hne : c ≠ d) (hlen : c.len ≤ d.len) : d.code / 2 ^ (d.len - c.len) ≠ c.code := by
  have symm : Std.Symm fun a b : Code => a.before b ∨ b.before a := ⟨fun _ _ => Or.symm⟩
  have ordered := ((vlcCodes_before t).imp
    (S := fun a b : Code => a.before b ∨ b.before a) Or.inl).forall
  rcases ordered hc hd hne with h | h
  · exact h.not_prefix
  · have heq : c.len = d.len := Nat.le_antisymm hlen h.1
    have := h.not_prefix
    simp only [heq, Nat.sub_self, Nat.pow_zero, Nat.div_one] at this ⊢
    exact fun e => this e.symm

/-- Among a table's codewords, the one found for the first `l` bits of the codeword `c` is `c`
itself, and only at its full length. -/
theorem find_codeword_prefix {t : VlcTable} {c : Code} (hc : c ∈ vlcCodes t) {l : Nat}
    (hl : l ≤ c.len) :
    (vlcCodes t).find? (fun d => d.len = l && d.code = c.code / 2 ^ (c.len - l))
      = if l = c.len then some c else none := by
  have only : ∀ d ∈ vlcCodes t, d.len = l → d.code = c.code / 2 ^ (c.len - l) → d = c := by
    rintro d hd rfl hcode
    by_contra hne
    exact vlcCodes_prefixFree hd hc hne hl hcode.symm
  cases hf : (vlcCodes t).find? fun d => d.len = l && d.code = c.code / 2 ^ (c.len - l) with
  | none =>
    refine (if_neg ?_).symm
    rintro rfl
    simpa using List.find?_eq_none.1 hf c hc
  | some d =>
    have hd := List.find?_some hf
    simp only [Bool.and_eq_true, decide_eq_true_eq] at hd
    obtain rfl := only d (List.mem_of_find?_eq_some hf) hd.1 hd.2
    rw [if_pos hd.1.symm]

/-- VLC.decode's loop finds a held codeword at its length. -/
theorem vlcScan_of_offers {t : VlcTable} {c : Code} (hc : c ∈ vlcCodes t) {rd : BitReader}
    {bs : List Bool} (h : rd.Offers (msbBits c.len c.code ++ bs)) (hfit : c.code < 2 ^ c.len) :
    ∀ n l, l ≤ c.len → c.len < l + n →
      vlcScan (vlcCodes t) rd n l = .ok (c.sym, c.len, rd.past (msbBits c.len c.code))
  | 0, l, hl, hn => by omega
  | n + 1, l, hl, hn => by
    have hlen := vlcCodes_len t hc
    have hroom := h.room
    have hpeek : rd.peek l = .ok (c.code / 2 ^ (c.len - l)) := by
      rw [BitReader.peek, if_neg (by omega), if_neg (by omega), bits_of_holds h.1 hl hfit]
    rw [vlcScan, if_neg (by omega), hpeek]
    simp only [find_codeword_prefix hc hl]
    by_cases hfull : l = c.len
    · rw [if_pos hfull, past_msbBits, hfull]
      rfl
    · rw [if_neg hfull]
      exact vlcScan_of_offers hc h hfit n (l + 1) (by omega) (by omega)

/-- A used entry of a valid table has one codeword, and the encoder writes it. -/
theorem codeword_of_entry {t : VlcTable} (ht : vlcValid t = true) {e : VlcEntry} (he : e ∈ t)
    (hused : e.len ≠ 0) : ∃ c ∈ vlcCodes t, c.len = e.len ∧ c.sym = e.sym
      ∧ codeword t e.sym = msbBits c.len c.code := by
  have spec := vlcValid_spec ht
  obtain ⟨c, hc, hlen, hsym⟩ := vlcCodes_of_entry t he (by omega) (spec.lens e he)
  refine ⟨c, hc, hlen, hsym, ?_⟩
  have hfind : (vlcCodes t).find? (fun d => d.sym = e.sym) = some c := by
    cases hf : (vlcCodes t).find? fun d => d.sym = e.sym with
    | none => simpa [hsym] using List.find?_eq_none.1 hf c hc
    | some d =>
      have hd := List.find?_some hf
      rw [decide_eq_true_eq, ← hsym] at hd
      rw [List.inj_on_of_nodup_map spec.distinct (List.mem_of_find?_eq_some hf) hc hd]
  rw [codeword, hfind]

/-- VLC.decode of an offered codeword gives its symbol and its length. -/
theorem vlcDecode_of_entry {t : VlcTable} (ht : vlcValid t = true) {e : VlcEntry} (he : e ∈ t)
    (hused : e.len ≠ 0) {rd : BitReader} {bs : List Bool} (h : rd.Offers (codeword t e.sym ++ bs)) :
    vlcDecode t rd = .ok (e.sym, e.len, rd.past (codeword t e.sym)) := by
  obtain ⟨c, hc, hlen, hsym, hword⟩ := codeword_of_entry ht he hused
  rw [hword] at h ⊢
  rw [vlcDecode, vlcScan_of_offers hc h ((vlcValid_spec ht).fits c hc), hlen, hsym]
  · exact (vlcCodes_len t hc).1
  · have := len_le_vlcMax he
    omega

theorem hasSymbol_iff (t : VlcTable) (sym : Int) :
    hasSymbol t sym = true ↔ ∃ e ∈ t, e.len ≠ 0 ∧ e.sym = sym := by
  simp [hasSymbol]

/-- VLC.decode of the offered codeword of a symbol. -/
theorem vlcDecode_of_offers {t : VlcTable} (ht : vlcValid t = true) {sym : Int}
    (hsym : hasSymbol t sym = true) {rd : BitReader} {bs : List Bool}
    (h : rd.Offers (codeword t sym ++ bs)) :
    ∃ n, vlcDecode t rd = .ok (sym, n, rd.past (codeword t sym)) := by
  obtain ⟨e, he, hused, rfl⟩ := (hasSymbol_iff t sym).1 hsym
  exact ⟨e.len, vlcDecode_of_entry ht he hused h⟩

/-! ### The channel selector (42_packet_parser.md R155) -/

/-- The channel of a channel's number is that channel. -/
@[simp] theorem chOf_index (c : Ch) : chOf c.index = c := by cases c <;> rfl

theorem index_chOf {ch : Nat} (h : ch < 2) : (chOf ch).index = ch := by
  interval_cases ch <;> rfl

/-- CHSEL of an offered ch field, or of none in a mono stream. -/
theorem chsel_of_offers {s : State} {c : Ch} (hfit : chFits s c = true) {rd : BitReader}
    {bs : List Bool} (h : rd.Offers (chBits (s.cfg.channels = 2) c.index ++ bs)) :
    chsel s.cfg.channels rd = .ok (c, rd.past (chBits (s.cfg.channels = 2) c.index)) := by
  unfold chsel
  by_cases hst : s.cfg.channels = 2
  · simp only [hst, chBits, decide_true, if_true] at h ⊢
    rw [read_of_offers h (by cases c <;> decide) (by decide)]
    cases c <;> rfl
  · simp only [chBits, chFits, hst, decide_false, Bool.false_or, decide_eq_true_eq] at hfit ⊢
    rw [hfit]
    rfl

end Sys2Proof.Machine
end

section
/-!
PROOFS. The sub-packets an encoder writes, read back (42_packet_parser.md R152 to R180): where a
parse stands at the bits of a packet text (30_encoding.md R105), each rule of the parser succeeds,
moves BITPOS past them and does to the shadow state what the text says. A reserved element raises
kMalformed at its first bit (R152, R179).
-/

namespace Sys2Proof.Machine

open Sys2Proof

/-! ### Places in a parse and its shadow state -/

/-- The parse past the bits `bs`. -/
def Parse.past (p : Parse) (bs : List Bool) : Parse := p.at (p.rd.pos + bs.length)

@[simp] theorem parse_past_rd (p : Parse) (bs : List Bool) : (p.past bs).rd = p.rd.past bs := rfl
@[simp] theorem parse_past_sh (p : Parse) (bs : List Bool) : (p.past bs).sh = p.sh := rfl
@[simp] theorem parse_past_tone (p : Parse) (bs : List Bool) : (p.past bs).tone = p.tone := rfl
@[simp] theorem parse_past_via (p : Parse) (bs : List Bool) : (p.past bs).via = p.via := rfl
@[simp] theorem parse_past_left (p : Parse) (bs : List Bool) : (p.past bs).left = p.left := rfl
@[simp] theorem parse_past_lastRank (p : Parse) (bs : List Bool) :
    (p.past bs).lastRank = p.lastRank := rfl
@[simp] theorem parse_past_mk (via : Via) (rd : BitReader) (sh : Shadow) (left rank : Nat)
    (tone : Option TonePart) (bs : List Bool) :
    (Parse.mk via rd sh left rank tone).past bs = Parse.mk via (rd.past bs) sh left rank tone := rfl

theorem shadow_setChan_chan (sh : Shadow) (c : Ch) : sh.setChan c (sh.chan c) = sh := by
  cases c <;> rfl

@[simp] theorem shadow_setChan_setChan (sh : Shadow) (c : Ch) (v w : ShadowChan) :
    (sh.setChan c v).setChan c w = sh.setChan c w := by cases c <;> rfl

/-! ### Headers and ends of sub-packets (42_packet_parser.md R152, R153) -/

theorem openSub_of_offers {t : Nat} {p : Parse} {bs : List Bool}
    (h : p.rd.Offers (msbBits 5 t ++ bs)) (hr : p.lastRank ≤ typeRank t) :
    openSub t p = .ok { p.past (msbBits 5 t) with lastRank := typeRank t } := by
  rw [openSub_ok h.room hr, Parse.past, msbBits_length]

/-- The len field of a payload that lies in the body. -/
theorem openLen_of_offers {len : Nat} {p : Parse} {bs : List Bool}
    (h : p.rd.Offers (msbBits 16 len ++ bs)) (hlen : len < 65536)
    (hroom : p.rd.pos + 16 + len ≤ p.rd.limit) :
    openLen p = .ok (len, p.past (msbBits 16 len)) := by
  have hbits := bits_of_offers h hlen
  rw [openLen_ok (by rw [hbits]; exact hroom), hbits, Parse.past, msbBits_length]

/-- The parse at the first bit of the payload of a sub-packet of type `t`. -/
def Parse.inPayload (t : Nat) (p : Parse) : Parse :=
  { p.at (p.rd.pos + 21) with lastRank := typeRank t }

theorem inPayload_offers {t len : Nat} {p : Parse} {payload : List Bool}
    (h : p.rd.Offers (msbBits 5 t ++ (msbBits 16 len ++ payload))) :
    (p.inPayload t).rd.Offers payload := by
  have hpay := h.right.right
  rwa [past_msbBits, past_msbBits] at hpay

/-- The header of a sub-packet of explicit length, in class order and within the body. -/
theorem openPayload_of_offers {α : Type} {t len : Nat} {p : Parse} {payload : List Bool}
    (hr : p.lastRank ≤ typeRank t)
    (h : p.rd.Offers (msbBits 5 t ++ (msbBits 16 len ++ payload))) (hlen : len < 65536)
    (hroom : p.rd.pos + 21 + len ≤ p.rd.limit) (body : Nat × Parse → Except Stop α) :
    (openSub t p >>= fun q => openLen q >>= body) = body (len, p.inPayload t) := by
  simp only [openSub_of_offers h hr, bind, Except.bind]
  rw [openLen_of_offers (p := { p.past (msbBits 5 t) with lastRank := typeRank t }) h.right hlen]
  · simp only [Parse.past, msbBits_length]
    rfl
  · simp only [parse_past_rd, past_msbBits, at_pos, at_limit]
    omega

/-- The end of a payload of declared length `len` that began at `rd`, past its bits `bs`. -/
theorem closePayload_of_past {len : Nat} {rd : BitReader} {q : Parse} {bs : List Bool}
    (hq : q.rd = rd.past bs) (hpay : bs.length ≤ len) (hroom : rd.pos + len ≤ rd.limit) :
    closePayload rd.pos len q = .ok (endSub (q.at (rd.pos + len))) := by
  apply closePayload_ok <;> simp only [hq, past_pos, past_limit] <;> omega

/-! ### Header sub-packets (42_packet_parser.md R160, R161) -/

/-- SP_SEED in class order loads the shadow SEED. -/
theorem spSeed_of_offers {s : State} {p : Parse} {v : Nat} {bs : List Bool}
    (h : p.rd.Offers (msbBits 5 0 ++ (msbBits 32 v ++ bs))) (hv : v < 2 ^ 32)
    (hr : p.lastRank ≤ 0) :
    spSeed s p = .ok (endSub { p.past (msbBits 5 0 ++ msbBits 32 v) with
      lastRank := 0, sh := { p.sh with seed := BitVec.ofNat 32 v } }) := by
  simp only [spSeed, openSub_of_offers h hr, bind, Except.bind, parse_past_rd,
    read_of_offers h.right hv (by decide), past_past]
  rfl

/-- SP_FLAGS in class order loads the shadow FLAGS. -/
theorem spFlags_of_offers {s : State} {p : Parse} {v : Nat} {bs : List Bool}
    (h : p.rd.Offers (msbBits 5 1 ++ (msbBits 8 v ++ bs))) (hv : v < 256) (hr : p.lastRank ≤ 0) :
    spFlags s p = .ok (endSub { p.past (msbBits 5 1 ++ msbBits 8 v) with
      lastRank := 0, sh := { p.sh with flags := BitVec.ofNat 8 v } }) := by
  simp only [spFlags, openSub_of_offers h hr, bind, Except.bind, parse_past_rd,
    read_of_offers h.right hv (by decide), past_past]
  rfl

/-! ### Noise sub-packets (42_packet_parser.md R168) -/

theorem energiesAfter_nil (p : Params) (b : Nat) (env : List Int) :
    energiesAfter p b [] env = env := by
  apply List.ext_getElem <;> simp [energiesAfter]

/-- The first delta moves its own band, and the others move the bands after it. -/
theorem energiesAfter_cons (p : Params) (b : Nat) (d : Int) (ds env : List Int) :
    energiesAfter p b (d :: ds) env
      = energiesAfter p (b + 1) ds (env.set b (clamp (env.getD b 0 + d) p.eMin p.eMax)) := by
  apply List.ext_getElem
  · simp [energiesAfter]
  · intro i hi _
    have hlt : i < env.length := by simpa [energiesAfter] using hi
    simp only [energiesAfter, List.getElem_mapIdx, List.getElem_set, List.length_cons]
    rcases Nat.lt_trichotomy i b with h | rfl | h
    · simp [show ¬ b ≤ i by omega, show ¬ b + 1 ≤ i by omega, show b ≠ i by omega]
    · simp [List.getElem?_eq_getElem hlt]
    · obtain ⟨k, rfl⟩ : ∃ k, i = b + 1 + k := ⟨i - (b + 1), by omega⟩
      simp [show b + 1 + k - b = k + 1 by omega, show b ≤ b + 1 + k by omega,
        show b ≠ b + 1 + k by omega,
        show b + 1 + k < b + (ds.length + 1) ↔ b + 1 + k < b + 1 + ds.length by omega]

/-- What the deltas `ds` of the bands from `b` on do to channel `c`'s shadow. -/
def Shadow.moveEnergies (p : Params) (c : Ch) (b : Nat) (ds : List Int) (sh : Shadow) : Shadow :=
  sh.setChan c { sh.chan c with env := energiesAfter p b ds (sh.chan c).env }

theorem moveEnergies_nil (p : Params) (c : Ch) (b : Nat) (sh : Shadow) :
    sh.moveEnergies p c b [] = sh := by
  rw [Shadow.moveEnergies, energiesAfter_nil]
  exact shadow_setChan_chan sh c

theorem moveEnergies_cons (p : Params) (c : Ch) (b : Nat) (d : Int) (ds : List Int) (sh : Shadow) :
    (sh.moveEnergies p c b [d]).moveEnergies p c (b + 1) ds = sh.moveEnergies p c b (d :: ds) := by
  simp [Shadow.moveEnergies, energiesAfter_cons, energiesAfter_nil]

theorem noiseBand_of_offers {s : State} {c : Ch} {d : Int} {b : Nat} {p : Parse} {bs : List Bool}
    (hvalid : vlcValid (noiseTableOf s.par b) = true)
    (hsym : hasSymbol (noiseTableOf s.par b) d = true)
    (h : p.rd.Offers (codeword (noiseTableOf s.par b) d ++ bs)) :
    noiseBand s c b p = .ok { p.past (codeword (noiseTableOf s.par b) d) with
      sh := p.sh.moveEnergies s.par c b [d] } := by
  obtain ⟨n, hd⟩ := vlcDecode_of_offers hvalid hsym h
  simp only [noiseBand, hd, bind, Except.bind, Shadow.moveEnergies, energiesAfter_cons,
    energiesAfter_nil]
  rfl

/-- The deltas of a band run, ascending. -/
theorem noiseBands_of_offers {s : State} {c : Ch} {ds : List Int} {b : Nat} {p : Parse}
    {bs : List Bool} (hc : deltasCoded s.par b ds = true)
    (h : p.rd.Offers (deltaBits s.par b ds ++ bs)) : noiseBands s c ds.length b p
      = .ok { p.past (deltaBits s.par b ds) with sh := p.sh.moveEnergies s.par c b ds } := by
  induction ds generalizing b p with
  | nil =>
    rw [moveEnergies_nil]
    rfl
  | cons d ds ih =>
    simp only [deltasCoded, Bool.and_eq_true] at hc
    obtain ⟨⟨hvalid, hsym⟩, hrest⟩ := hc
    rw [deltaBits, List.append_assoc] at h
    simp only [List.length_cons, noiseBands, noiseBand_of_offers hvalid hsym h, bind, Except.bind]
    rw [ih hrest, moveEnergies_cons]
    · simp [deltaBits]
    · exact h.right

theorem noiseRunLegal_of_fits {s : State} {t fb : Nat} {ds : List Int}
    (h : noiseFits s t fb ds = true) : noiseRunLegal s t fb ds.length = true := by
  simp only [noiseFits, noiseRunLegal, Bool.and_eq_true, Bool.or_eq_true, decide_eq_true_eq,
    List.isEmpty_iff_length_eq_zero] at h ⊢
  exact h.2

theorem noisePayload_of_offers {s : State} {t fb : Nat} {c : Ch} {ds : List Int} {p : Parse}
    {bs : List Bool} (hch : chFits s c = true) (hfit : noiseFits s t fb ds = true)
    (h : p.rd.Offers (noiseBits s.par (s.cfg.channels = 2) c.index fb ds ++ bs)) :
    noisePayload s t p = .ok { p.past (noiseBits s.par (s.cfg.channels = 2) c.index fb ds) with
      sh := p.sh.moveEnergies s.par c fb ds } := by
  have legal := noiseRunLegal_of_fits hfit
  simp only [noiseFits, Bool.and_eq_true, decide_eq_true_eq] at hfit
  obtain ⟨⟨⟨hfb, hcnt⟩, hcoded⟩, _⟩ := hfit
  simp only [noiseBits, List.append_assoc] at h
  simp only [noisePayload, chsel_of_offers hch h, read_of_offers h.right hfb (by decide),
    read_of_offers h.right.right hcnt (by decide), bind, Except.bind, legal, if_true]
  rw [noiseBands_of_offers (bs := bs) hcoded]
  · simp [noiseBits]
  · exact h.right.right.right

/-- A noise sub-packet whose declared length holds its payload; unused bits are skipped. -/
theorem spNoise_of_offers {s : State} {t len fb : Nat} {c : Ch} {ds : List Int} {p : Parse}
    (hr : p.lastRank ≤ typeRank t) (hch : chFits s c = true) (hfit : noiseFits s t fb ds = true)
    (h : p.rd.Offers (msbBits 5 t ++ (msbBits 16 len
      ++ noiseBits s.par (s.cfg.channels = 2) c.index fb ds)))
    (hpay : (noiseBits s.par (s.cfg.channels = 2) c.index fb ds).length ≤ len)
    (hlen : len < 65536) (hroom : p.rd.pos + 21 + len ≤ p.rd.limit) :
    spNoise t s p = .ok (endSub { p.at (p.rd.pos + 21 + len) with
      lastRank := typeRank t, sh := p.sh.moveEnergies s.par c fb ds }) := by
  unfold spNoise
  rw [openPayload_of_offers hr h hlen hroom]
  have hbody := inPayload_offers h
  rw [← List.append_nil (noiseBits _ _ _ _ _)] at hbody
  simp only [noisePayload_of_offers hch hfit hbody, bind, Except.bind]
  exact closePayload_of_past rfl hpay hroom

/-! ### Tone records (42_packet_parser.md R175 to R180) -/

/-- The bits of a record's head (30_encoding.md R100). -/
def headBits (op band pos : Nat) : List Bool := msbBits 2 op ++ (msbBits 5 band ++ msbBits 7 pos)

theorem recordHead_of_offers {op band pos : Nat} {p : Parse} {bs : List Bool}
    (hop : op < 4) (hslot : slotFits band pos = true)
    (h : p.rd.Offers (headBits op band pos ++ bs)) :
    recordHead p = .ok (op, band, pos, p.past (headBits op band pos)) := by
  simp only [slotFits, Bool.and_eq_true, decide_eq_true_eq] at hslot
  simp only [headBits, List.append_assoc] at h
  simp only [recordHead, read_of_offers h hop (by decide),
    read_of_offers h.right hslot.1 (by decide), read_of_offers h.right.right hslot.2 (by decide),
    bind, Except.bind]
  simp only [past_past, List.append_assoc]
  rfl

/-- TONE_ADD of a legal slot past its head, with offered codewords and duration. -/
theorem toneAdd_of_offers {s : State} {tp : TonePart} {band pos r0 dur : Nat} {amp phase : Int}
    {p : Parse} {bs : List Bool} (hslot : slotLegal s tp.type band pos = true) (hamp : 0 ≤ amp)
    (hampV : vlcValid s.par.ampVlc = true) (hphaseV : vlcValid s.par.phaseVlc = true)
    (hampS : hasSymbol s.par.ampVlc amp = true) (hphaseS : hasSymbol s.par.phaseVlc phase = true)
    (hdur : dur < 16)
    (h : p.rd.Offers (codeword s.par.ampVlc amp
      ++ (codeword s.par.phaseVlc phase ++ (msbBits 4 dur ++ bs)))) :
    toneAdd s tp band pos r0 p = .ok (endRecord tp (Parse.touchTone
      (p.past (codeword s.par.ampVlc amp ++ (codeword s.par.phaseVlc phase ++ msbBits 4 dur)))
      tp.ch (slotBin s tp.type band pos) (toneOf s tp.type band pos amp phase dur))) := by
  obtain ⟨n, ha⟩ := vlcDecode_of_offers hampV hampS h
  obtain ⟨m, hph⟩ := vlcDecode_of_offers hphaseV hphaseS h.right
  simp only [toneAdd, hslot, if_true, ha, hph, read_of_offers h.right.right hdur (by decide),
    bind, Except.bind, if_neg (Int.not_lt.2 hamp)]
  simp only [past_past, List.append_assoc]
  rfl

theorem toneRefresh_of_find {s : State} {tp : TonePart} {band pos r0 : Nat} {p : Parse} {old : Tone}
    (hslot : slotLegal s tp.type band pos = true)
    (hold : Assoc.find (slotBin s tp.type band pos) (p.sh.chan tp.ch).tones = some old) :
    toneRefresh s tp band pos r0 p = .ok (endRecord tp (p.touchTone tp.ch
      (slotBin s tp.type band pos) { old with startFrame := s.frameIndex })) := by
  simp only [toneRefresh, hslot, if_true, hold]

theorem toneDelete_of_find {s : State} {tp : TonePart} {band pos r0 : Nat} {p : Parse} {old : Tone}
    (hslot : slotLegal s tp.type band pos = true)
    (hold : Assoc.find (slotBin s tp.type band pos) (p.sh.chan tp.ch).tones = some old) :
    toneDelete s tp band pos r0 p = .ok (endRecord tp (p.dropTone tp.ch
      (slotBin s tp.type band pos))) := by
  simp only [toneDelete, hslot, if_true, hold]

/-- A record whose head has been read is its operation. -/
theorem nextRecord_of_head {s : State} {p q : Parse} {tp : TonePart} {op band pos : Nat}
    (ht : p.tone = some tp) (hh : recordHead p = .ok (op, band, pos, q)) :
    nextRecord s p = toneOp op s tp band pos p.rd.pos q := by
  simp only [nextRecord, ht, hh, bind, Except.bind]

theorem add_bits (p : Params) (band pos : Nat) (amp phase : Int) (dur : Nat) :
    (RecordText.add band pos amp phase dur).bits p = headBits 0 band pos
      ++ (codeword p.ampVlc amp ++ (codeword p.phaseVlc phase ++ msbBits 4 dur)) := by
  simp [RecordText.bits, headBits]

theorem refresh_bits (p : Params) (band pos : Nat) :
    (RecordText.refresh band pos).bits p = headBits 1 band pos := by
  simp [RecordText.bits, headBits]

theorem delete_bits (p : Params) (band pos : Nat) :
    (RecordText.delete band pos).bits p = headBits 2 band pos := by
  simp [RecordText.bits, headBits]

/-- A record of the packet text does to its channel what the text says. -/
theorem nextRecord_of_offers {s : State} {p : Parse} {tp : TonePart} {r : RecordText}
    {ch : ShadowChan} {bs : List Bool} (ht : p.tone = some tp)
    (hampV : vlcValid s.par.ampVlc = true) (hphaseV : vlcValid s.par.phaseVlc = true)
    (hfit : r.fits s.par = true) (happly : r.apply s tp.type (p.sh.chan tp.ch) = some ch)
    (h : p.rd.Offers (r.bits s.par ++ bs)) :
    nextRecord s p
      = .ok (endRecord tp { p.past (r.bits s.par) with sh := p.sh.setChan tp.ch ch }) := by
  cases r with
  | add band pos amp phase dur =>
    simp only [RecordText.fits, Bool.and_eq_true, decide_eq_true_eq] at hfit
    obtain ⟨⟨⟨hslot, hdur⟩, hampS⟩, hphaseS⟩ := hfit
    simp only [RecordText.apply] at happly
    split at happly
    · next hlegal =>
      cases happly
      simp only [Bool.and_eq_true, decide_eq_true_eq] at hlegal
      simp only [add_bits, List.append_assoc] at h ⊢
      rw [nextRecord_of_head ht (recordHead_of_offers (by decide) hslot h)]
      show toneAdd s tp band pos p.rd.pos (p.past (headBits 0 band pos)) = _
      rw [toneAdd_of_offers hlegal.1 hlegal.2 hampV hphaseV hampS hphaseS hdur (bs := bs)]
      · simp [Parse.touchTone]
      · exact h.right
    · cases happly
  | refresh band pos =>
    simp only [RecordText.apply] at happly
    split at happly
    · next old hlegal hold =>
      cases happly
      rw [refresh_bits] at h ⊢
      rw [nextRecord_of_head ht (recordHead_of_offers (by decide) hfit h)]
      exact toneRefresh_of_find hlegal hold
    · cases happly
  | delete band pos =>
    simp only [RecordText.apply] at happly
    split at happly
    · next old hlegal hold =>
      cases happly
      rw [delete_bits] at h ⊢
      rw [nextRecord_of_head ht (recordHead_of_offers (by decide) hfit h)]
      exact toneDelete_of_find hlegal hold
    · cases happly

/-- The records of a tone payload, in order. -/
theorem runRecords_of_offers {s : State} {recs : List RecordText} {p : Parse} {tp : TonePart}
    {ch : ShadowChan} {bs : List Bool} (ht : p.tone = some tp)
    (hampV : vlcValid s.par.ampVlc = true) (hphaseV : vlcValid s.par.phaseVlc = true)
    (hfit : ∀ r ∈ recs, r.fits s.par = true)
    (happly : applyRecords s tp.type (p.sh.chan tp.ch) recs = some ch)
    (h : p.rd.Offers (recs.flatMap (RecordText.bits s.par) ++ bs)) :
    runRecords s recs.length p = .ok { p.past (recs.flatMap (RecordText.bits s.par)) with
      sh := p.sh.setChan tp.ch ch, tone := some { tp with left := tp.left - recs.length } } := by
  induction recs generalizing p tp with
  | nil =>
    cases happly
    have hkept : some { tp with left := tp.left - ([] : List RecordText).length } = p.tone :=
      ht.symm
    rw [shadow_setChan_chan, hkept]
    rfl
  | cons r recs ih =>
    rw [applyRecords] at happly
    split at happly
    · next ch' hr =>
      simp only [List.flatMap_cons, List.append_assoc] at h
      have hnext := nextRecord_of_offers ht hampV hphaseV (hfit r List.mem_cons_self) hr h
      simp only [List.length_cons, runRecords, hnext, bind, Except.bind]
      rw [ih (p := endRecord tp { p.past (r.bits s.par) with sh := p.sh.setChan tp.ch ch' }) rfl
        (fun q hq => hfit q (List.mem_cons_of_mem r hq)) (by simpa [endRecord] using happly)
        h.right]
      simp [endRecord, Nat.sub_sub, Nat.add_comm]
    · cases happly

/-! ### Tone sub-packets (42_packet_parser.md R170 to R175) -/

/-- The parse at the first record of a tone sub-packet of type `t` with declared length `len` and
`cnt` records for channel `c`. -/
def Parse.atRecords (stereo : Bool) (t len : Nat) (c : Ch) (cnt : Nat) (p : Parse) : Parse :=
  { (p.inPayload t).past (chBits stereo c.index ++ msbBits 6 cnt) with
    tone := some { type := t, ch := c, start := (p.inPayload t).rd.pos, len := len, left := cnt } }

/-- A tone sub-packet of a legal header, up to its first record. -/
theorem openTone_of_offers {s : State} {t len : Nat} {c : Ch} {recs : List RecordText} {p : Parse}
    (hr : p.lastRank ≤ typeRank t) (hch : chFits s c = true) (hcnt : recs.length < 64)
    (h : p.rd.Offers (msbBits 5 t ++ (msbBits 16 len
      ++ toneBits s.par (s.cfg.channels = 2) c.index recs)))
    (hlen : len < 65536) (hroom : p.rd.pos + 21 + len ≤ p.rd.limit) :
    openTone t s p = .ok (p.atRecords (s.cfg.channels = 2) t len c recs.length) := by
  unfold openTone
  rw [openPayload_of_offers hr h hlen hroom]
  have hbody := inPayload_offers h
  simp only [toneBits, List.append_assoc] at hbody
  simp only [chsel_of_offers hch hbody, read_of_offers hbody.right hcnt (by decide), bind,
    Except.bind, past_past]
  rfl

/-- A tone sub-packet whose declared length holds its payload; unused bits are skipped. -/
theorem spTone_of_offers {s : State} {t len : Nat} {c : Ch} {recs : List RecordText} {p : Parse}
    {ch : ShadowChan} (hr : p.lastRank ≤ typeRank t) (hch : chFits s c = true)
    (hcnt : recs.length < 64) (hfit : ∀ r ∈ recs, r.fits s.par = true)
    (hampV : vlcValid s.par.ampVlc = true) (hphaseV : vlcValid s.par.phaseVlc = true)
    (happly : applyRecords s t (p.sh.chan c) recs = some ch)
    (h : p.rd.Offers (msbBits 5 t ++ (msbBits 16 len
      ++ toneBits s.par (s.cfg.channels = 2) c.index recs)))
    (hpay : (toneBits s.par (s.cfg.channels = 2) c.index recs).length ≤ len)
    (hlen : len < 65536) (hroom : p.rd.pos + 21 + len ≤ p.rd.limit) :
    spTone t s p = .ok (endSub { p.at (p.rd.pos + 21 + len) with
      lastRank := typeRank t, sh := p.sh.setChan c ch }) := by
  have hbody := inPayload_offers h
  have hrun := runRecords_of_offers (p := p.atRecords (s.cfg.channels = 2) t len c recs.length)
    (bs := []) rfl hampV hphaseV hfit happly (by
      rw [List.append_nil]
      exact hbody.right)
  have hopen := openTone_of_offers hr hch hcnt h hlen hroom
  have hleft : (p.atRecords (s.cfg.channels = 2) t len c recs.length).recordsLeft
    = recs.length := rfl
  simp only [spTone, hopen, hleft, hrun, bind, Except.bind]
  exact closePayload_of_past (past_past _ _ _) hpay hroom

/-! ### Any sub-packet (42_packet_parser.md R151, R152) -/

theorem explicitBits_length (t : Nat) (payload : List Bool) :
    (explicitBits t payload).length = 21 + payload.length := by
  simp only [explicitBits, List.length_append, msbBits_length]

/-- A sub-packet of explicit length: its three parts, where it ends, and the parse there. -/
theorem explicit_of_offers {p : Parse} {t : Nat} {payload bs : List Bool}
    (h : p.rd.Offers (explicitBits t payload ++ bs)) :
    p.rd.Offers (msbBits 5 t ++ (msbBits 16 payload.length ++ payload))
      ∧ p.rd.pos + 21 + payload.length ≤ p.rd.limit
      ∧ p.past (explicitBits t payload) = p.at (p.rd.pos + 21 + payload.length) := by
  have hroom := h.left.2
  rw [explicitBits_length, ← Nat.add_assoc] at hroom
  refine ⟨?_, hroom, by rw [Parse.past, explicitBits_length, Nat.add_assoc]⟩
  rw [← List.append_assoc]
  exact h.left

/-- A sub-packet begins with its type code. -/
theorem subpacketBits_type (p : Params) (stereo : Bool) (q : SubpacketText) :
    ∃ bs, q.bits p stereo = msbBits 5 q.type ++ bs := by
  cases q <;> exact ⟨_, by simp only [SubpacketText.bits, explicitBits, List.append_assoc]; rfl⟩

theorem subpacketOf_noise {t : Nat} (h : isNoiseType t = true) : subpacketOf t = spNoise t := by
  simp only [isNoiseType, Bool.or_eq_true, beq_iff_eq] at h
  rcases h with ((((rfl | rfl) | rfl) | rfl) | rfl) | rfl <;> rfl

theorem subpacketOf_tone {t : Nat} (h : isToneType t = true) : subpacketOf t = spTone t := by
  simp only [isToneType, Bool.and_eq_true, decide_eq_true_eq] at h
  obtain ⟨hlo, hhi⟩ := h
  interval_cases t <;> rfl

theorem type_lt_of_fits {s : State} {q : SubpacketText} (h : q.fits s = true) : q.type < 32 := by
  cases q with
  | seed v | flags v => exact Nat.le_of_ble_eq_true rfl
  | noise t ch fb ds =>
    simp only [SubpacketText.fits, isNoiseType, Bool.and_eq_true, Bool.or_eq_true, beq_iff_eq] at h
    show t < 32
    omega
  | tone t ch recs =>
    simp only [SubpacketText.fits, isToneType, Bool.and_eq_true, decide_eq_true_eq] at h
    show t < 32
    omega

theorem exists_index {ch : Nat} (h : ch < 2) : ∃ c : Ch, ch = c.index :=
  ⟨chOf ch, (index_chOf h).symm⟩

/-- The rule of a sub-packet's type, where the parse stands at its bits. -/
theorem subpacketOf_of_offers {s : State} {p : Parse} {q : SubpacketText} {sh : Shadow}
    {bs : List Bool} (hr : p.lastRank ≤ typeRank q.type) (hfit : q.fits s = true)
    (happly : q.apply s p.sh = some sh)
    (h : p.rd.Offers (q.bits s.par (s.cfg.channels = 2) ++ bs)) :
    subpacketOf q.type s p = .ok (endSub { p.past (q.bits s.par (s.cfg.channels = 2)) with
      lastRank := typeRank q.type, sh := sh }) := by
  cases q with
  | seed v =>
    cases happly
    simp only [SubpacketText.bits, List.append_assoc] at h
    exact spSeed_of_offers (s := s) h (of_decide_eq_true hfit) hr
  | flags v =>
    cases happly
    simp only [SubpacketText.bits, List.append_assoc] at h
    exact spFlags_of_offers (s := s) h (of_decide_eq_true hfit) hr
  | noise t ch fb ds =>
    cases happly
    simp only [SubpacketText.fits, Bool.and_eq_true, decide_eq_true_eq] at hfit
    obtain ⟨⟨⟨⟨htype, hch⟩, hchan⟩, hnoise⟩, hlen⟩ := hfit
    obtain ⟨c, rfl⟩ := exists_index hch
    obtain ⟨hbits, hroom, hpast⟩ := explicit_of_offers h
    rw [chOf_index] at hchan ⊢
    have hsub := spNoise_of_offers hr hchan hnoise hbits (Nat.le_refl _) hlen hroom
    rw [← hpast] at hsub
    exact (subpacketOf_noise htype).symm ▸ hsub
  | tone t ch recs =>
    simp only [SubpacketText.fits, Bool.and_eq_true, decide_eq_true_eq] at hfit
    obtain ⟨⟨⟨⟨⟨⟨⟨htype, hch⟩, hchan⟩, hcnt⟩, hrecs⟩, hampV⟩, hphaseV⟩, hlen⟩ := hfit
    obtain ⟨c, rfl⟩ := exists_index hch
    obtain ⟨hbits, hroom, hpast⟩ := explicit_of_offers h
    rw [chOf_index] at hchan
    simp only [SubpacketText.apply, chOf_index] at happly
    split at happly
    · next v hv =>
      cases happly
      have hsub := spTone_of_offers hr hchan hcnt (List.all_eq_true.1 hrecs) hampV hphaseV hv hbits
        (Nat.le_refl _) hlen hroom
      rw [← hpast] at hsub
      exact (subpacketOf_tone htype).symm ▸ hsub
    · cases happly

/-- A sub-packet of the packet text, found by its type field. -/
theorem nextSubpacket_of_offers {s : State} {p : Parse} {q : SubpacketText} {sh : Shadow}
    {bs : List Bool} (hr : p.lastRank ≤ typeRank q.type) (hfit : q.fits s = true)
    (happly : q.apply s p.sh = some sh)
    (h : p.rd.Offers (q.bits s.par (s.cfg.channels = 2) ++ bs)) :
    nextSubpacket s p = .ok (endSub { p.past (q.bits s.par (s.cfg.channels = 2)) with
      lastRank := typeRank q.type, sh := sh }) := by
  obtain ⟨rest, htype⟩ := subpacketBits_type s.par (s.cfg.channels = 2) q
  have hpeek : p.rd.peek 5 = .ok q.type :=
    peek_of_offers (bs := rest) (htype ▸ h.left) (type_lt_of_fits hfit) (by decide)
  simp only [nextSubpacket, hpeek, bind, Except.bind]
  exact subpacketOf_of_offers hr hfit happly h

/-- The sub-packets of a packet, in order. -/
theorem runSubpackets_of_offers {s : State} {subs : List SubpacketText} {p : Parse} {sh : Shadow}
    {bs : List Bool} (hfit : ∀ q ∈ subs, q.fits s = true)
    (happly : applySubpackets s p.lastRank p.sh subs = some sh)
    (h : p.rd.Offers (subs.flatMap (SubpacketText.bits s.par (s.cfg.channels = 2)) ++ bs)) :
    ∃ r, runSubpackets s subs.length p = .ok r ∧ r.sh = sh := by
  induction subs generalizing p with
  | nil =>
    cases happly
    exact ⟨p, rfl, rfl⟩
  | cons q subs ih =>
    rw [applySubpackets] at happly
    split at happly
    · cases happly
    · next hr =>
      split at happly
      · next sh' hq =>
        simp only [List.flatMap_cons, List.append_assoc] at h
        have hnext := nextSubpacket_of_offers (Nat.le_of_not_lt hr) (hfit q List.mem_cons_self) hq h
        simp only [List.length_cons, runSubpackets, hnext, bind, Except.bind]
        exact ih (fun r hr => hfit r (List.mem_cons_of_mem q hr)) happly h.right
      · cases happly

/-! ### Reserved elements (42_packet_parser.md R152, R179) -/

theorem spReserved_raises {s : State} {p : Parse} (h : p.rd.pos + 5 ≤ p.rd.limit) :
    spReserved s p = .error (.raised .kMalformed p.rd.pos) := by
  simp only [spReserved, read_ok (by decide) h, bind, Except.bind]

/-- Settles O38: neither rule looks past its code, and what it raises is recovered from. -/
theorem reservedElementsRaise : Obligations.ReservedElementsRaise := by
  refine ⟨fun s p i ha he hroom hi => ?_, fun s p tp band pos ha ht hl hroom => ?_⟩
  · have hraise : onSubpacket spReserved s = _ := onSubpacket_raised ha he (spReserved_raises hroom)
    rcases hi with rfl | ⟨t, rfl⟩ | ⟨t, rfl⟩ <;> exact hraise
  · exact onRecord_raised (act := toneReserved) ha ht hl hroom rfl

end Sys2Proof.Machine
end

section
/-!
PROOFS. The packet an encoder writes (30_encoding.md R88 to R90, R105), read back: its bytes hold
the bits of the text, its checksum is the one the parser computes (42_packet_parser.md R150), and so
the parse of the packet is the parse of its sub-packets.
-/

namespace Sys2Proof.Machine

open Sys2Proof

/-! ### Bits packed into bytes (00_scope.md R8) -/

theorem msbValue_lt (bs : List Bool) : msbValue bs < 2 ^ bs.length := by
  induction bs with
  | nil => exact Nat.one_pos
  | cons b bs ih =>
    have hb : b.toNat * 2 ^ bs.length ≤ 1 * 2 ^ bs.length :=
      Nat.mul_le_mul_right _ (Bool.toNat_le b)
    rw [msbValue, List.length_cons, Nat.pow_succ]
    omega

/-- Bit `i` of a value, counted from the most significant, is the `i`-th of its bits. -/
theorem msbValue_digit : ∀ (bs : List Bool) (i : Nat), i < bs.length →
    msbValue bs / 2 ^ (bs.length - 1 - i) % 2 = (bs.getD i false).toNat
  | [], _, h => by simp at h
  | b :: bs, 0, _ => by
    have hlt := msbValue_lt bs
    rw [msbValue, List.length_cons, Nat.add_sub_cancel, Nat.sub_zero, Nat.add_comm,
      Nat.add_mul_div_right _ _ (Nat.two_pow_pos _), Nat.div_eq_of_lt hlt, Nat.zero_add]
    exact Nat.mod_eq_of_lt (Bool.toNat_lt b)
  | b :: bs, i + 1, h => by
    have hi : i < bs.length := by simpa using h
    have hpow : 2 ^ bs.length = 2 ^ i * 2 * 2 ^ (bs.length - 1 - i) := by
      rw [← Nat.pow_succ, ← Nat.pow_add]
      congr 1
      omega
    rw [msbValue, List.length_cons, show bs.length + 1 - 1 - (i + 1) = bs.length - 1 - i by omega,
      hpow, ← Nat.mul_assoc, Nat.add_comm, Nat.add_mul_div_right _ _ (Nat.two_pow_pos _),
      ← Nat.mul_assoc, Nat.add_mul_mod_self_right, msbValue_digit bs i hi]
    rfl

/-- The first 8 bits, padded with zero bits. -/
def padByte (bs : List Bool) : List Bool :=
  bs.take 8 ++ List.replicate (8 - (bs.take 8).length) false

theorem padByte_length (bs : List Bool) : (padByte bs).length = 8 := by
  simp [padByte]

theorem padByte_getD (bs : List Bool) {j : Nat} (hj : j < 8) :
    (padByte bs).getD j false = bs.getD j false := by
  have hlen : (bs.take 8).length = min 8 bs.length := List.length_take
  by_cases hin : j < bs.length
  · rw [padByte, List.getD_append _ _ _ _ (by omega)]
    simp only [List.getD_eq_getElem?_getD, List.getElem?_take, hj, if_true]
  · rw [padByte, List.getD_append_right _ _ _ _ (by omega), List.getD_replicate _ (by omega),
      List.getD_eq_default _ _ (by omega)]

theorem packBits_length : ∀ (n : Nat) (bs : List Bool), (packBits n bs).length = n
  | 0, _ => rfl
  | n + 1, bs => by rw [packBits, List.length_cons, packBits_length n]

theorem packBits_getD : ∀ (n i : Nat) (bs : List Bool), i < n →
    (packBits n bs).getD i 0 = BitVec.ofNat 8 (msbValue (padByte (bs.drop (8 * i))))
  | 0, _, _, h => by omega
  | n + 1, 0, bs, _ => rfl
  | n + 1, i + 1, bs, h => by
    rw [packBits, List.getD_cons_succ, packBits_getD n i _ (by omega), List.drop_drop,
      Nat.mul_succ, Nat.add_comm]

/-- A reader of a buffer that begins with packed bits reads those bits. -/
theorem bit_of_packBits {rd : BitReader} {n : Nat} {bs : List Bool} {tail : List Byte}
    (hbuf : rd.buf = packBits n bs ++ tail) {p : Nat} (hp : p < 8 * n) :
    rd.bit p = (bs.getD p false).toNat := by
  have hbyte : p / 8 < n := by omega
  have hlt := msbValue_lt (padByte (bs.drop (8 * (p / 8))))
  have hdigit := msbValue_digit (padByte (bs.drop (8 * (p / 8)))) (p % 8)
  rw [padByte_length] at hlt hdigit
  rw [BitReader.bit, hbuf, List.getD_append _ _ _ _ (by rwa [packBits_length]),
    packBits_getD n _ bs hbyte, BitVec.toNat_ofNat, Nat.mod_eq_of_lt hlt]
  rw [hdigit (by omega), padByte_getD _ (by omega)]
  simp only [List.getD_eq_getElem?_getD, List.getElem?_drop, Nat.div_add_mod]

/-! ### The checksum (30_encoding.md R90; 42_packet_parser.md R150) -/

/-- CHECKSUM's sum over the body of a packet. -/
def bodySum (p : Params) (t : Nat) (body : List Byte) : BitVec 16 :=
  body.foldl (fun acc b => acc + b.setWidth 16) (checksumOf p t)

/-- A body with its checksum behind it. -/
def sealBody (p : Params) (t : Nat) (body : List Byte) : List Byte :=
  body ++ [BitVec.ofNat 8 ((bodySum p t body).toNat / 256), BitVec.ofNat 8 (bodySum p t body).toNat]

theorem sealBody_length (p : Params) (t : Nat) (body : List Byte) :
    (sealBody p t body).length = body.length + 2 := by
  simp [sealBody]

/-- The parser's sum of a sealed packet, whose first byte is its sf_type. -/
theorem packetSum_sealBody {p : Params} {t : Nat} {body : List Byte}
    (ht : ((sealBody p t body).getD 0 0).toNat = t) :
    packetSum p (sealBody p t body) = bodySum p t body := by
  rw [packetSum, ht, sealBody_length, Nat.add_sub_cancel, sealBody, List.take_left]
  rfl

/-- The checksum field of a sealed packet is the sum it was sealed with. -/
theorem checksumField_sealBody (p : Params) (t : Nat) (body : List Byte) :
    checksumField (sealBody p t body) = bodySum p t body := by
  have hlt := (bodySum p t body).isLt
  rw [checksumField, sealBody_length, Nat.add_sub_cancel, be16, sealBody,
    List.getD_append_right _ _ _ _ (Nat.le_refl _), List.getD_append_right _ _ _ _ (by omega),
    Nat.sub_self, Nat.add_sub_cancel_left]
  apply BitVec.eq_of_toNat_eq
  simp only [List.getD_cons_zero, List.getD_cons_succ, BitVec.toNat_ofNat]
  omega

/-! ### The packet -/

/-- The bits of a packet's body: the superframe header and the sub-packets. -/
def packetBits (p : Params) (stereo : Bool) (sfType : Nat) (subs : List SubpacketText) :
    List Bool :=
  msbBits 8 sfType ++ (msbBits 8 subs.length ++ subs.flatMap (SubpacketText.bits p stereo))

theorem encodePacket_eq (p : Params) (stereo : Bool) (size sfType : Nat)
    (subs : List SubpacketText) : encodePacket p stereo size sfType subs
      = sealBody p sfType (packBits (size - 2) (packetBits p stereo sfType subs)) := by
  rw [packetBits, ← List.append_assoc]
  rfl

/-- The bits of a body that fits stand at the start of its packet. -/
theorem start_offers {p : Params} {t n : Nat} {bs : List Bool} (h : bs.length ≤ 8 * n) :
    (BitReader.start (sealBody p t (packBits n bs))).Offers bs := by
  refine ⟨fun i hi => ?_, ?_⟩
  · rw [show (BitReader.start (sealBody p t (packBits n bs))).pos + i = i from Nat.zero_add i]
    exact bit_of_packBits rfl (by omega)
  · simpa [BitReader.start, sealBody_length, packBits_length] using h

/-- A reader's first byte as a field. -/
theorem bits_first_byte (rd : BitReader) : rd.bits 0 8 = (rd.buf.getD 0 0).toNat := by
  rw [bits_eq rd 8 0 (rd.buf.getD 0 0).toNat fun i hi => ?_, Nat.mod_eq_of_lt (BitVec.isLt _)]
  rw [BitReader.bit, Nat.zero_add, Nat.div_eq_of_lt hi, Nat.mod_eq_of_lt hi]

/-- The start of a sealed packet's parse: its checksum holds, and the superframe header is read. -/
theorem startParse_sealBody {s : State} {via : Via} {t cnt n : Nat} {rest : List Bool}
    {packet : List Byte} (ht : t < 256) (hcnt : cnt < 256)
    (hpacket : packet = sealBody s.par t (packBits n (msbBits 8 t ++ (msbBits 8 cnt ++ rest))))
    (hfit : (msbBits 8 t ++ (msbBits 8 cnt ++ rest)).length ≤ 8 * n) :
    startParse s via packet = .ok
      { via := via, rd := (BitReader.start packet).past (msbBits 8 t ++ msbBits 8 cnt),
        sh := Shadow.ofState s, left := cnt, lastRank := 0, tone := none } := by
  have h := start_offers (p := s.par) (t := t) hfit
  rw [← hpacket] at h
  have hfirst : (packet.getD 0 0).toNat = t :=
    (bits_first_byte (BitReader.start packet)).symm.trans (bits_of_offers h ht)
  have hsum : packetSum s.par packet = checksumField packet := by
    subst hpacket
    rw [packetSum_sealBody hfirst, checksumField_sealBody]
  rw [startParse, if_neg (not_not.2 hsum)]
  simp only [read_of_offers h ht (by decide), read_of_offers h.right hcnt (by decide), bind,
    Except.bind, past_past]
  rfl

/-- Settles O60: the parse of the packet starts at the bits of the first sub-packet, and runs
through those of all. -/
theorem encodedPacketDecodes : Obligations.EncodedPacketDecodes := by
  intro s via size sfType subs sh _ hsf hsubs hfits hroom happly
  have hfit : (packetBits s.par (s.cfg.channels = 2) sfType subs).length ≤ 8 * (size - 2) := by
    simp only [packetBits, List.length_append, msbBits_length]
    omega
  have hpacket := encodePacket_eq s.par (s.cfg.channels = 2) size sfType subs
  have hstart := startParse_sealBody (via := via) hsf hsubs hpacket hfit
  have hbits := (start_offers (p := s.par) (t := sfType) hfit).right.right
  rw [past_past, ← List.append_nil (List.flatMap _ _), ← encodePacket_eq] at hbits
  obtain ⟨q, hrun, hq⟩ := runSubpackets_of_offers
    (p := ⟨via, _, Shadow.ofState s, subs.length, 0, none⟩) hfits happly hbits
  refine .inl ⟨q, ?_, by rw [hq]⟩
  simp only [parsePacket, hstart, bind, Except.bind]
  exact hrun

end Sys2Proof.Machine
end

section
/-!
PROOFS. The bit reader and VLC.decode by themselves (40_bitreader_vlc.md R120 to R131): what PEEK and
READ give, what a valid table's codewords decode to, and the error where no codeword stands.
-/

namespace Sys2Proof.Machine

open Sys2Proof

/-! ### The bits a reader reads (40_bitreader_vlc.md R120 to R122) -/

/-- The value of a run of bits, the first the most significant. -/
theorem bits_eq_sum (rd : BitReader) : ∀ n p,
    rd.bits p n = ∑ i ∈ Finset.range n, rd.bit (p + i) * 2 ^ (n - 1 - i)
  | 0, _ => rfl
  | n + 1, p => by
    rw [BitReader.bits, bits_eq_sum rd n (p + 1), Finset.sum_range_succ', Nat.add_comm]
    congr 1
    refine Finset.sum_congr rfl fun i _ => ?_
    rw [show p + 1 + i = p + (i + 1) by omega, show n - 1 - i = n + 1 - 1 - (i + 1) by omega]

/-- A binary digit of a run of bits is the bit at its place. -/
theorem digit_bits (rd : BitReader) : ∀ (n p i : Nat), i < n →
    rd.bits p n / 2 ^ (n - 1 - i) % 2 = rd.bit (p + i)
  | n + 1, p, 0, _ => by
    have hlow := bits_lt rd n (p + 1)
    rw [BitReader.bits, Nat.mul_comm, show n + 1 - 1 - 0 = n by omega,
      Nat.mul_add_div (Nat.two_pow_pos n), Nat.div_eq_of_lt hlow, Nat.add_zero, Nat.add_zero,
      Nat.mod_eq_of_lt (bit_lt_two rd p)]
  | n + 1, p, i + 1, h => by
    have ih := digit_bits rd n (p + 1) i (by omega)
    have hpow : 2 ^ n = 2 ^ (n - 1 - i) * (2 * 2 ^ i) := by
      rw [← Nat.pow_succ', ← Nat.pow_add]
      congr 1
      omega
    rw [BitReader.bits, show n + 1 - 1 - (i + 1) = n - 1 - i by omega, hpow, Nat.mul_left_comm,
      Nat.mul_add_div (Nat.two_pow_pos _), Nat.mul_left_comm, Nat.mul_add_mod, ih,
      show p + 1 + i = p + (i + 1) by omega]

/-- A reader holds the bits of the value it reads. -/
theorem holds_msbBits_bits (rd : BitReader) (n : Nat) :
    rd.holds (msbBits n (rd.bits rd.pos n)) := by
  intro i hi
  rw [msbBits_length] at hi
  rw [msbBits_getD _ _ _ hi, digit_bits rd n rd.pos i hi]
  have := bit_lt_two rd (rd.pos + i)
  interval_cases rd.bit (rd.pos + i) <;> rfl

theorem read_of_peek_ok {rd : BitReader} {n v : Nat} (h : rd.peek n = .ok v) :
    rd.read n = .ok (v, { rd with pos := rd.pos + n }) := by
  rw [BitReader.read, h]

theorem read_of_peek_error {rd : BitReader} {n : Nat} {e : Stop} (h : rd.peek n = .error e) :
    rd.read n = .error e := by
  rw [BitReader.read, h]

/-- SKIP of bits that are readable. -/
theorem skip_of_le {rd : BitReader} {n : Nat} (h : rd.pos + n ≤ rd.limit) :
    rd.skip n = .ok { rd with pos := rd.pos + n } :=
  if_neg (by omega)

/-- PEEK succeeds on readable bits only. -/
theorem le_limit_of_peek {rd : BitReader} {n v : Nat} (h : rd.peek n = .ok v) :
    rd.pos + n ≤ rd.limit := by
  unfold BitReader.peek at h
  split at h
  · cases h
  · split at h
    · cases h
    · omega

/-- Settles O32: PEEK is its three cases, and READ fails or succeeds with it. -/
theorem peekAndRead : Obligations.PeekAndRead := by
  intro rd n
  refine ⟨by rw [BitReader.peek, bits_eq_sum], ?_⟩
  cases hp : rd.peek n with
  | error e => simp [read_of_peek_error hp]
  | ok v =>
    rw [read_of_peek_ok hp]
    have hskip := skip_of_le (le_limit_of_peek hp)
    refine ⟨fun w rd' => ⟨?_, ?_⟩, fun e => by simp⟩
    · intro h
      cases h
      exact ⟨rfl, rfl, hskip⟩
    · rintro ⟨h, rfl, _⟩
      cases h
      rfl

/-! ### Where no codeword stands (40_bitreader_vlc.md R128) -/

/-- A valid table has a used entry. -/
theorem exists_used_of_vlcValid {t : VlcTable} (ht : vlcValid t = true) : ∃ e ∈ t, e.len ≠ 0 := by
  simp only [vlcValid, Bool.and_eq_true, List.any_eq_true, decide_eq_true_eq] at ht
  exact ht.1.1.2

/-- The maximum length M is that of an entry, or 0. -/
theorem vlcMax_eq_zero_or_len (t : VlcTable) : vlcMax t = 0 ∨ ∃ e ∈ t, e.len = vlcMax t := by
  refine List.foldlRecOn t _ (motive := fun m => m = 0 ∨ ∃ e ∈ t, e.len = m) (.inl rfl) ?_
  intro m hm e he
  rcases max_choice m e.len with h | h
  · rwa [h]
  · exact .inr ⟨e, he, h.symm⟩

theorem vlcMax_pos {t : VlcTable} (ht : vlcValid t = true) : 0 < vlcMax t := by
  obtain ⟨e, he, hused⟩ := exists_used_of_vlcValid ht
  have := len_le_vlcMax he
  omega

/-- Some entry of a valid table runs past a limit exactly when one of the maximum length M does. -/
theorem exists_len_past_iff {t : VlcTable} (ht : vlcValid t = true) (pos limit : Nat) :
    (∃ e ∈ t, limit < pos + e.len) ↔ limit < pos + vlcMax t := by
  constructor
  · rintro ⟨e, he, h⟩
    have := len_le_vlcMax he
    omega
  · intro h
    have hpos := vlcMax_pos ht
    rcases vlcMax_eq_zero_or_len t with h0 | ⟨e, he, hlen⟩
    · omega
    · exact ⟨e, he, hlen ▸ h⟩

/-- No codeword of `codes` stands in the readable bits. -/
def BitReader.NoneOf (rd : BitReader) (codes : List Code) : Prop :=
  ∀ c ∈ codes, rd.pos + c.len ≤ rd.limit → rd.bits rd.pos c.len ≠ c.code

/-- Where no codeword stands, VLC.decode's loop goes from a readable length to the next. -/
theorem vlcScan_next {codes : List Code} {rd : BitReader} (h : rd.NoneOf codes) {n l : Nat}
    (hl : l ≤ 32) (hroom : rd.pos + l ≤ rd.limit) :
    vlcScan codes rd (n + 1) l = vlcScan codes rd n (l + 1) := by
  have hpeek : rd.peek l = .ok (rd.bits rd.pos l) := by
    rw [BitReader.peek, if_neg (by omega), if_neg (by omega)]
  have hnone : codes.find? (fun c => c.len = l && c.code = rd.bits rd.pos l) = none := by
    rw [List.find?_eq_none]
    intro c hc hfound
    simp only [Bool.and_eq_true, decide_eq_true_eq] at hfound
    obtain ⟨rfl, hcode⟩ := hfound
    exact h c hc hroom hcode.symm
  rw [vlcScan, if_neg (by omega), hpeek]
  simp only [hnone]

/-- Where no codeword stands, VLC.decode's loop over the lengths from `l` to `l + n` ends in
kTruncated at the first length that is not readable, and in kInvalidCode if all are. -/
theorem vlcScan_of_noneOf {codes : List Code} {rd : BitReader} (h : rd.NoneOf codes) :
    ∀ n l, l + n ≤ 32 → vlcScan codes rd (n + 1) l = .error
      (.raised (if rd.limit < rd.pos + (l + n) then .kTruncated else .kInvalidCode) rd.pos)
  | n, l, hl => by
    by_cases htrunc : rd.limit < rd.pos + l
    · rw [vlcScan, if_pos htrunc, if_pos (by omega)]
    · rw [vlcScan_next h (by omega) (by omega)]
      cases n with
      | zero => rw [vlcScan, Nat.add_zero, if_neg htrunc]
      | succ n =>
        rw [vlcScan_of_noneOf h n (l + 1) (by omega), Nat.add_assoc, Nat.add_comm 1 n]

/-- VLC.decode of a valid table where no codeword stands. -/
theorem vlcDecode_of_noneOf {t : VlcTable} (ht : vlcValid t = true) {rd : BitReader}
    (h : rd.NoneOf (vlcCodes t)) :
    vlcDecode t rd = .error (.raised
      (if rd.limit < rd.pos + vlcMax t then .kTruncated else .kInvalidCode) rd.pos) := by
  have hmax := vlcMax_le (vlcValid_spec ht).lens
  obtain ⟨n, hn⟩ := Nat.exists_eq_add_of_lt (vlcMax_pos ht)
  rw [Nat.zero_add] at hn
  rw [vlcDecode, hn, vlcScan_of_noneOf h n 1 (by omega), Nat.add_comm 1 n]

/-- Every codeword of a valid table is the one the encoder writes for a used entry. -/
theorem entry_of_code {t : VlcTable} (ht : vlcValid t = true) {c : Code} (hc : c ∈ vlcCodes t) :
    ∃ e ∈ t, e.len = c.len ∧ codeword t e.sym = msbBits c.len c.code := by
  obtain ⟨e, he, hlen, hsym⟩ := vlcCodes_entry t hc
  have hused := (vlcCodes_len t hc).1
  obtain ⟨d, hd, _, hdsym, hword⟩ := codeword_of_entry ht he (by omega)
  obtain rfl := List.inj_on_of_nodup_map (vlcValid_spec ht).distinct hd hc (hdsym.trans hsym)
  exact ⟨e, he, hlen, hword⟩

/-- No codeword stands in the readable bits when those of the used entries do not. -/
theorem noneOf_of_entries {t : VlcTable} (ht : vlcValid t = true) {rd : BitReader}
    (h : ∀ e ∈ t, e.len ≠ 0 → rd.holds (codeword t e.sym) → rd.limit < rd.pos + e.len) :
    rd.NoneOf (vlcCodes t) := by
  intro c hc hroom hbits
  obtain ⟨e, he, hlen, hword⟩ := entry_of_code ht hc
  have hused := (vlcCodes_len t hc).1
  have hheld : rd.holds (codeword t e.sym) := by
    rw [hword, ← hbits]
    exact holds_msbBits_bits rd c.len
  have := h e he (by omega) hheld
  omega

/-- A codeword of a used entry is as long as the entry says. -/
theorem codeword_length {t : VlcTable} (ht : vlcValid t = true) {e : VlcEntry} (he : e ∈ t)
    (hused : e.len ≠ 0) : (codeword t e.sym).length = e.len := by
  obtain ⟨c, _, hlen, _, hword⟩ := codeword_of_entry ht he hused
  rw [hword, msbBits_length, hlen]

/-- Settles O33: a codeword that stands in the readable bits is found at its length; where none does,
the loop runs up to the maximum length M or to the last readable bit. -/
theorem vlcRoundTrip : Obligations.VlcRoundTrip := by
  intro t rd ht
  constructor
  · intro e he hused hheld hroom
    have hlen := codeword_length ht he hused
    have hoffers : rd.Offers (codeword t e.sym ++ []) := by
      rw [List.append_nil]
      exact ⟨hheld, by rwa [hlen]⟩
    rw [vlcDecode_of_entry ht he hused hoffers, BitReader.past, hlen]
    rfl
  · intro hnone
    simp only [vlcDecode_of_noneOf ht (noneOf_of_entries ht hnone), exists_len_past_iff ht]

/-! ### Valid tables and the configuration (40_bitreader_vlc.md R126) -/

/-- Every table of an assignment that passes the check is valid. -/
theorem vlcValid_of_paramsValid {p : Params} (hp : paramsValid p = true) {t : VlcTable}
    (ht : t ∈ p.noiseVlc ∨ t = p.ampVlc ∨ t = p.phaseVlc) : vlcValid t = true := by
  rcases ht with ht | rfl | rfl
  · simp only [paramsValid, Bool.and_eq_true, List.all_eq_true] at hp
    obtain ⟨⟨⟨⟨⟨_, hnoise⟩, _⟩, _⟩, _⟩, _⟩ := hp
    exact hnoise t ht
  · exact (paramsValid_spec hp).amp
  · exact (paramsValid_spec hp).phaseTable

/-- An assignment that fails the check is refused as a configuration. -/
theorem configured_refused {p : Params} (h : ¬ paramsValid p = true) :
    State.configured p = .error .badParameters := if_neg h

/-- Settles O34: the codewords come in increasing order, and one invalid table fails the check. -/
theorem vlcPrefixFree : Obligations.VlcPrefixFree := by
  refine ⟨fun _ _ _ _ hc hd hne hlen => vlcCodes_prefixFree hc hd hne hlen, ?_⟩
  intro p t hinvalid ht
  refine configured_refused fun hp => ?_
  rw [vlcValid_of_paramsValid hp ht] at hinvalid
  cases hinvalid

end Sys2Proof.Machine
end

section
/-!
PROOFS. The extradata record and its chunks (41_extradata.md R141, R144; 30_encoding.md R85, R87):
big-endian words written to bytes and read back, the bytes a parsed record serialises to, what a
legal record constructs, and what each chunk does at its place.
-/

namespace Sys2Proof.Machine

open Sys2Proof

/-! ### Big-endian words in bytes (00_scope.md R9; 20_memory.md R66) -/

theorem be32_lt (b : List Byte) (o : Nat) : be32 b o < 2 ^ 32 := by
  have h0 := (b.getD o 0).isLt
  have h1 := (b.getD (o + 1) 0).isLt
  have h2 := (b.getD (o + 2) 0).isLt
  have h3 := (b.getD (o + 2 + 1) 0).isLt
  rw [be32, be16, be16]
  omega

/-- A word past the first bytes is the word of what follows them. -/
theorem be32_append_right (as bs : List Byte) (o : Nat) :
    be32 (as ++ bs) (as.length + o) = be32 bs o := by
  have byte : ∀ i, (as ++ bs).getD (as.length + i) 0 = bs.getD i 0 := fun i => by
    rw [List.getD_append_right _ _ _ _ (Nat.le_add_right _ _), Nat.add_sub_cancel_left]
  simp only [be32, be16, Nat.add_assoc, byte]

theorem be32Bytes_length (v : Nat) : (be32Bytes v).length = 4 := rfl

/-- A word reads as it was written. -/
theorem be32_be32Bytes {v : Nat} (h : v < 2 ^ 32) (rest : List Byte) :
    be32 (be32Bytes v ++ rest) 0 = v := by
  simp only [be32, be16, be32Bytes, List.cons_append, List.getD_cons_zero, List.getD_cons_succ,
    Nat.zero_add, BitVec.toNat_ofNat]
  omega

/-- Each word of a run of words reads as it was written. -/
theorem be32_flatMap : ∀ {ws : List Nat}, (∀ w ∈ ws, w < 2 ^ 32) → ∀ (rest : List Byte) (i : Nat),
    i < ws.length → be32 (ws.flatMap be32Bytes ++ rest) (4 * i) = ws.getD i 0
  | [], _, _, _, hi => absurd hi (Nat.not_lt_zero _)
  | w :: ws, hw, rest, 0, _ => by
    rw [List.flatMap_cons, List.append_assoc]
    exact be32_be32Bytes (hw w List.mem_cons_self) _
  | w :: ws, hw, rest, i + 1, hi => by
    rw [List.flatMap_cons, List.append_assoc, Nat.mul_succ, Nat.add_comm, ← be32Bytes_length w,
      be32_append_right, be32Bytes_length, List.getD_cons_succ]
    exact be32_flatMap (fun v hv => hw v (List.mem_cons_of_mem w hv)) rest i
      (Nat.lt_of_succ_lt_succ hi)

theorem be32Bytes_be32_cons (c0 c1 c2 c3 : Byte) (rest : List Byte) :
    be32Bytes (be32 (c0 :: c1 :: c2 :: c3 :: rest) 0) = [c0, c1, c2, c3] := by
  have h0 := c0.isLt
  have h1 := c1.isLt
  have h2 := c2.isLt
  have h3 := c3.isLt
  simp only [be32Bytes, be32, be16, List.getD_cons_zero, List.getD_cons_succ, Nat.zero_add,
    List.cons.injEq, and_true]
  refine ⟨?_, ?_, ?_, ?_⟩ <;>
    · apply BitVec.eq_of_toNat_eq
      rw [BitVec.toNat_ofNat]
      omega

/-- The word at an offset is the first of what stands from there on. -/
theorem be32_eq_drop {b : List Byte} {o : Nat} (h : o ≤ b.length) :
    be32 b o = be32 (b.drop o) 0 := by
  have hword := be32_append_right (b.take o) (b.drop o) 0
  rwa [List.take_append_drop, List.length_take_of_le h] at hword

/-- Four bytes of a blob are those of the word they read as. -/
theorem be32Bytes_be32 {b : List Byte} {o : Nat} (h : o + 4 ≤ b.length) :
    be32Bytes (be32 b o) = (b.drop o).take 4 := by
  rw [be32_eq_drop (by omega)]
  have hlen : 4 ≤ (b.drop o).length := by rw [List.length_drop]; omega
  match b.drop o, hlen with
  | c0 :: c1 :: c2 :: c3 :: rest, _ => exact be32Bytes_be32_cons c0 c1 c2 c3 rest

/-- The first bytes of a blob are those of the words they read as. -/
theorem take_eq_flatMap_be32 {b : List Byte} : ∀ {n : Nat}, 4 * n ≤ b.length →
    b.take (4 * n) = ((List.range n).map fun i => be32 b (4 * i)).flatMap be32Bytes
  | 0, _ => rfl
  | n + 1, h => by
    rw [Nat.mul_succ, List.take_add, take_eq_flatMap_be32 (by omega), List.range_succ,
      List.map_append, List.flatMap_append, List.map_singleton, List.flatMap_singleton,
      be32Bytes_be32 (by omega)]

/-! ### The record of a blob (41_extradata.md R141, R144) -/

/-- A blob the parser accepts is long enough and has the sizes and the tags of its two chunks. -/
theorem extradataParse_header {b : List Byte} {r : ExtraRec} (h : extradataParse b = .ok r) :
    48 ≤ b.length ∧ be32 b 0 = 12 ∧ be32 b 4 = tagFrma ∧ be32 b 8 = tagQdm2 ∧ be32 b 12 = 36
      ∧ be32 b 16 = tagQdca := by
  unfold extradataParse at h
  split_ifs at h with hlen hsize0 hfrma hcodec hsize1 hqdca
  all_goals cases h
  exact ⟨Nat.le_of_not_lt hlen, not_not.1 hsize0, not_not.1 hfrma, not_not.1 hcodec,
    not_not.1 hsize1, not_not.1 hqdca⟩

theorem toNat_ofNat_be32 (b : List Byte) (o : Nat) :
    (BitVec.ofNat 32 (be32 b o)).toNat = be32 b o :=
  (BitVec.toNat_ofNat _ _).trans (Nat.mod_eq_of_lt (be32_lt b o))

/-- The words of a blob with the parser's sizes and tags are those its record serialises. -/
theorem serialise_of_parse {b : List Byte} {r : ExtraRec} (h : extradataParse b = .ok r) :
    r.serialise = ((List.range 12).map fun i => be32 b (4 * i)).flatMap be32Bytes := by
  obtain ⟨_, hsize0, hfrma, hcodec, hsize1, hqdca⟩ := extradataParse_header h
  obtain ⟨rfl, _⟩ := extradataParse_ok h
  show _ = [be32 b 0, be32 b 4, be32 b 8, be32 b 12, be32 b 16, be32 b 20, be32 b 24, be32 b 28,
    be32 b 32, be32 b 36, be32 b 40, be32 b 44].flatMap be32Bytes
  rw [hsize0, hfrma, hcodec, hsize1, hqdca]
  simp only [ExtraRec.serialise, qdcaRecord, toNat_ofNat_be32]

/-- Settles O17: the record's words are the blob's first twelve. -/
theorem extradataRoundTrip : Obligations.ExtradataRoundTrip := by
  intro b r h
  obtain ⟨hlen, _⟩ := extradataParse_header h
  have htake : r.serialise = b.take 48 := by
    rw [serialise_of_parse h, ← take_eq_flatMap_be32 (n := 12) hlen]
  exact ⟨htake, fun h48 => by rw [htake, ← h48, List.take_length]⟩

/-- The words of a record's QDCA chunk (30_encoding.md R85). -/
def ExtraRec.qdcaWords (r : ExtraRec) : List Nat :=
  [36, tagQdca, r.version.toNat, r.channels.toNat, r.sampleRate.toNat, r.bitrate.toNat,
    r.blockSize.toNat, r.frameSize.toNat, r.packetSize.toNat]

/-- Past its frma chunk a record serialises to its QDCA chunk. -/
theorem serialise_drop_frma (r : ExtraRec) :
    r.serialise.drop 12 = r.qdcaWords.flatMap be32Bytes := rfl

theorem qdcaWords_lt (r : ExtraRec) : ∀ w ∈ r.qdcaWords, w < 2 ^ 32 := by
  simp only [ExtraRec.qdcaWords, List.forall_mem_cons]
  exact ⟨by decide, by decide, r.version.isLt, r.channels.isLt, r.sampleRate.isLt, r.bitrate.isLt,
    r.blockSize.isLt, r.frameSize.isLt, r.packetSize.isLt, nofun⟩

/-- A word of a blob with a record's QDCA chunk at offset 12. -/
theorem be32_qdca (pre rest : List Byte) (r : ExtraRec) (hpre : pre.length = 12) {i : Nat}
    (hi : i < 9) :
    be32 (pre ++ r.serialise.drop 12 ++ rest) (12 + 4 * i) = r.qdcaWords.getD i 0 := by
  rw [serialise_drop_frma, List.append_assoc, ← hpre, be32_append_right]
  exact be32_flatMap (qdcaWords_lt r) rest i hi

/-- The QDCA chunk of a legal record passes the checks and gives the record back. -/
theorem qdca_of_serialise {b pre rest : List Byte} {r : ExtraRec} (hpre : pre.length = 12)
    (hr : r.Legal) (hb : b = pre ++ r.serialise.drop 12 ++ rest) :
    qdcaOk b = true ∧ qdcaRecord b = r := by
  have word := fun {i : Nat} => be32_qdca pre rest r hpre (i := i)
  rw [← hb] at word
  have hsize : be32 b 12 = 36 := word (i := 0) (by decide)
  have hversion : be32 b 20 = r.version.toNat := word (i := 2) (by decide)
  have hchannels : be32 b 24 = r.channels.toNat := word (i := 3) (by decide)
  have hrate : be32 b 28 = r.sampleRate.toNat := word (i := 4) (by decide)
  have hbitrate : be32 b 32 = r.bitrate.toNat := word (i := 5) (by decide)
  have hblock : be32 b 36 = r.blockSize.toNat := word (i := 6) (by decide)
  have hframe : be32 b 40 = r.frameSize.toNat := word (i := 7) (by decide)
  have hpacket : be32 b 44 = r.packetSize.toNat := word (i := 8) (by decide)
  constructor
  · have hch : r.channels.toNat = 1 ∨ r.channels.toNat = 2 :=
      hr.channels.imp (fun h => by rw [h]; rfl) fun h => by rw [h]; rfl
    simp only [qdcaOk, qdcaFieldsOk, hsize, hchannels, hframe, hpacket, Bool.and_eq_true,
      Bool.or_eq_true, decide_eq_true_eq]
    exact ⟨trivial, ⟨⟨hch, hr.frameMin⟩, hr.frameMax⟩, hr.spf⟩
  · simp only [qdcaRecord, hversion, hchannels, hrate, hbitrate, hblock, hframe, hpacket,
      BitVec.ofNat_toNat, BitVec.setWidth_eq]

/-! ### The construction from a record (41_extradata.md R142; 45_host_commands.md R232) -/

/-- The registers derived from a legal record: FFT_SIZE and FFT_ORDER (10_state.md R22). -/
theorem fftSize_fftOrder_of_legal (p : Params) {r : ExtraRec} (hr : r.Legal) :
    2 * r.packetSize = (Cfg.ofRecord p r).fftSize
      ∧ (if r.packetSize = 256 then 9 else if r.packetSize = 512 then 10 else 11)
        = (Cfg.ofRecord p r).fftOrder := by
  have hspf : r.packetSize = 256 ∨ r.packetSize = 512 ∨ r.packetSize = 1024 :=
    ((spfLegal_iff _).1 hr.spf).imp BitVec.eq_of_toNat_eq
      (.imp BitVec.eq_of_toNat_eq BitVec.eq_of_toNat_eq)
  unfold Cfg.ofRecord
  rcases hspf with h | h | h <;> rw [h] <;> exact ⟨rfl, rfl⟩

/-- A successful CONFIGURE with a legal record gives the state of the spec's table. -/
theorem construct_eq_constructed (s : State) (md : Mode) {r : ExtraRec} (hr : r.Legal) :
    s.construct md r = s.constructed md r := by
  obtain ⟨hsize, horder⟩ := fftSize_fftOrder_of_legal s.par hr
  rw [State.constructed, hsize, horder]
  rfl

/-! ### Chunks (41_extradata.md R141; 30_encoding.md R87) -/

/-- A chunk that is due is executed in the extradata parse in progress. -/
theorem onChunk_of_chunks {s : State} {x : ChunkParse} (ha : s.activity = .chunks x)
    (f : ChunkParse → ChunkNext) : onChunk f s = settleChunk s x (f x) := by
  rw [onChunk, ha]

/-- What each chunk's instruction does, by the chunk's own rule. -/
theorem exec_chunks {s : State} {x : ChunkParse} (ha : s.activity = .chunks x) :
    exec .chunkFrma s = settleChunk s x (frmaChunk x)
      ∧ exec .chunkQdca s = settleChunk s x (qdcaChunk x)
      ∧ exec .chunkQdcp s = settleChunk s x (qdcpChunk x) :=
  ⟨onChunk_of_chunks ha frmaChunk, onChunk_of_chunks ha qdcaChunk, onChunk_of_chunks ha qdcpChunk⟩

theorem frmaOk_iff (b : List Byte) :
    frmaOk b = true ↔ 48 ≤ b.length ∧ be32 b 0 = 12 ∧ be32 b 8 = tagQdm2 := by
  simp [frmaOk, and_assoc]

theorem frmaChunk_first {x : ChunkParse} (hx : x.place = .first) :
    frmaChunk x = if frmaOk x.blob then .more { x with place := .second } else .bad := by
  rw [frmaChunk, hx]

theorem qdcaChunk_second {x : ChunkParse} (hx : x.place = .second) : qdcaChunk x
    = if qdcaOk x.blob then .more { x with place := .third, record := qdcaRecord x.blob }
      else .bad := by
  rw [qdcaChunk, hx]

/-- The QDCP chunk that stands after the first 48 bytes ends the parse by its size. -/
theorem qdcpChunk_third {x : ChunkParse} {pre rest : List Byte} (hx : x.place = .third)
    (hpre : pre.length = 48) (hb : x.blob = pre ++ rest) (htag : be32 rest 4 = tagQdcp) :
    qdcpChunk x = if qdcpFits rest then .done else .bad := by
  have hlen : x.blob.length - 48 = rest.length := by
    rw [hb, List.length_append, hpre, Nat.add_sub_cancel_left]
  have hsize : be32 x.blob 48 = be32 rest 0 := by
    rw [hb, ← hpre]
    exact be32_append_right pre rest 0
  have hfits : qdcpFits rest = !(hasThird x.blob && !qdcpOk x.blob) := by
    rw [qdcpFits, hasThird, qdcpOk, hlen, hsize, htag]
    by_cases h : rest.length < 8
    · simp [h]
    · simp [h, Nat.le_of_not_lt h]
  rw [hfits, qdcpChunk, hx]
  cases hasThird x.blob && !qdcpOk x.blob <;> rfl

/-- Settles O43, chunk by chunk at its own place. -/
theorem chunksParse : Obligations.ChunksParse := by
  intro s x ha
  obtain ⟨hfrma, hqdca, hqdcp⟩ := exec_chunks ha
  refine ⟨fun hx => ⟨fun hlen hsize hcodec => ?_, fun hbad => ?_⟩,
    fun pre r rest hx hpre hr hb => ?_,
    fun pre rest hx hpre hb htag => ⟨fun hfits hr => ?_, fun hfits => ?_⟩⟩
  · have hok := (frmaOk_iff x.blob).2 ⟨hlen, hsize, hcodec⟩
    rw [hfrma, frmaChunk_first hx, if_pos hok]
    rfl
  · have hfail : ¬ frmaOk x.blob = true := by
      rw [frmaOk_iff]
      rintro ⟨hlen, hsize, hcodec⟩
      rcases hbad with h | h | h
      exacts [Nat.not_lt.2 hlen h, h hsize, h hcodec]
    rw [hfrma, frmaChunk_first hx, if_neg hfail]
    rfl
  · obtain ⟨hok, hrecord⟩ := qdca_of_serialise hpre hr hb
    rw [hqdca, qdcaChunk_second hx, if_pos hok, hrecord]
    rfl
  · rw [hqdcp, qdcpChunk_third hx hpre hb htag, if_pos hfits,
      ← construct_eq_constructed s x.mode hr]
    rfl
  · rw [hqdcp, qdcpChunk_third hx hpre hb htag, hfits]
    rfl

end Sys2Proof.Machine
end

section
/-!
PROOFS. The stepping of a command in progress (log 7): a packet parse stepped one sub-packet at a time
is its frame decode (42_packet_parser.md R151; 44_synthesis.md R220), and an extradata parse stepped
one chunk at a time is the parse of its blob (41_extradata.md R141), so its CONFIGURE
(45_host_commands.md R232).
-/

namespace Sys2Proof.Machine

open Sys2Proof

/-! ### Runs of the machine -/

/-- A run whose first step gives a next state goes on from there. -/
theorem run_succ_of_next {M : Host.Core} {s t : M.State} (h : M.step s = .next t) (k : Nat) :
    M.run (k + 1) s = M.run k t := by
  simp only [Host.Core.run, h]

/-- A run of one step is that step. -/
theorem run_one (M : Host.Core) (s : M.State) : M.run 1 s = M.step s := by
  simp only [Host.Core.run]
  cases M.step s <;> rfl

/-! ### No rule of the packet parser reads what is in progress -/

theorem noiseBands_activity (s : State) (a : Activity) (c : Ch) : ∀ (n b : Nat) (p : Parse),
    noiseBands { s with activity := a } c n b p = noiseBands s c n b p
  | 0, _, _ => rfl
  | n + 1, b, p =>
    congrArg (noiseBand s c b p >>= ·) (funext fun q => noiseBands_activity s a c n (b + 1) q)

theorem noisePayload_activity (s : State) (a : Activity) (t : Nat) (p : Parse) :
    noisePayload { s with activity := a } t p = noisePayload s t p := by
  simp only [noisePayload, noiseBands_activity]
  rfl

theorem spNoise_activity (s : State) (a : Activity) (t : Nat) (p : Parse) :
    spNoise t { s with activity := a } p = spNoise t s p := by
  simp only [spNoise, noisePayload_activity]

theorem toneOp_activity (s : State) (a : Activity) (op : Nat) :
    toneOp op { s with activity := a } = toneOp op s :=
  match op with
  | 0 | 1 | 2 => rfl
  | _ + 3 => rfl

theorem nextRecord_activity (s : State) (a : Activity) (p : Parse) :
    nextRecord { s with activity := a } p = nextRecord s p := by
  simp only [nextRecord, toneOp_activity]

theorem runRecords_activity (s : State) (a : Activity) : ∀ (n : Nat) (p : Parse),
    runRecords { s with activity := a } n p = runRecords s n p
  | 0, _ => rfl
  | n + 1, p => by simp only [runRecords, nextRecord_activity, runRecords_activity s a n]

theorem spTone_activity (s : State) (a : Activity) (t : Nat) (p : Parse) :
    spTone t { s with activity := a } p = spTone t s p := by
  simp only [spTone, runRecords_activity]
  rfl

theorem subpacketOf_activity (s : State) (a : Activity) (t : Nat) (p : Parse) :
    subpacketOf t { s with activity := a } p = subpacketOf t s p := by
  unfold subpacketOf
  split
  all_goals first | exact spNoise_activity s a _ p | exact spTone_activity s a _ p | rfl

theorem nextSubpacket_activity (s : State) (a : Activity) (p : Parse) :
    nextSubpacket { s with activity := a } p = nextSubpacket s p := by
  simp only [nextSubpacket, subpacketOf_activity]

/-! ### A packet parse, stepped (42_packet_parser.md R151) -/

/-- What FRAME_DECODE makes of the outcome of its parse (44_synthesis.md R220). -/
def State.endParse (s : State) (via : Via) : Except Stop Parse → Out
  | .ok p => .next (s.completeFrame via (.good p.sh))
  | .error e => s.catchStop via e

theorem frameDecode_eq_endParse (s : State) (via : Via) (packet : List Byte) :
    frameDecode s via packet = s.endParse via (parsePacket s via packet) := by
  unfold frameDecode
  cases parsePacket s via packet <;> rfl

theorem catchStop_activity (s : State) (a : Activity) (via : Via) (e : Stop) :
    { s with activity := a }.catchStop via e = s.catchStop via e := by
  cases e with
  | raised e pos => exact congrArg _ (completeFrame_activity s a via (.bad e pos))
  | refuse r => rfl

/-- Past the last sub-packet a step ends the frame decode. -/
theorem step_of_none_left {s : State} {p : Parse} (ha : s.activity = .packet p)
    (ht : p.tone = none) (hl : p.left = 0) :
    step s = .next (s.completeFrame p.via (.good p.sh)) := by
  simp only [step, fetch, ha, fetchElement, ht, hl, if_true]

/-- Before a sub-packet a step executes it. -/
theorem step_of_subpacket {s : State} {p : Parse} (ha : s.activity = .packet p)
    (he : p.expectsSubpacket) : step s = afterElement s p.via (nextSubpacket s p) := by
  have hl : p.left ≠ 0 := Nat.ne_of_gt he.2
  simp only [step, fetch, ha, fetchElement, he.1, hl, if_false, nextSubpacket, bind, Except.bind]
  cases p.rd.peek 5 with
  | error e => rfl
  | ok t => exact (exec_subpacketInstr t s).trans (onSubpacket_eq ha he)

/-- The sub-packets left of a parse, stepped to the end of the command. -/
theorem run_subpackets {s : State} (hp : ParamsSpec s.par) : ∀ (n : Nat) (p : Parse), p.left = n →
    p.tone = none → ∃ k ≤ n + 1, Host.Core.run Sys2Proof.core k { s with activity := .packet p }
      = s.endParse p.via (runSubpackets s n p)
  | 0, p, hl, ht => by
    refine ⟨1, Nat.le_refl _, ?_⟩
    refine (run_one Sys2Proof.core _).trans ((step_of_none_left rfl ht hl).trans ?_)
    rw [completeFrame_activity]
    rfl
  | n + 1, p, hl, ht => by
    have hstep := step_of_subpacket (s := { s with activity := .packet p }) rfl
      ⟨ht, hl ▸ Nat.succ_pos n⟩
    rw [nextSubpacket_activity] at hstep
    simp only [runSubpackets, bind, Except.bind]
    cases hq : nextSubpacket s p with
    | error e =>
      refine ⟨1, by omega, ?_⟩
      rw [hq] at hstep
      exact (run_one Sys2Proof.core _).trans (hstep.trans (catchStop_activity s _ p.via e))
    | ok q =>
      have hspec := parses_ok (nextSubpacket_parses hp p) hq
      obtain ⟨k, hk, hrun⟩ := run_subpackets hp n q (by rw [hspec.left]; omega) hspec.tone
      refine ⟨k + 1, by omega, ?_⟩
      rw [hq] at hstep
      exact (run_succ_of_next (M := Sys2Proof.core) hstep k).trans (hspec.via ▸ hrun)

/-- A frame decode is the stepping of its parse from the first sub-packet. -/
theorem run_of_startParse {s : State} {via : Via} {packet : List Byte} {p : Parse}
    (hp : ParamsSpec s.par) (h : startParse s via packet = .ok p) :
    ∃ k ≤ p.left + 1, Host.Core.run Sys2Proof.core k { s with activity := .packet p }
      = frameDecode s via packet := by
  have hstart := parses_ok (startParse_parses s via packet) h
  have hparse : parsePacket s via packet = runSubpackets s p.left p := by
    simp only [parsePacket, h, bind, Except.bind]
  rw [frameDecode_eq_endParse, hparse, ← hstart.via]
  exact run_subpackets hp p.left p rfl hstart.tone

/-! ### An extradata parse, stepped (41_extradata.md R141) -/

/-- The rule a tag selects in an extradata parse; `unknown` is what a tag of no chunk does. -/
def ChunkParse.ruleOf (x : ChunkParse) (tag : Nat) (unknown : ChunkNext) : ChunkNext :=
  if tag = tagFrma then frmaChunk x
  else if tag = tagQdca then qdcaChunk x
  else if tag = tagQdcp then qdcpChunk x
  else unknown

/-- R141's checks of the first chunk place. -/
def firstPlaceOk (b : List Byte) : Bool := decide (be32 b 4 = tagFrma) && frmaOk b

/-- R141's checks of the second chunk place. -/
def secondPlaceOk (b : List Byte) : Bool := decide (be32 b 16 = tagQdca) && qdcaOk b

/-- R141's check of the third chunk place: only a QDCP chunk can fail it. -/
def thirdPlaceOk (b : List Byte) : Bool :=
  !(hasThird b && decide (be32 b 52 = tagQdcp) && !qdcpOk b)

/-- EXTRADATA_PARSE is the checks of the three places. -/
theorem extradataParse_eq (b : List Byte) :
    extradataParse b = if firstPlaceOk b && secondPlaceOk b && thirdPlaceOk b
      then .ok (qdcaRecord b) else .error .kBadExtradata := by
  unfold extradataParse firstPlaceOk secondPlaceOk thirdPlaceOk frmaOk qdcaOk
  by_cases hlen : b.length < 48
  · simp [hlen, Nat.not_le.2 hlen]
  · split_ifs <;> simp_all

/-- A step in an extradata parse runs the rule of the tag at the parser's place. -/
theorem step_of_first {s : State} {x : ChunkParse} (ha : s.activity = .chunks x)
    (hx : x.place = .first) : step s = settleChunk s x (x.ruleOf (be32 x.blob 4) .bad) := by
  obtain ⟨hfrma, hqdca, hqdcp⟩ := exec_chunks ha
  simp only [step, fetch, ha, fetchChunk, hx, decodeChunk, ChunkParse.ruleOf]
  split_ifs
  exacts [hfrma, hqdca, hqdcp, rfl]

theorem step_of_second {s : State} {x : ChunkParse} (ha : s.activity = .chunks x)
    (hx : x.place = .second) : step s = settleChunk s x (x.ruleOf (be32 x.blob 16) .bad) := by
  obtain ⟨hfrma, hqdca, hqdcp⟩ := exec_chunks ha
  simp only [step, fetch, ha, fetchChunk, hx, decodeChunk, ChunkParse.ruleOf]
  split_ifs
  exacts [hfrma, hqdca, hqdcp, rfl]

theorem step_of_third {s : State} {x : ChunkParse} (ha : s.activity = .chunks x)
    (hx : x.place = .third) : step s = settleChunk s x
      (if hasThird x.blob then x.ruleOf (be32 x.blob 52) .done else .done) := by
  obtain ⟨hfrma, hqdca, hqdcp⟩ := exec_chunks ha
  simp only [step, fetch, ha, fetchChunk, hx, decodeChunk, ChunkParse.ruleOf]
  split_ifs
  exacts [hfrma, hqdca, hqdcp, rfl, rfl]

theorem ruleOf_first {x : ChunkParse} (hx : x.place = .first) : x.ruleOf (be32 x.blob 4) .bad
    = if firstPlaceOk x.blob then .more { x with place := .second } else .bad := by
  simp only [ChunkParse.ruleOf, firstPlaceOk, frmaChunk, qdcaChunk, qdcpChunk, hx]
  by_cases h : be32 x.blob 4 = tagFrma <;> simp [h]

theorem ruleOf_second {x : ChunkParse} (hx : x.place = .second) : x.ruleOf (be32 x.blob 16) .bad
    = if secondPlaceOk x.blob then .more { x with place := .third, record := qdcaRecord x.blob }
      else .bad := by
  simp only [ChunkParse.ruleOf, secondPlaceOk, frmaChunk, qdcaChunk, qdcpChunk, hx]
  by_cases h : be32 x.blob 16 = tagQdca
  · simp [h, show tagQdca ≠ tagFrma by decide]
  · simp [h]

theorem ruleOf_third {x : ChunkParse} (hx : x.place = .third) :
    (if hasThird x.blob then x.ruleOf (be32 x.blob 52) .done else .done)
      = if thirdPlaceOk x.blob then .done else .bad := by
  simp only [ChunkParse.ruleOf, thirdPlaceOk, frmaChunk, qdcaChunk, qdcpChunk, hx]
  by_cases h : be32 x.blob 52 = tagQdcp
  · have hf : tagQdcp ≠ tagFrma := by decide
    have ha : tagQdcp ≠ tagQdca := by decide
    by_cases h3 : hasThird x.blob = true
    · by_cases hq : qdcpOk x.blob = true <;> simp [h, hf, ha, h3, hq]
    · simp [h3]
  · simp [h]

/-- What CONFIGURE makes of the outcome of its extradata parse (45_host_commands.md R232). -/
def State.endExtradata (s : State) (md : Mode) : Except Err ExtraRec → State
  | .ok r => s.construct md r
  | .error e => { s with activity := .idle, err := e, result := 0 }

/-- An extradata parse at its third place, stepped to the end of the command. -/
theorem run_of_third {s : State} {x : ChunkParse} (ha : s.activity = .chunks x)
    (hx : x.place = .third) : Host.Core.run Sys2Proof.core 1 s = .next (s.endExtradata x.mode
      (if thirdPlaceOk x.blob then .ok x.record else .error .kBadExtradata)) := by
  refine (run_one Sys2Proof.core s).trans ((step_of_third ha hx).trans ?_)
  rw [ruleOf_third hx]
  cases thirdPlaceOk x.blob <;> rfl

theorem run_of_second {s : State} {x : ChunkParse} (ha : s.activity = .chunks x)
    (hx : x.place = .second) : ∃ k ≤ 2, Host.Core.run Sys2Proof.core k s
      = .next (s.endExtradata x.mode (if secondPlaceOk x.blob && thirdPlaceOk x.blob
        then .ok (qdcaRecord x.blob) else .error .kBadExtradata)) := by
  have hstep := step_of_second ha hx
  rw [ruleOf_second hx] at hstep
  cases hok : secondPlaceOk x.blob with
  | false =>
    rw [hok] at hstep
    exact ⟨1, by decide, (run_one Sys2Proof.core s).trans hstep⟩
  | true =>
    rw [hok] at hstep
    have hrun := run_of_third (s := { s with activity := .chunks { x with
      place := .third, record := qdcaRecord x.blob } }) rfl rfl
    refine ⟨2, Nat.le_refl _, (run_succ_of_next (M := Sys2Proof.core) hstep 1).trans (hrun.trans ?_)⟩
    cases thirdPlaceOk x.blob <;> rfl

theorem run_of_first {s : State} {x : ChunkParse} (ha : s.activity = .chunks x)
    (hx : x.place = .first) : ∃ k ≤ 3, Host.Core.run Sys2Proof.core k s
      = .next (s.endExtradata x.mode (extradataParse x.blob)) := by
  have hstep := step_of_first ha hx
  rw [ruleOf_first hx] at hstep
  rw [extradataParse_eq]
  cases hok : firstPlaceOk x.blob with
  | false =>
    rw [hok] at hstep
    exact ⟨1, by decide, (run_one Sys2Proof.core s).trans hstep⟩
  | true =>
    rw [hok] at hstep
    obtain ⟨k, hk, hrun⟩ := run_of_second (s := { s with activity := .chunks { x with
      place := .second } }) rfl rfl
    refine ⟨k + 1, by omega, (run_succ_of_next (M := Sys2Proof.core) hstep k).trans (hrun.trans ?_)⟩
    simp only [Bool.true_and]
    cases secondPlaceOk x.blob && thirdPlaceOk x.blob <;> rfl

/-! ### A CONFIGURE, stepped (45_host_commands.md R232) -/

/-- A CONFIGURE that can construct, between commands, is its extradata parse past VLC_READY <- 1. -/
theorem configure_eq_endExtradata {s : State} (ha : s.activity = .idle)
    (harg : s.arg.toNat ≤ 8192) (md : Mode) : configure md s
      = .next ({ s with vlcReady := true }.endExtradata md
          (extradataParse (s.inbuf s.arg.toNat))) := by
  have hbuf : State.inbuf { s with vlcReady := true } s.arg.toNat = s.inbuf s.arg.toNat :=
    loadBytes_congr _ _ fun _ _ _ => rfl
  unfold configure
  simp only [hbuf]
  rw [if_neg (by simpa [inbufBytes] using harg)]
  cases extradataParse (s.inbuf s.arg.toNat) with
  | ok r => rfl
  | error e => simp only [State.endExtradata, State.fail, ha]

theorem gateConfigure_of_dead {s : State} (h : s.adapter = .unconfigured ∨ s.adapter = .closed) :
    gateConfigure s = none := by
  simp [gateConfigure, (not_live_iff s).2 h]

theorem exec_configure {s : State} {i : Instr} {md : Mode}
    (hi : (i = .configureStream ∧ md = .stream) ∨ (i = .configureCodec ∧ md = .codec))
    (ha : s.activity = .idle) (hdead : s.adapter = .unconfigured ∨ s.adapter = .closed) :
    exec i s = configure md s := by
  have hgate := gateConfigure_of_dead hdead
  rcases hi with ⟨rfl, rfl⟩ | ⟨rfl, rfl⟩
  · exact onCommand_none ha hgate (configure .stream)
  · exact onCommand_none ha hgate (configure .codec)

/-- Settles O59: by induction on the sub-packets left of a packet, and place by place for a blob, of
which a CONFIGURE is the case that starts past VLC_READY <- 1. -/
theorem frameDecodeIsItsSteps : Obligations.FrameDecodeIsItsSteps := by
  refine ⟨fun s via packet p hvalid hstart => run_of_startParse (paramsValid_spec hvalid) hstart,
    fun s x ha hx => ?_, fun s i x hi ha hdead harg hx hblob => ?_⟩
  · obtain ⟨k, hk, hrun⟩ := run_of_first ha hx
    refine ⟨k, hk, hrun.trans ?_⟩
    cases extradataParse x.blob <;> rfl
  · obtain ⟨k, hk, hrun⟩ := run_of_first
      (s := { s with vlcReady := true, activity := .chunks x }) rfl hx
    refine ⟨k, hk, hrun.trans ?_⟩
    rw [exec_configure hi ha hdead, configure_eq_endExtradata ha harg, hblob]
    show _ = Host.Outcome.next (State.endExtradata _ _ (extradataParse (s.loadBytes 0x1000 _)))
    cases extradataParse (s.loadBytes 0x1000 s.arg.toNat) <;> rfl

end Sys2Proof.Machine
end

section
/-!
PROOFS. The sub-packets of a packet parse, executed one at a time (42_packet_parser.md R152 to R175):
what a header, a noise or a tone sub-packet leaves of the parse, and where each of its checks raises
kMalformed.
-/

namespace Sys2Proof.Machine

open Sys2Proof

/-! ### The rules of the instructions, and the place they leave -/

/-- A noise instruction runs the rule of its type, which is of the noise class (30_encoding.md R93). -/
theorem noiseInstr_spec {i : Instr} {t : Nat} (h : (i, t) ∈ noiseInstrs) :
    typeRank t = 1 ∧ ∀ s, exec i s = onSubpacket (spNoise t) s := by
  simp only [noiseInstrs, List.mem_cons, Prod.mk.injEq, List.not_mem_nil, or_false] at h
  rcases h with ⟨rfl, rfl⟩ | ⟨rfl, rfl⟩ | ⟨rfl, rfl⟩ | ⟨rfl, rfl⟩ | ⟨rfl, rfl⟩ | ⟨rfl, rfl⟩ <;>
    exact ⟨rfl, fun _ => rfl⟩

/-- A tone instruction runs the rule of its type, which is of the tone class (30_encoding.md R93). -/
theorem toneInstr_spec {i : Instr} {t : Nat} (h : (i, t) ∈ toneInstrs) :
    typeRank t = 2 ∧ ∀ s, exec i s = onSubpacket (spTone t) s := by
  simp only [toneInstrs, List.mem_cons, Prod.mk.injEq, List.not_mem_nil, or_false] at h
  rcases h with ⟨rfl, rfl⟩ | ⟨rfl, rfl⟩ | ⟨rfl, rfl⟩ | ⟨rfl, rfl⟩ | ⟨rfl, rfl⟩ <;>
    exact ⟨rfl, fun _ => rfl⟩

theorem exists_type_of_mem_fst {l : List (Instr × Nat)} {i : Instr} (h : i ∈ l.map Prod.fst) :
    ∃ t, (i, t) ∈ l := by
  obtain ⟨⟨_, t⟩, hmem, rfl⟩ := List.mem_map.1 h
  exact ⟨t, hmem⟩

/-- The end of a sub-packet, in a parse that stood between payloads. -/
theorem endSub_of_none {p : Parse} (ht : p.tone = none) (n rank : Nat) (sh : Shadow) :
    endSub { p.at n with lastRank := rank, sh := sh }
      = { p.at n with left := p.left - 1, lastRank := rank, sh := sh } := by
  simp only [endSub, parse_at_tone, parse_at_left, ht]

/-! ### Header sub-packets (42_packet_parser.md R160, R161) -/

theorem spSeed_ok {s : State} {p : Parse} (hr : p.lastRank = 0)
    (hroom : p.rd.pos + 37 ≤ p.rd.limit) :
    spSeed s p = .ok (endSub { p.at (p.rd.pos + 37) with
      lastRank := p.lastRank
      sh := { p.sh with seed := BitVec.ofNat 32 (p.rd.bits (p.rd.pos + 5) 32) } }) := by
  have hopen : openSub 0 p = _ := openSub_ok (by omega) (by omega)
  have hread : (p.rd.at (p.rd.pos + 5)).read 32 = _ := read_at (by decide) (by omega)
  simp only [spSeed, hopen, bind, Except.bind, parse_at_rd, hread, hr]
  rfl

theorem spFlags_ok {s : State} {p : Parse} (hr : p.lastRank = 0)
    (hroom : p.rd.pos + 13 ≤ p.rd.limit) :
    spFlags s p = .ok (endSub { p.at (p.rd.pos + 13) with
      lastRank := p.lastRank
      sh := { p.sh with flags := BitVec.ofNat 8 (p.rd.bits (p.rd.pos + 5) 8) } }) := by
  have hopen : openSub 1 p = _ := openSub_ok (by omega) (by omega)
  have hread : (p.rd.at (p.rd.pos + 5)).read 8 = _ := read_at (by decide) (by omega)
  simp only [spFlags, hopen, bind, Except.bind, parse_at_rd, hread, hr]
  rfl

/-- Settles O35: the type field, then the register's bits. -/
theorem headerSubpackets : Obligations.HeaderSubpackets := by
  intro s p ha he hr
  refine ⟨fun hroom => ?_, fun hroom => ?_⟩
  · have hseed : exec .spSeed s = _ := onSubpacket_ok ha he (spSeed_ok hr hroom)
    rw [hseed, endSub_of_none he.1]
    rfl
  · have hflags : exec .spFlags s = _ := onSubpacket_ok ha he (spFlags_ok hr hroom)
    rw [hflags, endSub_of_none he.1]
    rfl

/-! ### Sub-packets of explicit length (42_packet_parser.md R152, R162 to R175) -/

/-- A held header and payload whose last bit is readable. -/
theorem offers_of_payload {p : Parse} {t len : Nat} {payload : List Bool}
    (h : p.rd.holds (msbBits 5 t ++ msbBits 16 len ++ payload))
    (hroom : p.rd.pos + 21 + payload.length ≤ p.rd.limit) :
    p.rd.Offers (msbBits 5 t ++ (msbBits 16 len ++ payload)) := by
  rw [← List.append_assoc]
  refine ⟨h, ?_⟩
  simp only [List.length_append, msbBits_length]
  omega

/-- Settles O36: the rule of a noise type where the parse stands at the sub-packet's bits. -/
theorem noiseSubpackets : Obligations.NoiseSubpackets := by
  intro s p i t len fb c ds hi ha he hr hch hfit hheld hpay hlen hroom
  obtain ⟨hrank, hexec⟩ := noiseInstr_spec hi
  have hsub := spNoise_of_offers (hrank ▸ hr) hch hfit (offers_of_payload hheld (by omega)) hpay
    hlen hroom
  rw [hexec, onSubpacket_ok ha he hsub, endSub_of_none he.1, hrank]
  rfl

/-- Settles O37: the rule of a tone type where the parse stands at the sub-packet's bits. -/
theorem toneSubpackets : Obligations.ToneSubpackets := by
  intro s p i t len c recs ch hi ha he hr hch hcnt hfit hampV hphaseV happly hheld hpay hlen hroom
  obtain ⟨hrank, hexec⟩ := toneInstr_spec hi
  have hsub := spTone_of_offers (hrank ▸ hr) hch hcnt (List.all_eq_true.1 hfit) hampV hphaseV happly
    (offers_of_payload hheld (by omega)) hpay hlen hroom
  rw [hexec, onSubpacket_ok ha he hsub, endSub_of_none he.1, hrank]

/-! ### The errors of a sub-packet's header (42_packet_parser.md R152, R153) -/

/-- No rule goes on past a class below the one before it. -/
theorem openSub_low_bind {α : Type} {t : Nat} {p : Parse} (hroom : p.rd.pos + 5 ≤ p.rd.limit)
    (hr : typeRank t < p.lastRank) (f : Parse → Except Stop α) :
    (openSub t p >>= f) = .error (.raised .kMalformed p.rd.pos) := by
  rw [openSub_low hroom hr]
  rfl

/-- No rule goes on past a payload declared past the body. -/
theorem openLen_over_bind {α : Type} {t : Nat} {p : Parse} (hr : p.lastRank ≤ typeRank t)
    (hroom : p.rd.pos + 21 ≤ p.rd.limit)
    (hover : p.rd.limit < p.rd.pos + 21 + p.rd.bits (p.rd.pos + 5) 16)
    (f : Nat × Parse → Except Stop α) : (openSub t p >>= fun q => openLen q >>= f)
      = .error (.raised .kMalformed (p.rd.pos + 21)) := by
  have hlen := openLen_over (p := { p.at (p.rd.pos + 5) with lastRank := typeRank t })
    (by simp only [parse_at_rd, at_pos, at_limit]; omega)
    (by simp only [parse_at_rd, at_pos, at_limit, at_bits]; omega)
  simp only [openSub_ok (by omega) hr, bind, Except.bind, hlen]
  rfl

/-- The header of a sub-packet in class order, declared within the body. -/
theorem openLen_ok_bind {α : Type} {t : Nat} {p : Parse} (hr : p.lastRank ≤ typeRank t)
    (hroom : p.rd.pos + 21 + p.rd.bits (p.rd.pos + 5) 16 ≤ p.rd.limit)
    (f : Nat × Parse → Except Stop α) : (openSub t p >>= fun q => openLen q >>= f)
      = f (p.rd.bits (p.rd.pos + 5) 16, p.inPayload t) := by
  have hlen := openLen_ok (p := { p.at (p.rd.pos + 5) with lastRank := typeRank t })
    (by simp only [parse_at_rd, at_pos, at_limit, at_bits]; omega)
  simp only [openSub_ok (by omega) hr, bind, Except.bind, hlen]
  exact congrArg f (Prod.ext (at_bits _ _ _ _) rfl)

theorem openTone_over {t : Nat} {s : State} {p : Parse} (hr : p.lastRank ≤ typeRank t)
    (hroom : p.rd.pos + 21 ≤ p.rd.limit)
    (hover : p.rd.limit < p.rd.pos + 21 + p.rd.bits (p.rd.pos + 5) 16) :
    openTone t s p = .error (.raised .kMalformed (p.rd.pos + 21)) :=
  openLen_over_bind hr hroom hover _

theorem spTone_over {t : Nat} {s : State} {p : Parse} (hr : p.lastRank ≤ typeRank t)
    (hroom : p.rd.pos + 21 ≤ p.rd.limit)
    (hover : p.rd.limit < p.rd.pos + 21 + p.rd.bits (p.rd.pos + 5) 16) :
    spTone t s p = .error (.raised .kMalformed (p.rd.pos + 21)) := by
  rw [spTone, openTone_over hr hroom hover]
  rfl

/-! ### An illegal band run (42_packet_parser.md R168) -/

/-- CHSEL where its bit, if the stream has one, is readable. -/
theorem chsel_ok {channels : Word} {rd : BitReader}
    (hroom : rd.pos + (if channels = 2 then 1 else 0) ≤ rd.limit) :
    ∃ c, chsel channels rd = .ok (c, rd.at (rd.pos + if channels = 2 then 1 else 0)) := by
  unfold chsel
  split
  · next hst =>
    rw [if_pos hst] at hroom
    rw [read_ok (by decide) hroom]
    exact ⟨_, rfl⟩
  · exact ⟨.c0, rfl⟩

theorem noiseRunLegal_false {s : State} {t fb cnt : Nat} (hcnt : 0 < cnt)
    (h : s.numBands < fb + cnt ∨ fb < (rangeOf s.par.noiseRanges t s.numBands).1
      ∨ (rangeOf s.par.noiseRanges t s.numBands).2 < fb + cnt - 1) :
    ¬ noiseRunLegal s t fb cnt = true := by
  simp only [noiseRunLegal, Bool.and_eq_true, Bool.or_eq_true, decide_eq_true_eq]
  omega

/-- An illegal band run is kMalformed at first_band, the field after CHSEL. -/
theorem noisePayload_illegal {s : State} {t q : Nat} {p : Parse}
    (hq : q = p.rd.pos + if s.cfg.channels = 2 then 1 else 0) (hroom : q + 11 ≤ p.rd.limit)
    (hrun : ¬ noiseRunLegal s t (p.rd.bits q 5) (p.rd.bits (q + 5) 6) = true) :
    noisePayload s t p = .error (.raised .kMalformed q) := by
  obtain ⟨c, hch⟩ := chsel_ok (channels := s.cfg.channels) (rd := p.rd) (by omega)
  rw [← hq] at hch
  have hfirst : (p.rd.at q).read 5 = _ := read_at (by decide) (by omega)
  have hcount : (p.rd.at (q + 5)).read 6 = _ := read_at (by decide) (by omega)
  simp only [noisePayload, hch, hfirst, hcount, bind, Except.bind]
  rw [if_neg hrun]
  rfl

/-! ### A payload longer than declared (42_packet_parser.md R153) -/

theorem spNoise_long {s : State} {t len fb : Nat} {c : Ch} {ds : List Int} {p : Parse}
    (hr : p.lastRank ≤ typeRank t) (hch : chFits s c = true) (hfit : noiseFits s t fb ds = true)
    (h : p.rd.Offers (msbBits 5 t ++ (msbBits 16 len
      ++ noiseBits s.par (s.cfg.channels = 2) c.index fb ds)))
    (hlong : len < (noiseBits s.par (s.cfg.channels = 2) c.index fb ds).length)
    (hlen : len < 65536) (hroom : p.rd.pos + 21 + len ≤ p.rd.limit) :
    spNoise t s p = .error (.raised .kMalformed (p.rd.pos + 21)) := by
  unfold spNoise
  rw [openPayload_of_offers hr h hlen hroom]
  have hbody := inPayload_offers h
  rw [← List.append_nil (noiseBits _ _ _ _ _)] at hbody
  simp only [noisePayload_of_offers hch hfit hbody, bind, Except.bind]
  exact closePayload_over (Nat.add_lt_add_left hlong _)

theorem spTone_long {s : State} {t len : Nat} {c : Ch} {recs : List RecordText} {p : Parse}
    {ch : ShadowChan} (hr : p.lastRank ≤ typeRank t) (hch : chFits s c = true)
    (hcnt : recs.length < 64) (hfit : ∀ r ∈ recs, r.fits s.par = true)
    (hampV : vlcValid s.par.ampVlc = true) (hphaseV : vlcValid s.par.phaseVlc = true)
    (happly : applyRecords s t (p.sh.chan c) recs = some ch)
    (h : p.rd.Offers (msbBits 5 t ++ (msbBits 16 len
      ++ toneBits s.par (s.cfg.channels = 2) c.index recs)))
    (hlong : len < (toneBits s.par (s.cfg.channels = 2) c.index recs).length)
    (hlen : len < 65536) (hroom : p.rd.pos + 21 + len ≤ p.rd.limit) :
    spTone t s p = .error (.raised .kMalformed (p.rd.pos + 21)) := by
  have hbody := inPayload_offers h
  have hrun := runRecords_of_offers (p := p.atRecords (s.cfg.channels = 2) t len c recs.length)
    (bs := []) rfl hampV hphaseV hfit happly (by
      rw [List.append_nil]
      exact hbody.right)
  have hopen := openTone_of_offers hr hch hcnt h hlen hroom
  have hleft : (p.atRecords (s.cfg.channels = 2) t len c recs.length).recordsLeft
    = recs.length := rfl
  simp only [spTone, hopen, hleft, hrun, bind, Except.bind]
  refine closePayload_over ?_
  have hend : (p.inPayload t).rd.past (toneBits s.par (s.cfg.channels = 2) c.index recs) = _ :=
    (past_past _ _ _).symm
  exact (congrArg BitReader.pos hend) ▸ (Nat.add_lt_add_left hlong _)

/-- Settles O39, check by check. -/
theorem subpacketHeaderErrors : Obligations.SubpacketHeaderErrors := by
  intro s p i ha he
  refine ⟨fun hi hroom => ?_, fun hi hroom hover => ?_, fun t hi hr hroom => ?_,
    fun t len c payload hr hch hi hheld hlen hlong hroom => ?_⟩
  · rcases hi with ⟨hi, hr⟩ | ⟨hi, hr⟩
    · simp only [List.mem_cons, List.not_mem_nil, or_false] at hi
      rcases hi with rfl | rfl
      · exact onSubpacket_raised (body := spSeed) ha he (openSub_low_bind (t := 0) hroom hr _)
      · exact onSubpacket_raised (body := spFlags) ha he (openSub_low_bind (t := 1) hroom hr _)
    · obtain ⟨t, ht⟩ := exists_type_of_mem_fst hi
      obtain ⟨hrank, hexec⟩ := noiseInstr_spec ht
      rw [hexec]
      exact onSubpacket_raised ha he (openSub_low_bind hroom (hrank ▸ hr) _)
  · rcases hi with ⟨hi, hr⟩ | ⟨hi, hr⟩ <;> obtain ⟨t, ht⟩ := exists_type_of_mem_fst hi
    · obtain ⟨hrank, hexec⟩ := noiseInstr_spec ht
      rw [hexec]
      exact onSubpacket_raised ha he (openLen_over_bind (hrank ▸ hr) hroom hover _)
    · obtain ⟨hrank, hexec⟩ := toneInstr_spec ht
      rw [hexec]
      exact onSubpacket_raised ha he (spTone_over (hrank ▸ hr) hroom hover)
  · intro q fb cnt hq hcnt hrun
    obtain ⟨hrank, hexec⟩ := noiseInstr_spec hi
    have hpayload : noisePayload s t (p.inPayload t) = .error (.raised .kMalformed q) :=
      noisePayload_illegal rfl hq (noiseRunLegal_false hcnt hrun)
    have hraise : spNoise t s p = .error (.raised .kMalformed q) := by
      rw [spNoise, openLen_ok_bind (hrank ▸ hr) hroom]
      simp only [hpayload, bind, Except.bind]
    rw [hexec]
    exact onSubpacket_raised ha he hraise
  · have hoffers := offers_of_payload hheld hroom
    rcases hi with ⟨hi, fb, ds, hfit, rfl⟩
      | ⟨hi, recs, ch, hcnt, hfit, hampV, hphaseV, happly, rfl⟩
    · rw [(noiseInstr_spec hi).2]
      exact onSubpacket_raised ha he (spNoise_long hr hch hfit hoffers hlong hlen (by omega))
    · rw [(toneInstr_spec hi).2]
      exact onSubpacket_raised ha he (spTone_long hr hch hcnt (List.all_eq_true.1 hfit) hampV
        hphaseV happly hoffers hlong hlen (by omega))

end Sys2Proof.Machine
end

section
/-!
PROOFS. The tone records of a payload, executed one at a time (42_packet_parser.md R175 to R180): what
TONE_ADD, TONE_REFRESH and TONE_DELETE store in the shadow, and which records are kMalformed.
-/

namespace Sys2Proof.Machine

open Sys2Proof

/-! ### The bits of TONE_ADD (30_encoding.md R100) -/

/-- The bits of an add past its head: the two codewords and the duration. -/
def addTail (p : Params) (amp phase : Int) (dur : Nat) : List Bool :=
  codeword p.ampVlc amp ++ (codeword p.phaseVlc phase ++ msbBits 4 dur)

theorem add_bits_eq (p : Params) (band pos : Nat) (amp phase : Int) (dur : Nat) :
    (RecordText.add band pos amp phase dur).bits p = headBits 0 band pos ++ addTail p amp phase dur :=
  add_bits p band pos amp phase dur

theorem past_headBits (p : Parse) (op band pos : Nat) :
    p.past (headBits op band pos) = p.at (p.rd.pos + 14) := by
  simp only [Parse.past, headBits, List.length_append, msbBits_length]

/-- An add whose bits are readable: its head, and the rest of it past the head. -/
theorem add_offers {p : Parse} {par : Params} {band pos dur : Nat} {amp phase : Int}
    (hheld : p.rd.holds ((RecordText.add band pos amp phase dur).bits par))
    (hroom : p.rd.pos + ((RecordText.add band pos amp phase dur).bits par).length ≤ p.rd.limit) :
    p.rd.pos + 14 ≤ p.rd.limit ∧ (p.at (p.rd.pos + 14)).rd.Offers (addTail par amp phase dur) := by
  rw [add_bits_eq] at hheld hroom
  have hoffers : p.rd.Offers (headBits 0 band pos ++ addTail par amp phase dur) := ⟨hheld, hroom⟩
  rw [← past_headBits p 0 band pos]
  refine ⟨?_, hoffers.right⟩
  have hhead := hoffers.left.2
  simpa only [headBits, List.length_append, msbBits_length] using hhead

/-- Past its head and the rest of its bits, the parse is past all bits of the add. -/
theorem past_addTail (p : Parse) (par : Params) (band pos dur : Nat) (amp phase : Int) :
    (p.at (p.rd.pos + 14)).past (addTail par amp phase dur)
      = p.past ((RecordText.add band pos amp phase dur).bits par) := by
  rw [add_bits_eq, ← past_headBits p 0 band pos]
  simp only [Parse.past, parse_at_rd, at_pos, parse_at_at, List.length_append, Nat.add_assoc]

/-! ### The slot a record writes (42_packet_parser.md R176 to R178) -/

theorem mem_touched_touchTone (p : Parse) (c : Ch) (k : Nat) (t : Tone) (j : Nat) :
    j ∈ ((p.touchTone c k t).sh.chan c).touched ↔ j = k ∨ j ∈ (p.sh.chan c).touched := by
  rw [Parse.touchTone, shadow_chan_setChan]
  exact List.mem_insert_iff

theorem find_touchTone (p : Parse) (c : Ch) (k : Nat) (t : Tone) (j : Nat) :
    Assoc.find j ((p.touchTone c k t).sh.chan c).tones
      = if j = k then some t else Assoc.find j (p.sh.chan c).tones := by
  rw [Parse.touchTone, shadow_chan_setChan]
  exact Assoc.find_put k j t _

/-- A record that stores a tone writes its channel's slots and TOUCHED bits only. -/
theorem touchTone_sh (p : Parse) (c : Ch) (k : Nat) (t : Tone) :
    (p.touchTone c k t).sh = p.sh.setChan c { p.sh.chan c with
      tones := ((p.touchTone c k t).sh.chan c).tones
      touched := ((p.touchTone c k t).sh.chan c).touched } := by
  rw [Parse.touchTone, shadow_chan_setChan]

/-- Settles O40: the codewords decode to the tone, which is put in its slot. -/
theorem toneAddStores : Obligations.ToneAddStores := by
  intro s p tp band pos dur amp phase ha ht hl hslot hampV hphaseV hamp hfit hheld hroom
  obtain ⟨hhead, htail⟩ := add_offers hheld hroom
  simp only [RecordText.fits, Bool.and_eq_true, decide_eq_true_eq] at hfit
  obtain ⟨⟨⟨_, hdur⟩, hampS⟩, hphaseS⟩ := hfit
  have hadd := toneAdd_of_offers (r0 := p.rd.pos) (bs := []) hslot hamp hampV hphaseV hampS hphaseS
    hdur (by rw [List.append_nil]; exact htail)
  rw [← addTail, past_addTail p s.par band pos] at hadd
  exact ⟨_, onRecord_ok ha ht hl hhead hadd, rfl, rfl, touchTone_sh _ _ _ _,
    mem_touched_touchTone _ _ _ _, find_touchTone _ _ _ _⟩

/-- Settles O41: a refresh puts the old tone back with a new start_frame, a delete erases it. -/
theorem toneRefreshAndDelete : Obligations.ToneRefreshAndDelete := by
  intro s p tp band pos old ha ht hl hslot hroom hwf hold
  refine ⟨⟨_, _, _, onRecord_ok ha ht hl hroom (toneRefresh_of_find hslot hold), rfl,
      fun j => List.mem_insert_iff, fun j => Assoc.find_put _ j _ _⟩,
    _, _, _, onRecord_ok ha ht hl hroom (toneDelete_of_find hslot hold), rfl,
    fun j => ?_, fun j => Assoc.find_erase _ j hwf⟩
  simp only [List.mem_filter, decide_eq_true_eq]
  exact and_comm

/-! ### Malformed records (42_packet_parser.md R176 to R180) -/

/-- The slot check fails outside the layout, outside the type's bands and past the band's width. -/
theorem slotLegal_false {s : State} {t band pos : Nat}
    (h : s.numBands ≤ band ∨ band < (rangeOf s.par.toneRanges t s.numBands).1
      ∨ (rangeOf s.par.toneRanges t s.numBands).2 < band
      ∨ (s.band band).width ≤ pos * 2 ^ (t - 8)) : ¬ slotLegal s t band pos = true := by
  intro hlegal
  obtain ⟨hband, hlo, hhi, hwidth⟩ := slotLegal_spec hlegal
  rw [tonePosition] at hwidth
  omega

theorem toneAdd_illegal {s : State} {tp : TonePart} {band pos : Nat}
    (h : ¬ slotLegal s tp.type band pos = true) (r0 : Nat) (p : Parse) :
    toneAdd s tp band pos r0 p = .error (.raised .kMalformed r0) := if_neg h

theorem toneRefresh_illegal {s : State} {tp : TonePart} {band pos : Nat}
    (h : ¬ slotLegal s tp.type band pos = true) (r0 : Nat) (p : Parse) :
    toneRefresh s tp band pos r0 p = .error (.raised .kMalformed r0) := if_neg h

theorem toneDelete_illegal {s : State} {tp : TonePart} {band pos : Nat}
    (h : ¬ slotLegal s tp.type band pos = true) (r0 : Nat) (p : Parse) :
    toneDelete s tp band pos r0 p = .error (.raised .kMalformed r0) := if_neg h

/-- A refresh of an EMPTY slot, legal or not (42_packet_parser.md R177). -/
theorem toneRefresh_empty {s : State} {tp : TonePart} {band pos : Nat} {p : Parse}
    (h : Assoc.find (slotBin s tp.type band pos) (p.sh.chan tp.ch).tones = none) (r0 : Nat) :
    toneRefresh s tp band pos r0 p = .error (.raised .kMalformed r0) := by
  by_cases hslot : slotLegal s tp.type band pos = true
  · simp only [toneRefresh, if_pos hslot, h]
  · exact toneRefresh_illegal hslot r0 p

/-- A delete of an EMPTY slot, legal or not (42_packet_parser.md R178). -/
theorem toneDelete_empty {s : State} {tp : TonePart} {band pos : Nat} {p : Parse}
    (h : Assoc.find (slotBin s tp.type band pos) (p.sh.chan tp.ch).tones = none) (r0 : Nat) :
    toneDelete s tp band pos r0 p = .error (.raised .kMalformed r0) := by
  by_cases hslot : slotLegal s tp.type band pos = true
  · simp only [toneDelete, if_pos hslot, h]
  · exact toneDelete_illegal hslot r0 p

/-- An add of a negative amplitude is malformed only once its codewords and its duration are read
(42_packet_parser.md R176). -/
theorem toneAdd_negative {s : State} {tp : TonePart} {band pos dur : Nat} {amp phase : Int}
    {p : Parse} (hslot : slotLegal s tp.type band pos = true) (hamp : amp < 0)
    (hampV : vlcValid s.par.ampVlc = true) (hphaseV : vlcValid s.par.phaseVlc = true)
    (hampS : hasSymbol s.par.ampVlc amp = true) (hphaseS : hasSymbol s.par.phaseVlc phase = true)
    (hdur : dur < 16) (h : p.rd.Offers (addTail s.par amp phase dur)) (r0 : Nat) :
    toneAdd s tp band pos r0 p = .error (.raised .kMalformed r0) := by
  rw [addTail, ← List.append_nil (msbBits 4 dur)] at h
  obtain ⟨n, ha⟩ := vlcDecode_of_offers hampV hampS h
  obtain ⟨m, hph⟩ := vlcDecode_of_offers hphaseV hphaseS h.right
  simp only [toneAdd, if_pos hslot, ha, hph, read_of_offers h.right.right hdur (by decide), bind,
    Except.bind, if_pos hamp]

/-- Settles O42, cause by cause. -/
theorem malformedRecords : Obligations.MalformedRecords := by
  intro s p tp band pos ha ht hl hroom
  refine ⟨fun hbad i hi => ?_, fun hempty i hi => ?_,
    fun amp phase dur hamp hslot hampV hphaseV hfit hheld hend => ?_⟩
  · have hslot := slotLegal_false hbad
    simp only [List.mem_cons, List.not_mem_nil, or_false] at hi
    rcases hi with rfl | rfl | rfl
    · exact onRecord_raised ha ht hl hroom (toneAdd_illegal hslot _ _)
    · exact onRecord_raised ha ht hl hroom (toneRefresh_illegal hslot _ _)
    · exact onRecord_raised ha ht hl hroom (toneDelete_illegal hslot _ _)
  · simp only [List.mem_cons, List.not_mem_nil, or_false] at hi
    rcases hi with rfl | rfl
    · exact onRecord_raised ha ht hl hroom (toneRefresh_empty (p := p.at (p.rd.pos + 14)) hempty _)
    · exact onRecord_raised ha ht hl hroom (toneDelete_empty (p := p.at (p.rd.pos + 14)) hempty _)
  · obtain ⟨_, htail⟩ := add_offers hheld hend
    simp only [RecordText.fits, Bool.and_eq_true, decide_eq_true_eq] at hfit
    obtain ⟨⟨⟨_, hdur⟩, hampS⟩, hphaseS⟩ := hfit
    exact onRecord_raised ha ht hl hroom
      (toneAdd_negative hslot hamp hampV hphaseV hampS hphaseS hdur htail _)

end Sys2Proof.Machine
end

section
/-!
PROOFS. Tone aging (43_spectral.md R191, R192): each slot of a canonical tone map is aged by itself.
-/

namespace Sys2Proof.Machine

open Sys2Proof

/-- The tone a slot holds after its aging (43_spectral.md R191, R192). -/
theorem ageSlot_tone (p : Params) (f : BitVec 64) (touched : List Nat) (k : Nat) (t : Tone) :
    (ageSlot p f touched (k, t)).map Prod.snd =
      let a := if k ∈ touched then t.amplitude else t.amplitude * p.decayNum / 2 ^ p.decayShift
      if a < p.ampThresh ∨ t.duration ≤ (f - t.startFrame).toNat then none
      else some { t with amplitude := a } := by
  by_cases hk : k ∈ touched
  · simp only [ageSlot, Tone.expired, hk, if_true, Bool.or_eq_true, decide_eq_true_eq]
    split <;> rfl
  · simp only [ageSlot, Tone.expired, Tone.decay, hk, if_false, Bool.or_eq_true, decide_eq_true_eq]
    split <;> rfl

/-- What a bin's slot holds after the aging depends on that slot alone. -/
theorem find_ageTones (p : Params) (f : BitVec 64) (touched : List Nat) (k : Nat) :
    ∀ {m : ToneMap}, Assoc.wf m = true → Assoc.find k (ageTones p f touched m)
      = (Assoc.find k m).bind fun t => (ageSlot p f touched (k, t)).map Prod.snd
  | [], _ => rfl
  | (j, t) :: m, hm => by
    have ih := find_ageTones p f touched k (Assoc.wf_of_risesAbove hm)
    have above : k ≤ j → Assoc.find k (ageTones p f touched m) = none := fun hkj =>
      Assoc.find_none_of_risesAbove hkj (risesAbove_ageTones hm)
    cases hslot : ageSlot p f touched (j, t) with
    | none =>
      have aged : ageTones p f touched ((j, t) :: m) = ageTones p f touched m :=
        List.filterMap_cons_none hslot
      rw [aged]
      rcases Nat.lt_trichotomy k j with hlt | rfl | hgt
      · rw [Assoc.find, if_neg (Nat.ne_of_lt hlt), if_pos hlt]
        exact above (Nat.le_of_lt hlt)
      · rw [Assoc.find, if_pos rfl, Option.bind_some, hslot]
        exact above (Nat.le_refl k)
      · rw [Assoc.find, if_neg (Nat.ne_of_gt hgt), if_neg (Nat.lt_asymm hgt)]
        exact ih
    | some kt =>
      obtain ⟨j', t'⟩ := kt
      obtain rfl : j' = j := (ageSlot_some hslot).1
      have aged : ageTones p f touched ((j', t) :: m) = (j', t') :: ageTones p f touched m :=
        List.filterMap_cons_some hslot
      rw [aged]
      rcases Nat.lt_trichotomy k j' with hlt | rfl | hgt
      · simp only [Assoc.find, if_neg (Nat.ne_of_lt hlt), if_pos hlt, Option.bind_none]
      · simp only [Assoc.find, if_true, Option.bind_some, hslot, Option.map_some]
      · simp only [Assoc.find, if_neg (Nat.ne_of_gt hgt), if_neg (Nat.lt_asymm hgt)]
        exact ih

/-- Settles O44: the slot is aged by itself, and its aging is R191's decay and R192's test. -/
theorem toneAging : Obligations.ToneAging := by
  intro p f touched m k hm
  rw [find_ageTones p f touched k hm]
  exact congrArg _ (funext fun t => ageSlot_tone p f touched k t)

end Sys2Proof.Machine
end

section
/-!
PROOFS. The end of a frame decode whose packet parses (44_synthesis.md R220): the commit and the aging of
43_spectral.md R190 to R193, the clock and the error registers. The synthesis of a channel keeps what
the parse settled (Laws/Frame).
-/

namespace Sys2Proof.Machine

open Sys2Proof

/-- What a good frame leaves of the state before it, but for the channels and the work buffers. -/
theorem endFrame_good_frame (s : State) (sh : Shadow) :
    (s.endFrame (.good sh)).1 = { s with
      seed := sh.seed, flags := sh.flags, lastPktErr := .kOk, errBitpos := 0
      frameIndex := s.frameIndex + 1
      chan0 := (s.endFrame (.good sh)).1.chan0, chan1 := (s.endFrame (.good sh)).1.chan1
      work := (s.endFrame (.good sh)).1.work } := by
  have hsynth := (synthAll_spec (.good sh) s.channels (s.settleParse (.good sh)) (channels_nodup s)).eq
  rw [endFrame_eq]
  generalize (synthAll (FrameResult.good sh).synth s.channels (s.settleParse (.good sh))).1 = a
    at hsynth ⊢
  rw [hsynth, settleParse_eq]
  rfl

/-- A channel of the stream after a good frame: what its synthesis does not write. -/
theorem endFrame_good_chan_of_lt {s : State} (sh : Shadow) {c : Ch} (hc : c.index < s.channelCount) :
    ((s.endFrame (.good sh)).1.chan c).env = (sh.chan c).env
      ∧ ((s.endFrame (.good sh)).1.chan c).tones
        = ageTones s.par s.frameIndex (sh.chan c).touched (sh.chan c).tones
      ∧ ((s.endFrame (.good sh)).1.chan c).sampleCount
        = (s.chan c).sampleCount + BitVec.ofNat 64 s.spf := by
  have hsynth := frameResult_synth_frame (.good sh) (s.settleParse (.good sh)) c
  have hsettled := settleParse_chan s (.good sh) c
  rw [endFrame_chan, if_pos hc, if_pos hc]
  refine ⟨?_, ?_, rfl⟩
  · rw [hsynth.env, hsettled]
  · rw [hsynth.tones, hsettled]
    exact if_pos hc

/-- A channel the stream does not have takes the shadow's ENV and TONES, and is not aged. -/
theorem endFrame_good_chan_of_le {s : State} (sh : Shadow) {c : Ch} (hc : s.channelCount ≤ c.index) :
    (s.endFrame (.good sh)).1.chan c
      = { s.chan c with env := (sh.chan c).env, tones := (sh.chan c).tones } := by
  have hnot : ¬ c.index < s.channelCount := Nat.not_lt.2 hc
  rw [endFrame_chan, settleParse_chan]
  simp only [if_neg hnot]

/-- Settles O27: the state outside the channels, then each channel, of the stream or not. -/
theorem goodFrameCommits : Obligations.GoodFrameCommits := by
  intro s t sh out h
  obtain rfl : (s.endFrame (.good sh)).1 = t := congrArg Prod.fst h
  refine ⟨endFrame_good_frame s sh, fun c => ⟨?_, fun hc => (endFrame_good_chan_of_lt sh hc).2,
    endFrame_good_chan_of_le sh⟩⟩
  rcases Nat.lt_or_ge c.index s.channelCount with hc | hc
  · exact (endFrame_good_chan_of_lt sh hc).1
  · rw [endFrame_good_chan_of_le sh hc]

end Sys2Proof.Machine
end

section
/-!
PROOFS. The spectrum build (43_spectral.md R195 to R202): a fold of `fillBin` over the bins of the bands.
The bands of a valid layout share no bin, so each bin is written once, by its own visit, and the noise
generator has then made one draw for each non-tonal bin visited.
-/

namespace Sys2Proof.Machine

open Sys2Proof

/-! ### One bin (43_spectral.md R199) -/

/-- The bin of a visit has no tone, so that the visit takes a draw. -/
def nonTonal (ch : Chan) (bk : Nat × Nat) : Bool := (Assoc.find bk.2 ch.tones).isNone

/-- What a visit writes to its bin when the noise generator stands at `r`. -/
def binValue (p : Params) (ch : Chan) (r : Word) (bk : Nat × Nat) : Cx :=
  match Assoc.find bk.2 ch.tones with
  | some t => toneValue p t
  | none => noiseValue p (ch.env.getD bk.1 0) (lcgNext p r)

theorem fillBin_x (p : Params) (ch : Chan) (w : Fill) (bk : Nat × Nat) :
    (fillBin p ch w bk).x = w.x.set bk.2 (binValue p ch w.rng bk) := by
  cases ht : Assoc.find bk.2 ch.tones <;> simp only [fillBin, binValue, ht]

theorem fillBin_of_tonal {p : Params} {ch : Chan} {w : Fill} {bk : Nat × Nat}
    (h : nonTonal ch bk = false) :
    (fillBin p ch w bk).rng = w.rng ∧ (fillBin p ch w bk).rngPos = w.rngPos := by
  obtain ⟨t, ht⟩ := Option.isSome_iff_exists.1 (Option.isNone_eq_false_iff.1 h)
  simp only [fillBin, ht, and_self]

theorem fillBin_of_nonTonal {p : Params} {ch : Chan} {w : Fill} {bk : Nat × Nat}
    (h : nonTonal ch bk = true) :
    (fillBin p ch w bk).rng = lcgNext p w.rng ∧ (fillBin p ch w bk).rngPos = w.rngPos + 1 := by
  simp only [fillBin, Option.isNone_iff_eq_none.1 h, and_self]

/-! ### A run of visits -/

/-- The number of draws that the visits of `l` take. -/
def drawCount (ch : Chan) (l : List (Nat × Nat)) : Nat := (l.filter (nonTonal ch)).length

theorem fillBins_x_length (p : Params) (ch : Chan) : ∀ (l : List (Nat × Nat)) (w : Fill),
    (l.foldl (fillBin p ch) w).x.length = w.x.length
  | [], _ => rfl
  | bk :: l, w => by
    rw [List.foldl_cons, fillBins_x_length p ch l, fillBin_x, List.length_set]

/-- A bin that is not visited is as before. -/
theorem fillBins_x_of_notMem (p : Params) (ch : Chan) {k : Nat} :
    ∀ (l : List (Nat × Nat)) (w : Fill), k ∉ l.map Prod.snd →
      (l.foldl (fillBin p ch) w).x[k]? = w.x[k]?
  | [], _, _ => rfl
  | bk :: l, w, h => by
    rw [List.map_cons, List.mem_cons, not_or] at h
    obtain ⟨hne, hrest⟩ := h
    rw [List.foldl_cons, fillBins_x_of_notMem p ch l _ hrest, fillBin_x,
      List.getElem?_set_ne (Ne.symm hne)]

/-- The noise generator after a run of visits: one draw for each non-tonal bin, and each counted. -/
theorem fillBins_rng (p : Params) (ch : Chan) : ∀ (l : List (Nat × Nat)) (w : Fill),
    (l.foldl (fillBin p ch) w).rng = (lcgNext p)^[drawCount ch l] w.rng
      ∧ (l.foldl (fillBin p ch) w).rngPos = w.rngPos + BitVec.ofNat 32 (drawCount ch l)
  | [], w => ⟨rfl, (BitVec.add_zero w.rngPos).symm⟩
  | bk :: l, w => by
    obtain ⟨hrng, hpos⟩ := fillBins_rng p ch l (fillBin p ch w bk)
    rw [List.foldl_cons, hrng, hpos]
    cases hbk : nonTonal ch bk with
    | false =>
      have hcount : drawCount ch (bk :: l) = drawCount ch l := by
        rw [drawCount, List.filter_cons_of_neg (by simp [hbk]), drawCount]
      rw [(fillBin_of_tonal hbk).1, (fillBin_of_tonal hbk).2, hcount]
      exact ⟨rfl, rfl⟩
    | true =>
      have hcount : drawCount ch (bk :: l) = drawCount ch l + 1 := by
        rw [drawCount, List.filter_cons_of_pos hbk, List.length_cons, drawCount]
      rw [(fillBin_of_nonTonal hbk).1, (fillBin_of_nonTonal hbk).2, hcount,
        Function.iterate_succ_apply, BitVec.ofNat_add, BitVec.add_assoc, BitVec.add_comm 1]
      exact ⟨rfl, rfl⟩

/-- The bin of visit `n` holds what that visit wrote, with the noise generator where the visits before
it left it, when no later visit is of the same bin. -/
theorem fillBins_x_of_getElem? (p : Params) (ch : Chan) {l : List (Nat × Nat)} {w : Fill}
    {n : Nat} {bk : Nat × Nat} (hnodup : (l.map Prod.snd).Nodup) (hn : l[n]? = some bk)
    (hk : bk.2 < w.x.length) :
    (l.foldl (fillBin p ch) w).x[bk.2]?
      = some (binValue p ch ((lcgNext p)^[drawCount ch (l.take n)] w.rng) bk) := by
  obtain ⟨hlt, hget⟩ := List.getElem?_eq_some_iff.1 hn
  have hsplit : l = l.take n ++ bk :: l.drop (n + 1) := by
    rw [← hget, List.getElem_cons_drop, List.take_append_drop]
  have hlater : bk.2 ∉ (l.drop (n + 1)).map Prod.snd := by
    rw [hsplit, List.map_append, List.map_cons] at hnodup
    exact (List.nodup_cons.1 (List.nodup_append.1 hnodup).2.1).1
  calc (l.foldl (fillBin p ch) w).x[bk.2]?
      = ((l.drop (n + 1)).foldl (fillBin p ch)
          (fillBin p ch ((l.take n).foldl (fillBin p ch) w) bk)).x[bk.2]? := by
        conv_lhs => rw [hsplit, List.foldl_append, List.foldl_cons]
    _ = (((l.take n).foldl (fillBin p ch) w).x.set bk.2
          (binValue p ch ((l.take n).foldl (fillBin p ch) w).rng bk))[bk.2]? := by
        rw [fillBins_x_of_notMem p ch _ _ hlater, fillBin_x]
    _ = some (binValue p ch ((lcgNext p)^[drawCount ch (l.take n)] w.rng) bk) := by
        rw [List.getElem?_set_self (by rwa [fillBins_x_length]), (fillBins_rng p ch _ w).1]

/-! ### The bins of a valid layout (00_scope.md R7) -/

theorem bandBins_map_snd (s : State) : s.bandBins.map Prod.snd
    = (List.range s.numBands).flatMap fun b =>
        (List.range (s.band b).width).map fun i => (s.band b).base + i := by
  simp only [State.bandBins, List.map_flatMap, List.map_map, Function.comp_def]

theorem mem_bandBins {s : State} {b k : Nat} : (b, k) ∈ s.bandBins ↔
    b < s.numBands ∧ (s.band b).base ≤ k ∧ k < (s.band b).base + (s.band b).width := by
  simp only [State.bandBins, List.mem_flatMap, List.mem_map, List.mem_range, Prod.mk.injEq]
  constructor
  · rintro ⟨b, hb, i, hi, rfl, rfl⟩
    exact ⟨hb, by omega, by omega⟩
  · rintro ⟨hb, hlo, hhi⟩
    exact ⟨b, hb, k - (s.band b).base, by omega, rfl, by omega⟩

/-- The bands of a valid layout lie below the FFT size. -/
theorem mem_bandBins_lt {s : State} (h : layoutValid s.fftN s.cfg.bands = true)
    (hnb : s.numBands = s.cfg.bands.length) {b k : Nat} (hbk : (b, k) ∈ s.bandBins) :
    k < s.fftN := by
  obtain ⟨hb, _, hhi⟩ := mem_bandBins.1 hbk
  simp only [layoutValid, Bool.and_eq_true, List.all_eq_true, decide_eq_true_eq] at h
  obtain ⟨⟨_, hrange⟩, _⟩ := h
  have hband := (hrange _ (List.getElem_mem (hnb ▸ hb))).2
  rw [← List.getD_eq_getElem (d := { base := 0, width := 0 })] at hband
  exact Nat.lt_of_lt_of_le hhi hband

/-- The bands of a valid layout share no bin, so the build visits no bin twice. -/
theorem bandBins_nodup {s : State} (h : layoutValid s.fftN s.cfg.bands = true)
    (hnb : s.numBands = s.cfg.bands.length) : (s.bandBins.map Prod.snd).Nodup := by
  simp only [layoutValid, Bool.and_eq_true, decide_eq_true_eq] at h
  have hapart := List.pairwise_iff_getElem.1 h.2
  rw [bandBins_map_snd, List.nodup_flatMap]
  refine ⟨fun b _ => (List.nodup_range).map (fun _ _ e => Nat.add_left_cancel e), ?_⟩
  refine List.pairwise_lt_range.imp_of_mem fun {a b} ha hb hab k hka hkb => ?_
  simp only [List.mem_map, List.mem_range, hnb] at ha hb hka hkb
  obtain ⟨i, hi, rfl⟩ := hka
  obtain ⟨j, hj, hkj⟩ := hkb
  have hdisjoint := hapart a b ha hb hab
  rw [← List.getD_eq_getElem (d := { base := 0, width := 0 }),
    ← List.getD_eq_getElem (d := { base := 0, width := 0 })] at hdisjoint
  simp only [bandsApart, Bool.or_eq_true, decide_eq_true_eq] at hdisjoint
  simp only [State.band] at hi hj hkj
  omega

/-! ### The build (43_spectral.md R199, R202) -/

/-- X, RNG and RNG_POS as the build finds them: every bin zero, SEED_FRAME, no draw. -/
def initialFill (s : State) (c : Ch) : Fill :=
  { x := List.replicate s.fftN cxZero, rng := seedFrame s.seed s.frameIndex c, rngPos := 0 }

theorem initialFill_x_length (s : State) (c : Ch) : (initialFill s c).x.length = s.fftN :=
  List.length_replicate

theorem spectrumBuild_x (s : State) (c : Ch) : (s.spectrumBuild c).work.x
    = (s.bandBins.foldl (fillBin s.par (s.chan c)) (initialFill s c)).x := rfl

theorem spectrumBuild_rng (s : State) (c : Ch) : ((s.spectrumBuild c).chan c).rng
    = (s.bandBins.foldl (fillBin s.par (s.chan c)) (initialFill s c)).rng := by cases c <;> rfl

theorem spectrumBuild_rngPos (s : State) (c : Ch) : ((s.spectrumBuild c).chan c).rngPos
    = (s.bandBins.foldl (fillBin s.par (s.chan c)) (initialFill s c)).rngPos := by cases c <;> rfl

theorem spectrumBuild_x_length (s : State) (c : Ch) :
    (s.spectrumBuild c).work.x.length = s.fftN := by
  rw [spectrumBuild_x, fillBins_x_length, initialFill_x_length]

/-- A bin of no band is (+0.0, +0.0). -/
theorem spectrumBuild_x_of_noBand {s : State} {c : Ch} {k : Nat} (hk : k < s.fftN)
    (h : ∀ b, (b, k) ∉ s.bandBins) : (s.spectrumBuild c).work.x[k]? = some cxZero := by
  have hnot : k ∉ s.bandBins.map Prod.snd := fun hmem => by
    obtain ⟨⟨b, k'⟩, hbk, rfl⟩ := List.mem_map.1 hmem
    exact h b hbk
  rw [spectrumBuild_x, fillBins_x_of_notMem _ _ _ _ hnot, initialFill,
    List.getElem?_replicate_of_lt hk]

/-- The bin of visit `n` takes its tone, or the draw after those of the visits before it. -/
theorem spectrumBuild_x_of_visit {s : State} {c : Ch} {n : Nat} {bk : Nat × Nat}
    (h : layoutValid s.fftN s.cfg.bands = true) (hnb : s.numBands = s.cfg.bands.length)
    (hn : s.bandBins[n]? = some bk) :
    (s.spectrumBuild c).work.x[bk.2]? = some (binValue s.par (s.chan c)
      ((lcgNext s.par)^[drawCount (s.chan c) (s.bandBins.take n)] (seedFrame s.seed s.frameIndex c))
      bk) := by
  have hk : bk.2 < s.fftN := mem_bandBins_lt h hnb (List.mem_of_getElem? hn)
  exact fillBins_x_of_getElem? _ _ (bandBins_nodup h hnb) hn
    (hk.trans_eq (initialFill_x_length s c).symm)

/-- Settles O45: each clause is the one of the build's fold over the bins of the layout. -/
theorem spectrumBuildBins : Obligations.SpectrumBuildBins := by
  rintro s _ c h hnb rfl
  obtain ⟨hrng, hpos⟩ := fillBins_rng s.par (s.chan c) s.bandBins (initialFill s c)
  refine ⟨fun n b k hn => ?_, fun k hk => spectrumBuild_x_of_noBand hk,
    spectrumBuild_x_length s c, (spectrumBuild_rng s c).trans hrng,
    ((spectrumBuild_rngPos s c).trans hpos).trans (BitVec.zero_add _)⟩
  rw [spectrumBuild_x_of_visit h hnb hn, binValue]
  cases ht : Assoc.find k (s.chan c).tones with
  | some t => rfl
  | none =>
    exact congrArg (fun r => some (noiseValue s.par ((s.chan c).env.getD b 0) r))
      (Function.iterate_succ_apply' (lcgNext s.par) _ _).symm

end Sys2Proof.Machine
end

section
/-!
PROOFS. The samples of a frame (44_synthesis.md R219, R220, R222): the order of the interleaving, and the
synthesis of each channel from the state the parse left (Laws/Frame).
-/

namespace Sys2Proof.Machine

open Sys2Proof

/-- Where every block of a concatenation has `w` entries, entry `j` of block `i` is at `w * i + j`. -/
theorem getElem?_flatMap_of_length {α β : Type} {f : α → List β} {w j : Nat} (hj : j < w) :
    ∀ {l : List α} (i : Nat), (∀ a ∈ l, (f a).length = w) →
      (l.flatMap f)[w * i + j]? = l[i]?.bind fun a => (f a)[j]?
  | [], _, _ => rfl
  | a :: l, i, h => by
    have ha : (f a).length = w := h a List.mem_cons_self
    rw [List.flatMap_cons]
    cases i with
    | zero => rw [Nat.mul_zero, Nat.zero_add, List.getElem?_append_left (hj.trans_eq ha.symm)]; rfl
    | succ i =>
      have hle : (f a).length ≤ w * (i + 1) + j := by rw [ha, Nat.mul_succ]; omega
      have hsub : w * (i + 1) + j - w = w * i + j := by rw [Nat.mul_succ]; omega
      rw [List.getElem?_append_right hle, ha, hsub, List.getElem?_cons_succ]
      exact getElem?_flatMap_of_length hj i fun b hb => h b (List.mem_cons_of_mem a hb)

/-- Settles O31: the frame is one block of CH samples for each n. -/
theorem interleaveOrder : Obligations.InterleaveOrder := by
  intro spf pcm
  refine ⟨interleave_length spf pcm, fun n hn c hc => ?_⟩
  rw [interleave, getElem?_flatMap_of_length hc n fun _ _ => List.length_map _,
    List.getElem?_range hn, Option.bind_some, List.getElem?_map, List.getElem?_eq_getElem hc,
    Option.map_some, ← List.getD_eq_getElem pcm [] hc]

/-- Settles O30: the synthesis of the channels in turn is each one's from the settled state, and the
clock and the error registers keep what it wrote. -/
theorem channelsAreIndependent : Obligations.ChannelsAreIndependent := by
  intro s t r out h
  obtain rfl : (s.endFrame r).1 = t := congrArg Prod.fst h
  obtain rfl : (s.endFrame r).2 = out := congrArg Prod.snd h
  have hsynth := synthAll_spec r s.channels (s.settleParse r) (channels_nodup s)
  refine ⟨by rw [endFrame_eq, hsynth.pcm], fun c hc => ?_⟩
  rw [endFrame_chan, if_pos ((mem_channels s c).1 hc)]
  exact ⟨rfl, rfl, rfl⟩

end Sys2Proof.Machine
end

section
/-!
PROOFS. The inverse FFT (44_synthesis.md R213, R214): the butterflies of a stage, the bit reversal, and
the chain of the stages.
-/

namespace Sys2Proof.Machine

open Sys2Proof

/-! ### One block (44_synthesis.md R214) -/

section
variable {tw block : List Cx} {h j : Nat}

theorem butterfly_length (htw : tw.length = h) (hb : block.length = 2 * h) :
    (butterfly tw h block).length = 2 * h := by
  simp only [butterfly, List.length_append, List.length_zipWith, List.length_take,
    List.length_drop]
  omega

/-- The second half of a block times its twiddles. -/
theorem getElem?_zipWith_cmul (htw : tw.length = h) (hb : block.length = 2 * h) (hj : j < h) :
    (List.zipWith cmul (block.drop h) tw)[j]?
      = some (cmul (block.getD (j + h) cxZero) (tw.getD j cxZero)) := by
  rw [List.getElem?_zipWith_eq_some]
  refine ⟨block.getD (j + h) cxZero, tw.getD j cxZero, ?_, ?_, rfl⟩
  · rw [List.getElem?_drop, Nat.add_comm h j, List.getElem?_eq_getElem (by omega),
      List.getD_eq_getElem]
  · rw [List.getElem?_eq_getElem (by omega), List.getD_eq_getElem]

/-- The butterfly of the entries `j` and `j + h` of a block. -/
theorem butterfly_getElem? (htw : tw.length = h) (hb : block.length = 2 * h) (hj : j < h) :
    let u := block.getD j cxZero
    let v := cmul (block.getD (j + h) cxZero) (tw.getD j cxZero)
    (butterfly tw h block)[j]? = some (cadd u v)
      ∧ (butterfly tw h block)[j + h]? = some (csub u v) := by
  have hu : (block.take h)[j]? = some (block.getD j cxZero) := by
    rw [List.getElem?_take_of_lt hj, List.getElem?_eq_getElem (by omega), List.getD_eq_getElem]
  have hv := getElem?_zipWith_cmul htw hb hj
  have hlen : (List.zipWith cadd (block.take h) (List.zipWith cmul (block.drop h) tw)).length = h := by
    simp only [List.length_zipWith, List.length_take, List.length_drop]
    omega
  constructor
  · rw [butterfly, List.getElem?_append_left (hlen.symm ▸ hj), List.getElem?_zipWith_eq_some]
    exact ⟨_, _, hu, hv, rfl⟩
  · rw [butterfly, List.getElem?_append_right (hlen.le.trans (Nat.le_add_left h j)), hlen,
      Nat.add_sub_cancel, List.getElem?_zipWith_eq_some]
    exact ⟨_, _, hu, hv, rfl⟩

end

/-! ### One stage -/

/-- The twiddles of stage `st`, one for each butterfly of a block (44_synthesis.md R212, R214). -/
def stageTwiddles (n st : Nat) : List Cx :=
  (List.range (2 ^ st / 2)).map fun j => twiddle n (j * (n / 2 ^ st))

theorem stageTwiddles_length (n st : Nat) : (stageTwiddles n st).length = 2 ^ st / 2 := by
  rw [stageTwiddles, List.length_map, List.length_range]

theorem stageTwiddles_getD {n st j : Nat} (hj : j < 2 ^ st / 2) :
    (stageTwiddles n st).getD j cxZero = twiddle n (j * (n / 2 ^ st)) := by
  rw [List.getD_eq_getElem _ _ (by rwa [stageTwiddles_length])]
  simp only [stageTwiddles, List.getElem_map, List.getElem_range]

/-- Block `i` of `m` entries each. -/
def fftBlock (m : Nat) (a : List Cx) (i : Nat) : List Cx := (a.drop (m * i)).take m

/-- The blocks of a stage, and the entries past the last of them. -/
theorem stageBlocks_eq_flatMap (tw : List Cx) (h : Nat) : ∀ (blocks : Nat) (a : List Cx),
    stageBlocks tw h blocks a
      = ((List.range blocks).flatMap fun i => butterfly tw h (fftBlock (2 * h) a i))
        ++ a.drop (2 * h * blocks)
  | 0, _ => rfl
  | blocks + 1, a => by
    have hshift : ∀ i, fftBlock (2 * h) (a.drop (2 * h)) i = fftBlock (2 * h) a (i + 1) := by
      intro i
      rw [fftBlock, fftBlock, List.drop_drop, Nat.mul_succ, Nat.add_comm]
    have hfirst : fftBlock (2 * h) a 0 = a.take (2 * h) := rfl
    rw [stageBlocks, stageBlocks_eq_flatMap tw h blocks, List.range_succ_eq_map, List.flatMap_cons,
      List.flatMap_map, List.drop_drop, Nat.mul_succ, Nat.add_comm (2 * h * blocks),
      List.append_assoc]
    simp only [hshift, hfirst]

/-- A stage of at least order 1 has blocks of twice its number of twiddles. -/
theorem two_mul_half_two_pow {st : Nat} (hst : 1 ≤ st) : 2 * (2 ^ st / 2) = 2 ^ st :=
  Nat.mul_div_cancel' (dvd_pow_self 2 (Nat.ne_of_gt hst))

theorem fftStage_eq_flatMap {n st : Nat} {a : List Cx} (hst : 1 ≤ st) (ha : a.length = n)
    (hdvd : 2 ^ st ∣ n) : fftStage n st a
    = (List.range (n / 2 ^ st)).flatMap fun i =>
        butterfly (stageTwiddles n st) (2 ^ st / 2) (fftBlock (2 ^ st) a i) := by
  have hall : a.drop (2 ^ st * (n / 2 ^ st)) = [] :=
    List.drop_eq_nil_of_le (ha.trans (Nat.mul_div_cancel' hdvd).symm).le
  simp only [fftStage, stageTwiddles, stageBlocks_eq_flatMap, two_mul_half_two_pow hst, hall,
    List.append_nil]

section
variable {n st i j : Nat} {a : List Cx}

theorem fftBlock_getD (hj : j < 2 ^ st) :
    (fftBlock (2 ^ st) a i).getD j cxZero = a.getD (i * 2 ^ st + j) cxZero := by
  rw [fftBlock, List.getD_eq_getElem?_getD, List.getD_eq_getElem?_getD,
    List.getElem?_take_of_lt hj, List.getElem?_drop, Nat.mul_comm]

/-- The blocks of a stage are whole. -/
theorem fftBlock_length (ha : a.length = n) (hi : i < n / 2 ^ st) :
    (fftBlock (2 ^ st) a i).length = 2 ^ st := by
  have hend : 2 ^ st * (i + 1) ≤ n :=
    (Nat.mul_le_mul_left _ hi).trans (Nat.mul_div_le n (2 ^ st))
  rw [Nat.mul_succ] at hend
  rw [fftBlock, List.length_take, List.length_drop, ha]
  omega

theorem fftStage_block_length (hst : 1 ≤ st) (ha : a.length = n) (hi : i < n / 2 ^ st) :
    (butterfly (stageTwiddles n st) (2 ^ st / 2) (fftBlock (2 ^ st) a i)).length = 2 ^ st := by
  rw [butterfly_length (stageTwiddles_length n st)
    ((fftBlock_length ha hi).trans (two_mul_half_two_pow hst).symm), two_mul_half_two_pow hst]

theorem fftStage_length (hst : 1 ≤ st) (ha : a.length = n) (hdvd : 2 ^ st ∣ n) :
    (fftStage n st a).length = n := by
  rw [fftStage_eq_flatMap hst ha hdvd, List.length_flatMap,
    List.map_congr_left fun i hi => fftStage_block_length hst ha (List.mem_range.1 hi),
    List.map_const', List.sum_replicate, List.length_range, smul_eq_mul,
    Nat.div_mul_cancel hdvd]

/-- Entry `j` of block `i` after a stage. -/
theorem fftStage_getElem? (hst : 1 ≤ st) (ha : a.length = n) (hdvd : 2 ^ st ∣ n)
    (hi : i < n / 2 ^ st) (hj : j < 2 ^ st) :
    (fftStage n st a)[i * 2 ^ st + j]?
      = (butterfly (stageTwiddles n st) (2 ^ st / 2) (fftBlock (2 ^ st) a i))[j]? := by
  rw [fftStage_eq_flatMap hst ha hdvd, Nat.mul_comm, getElem?_flatMap_of_length hj i fun k hk =>
    fftStage_block_length hst ha (List.mem_range.1 hk), List.getElem?_range hi, Option.bind_some]

end

/-- Settles O46: the two entries of a butterfly lie in one block. -/
theorem fftStageButterflies : Obligations.FftStageButterflies := by
  intro n st i j a hst ha hdvd hi hj
  have hhalf := two_mul_half_two_pow hst
  have hblock := (fftBlock_length ha hi).trans hhalf.symm
  obtain ⟨hadd, hsub⟩ := butterfly_getElem? (stageTwiddles_length n st) hblock hj
  rw [fftBlock_getD (by omega), fftBlock_getD (by omega), stageTwiddles_getD hj, ← Nat.add_assoc]
    at hadd hsub
  have hj' : j + 2 ^ st / 2 < 2 ^ st := by omega
  refine ⟨fftStage_length hst ha hdvd, ?_, ?_⟩
  · rw [fftStage_getElem? hst ha hdvd hi (by omega), hadd]
  · rw [← hsub, ← fftStage_getElem? hst ha hdvd hi hj', Nat.add_assoc]

/-! ### Bit reversal (44_synthesis.md R213) -/

theorem revBits_lt : ∀ l k : Nat, revBits l k < 2 ^ l
  | 0, _ => Nat.one_pos
  | l + 1, k => by
    have hlow := revBits_lt l (k / 2)
    have htop : k % 2 * 2 ^ l ≤ 1 * 2 ^ l := Nat.mul_le_mul_right _ (by omega)
    rw [revBits, Nat.pow_succ]
    omega

theorem testBit_revBits : ∀ {l i : Nat} (k : Nat), i < l →
    (revBits l k).testBit i = k.testBit (l - 1 - i)
  | l + 1, i, k, hi => by
    rw [revBits, Nat.mul_comm, Nat.testBit_two_pow_mul_add _ (revBits_lt l (k / 2))]
    split
    next hil =>
      rw [testBit_revBits (k / 2) hil, Nat.testBit_div_two]
      congr 1
      omega
    next hil =>
      obtain rfl : i = l := by omega
      rw [Nat.sub_self, Nat.add_sub_cancel, Nat.sub_self, Nat.testBit_zero, Nat.testBit_zero,
        Nat.mod_mod]

/-- rev_L is its own inverse. -/
theorem revBits_revBits {l k : Nat} (hk : k < 2 ^ l) : revBits l (revBits l k) = k := by
  refine Nat.eq_of_testBit_eq fun i => ?_
  rcases Nat.lt_or_ge i l with hi | hi
  · rw [testBit_revBits _ hi, testBit_revBits _ (by omega)]
    congr 1
    omega
  · have hpow : 2 ^ l ≤ 2 ^ i := Nat.pow_le_pow_right Nat.two_pos hi
    rw [Nat.testBit_lt_two_pow ((revBits_lt l _).trans_le hpow),
      Nat.testBit_lt_two_pow (hk.trans_le hpow)]

theorem bitReversed_length (l : Nat) (x : List Cx) : (bitReversed l x).length = x.length := by
  rw [bitReversed, List.length_map, List.length_range]

theorem bitReversed_getElem? {l k : Nat} {x : List Cx} (hx : x.length = 2 ^ l) (hk : k < 2 ^ l) :
    (bitReversed l x)[revBits l k]? = x[k]? := by
  have hrev : revBits l k < x.length := (revBits_lt l k).trans_eq hx.symm
  have hkx : k < x.length := hk.trans_eq hx.symm
  rw [bitReversed, List.getElem?_map, List.getElem?_range hrev, Option.map_some,
    revBits_revBits hk, List.getD_eq_getElem _ _ hkx, List.getElem?_eq_getElem hkx]

/-! ### The chain of the stages (44_synthesis.md R214) -/

/-- A fold over 0 .. l-1 is the last of the values that each step makes of the one before. -/
theorem foldl_range_of_chain {α : Type} {f : α → Nat → α} {a : Nat → α} : ∀ {l : Nat},
    (∀ s < l, a (s + 1) = f (a s) s) → (List.range l).foldl f (a 0) = a l
  | 0, _ => rfl
  | l + 1, h => by
    have hbefore : ∀ s < l, a (s + 1) = f (a s) s := fun s hs => h s (hs.trans l.lt_succ_self)
    rw [List.range_succ, List.foldl_append, foldl_range_of_chain hbefore, List.foldl_cons,
      List.foldl_nil, h l l.lt_succ_self]

theorem ifft_length {l : Nat} {x : List Cx} (hx : x.length = 2 ^ l) :
    (ifft l x).length = x.length := by
  have hstage : ∀ a : List Cx, a.length = x.length → ∀ s ∈ List.range l,
      (fftStage x.length (s + 1) a).length = x.length := fun a ha s hs =>
    fftStage_length s.succ_pos ha (hx ▸ Nat.pow_dvd_pow 2 (List.mem_range.1 hs))
  exact List.foldlRecOn (motive := fun a : List Cx => a.length = x.length) _ _
    (bitReversed_length l x) hstage

/-- Settles O47: the bits of rev_L, and the fold over the stages. -/
theorem bitReversal : Obligations.BitReversal := by
  intro l x hx
  refine ⟨fun k hk => ⟨bitReversed_getElem? hx hk, revBits_lt l k, fun _ => testBit_revBits k⟩,
    fun a h0 hstep => ?_⟩
  rw [ifft, ← h0]
  exact foldl_range_of_chain hstep

end Sys2Proof.Machine
end

section
/-!
PROOFS. The synthesis of a channel for a good frame (44_synthesis.md R215 to R217, R219): the window, the
overlap-add and PREV, entry by entry.
-/

namespace Sys2Proof.Machine

open Sys2Proof

/-! ### The window (44_synthesis.md R215) -/

theorem windowed_length {size : Nat} {a : List Cx} (ha : a.length = size) :
    (windowed size a).length = size := by
  rw [windowed, List.length_zipWith, List.length_range, ha, Nat.min_self]

theorem windowed_getElem? {size n : Nat} {a : List Cx} (ha : a.length = size) (hn : n < size) :
    (windowed size a)[n]? = some (mul32 (a.getD n cxZero).re (window size n)) := by
  have hna : n < a.length := hn.trans_eq ha.symm
  rw [windowed, List.getElem?_zipWith_eq_some]
  exact ⟨_, n, by rw [List.getElem?_eq_getElem hna, List.getD_eq_getElem],
    List.getElem?_range hn, rfl⟩

/-! ### The overlap-add (44_synthesis.md R216) -/

section
variable {spf n : Nat} {y prev : List Num}

theorem overlapAdd_length (hy : spf ≤ y.length) (hprev : spf + spf ≤ prev.length) :
    (overlapAdd spf y prev).length = spf := by
  simp only [overlapAdd, List.length_zipWith, List.length_take, List.length_drop]
  omega

theorem overlapAdd_getElem? {v w : Num} (hn : n < spf) (hv : y[n]? = some v)
    (hw : prev[spf + n]? = some w) : (overlapAdd spf y prev)[n]? = some (add32 v w) := by
  rw [overlapAdd, List.getElem?_zipWith_eq_some]
  refine ⟨v, w, ?_, ?_, rfl⟩
  · rw [List.getElem?_take_of_lt hn, hv]
  · rw [List.getElem?_take_of_lt hn, List.getElem?_drop, hw]

theorem nextPrev_getElem? (hn : n < y.length) : (nextPrev y prev)[n]? = y[n]? :=
  List.getElem?_append_left hn

end

/-! ### The synthesis (44_synthesis.md R219) -/

theorem synth_pcm (s : State) (c : Ch) : (s.synth c).2
    = (overlapAdd s.spf (windowed s.fftN (ifft s.fftL (s.spectrumBuild c).work.x))
        (s.chan c).prev).map pcm16 := by
  cases c <;> rfl

theorem ifft_spectrum_length {s : State} (h : s.CfgLegal) (c : Ch) :
    (ifft s.fftL (s.spectrumBuild c).work.x).length = s.fftN := by
  have hx := spectrumBuild_x_length s c
  rw [ifft_length (hx.trans h.fftOrder.symm), hx]

/-- Settles O48: the windowed frame has N entries, and PREV holds them and its own upper half. -/
theorem synthOutput : Obligations.SynthOutput := by
  intro s t c pcm hcfg hprev h
  obtain rfl : (s.synth c).1 = t := congrArg Prod.fst h
  obtain rfl : (s.synth c).2 = pcm := congrArg Prod.snd h
  have ha := ifft_spectrum_length hcfg c
  have hy := windowed_length ha
  have hN : s.fftN = 2 * s.spf := hcfg.fftSize
  have hmax : s.fftN ≤ 2048 := cfgLegal_fftN_le hcfg
  rw [synth_pcm, synth_prev]
  refine ⟨?_, fun n hn => ?_, fun n hn => ?_, ?_⟩
  · rw [List.length_map, overlapAdd_length (by omega) (by omega)]
  · have hold : s.spf + n < (s.chan c).prev.length := by omega
    have hsum := overlapAdd_getElem? hn (windowed_getElem? ha (by omega))
      (List.getElem?_eq_getElem hold)
    rw [List.getD_eq_getElem?_getD, List.getElem?_map, hsum, Option.map_some, Option.getD_some,
      List.getD_eq_getElem _ _ hold]
  · rw [nextPrev_getElem? (hn.trans_eq hy.symm), windowed_getElem? ha hn]
  · rw [nextPrev_length (by omega), hprev]

end Sys2Proof.Machine
end

section
/-!
PROOFS. PCM16 (44_synthesis.md R217): the rounding of a magnitude to the nearest integer, its sign, and the
saturation.
-/

namespace Sys2Proof.Machine

open Sys2Proof

/-- `r` is `x / 2 ^ k` rounded to the nearest integer, ties to the even one. -/
def NearestEven (k : Nat) (x r : Int) : Prop :=
  2 * |r * 2 ^ k - x| ≤ 2 ^ k ∧ (2 * |r * 2 ^ k - x| = 2 ^ k → r % 2 = 0)

theorem rneShift_eq (a k : Nat) : rneShift a k =
    if 2 ^ k < 2 * (a % 2 ^ k) ∨ 2 * (a % 2 ^ k) = 2 ^ k ∧ a / 2 ^ k % 2 = 1
    then a / 2 ^ k + 1 else a / 2 ^ k := by
  have hmod : a - a / 2 ^ k * 2 ^ k = a % 2 ^ k := by
    rw [Nat.mul_comm, ← Nat.mod_eq_sub]
  simp only [rneShift, Nat.shiftRight_eq_div_pow, Nat.shiftLeft_eq, Nat.one_mul, hmod]

theorem rneShift_nearestEven (a k : Nat) : NearestEven k a (rneShift a k) := by
  have hdiv : a / 2 ^ k * 2 ^ k + a % 2 ^ k = a := Nat.div_add_mod' a (2 ^ k)
  have hrest : a % 2 ^ k < 2 ^ k := Nat.mod_lt a (Nat.two_pow_pos k)
  have hpow : (2 : Int) ^ k = ((2 ^ k : Nat) : Int) := by rw [Nat.cast_pow, Nat.cast_ofNat]
  rw [NearestEven, rneShift_eq, hpow]
  generalize a / 2 ^ k = q, a % 2 ^ k = rest at *
  generalize 2 ^ k = unit at *
  subst hdiv
  split
  next hup =>
    have hdist : ((q + 1 : Nat) : Int) * unit - (q * unit + rest : Nat) = unit - rest := by
      push_cast
      ring
    rw [hdist, abs_of_nonneg (by omega)]
    omega
  next hdown =>
    have hdist : (q : Int) * unit - (q * unit + rest : Nat) = -rest := by
      push_cast
      ring
    rw [hdist, abs_neg, abs_of_nonneg (by omega)]
    omega

theorem NearestEven.neg {k : Nat} {x r : Int} (h : NearestEven k x r) :
    NearestEven k (-x) (-r) := by
  obtain ⟨hnear, htie⟩ := h
  have hdist : |-r * 2 ^ k - -x| = |r * 2 ^ k - x| := by
    rw [← abs_neg]
    congr 1
    ring
  rw [NearestEven, hdist]
  exact ⟨hnear, fun heq => by have := htie heq; omega⟩

/-- The integer nearest to a finite value, before the saturation (44_synthesis.md R217). -/
def rni (v : Num) : Int :=
  if sign32 v then -(rneShift (mag32 v) 149 : Int) else (rneShift (mag32 v) 149 : Int)

theorem pcm16_of_finite {v : Num} (h : finite32 v = true) : pcm16 v = sat16 (rni v) :=
  if_pos h

theorem rni_nearestEven (v : Num) : NearestEven 149 (exact32 v) (rni v) := by
  have hmag := rneShift_nearestEven (mag32 v) 149
  rw [rni, exact32]
  split
  · exact hmag.neg
  · exact hmag

theorem toInt_sat16 (x : Int) : (sat16 x).toInt = clamp x (-32768) 32767 := by
  have hclamp : max (-32768) (min x 32767) = clamp x (-32768) 32767 := by
    rw [clamp]
    split
    · omega
    · split <;> omega
  obtain ⟨hlo, hhi⟩ := clamp_range (v := x) (lo := -32768) (hi := 32767) (by decide)
  rw [sat16, hclamp]
  exact BitVec.toInt_ofInt_eq_self (by decide) (by omega) (by omega)

/-- Settles O49: the rounding of the magnitude with its sign, then the saturation. -/
theorem pcmRounding : Obligations.PcmRounding := by
  intro v h
  obtain ⟨hnear, htie⟩ := rni_nearestEven v
  exact ⟨rni v, by rw [pcm16_of_finite h, toInt_sat16], hnear, htie⟩

end Sys2Proof.Machine
end

section
/-!
PROOFS. The host commands that decode no packet and construct nothing (45_host_commands.md R230,
R231, R233, R234, R237 to R239, R241): the checks of the common frame, then each command's own rule.
-/

namespace Sys2Proof.Machine

open Sys2Proof

/-! ### The checks of the common frame (45_host_commands.md R230) -/

theorem live_of_not_dead {s : State} (h : ¬(s.adapter = .unconfigured ∨ s.adapter = .closed)) :
    s.live = true := by
  rwa [← not_live_iff, Bool.not_eq_false] at h

theorem gateLive_of_dead {s : State} (h : s.live = false) : gateLive s = some .kClosed := by
  simp [gateLive, h]

theorem gateStream_of_dead {s : State} (h : s.live = false) : gateStream s = some .kClosed := by
  simp [gateStream, h]

theorem gateCodec_of_dead {s : State} (h : s.live = false) : gateCodec s = some .kClosed := by
  simp [gateCodec, h]

theorem gateConfigure_of_live {s : State} (h : s.live = true) :
    gateConfigure s = some .kBadCommand := by
  simp [gateConfigure, h]

theorem gateLive_of_live {s : State} (h : s.live = true) : gateLive s = none := by
  simp [gateLive, h]

theorem gateStream_of_live {s : State} (h : s.live = true) :
    gateStream s = if s.mode = .codec then some .kBadCommand else none := by
  simp [gateStream, h]

theorem gateCodec_of_live {s : State} (h : s.live = true) :
    gateCodec s = if s.mode = .stream then some .kBadCommand else none := by
  simp [gateCodec, h]

theorem gateStream_of_stream {s : State} (h : s.live = true) (hm : s.mode = .stream) :
    gateStream s = none := by
  rw [gateStream_of_live h, if_neg (by rw [hm]; decide)]

theorem gateCodec_of_codec {s : State} (h : s.live = true) (hm : s.mode = .codec) :
    gateCodec s = none := by
  rw [gateCodec_of_live h, if_neg (by rw [hm]; decide)]

/-- Where no decoder is live every command but CONFIGURE gives kClosed. -/
theorem exec_of_dead {i : Instr} {s : State} (hi : isCommand i = true)
    (hc : ¬(i = .configureStream ∨ i = .configureCodec)) (ha : s.activity = .idle)
    (hdead : s.live = false) : exec i s = .next (s.fail .kClosed) := by
  have hlayer : i.layer = .command := of_decide_eq_true hi
  have hlive := gateLive_of_dead hdead
  have hstream := gateStream_of_dead hdead
  cases i with
  | configureStream => exact absurd (.inl rfl) hc
  | configureCodec => exact absurd (.inr rfl) hc
  | queuePacket | finish | readBuffer => exact onCommand_some ha hstream _
  | endOfData | isStereo | getRate | destroy =>
    dsimp only [exec, execEndOfData, execIsStereo, execGetRate, execDestroy]
    exact onCommand_some ha hlive _
  | decodePacket => exact onCommand_some ha (gateCodec_of_dead hdead) _
  | _ => cases hlayer

/-- A live decoder must be destroyed before it is constructed again. -/
theorem exec_configure_of_live {i : Instr} {s : State}
    (hi : i = .configureStream ∨ i = .configureCodec) (ha : s.activity = .idle)
    (hlive : s.live = true) : exec i s = .next (s.fail .kBadCommand) := by
  rcases hi with rfl | rfl <;> exact onCommand_some ha (gateConfigure_of_live hlive) _

/-- The commands of the stream adapter have no meaning in CODEC mode. -/
theorem exec_stream_of_codec {i : Instr} {s : State}
    (hi : i = .queuePacket ∨ i = .finish ∨ i = .readBuffer) (ha : s.activity = .idle)
    (hlive : s.live = true) (hm : s.mode = .codec) : exec i s = .next (s.fail .kBadCommand) := by
  have hgate : gateStream s = some .kBadCommand := by rw [gateStream_of_live hlive, if_pos hm]
  rcases hi with rfl | rfl | rfl <;> exact onCommand_some ha hgate _

/-- DECODE_PACKET has no meaning in STREAM mode. -/
theorem exec_decodePacket_of_stream {s : State} (ha : s.activity = .idle) (hlive : s.live = true)
    (hm : s.mode = .stream) : exec .decodePacket s = .next (s.fail .kBadCommand) :=
  onCommand_some ha (by rw [gateCodec_of_live hlive, if_pos hm]) _

/-! ### The commands of a live decoder, past the checks -/

theorem exec_queuePacket {s : State} (ha : s.activity = .idle) (hlive : s.live = true)
    (hm : s.mode = .stream) : exec .queuePacket s = queuePacket s :=
  onCommand_none ha (gateStream_of_stream hlive hm) _

theorem exec_finish {s : State} (ha : s.activity = .idle) (hlive : s.live = true)
    (hm : s.mode = .stream) : exec .finish s = finish s :=
  onCommand_none ha (gateStream_of_stream hlive hm) _

theorem exec_isStereo {s : State} (ha : s.activity = .idle) (hlive : s.live = true) :
    exec .isStereo s = .next (s.succeed (if s.cfg.channels = 2 then 1 else 0)) := by
  rw [exec, execIsStereo, onCommand_none ha (gateLive_of_live hlive)]

theorem exec_getRate {s : State} (ha : s.activity = .idle) (hlive : s.live = true) :
    exec .getRate s = .next (s.succeed s.cfg.sampleRate) := by
  rw [exec, execGetRate, onCommand_none ha (gateLive_of_live hlive)]

theorem exec_endOfData {s : State} (ha : s.activity = .idle) (hlive : s.live = true) :
    exec .endOfData s = .next (s.succeed (if s.eod then 1 else 0)) := by
  rw [exec, execEndOfData, onCommand_none ha (gateLive_of_live hlive)]

/-- A draining decoder takes no packet and no second FINISH. -/
theorem exec_of_draining {i : Instr} {s : State} (hi : i = .queuePacket ∨ i = .finish)
    (ha : s.activity = .idle) (hd : s.adapter = .draining) (hm : s.mode = .stream) :
    exec i s = .next (s.fail .kClosed) := by
  have hlive := (live_iff s).2 (.inr hd)
  rcases hi with rfl | rfl
  · rw [exec_queuePacket ha hlive hm, queuePacket, if_pos hd]
  · rw [exec_finish ha hlive hm, finish, if_pos hd]

/-! ### The statements -/

/-- Settles O14, by the check of the validity matrix that fails first. -/
theorem commandChecks : Obligations.CommandChecks := by
  intro i s e hi ha h
  unfold commandError at h
  split_ifs at h with hdead hc hc hcodec hstream hdrain <;> cases h
  · exact exec_of_dead hi hc ha ((not_live_iff s).2 hdead)
  · exact exec_configure_of_live hc ha (live_of_not_dead hdead)
  · obtain ⟨hm, hi⟩ := hcodec
    exact exec_stream_of_codec hi ha (live_of_not_dead hdead) hm
  · obtain ⟨hm, rfl⟩ := hstream
    exact exec_decodePacket_of_stream ha (live_of_not_dead hdead) hm
  · obtain ⟨hd, hi⟩ := hdrain
    have hm : s.mode = .stream := by
      cases hm : s.mode with
      | stream => rfl
      | codec => exact absurd ⟨hm, hi.imp_right .inl⟩ hcodec
    exact exec_of_draining hi ha hd hm

/-- Settles O18: the checks of QUEUE_PACKET in their order, then the append. -/
theorem queuePacketResult : Obligations.QueuePacketResult := by
  intro s ha hlive hm
  rw [exec_queuePacket ha ((live_iff s).2 hlive) hm]
  simp only [apply_ite Host.Outcome.next]
  rfl

theorem statusWord_eod (s : State) : s.statusWord.getLsbD 7 = s.eod := by
  obtain ⟨_, _, _, heod, _⟩ := statusFields s
  rw [Bool.eq_iff_iff, heod, eod_iff]

/-- Settles O19: the observers past the checks, and the first check where no decoder is live. -/
theorem observerResults : Obligations.ObserverResults := by
  intro s ha
  refine ⟨fun hlive => ?_, fun hdead i hi => ?_⟩
  · have hlive := (live_iff s).2 hlive
    rw [statusWord_eod]
    exact ⟨exec_isStereo ha hlive, exec_getRate ha hlive, exec_endOfData ha hlive, eod_iff s⟩
  · have hi : i = .isStereo ∨ i = .getRate ∨ i = .endOfData := by simpa using hi
    refine exec_of_dead ?_ ?_ ha ((not_live_iff s).2 hdead) <;>
      rcases hi with rfl | rfl | rfl <;> decide

/-- Settles O20: an open decoder begins to drain, and END_OF_DATA looks at what is left. -/
theorem finishResult : Obligations.FinishResult := by
  intro s ha hm
  refine ⟨fun ho => ?_, fun hd => exec_of_draining (.inr rfl) ha hd hm⟩
  have hfinish : exec .finish s
      = .next { s with adapter := .draining, err := .kOk, result := 0 } := by
    rw [exec_finish ha ((live_iff s).2 (.inl ho)) hm, finish, if_neg (by rw [ho]; decide)]
    rfl
  refine ⟨hfinish, fun hq hp t ht => ?_⟩
  have ht := (Host.Outcome.next.inj (hfinish.symm.trans ht)).symm
  have heod : t.eod = true := (eod_iff t).2 (by rw [ht]; exact ⟨rfl, hq, hp⟩)
  rw [exec_endOfData (by rw [ht]; exact ha) (by rw [ht]; rfl), heod, ht]
  rfl

/-- Settles O21: a live decoder passes the check, and DESTROY cannot fail. -/
theorem destroyResult : Obligations.DestroyResult := by
  intro s ha hlive
  rw [exec, execDestroy, onCommand_none ha (gateLive_of_live ((live_iff s).2 hlive))]
  rfl

end Sys2Proof.Machine
end

section
/-!
PROOFS. CONFIGURE (45_host_commands.md R232): the blobs EXTRADATA_PARSE accepts (41_extradata.md
R141) are exactly the serialised legal records with a fitting rest, so that a CONFIGURE constructs the
decoder of the blob's record or fails.
-/

namespace Sys2Proof.Machine

open Sys2Proof

/-- R141's check of the third chunk place is about what follows the first 48 bytes. -/
theorem thirdPlaceOk_append {pre rest : List Byte} (hpre : pre.length = 48) :
    thirdPlaceOk (pre ++ rest) = qdcpFits rest := by
  have hlen : (pre ++ rest).length - 48 = rest.length := by
    rw [List.length_append, hpre, Nat.add_sub_cancel_left]
  have hsize : be32 (pre ++ rest) 48 = be32 rest 0 := hpre ▸ be32_append_right pre rest 0
  have htag : be32 (pre ++ rest) 52 = be32 rest 4 := by
    simpa only [hpre] using be32_append_right pre rest 4
  rw [thirdPlaceOk, qdcpFits, hasThird, qdcpOk, hlen, hsize, htag]
  by_cases h : rest.length < 8
  · simp [h]
  · simp [h, Nat.le_of_not_lt h]

/-- The first 48 bytes of a blob that begins with a legal record pass R141's checks, and give it. -/
theorem places_of_serialise {r : ExtraRec} (hr : r.Legal) (rest : List Byte) :
    firstPlaceOk (r.serialise ++ rest) = true ∧ secondPlaceOk (r.serialise ++ rest) = true
      ∧ qdcaRecord (r.serialise ++ rest) = r := by
  have hlen : 48 ≤ (r.serialise ++ rest).length := by
    rw [List.length_append]
    exact Nat.le_add_right 48 _
  have hb : r.serialise ++ rest = r.serialise.take 12 ++ r.serialise.drop 12 ++ rest := by
    rw [List.take_append_drop]
  have htake : r.serialise.take 12 = [12, tagFrma, tagQdm2].flatMap be32Bytes := rfl
  have header : ∀ {i : Nat}, i < 3 →
      be32 (r.serialise ++ rest) (4 * i) = [12, tagFrma, tagQdm2].getD i 0 := fun hi => by
    rw [hb, htake, List.append_assoc]
    exact be32_flatMap (by decide) _ _ hi
  obtain ⟨hqdca, hrecord⟩ := qdca_of_serialise rfl hr hb
  have htag : be32 (r.serialise ++ rest) 16 = tagQdca :=
    hb ▸ be32_qdca (r.serialise.take 12) rest r rfl (i := 1) (by decide)
  refine ⟨?_, ?_, hrecord⟩
  · rw [firstPlaceOk, Bool.and_eq_true, frmaOk_iff, decide_eq_true_eq]
    exact ⟨header (i := 1) (by decide), hlen, header (i := 0) (by decide),
      header (i := 2) (by decide)⟩
  · rw [secondPlaceOk, hqdca, htag]
    rfl

/-- The blobs the parser accepts, with the record it returns. -/
theorem extradataParse_eq_ok_iff (b : List Byte) (r : ExtraRec) :
    extradataParse b = .ok r ↔ blobOfRecord b r := by
  constructor
  · intro h
    obtain ⟨htake, _⟩ := extradataRoundTrip b r h
    obtain ⟨hlen, _⟩ := extradataParse_header h
    have hpre : (b.take 48).length = 48 := List.length_take_of_le hlen
    have hthird : thirdPlaceOk b = true := by
      rw [extradataParse_eq] at h
      split at h
      · rename_i hok; exact (Bool.and_eq_true_iff.1 hok).2
      · cases h
    rw [← List.take_append_drop 48 b, thirdPlaceOk_append hpre] at hthird
    exact ⟨b.drop 48, by rw [htake, List.take_append_drop], extradataParse_legal h, hthird⟩
  · rintro ⟨rest, rfl, hr, hfits⟩
    obtain ⟨hfirst, hsecond, hrecord⟩ := places_of_serialise hr rest
    rw [extradataParse_eq, hfirst, hsecond, thirdPlaceOk_append rfl, hfits, hrecord]
    rfl

/-- A blob that is not accepted raises kBadExtradata, the parser's one error. -/
theorem extradataParse_eq_error {b : List Byte} (h : ¬∃ r, blobOfRecord b r) :
    extradataParse b = .error .kBadExtradata := by
  cases hb : extradataParse b with
  | ok r => exact absurd ⟨r, (extradataParse_eq_ok_iff b r).1 hb⟩ h
  | error e =>
    rw [extradataParse_eq] at hb
    split at hb <;> cases hb
    rfl

/-- Settles O15: the blob is one the parser accepts, and its record is legal. -/
theorem configureConstructs : Obligations.ConfigureConstructs := by
  intro s i md r hi ha hdead harg hblob
  have hparse := (extradataParse_eq_ok_iff _ r).2 hblob
  rw [exec_configure hi ha hdead, configure_eq_endExtradata ha harg, hparse,
    ← construct_eq_constructed _ _ (extradataParse_legal hparse)]
  rfl

/-- A blob longer than INBUF is not parsed. -/
theorem configure_of_long {s : State} (h : 8192 < s.arg.toNat) (md : Mode) :
    configure md s = .next (State.fail { s with vlcReady := true } .kBadExtradata) :=
  if_pos h

/-- Settles O16: the blob's length, then its parse. -/
theorem configureFails : Obligations.ConfigureFails := by
  intro s i hi ha hdead hbad
  obtain ⟨md, hexec⟩ : ∃ md, exec i s = configure md s :=
    hi.elim (fun h => ⟨.stream, exec_configure (.inl ⟨h, rfl⟩) ha hdead⟩)
      fun h => ⟨.codec, exec_configure (.inr ⟨h, rfl⟩) ha hdead⟩
  rw [hexec]
  rcases Nat.lt_or_ge 8192 s.arg.toNat with hlong | harg
  · exact configure_of_long hlong md
  · have hblob := hbad.resolve_left (Nat.not_lt.2 harg)
    rw [configure_eq_endExtradata ha harg, extradataParse_eq_error hblob, State.endExtradata, ha]

end Sys2Proof.Machine
end

section
/-!
PROOFS. The commands that decode a packet (45_host_commands.md R235, R236, R240): with valid parameters a
frame decode ends with a shadow state or a recovered error; READ_BUFFER is then its copy, from the
pending output with or without a frame's samples appended, and DECODE_PACKET the write of the frame to
OUTBUF.
-/

namespace Sys2Proof.Machine

open Sys2Proof

/-! ### The frame decode and its result (44_synthesis.md R220) -/

theorem exists_frameResult {s : State} (hp : ParamsSpec s.par) (via : Via) (packet : List Byte) :
    ∃ r, FrameResult.of s via packet r := by
  rcases parses_ok_or_raised (parsePacket_parses hp via packet) with ⟨p, h⟩ | ⟨e, pos, h⟩
  · exact ⟨.good p.sh, .inl ⟨p, h, rfl⟩⟩
  · exact ⟨.bad e pos, .inr ⟨e, pos, h, rfl⟩⟩

theorem frameDecode_of_frameResult {s : State} {via : Via} {packet : List Byte} {r : FrameResult}
    (h : FrameResult.of s via packet r) :
    frameDecode s via packet = .next (s.completeFrame via r) := by
  rw [frameDecode_eq_endParse]
  rcases h with ⟨p, h, rfl⟩ | ⟨e, pos, h, rfl⟩ <;> rw [h] <;> rfl

theorem endFrame_loadByte (s : State) (r : FrameResult) (a : Nat) :
    (s.endFrame r).1.loadByte a = s.loadByte a :=
  loadByte_congr (by rw [endFrame_frame]) (by rw [endFrame_frame]) a

theorem endFrame_cfg (s : State) (r : FrameResult) : (s.endFrame r).1.cfg = s.cfg := by
  rw [endFrame_frame]

/-! ### READ_BUFFER (45_host_commands.md R235, R236) -/

theorem readCount_eq (s : State) :
    s.readCount = min (min s.arg.toNat s.pending.length) 2048 :=
  (min_assoc _ _ _).symm

/-- DECODE_POLICY's frame (45_host_commands.md R236): the state a decode with the result `r` leaves, its
samples appended to the pending output. -/
def State.appendFrame (s : State) (r : FrameResult) : State :=
  { (s.endFrame r).1 with pending := s.pending ++ (s.endFrame r).2 }

theorem appendFrame_pending (s : State) (r : FrameResult) :
    (s.appendFrame r).pending = s.pending ++ (s.endFrame r).2 := rfl

theorem appendFrame_pending_length {s : State} (r : FrameResult) (h : s.channelCount ≤ 2) :
    (s.appendFrame r).pending.length = s.pending.length + s.frameSamples := by
  rw [appendFrame_pending, List.length_append, endFrame_length_eq r h]

theorem appendFrame_arg (s : State) (r : FrameResult) : (s.appendFrame r).arg = s.arg := by
  rw [State.appendFrame, endFrame_frame]

theorem appendFrame_queue (s : State) (r : FrameResult) : (s.appendFrame r).queue = s.queue := by
  rw [State.appendFrame, endFrame_frame]

theorem appendFrame_loadByte (s : State) (r : FrameResult) (a : Nat) :
    (s.appendFrame r).loadByte a = s.loadByte a :=
  endFrame_loadByte s r a

/-- A frame decode that a READ_BUFFER runs ends with the copy. -/
theorem completeFrame_readBuffer {s : State} (ha : s.activity = .idle) (r : FrameResult) :
    s.completeFrame .readBuffer r = (s.appendFrame r).finishRead := by
  have hpending : (s.endFrame r).1.pending = s.pending := by rw [endFrame_frame]
  rw [completeFrame_of_idle ha, State.deliver, hpending]
  rfl

theorem exec_readBuffer {s : State} (ha : s.activity = .idle) (hlive : s.live = true)
    (hm : s.mode = .stream) : exec .readBuffer s = readBuffer s :=
  onCommand_none ha (gateStream_of_stream hlive hm) _

/-- READ_BUFFER where R236 decodes nothing. -/
theorem readBuffer_of_copy {s : State} (h : s.frameSamples ≤ s.pending.length ∨ s.queue = []) :
    readBuffer s = .next s.finishRead := by
  rw [readBuffer, State.pendingCount]
  split
  · rw [h.resolve_left (by omega)]
  · rfl

/-- READ_BUFFER where R236 decodes the oldest packet, with the result `r`. -/
theorem readBuffer_of_frame {s : State} {q : Packet} {qs : List Packet} {r : FrameResult}
    (hn : s.pending.length < s.frameSamples) (hq : s.queue = q :: qs)
    (hr : FrameResult.of { s with queue := qs } .readBuffer q.bytes r) :
    readBuffer s = .next (State.completeFrame { s with queue := qs } .readBuffer r) := by
  rw [readBuffer, State.pendingCount, if_pos hn, hq]
  exact frameDecode_of_frameResult hr

/-- Settles O22: the command is its copy. -/
theorem readBufferCopies : Obligations.ReadBufferCopies := by
  intro s n ha hlive hm hcopy hn
  rw [← readCount_eq] at hn
  subst hn
  refine ⟨s.finishRead, ?_, ?_, fun i => finishRead_outSample s, fun a => finishRead_loadByte s⟩
  · rw [exec_readBuffer ha ((live_iff s).2 hlive) hm, readBuffer_of_copy hcopy]
  · rw [finishRead_eq]

/-- Settles O23: the decode of the oldest packet, then the copy from the longer pending output. -/
theorem readBufferDecodes : Obligations.ReadBufferDecodes := by
  intro s q qs ha hlive hm hn hq hvalid
  obtain ⟨r, hr⟩ := exists_frameResult (s := { s with queue := qs }) (paramsValid_spec hvalid)
    .readBuffer q.bytes
  let u : State := { s with queue := qs }
  refine ⟨r, (u.endFrame r).1, (u.endFrame r).2, s.pending ++ (u.endFrame r).2,
    (u.appendFrame r).readCount, (u.appendFrame r).finishRead, hr, rfl, rfl, ?_, ?_, ?_,
    fun i => finishRead_outSample _, fun a h => ?_⟩
  · rw [readCount_eq, appendFrame_arg, appendFrame_pending]
  · rw [exec_readBuffer ha ((live_iff s).2 hlive) hm, readBuffer_of_frame hn hq hr,
      completeFrame_readBuffer (s := u) ha]
  · rw [finishRead_eq]
    rfl
  · rw [finishRead_loadByte _ h, appendFrame_loadByte]
    rfl

/-! ### The samples a READ_BUFFER moves (44_synthesis.md R224) -/

theorem finishRead_result (s : State) : s.finishRead.result.toNat = s.readCount := by
  have hle := readCount_le_outbuf s
  rw [finishRead_eq, BitVec.toNat_ofNat, Nat.mod_eq_of_lt (by omega)]

theorem finishRead_pending_length (s : State) :
    s.finishRead.pending.length = s.pending.length - s.readCount := by
  rw [finishRead_eq, List.length_drop]

theorem finishRead_queue (s : State) : s.finishRead.queue = s.queue := by
  rw [finishRead_eq]

/-- The copy returns the samples it takes from the pending output. -/
theorem finishRead_conserves (s : State) :
    s.finishRead.result.toNat + s.finishRead.pending.length = s.pending.length := by
  have hle := readCount_le_pending s
  rw [finishRead_result, finishRead_pending_length]
  omega

/-- The copy returns nothing only where nothing is asked for or nothing is pending. -/
theorem finishRead_result_pos {s : State} (harg : 0 < s.arg.toNat) (h : s.finishRead.result = 0) :
    s.pending = [] := by
  have hcount : s.readCount = 0 := by rw [← finishRead_result, h]; rfl
  rw [readCount_eq] at hcount
  exact List.length_eq_zero_iff.1 (by omega)

/-- Settles O25: the copy conserves the samples, and a decode turns a packet into its frame's. -/
theorem readBufferConservesSamples : Obligations.ReadBufferConservesSamples := by
  intro s t ha hlive hm hcfg ht
  rw [exec_readBuffer ha hlive hm] at ht
  have hpos := cfgLegal_frameSamples_pos hcfg
  by_cases hcopy : s.frameSamples ≤ s.pending.length ∨ s.queue = []
  · rw [readBuffer_of_copy hcopy] at ht
    obtain rfl := Host.Outcome.next.inj ht
    refine ⟨by rw [finishRead_conserves, finishRead_queue], fun harg h => ?_⟩
    have hempty := finishRead_result_pos harg h
    refine ⟨hempty, hcopy.resolve_left ?_⟩
    rw [hempty, List.length_nil]
    omega
  · obtain ⟨hn, hne⟩ := not_or.1 hcopy
    obtain ⟨q, qs, hq⟩ := List.exists_cons_of_ne_nil hne
    obtain ⟨r, hr⟩ := exists_frameResult (s := { s with queue := qs })
      (paramsValid_spec hcfg.params) .readBuffer q.bytes
    rw [readBuffer_of_frame (Nat.lt_of_not_le hn) hq hr,
      completeFrame_readBuffer (s := { s with queue := qs }) ha] at ht
    obtain rfl := Host.Outcome.next.inj ht
    have hlen : (State.appendFrame { s with queue := qs } r).pending.length
        = s.pending.length + s.frameSamples :=
      appendFrame_pending_length r (cfgLegal_channelCount_le hcfg : s.channelCount ≤ 2)
    refine ⟨?_, fun harg h => ?_⟩
    · rw [finishRead_conserves, finishRead_queue, appendFrame_queue, hlen, hq, List.length_cons,
        Nat.mul_succ]
      dsimp only
      omega
    · rw [← appendFrame_arg { s with queue := qs } r] at harg
      rw [finishRead_result_pos harg h, List.length_nil] at hlen
      omega

/-! ### DECODE_PACKET (45_host_commands.md R240) -/

/-- A frame decode that a DECODE_PACKET runs ends with the write of its samples. -/
theorem completeFrame_decodePacket {s : State} (ha : s.activity = .idle) (r : FrameResult) :
    s.completeFrame .decodePacket r = ((s.endFrame r).1.writeOutbuf (s.endFrame r).2).succeed
      (BitVec.ofNat 32 s.frameSamples) := by
  rw [completeFrame_of_idle ha, State.deliver, frameSamples_congr (endFrame_cfg s r)]

theorem exec_decodePacket {s : State} (ha : s.activity = .idle) (hlive : s.live = true)
    (hm : s.mode = .codec) : exec .decodePacket s = decodePacket s :=
  onCommand_none ha (gateCodec_of_codec hlive hm) _

/-- DECODE_PACKET of a packet of the right length, decoded with the result `r`. -/
theorem decodePacket_of_frame {s : State} {r : FrameResult} (harg : s.arg = s.cfg.frameSize)
    (hr : FrameResult.of s .decodePacket (s.loadBytes 0x1000 s.arg.toNat) r) :
    decodePacket s = .next (s.completeFrame .decodePacket r) := by
  rw [decodePacket, if_neg (not_not.2 harg)]
  exact frameDecode_of_frameResult hr

/-- Settles O24: the check of the length, then one frame decode. -/
theorem decodePacketDecodes : Obligations.DecodePacketDecodes := by
  intro s ha hlive hm
  have hexec := exec_decodePacket ha ((live_iff s).2 hlive) hm
  refine ⟨fun harg => ?_, fun harg hvalid hch => ?_⟩
  · rw [hexec, decodePacket, if_pos harg]
    rfl
  obtain ⟨r, hr⟩ := exists_frameResult (paramsValid_spec hvalid) .decodePacket
    (s.loadBytes 0x1000 s.arg.toNat)
  have hlen : (s.endFrame r).2.length = s.spf * s.channelCount := endFrame_length_eq r hch
  refine ⟨r, (s.endFrame r).1, (s.endFrame r).2, s.completeFrame .decodePacket r, hr, rfl,
    hexec.trans (decodePacket_of_frame harg hr), ?_⟩
  rw [completeFrame_decodePacket ha]
  refine ⟨?_, fun i hi => ?_, fun a h => ?_⟩
  · rw [writeOutbuf_eq]
    rfl
  · exact outSample_writeOutbuf _ _ i (by rwa [hlen])
  · exact (loadByte_writeOutbuf _ _ a (by rwa [hlen])).trans (endFrame_loadByte s r a)

end Sys2Proof.Machine
end

section
/-!
PROOFS. Mode equivalence (45_host_commands.md R243; 44_synthesis.md R225). The packet parser reads the
parameters, the configuration and FRAME_INDEX, and only carries the command it runs in, so two states
that agree in the decoder's registers parse a packet alike whatever the mode; the end of the frame
decode keeps the agreement and gives both the same samples.
-/

namespace Sys2Proof.Machine

open Sys2Proof

/-- The parse, run in the command `v` instead of its own. -/
def Parse.forVia (v : Via) (p : Parse) : Parse := { p with via := v }

@[simp] theorem Parse.forVia_rd (v : Via) (p : Parse) : (p.forVia v).rd = p.rd := rfl
@[simp] theorem Parse.forVia_sh (v : Via) (p : Parse) : (p.forVia v).sh = p.sh := rfl
@[simp] theorem Parse.forVia_tone (v : Via) (p : Parse) : (p.forVia v).tone = p.tone := rfl

/-! ### Outcomes that agree up to a map -/

theorem map_bind_eq {α α' β β' : Type} {φ : α → α'} {ψ : β → β'} {x : Except Stop α}
    {y : Except Stop α'} {f : α → Except Stop β} {g : α' → Except Stop β'} (hx : x.map φ = y)
    (hf : ∀ a, (f a).map ψ = g (φ a)) : (x >>= f).map ψ = y >>= g := by
  subst hx
  cases x with
  | ok a => exact hf a
  | error e => rfl

/-- The first operation is the same on both sides: it does not touch the parse's command. -/
theorem map_read_bind_eq {α β β' : Type} {ψ : β → β'} {x : Except Stop α} {f : α → Except Stop β}
    {g : α → Except Stop β'} (hf : ∀ a, (f a).map ψ = g a) : (x >>= f).map ψ = x >>= g := by
  cases x with
  | ok a => exact hf a
  | error e => rfl

theorem map_ite_eq {β β' : Type} {ψ : β → β'} {c : Prop} [Decidable c] {x y : Except Stop β}
    {x' y' : Except Stop β'} (hx : x.map ψ = x') (hy : y.map ψ = y') :
    (if c then x else y).map ψ = if c then x' else y' := by
  subst hx hy
  exact apply_ite _ _ _ _

/-! ### The parser's shared parts (42_packet_parser.md R151 to R153) -/

theorem openSub_forVia (v : Via) (t : Nat) (p : Parse) :
    (openSub t p).map (Parse.forVia v) = openSub t (p.forVia v) :=
  map_read_bind_eq fun _ => map_ite_eq rfl rfl

theorem openLen_forVia (v : Via) (p : Parse) :
    (openLen p).map (Prod.map id (Parse.forVia v)) = openLen (p.forVia v) :=
  map_read_bind_eq fun _ => map_ite_eq rfl rfl

theorem closePayload_forVia (v : Via) (start len : Nat) (p : Parse) :
    (closePayload start len p).map (Parse.forVia v) = closePayload start len (p.forVia v) :=
  map_ite_eq rfl (map_read_bind_eq fun _ => rfl)

theorem recordHead_forVia (v : Via) (p : Parse) :
    (recordHead p).map (Prod.map id (Prod.map id (Prod.map id (Parse.forVia v))))
      = recordHead (p.forVia v) :=
  map_read_bind_eq fun _ => map_read_bind_eq fun _ => map_read_bind_eq fun _ => rfl

theorem closeTone_forVia (v : Via) (p : Parse) :
    (closeTone p).map (Parse.forVia v) = closeTone (p.forVia v) := by
  rw [closeTone, closeTone, Parse.forVia_tone]
  cases p.tone with
  | none => rfl
  | some tp => exact closePayload_forVia v tp.start tp.len p

theorem spSeed_forVia (s u : State) (v : Via) (p : Parse) :
    (spSeed s p).map (Parse.forVia v) = spSeed u (p.forVia v) :=
  map_bind_eq (openSub_forVia v 0 p) fun _ => map_read_bind_eq fun _ => rfl

theorem spFlags_forVia (s u : State) (v : Via) (p : Parse) :
    (spFlags s p).map (Parse.forVia v) = spFlags u (p.forVia v) :=
  map_bind_eq (openSub_forVia v 1 p) fun _ => map_read_bind_eq fun _ => rfl

theorem spReserved_forVia (s u : State) (v : Via) (p : Parse) :
    (spReserved s p).map (Parse.forVia v) = spReserved u (p.forVia v) :=
  map_read_bind_eq fun _ => rfl

/-- The samples of a frame are its channels', each from the settled state (44_synthesis.md R222). -/
theorem endFrame_samples (s : State) (r : FrameResult) : (s.endFrame r).2
    = interleave s.spf (s.channels.map fun c => (r.synth (s.settleParse r) c).2) :=
  (channelsAreIndependent s (s.endFrame r).1 r (s.endFrame r).2 rfl).1

/-! ### The elements of a packet, in two states that agree in the decoder's registers -/

section
variable {s u : State} (h : SameDecoder s u) (v : Via)
include h

theorem SameDecoder.numBands : s.numBands = u.numBands := numBands_congr h.cfg

theorem SameDecoder.band (b : Nat) : s.band b = u.band b := band_congr h.cfg b

theorem slotLegal_congr (t band pos : Nat) : slotLegal s t band pos = slotLegal u t band pos := by
  simp only [slotLegal, h.par, h.numBands, h.band]

theorem slotBin_congr (t band pos : Nat) : slotBin s t band pos = slotBin u t band pos := by
  simp only [slotBin, h.band]

theorem noiseRunLegal_congr (t fb cnt : Nat) :
    noiseRunLegal s t fb cnt = noiseRunLegal u t fb cnt := by
  simp only [noiseRunLegal, h.par, h.numBands]

theorem noiseBand_forVia (c : Ch) (b : Nat) (p : Parse) :
    (noiseBand s c b p).map (Parse.forVia v) = noiseBand u c b (p.forVia v) := by
  simp only [noiseBand, h.par]
  exact map_read_bind_eq fun _ => rfl

theorem noiseBands_forVia (c : Ch) : ∀ (n b : Nat) (p : Parse),
    (noiseBands s c n b p).map (Parse.forVia v) = noiseBands u c n b (p.forVia v)
  | 0, _, _ => rfl
  | n + 1, b, p =>
    map_bind_eq (noiseBand_forVia h v c b p) fun q => noiseBands_forVia c n (b + 1) q

theorem noisePayload_forVia (t : Nat) (p : Parse) :
    (noisePayload s t p).map (Parse.forVia v) = noisePayload u t (p.forVia v) := by
  simp only [noisePayload, h.cfg, noiseRunLegal_congr h]
  exact map_read_bind_eq fun _ => map_read_bind_eq fun _ => map_read_bind_eq fun _ =>
    map_ite_eq (noiseBands_forVia h v _ _ _ _) rfl

theorem spNoise_forVia (t : Nat) (p : Parse) :
    (spNoise t s p).map (Parse.forVia v) = spNoise t u (p.forVia v) :=
  map_bind_eq (openSub_forVia v t p) fun q => map_bind_eq (openLen_forVia v q) fun ⟨len, q⟩ =>
    map_bind_eq (noisePayload_forVia h v t q) fun r => closePayload_forVia v q.rd.pos len r

theorem toneAdd_forVia (tp : TonePart) (band pos r0 : Nat) (p : Parse) :
    (toneAdd s tp band pos r0 p).map (Parse.forVia v) = toneAdd u tp band pos r0 (p.forVia v) := by
  simp only [toneAdd, slotLegal_congr h, slotBin_congr h, h.par, h.frameIndex]
  exact map_ite_eq (map_read_bind_eq fun _ => map_read_bind_eq fun _ => map_read_bind_eq fun _ =>
    map_ite_eq rfl rfl) rfl

theorem toneRefresh_forVia (tp : TonePart) (band pos r0 : Nat) (p : Parse) :
    (toneRefresh s tp band pos r0 p).map (Parse.forVia v)
      = toneRefresh u tp band pos r0 (p.forVia v) := by
  simp only [toneRefresh, slotLegal_congr h, slotBin_congr h, h.frameIndex, Parse.forVia_sh]
  refine map_ite_eq ?_ rfl
  cases Assoc.find (slotBin u tp.type band pos) (p.sh.chan tp.ch).tones <;> rfl

theorem toneDelete_forVia (tp : TonePart) (band pos r0 : Nat) (p : Parse) :
    (toneDelete s tp band pos r0 p).map (Parse.forVia v)
      = toneDelete u tp band pos r0 (p.forVia v) := by
  simp only [toneDelete, slotLegal_congr h, slotBin_congr h, Parse.forVia_sh]
  refine map_ite_eq ?_ rfl
  cases Assoc.find (slotBin u tp.type band pos) (p.sh.chan tp.ch).tones <;> rfl

theorem toneOp_forVia (op : Nat) (tp : TonePart) (band pos r0 : Nat) (p : Parse) :
    (toneOp op s tp band pos r0 p).map (Parse.forVia v)
      = toneOp op u tp band pos r0 (p.forVia v) :=
  match op with
  | 0 => toneAdd_forVia h v tp band pos r0 p
  | 1 => toneRefresh_forVia h v tp band pos r0 p
  | 2 => toneDelete_forVia h v tp band pos r0 p
  | _ + 3 => rfl

theorem nextRecord_forVia (p : Parse) :
    (nextRecord s p).map (Parse.forVia v) = nextRecord u (p.forVia v) := by
  rw [nextRecord, nextRecord, Parse.forVia_tone]
  cases p.tone with
  | none => rfl
  | some tp =>
    exact map_bind_eq (recordHead_forVia v p) fun a =>
      toneOp_forVia h v a.1 tp a.2.1 a.2.2.1 p.rd.pos a.2.2.2

theorem runRecords_forVia : ∀ (n : Nat) (p : Parse),
    (runRecords s n p).map (Parse.forVia v) = runRecords u n (p.forVia v)
  | 0, _ => rfl
  | n + 1, p => map_bind_eq (nextRecord_forVia h v p) fun q => runRecords_forVia n q

theorem openTone_forVia (t : Nat) (p : Parse) :
    (openTone t s p).map (Parse.forVia v) = openTone t u (p.forVia v) := by
  simp only [openTone, h.cfg]
  exact map_bind_eq (openSub_forVia v t p) fun q => map_bind_eq (openLen_forVia v q) fun _ =>
    map_read_bind_eq fun _ => map_read_bind_eq fun _ => rfl

theorem spTone_forVia (t : Nat) (p : Parse) :
    (spTone t s p).map (Parse.forVia v) = spTone t u (p.forVia v) :=
  map_bind_eq (openTone_forVia h v t p) fun q =>
    map_bind_eq (runRecords_forVia h v q.recordsLeft q) fun r => closeTone_forVia v r

theorem subpacketOf_forVia (t : Nat) (p : Parse) :
    (subpacketOf t s p).map (Parse.forVia v) = subpacketOf t u (p.forVia v) := by
  unfold subpacketOf
  split
  case h_1 => exact spSeed_forVia s u v p
  case h_2 => exact spFlags_forVia s u v p
  case h_3 | h_4 | h_5 | h_11 | h_12 | h_13 => exact spNoise_forVia h v _ p
  case h_6 | h_7 | h_8 | h_9 | h_10 => exact spTone_forVia h v _ p
  case h_14 => exact spReserved_forVia s u v p

theorem nextSubpacket_forVia (p : Parse) :
    (nextSubpacket s p).map (Parse.forVia v) = nextSubpacket u (p.forVia v) :=
  map_read_bind_eq fun t => subpacketOf_forVia h v t p

theorem runSubpackets_forVia : ∀ (n : Nat) (p : Parse),
    (runSubpackets s n p).map (Parse.forVia v) = runSubpackets u n (p.forVia v)
  | 0, _ => rfl
  | n + 1, p => map_bind_eq (nextSubpacket_forVia h v p) fun q => runSubpackets_forVia n q

theorem SameDecoder.shadow : Shadow.ofState s = Shadow.ofState u := by
  simp only [Shadow.ofState, h.seed, h.flags, h.chan0, h.chan1]

theorem startParse_forVia (via : Via) (packet : List Byte) :
    (startParse s via packet).map (Parse.forVia v) = startParse u v packet := by
  simp only [startParse, h.par, h.shadow]
  exact map_ite_eq rfl (map_read_bind_eq fun _ => map_read_bind_eq fun _ => rfl)

/-- Two such states parse a packet alike, each in its own command. -/
theorem parsePacket_forVia (via : Via) (packet : List Byte) :
    (parsePacket s via packet).map (Parse.forVia v) = parsePacket u v packet :=
  map_bind_eq (startParse_forVia h v via packet) fun p => runSubpackets_forVia h v p.left p

/-- They reach the same result: the shadow state, or the error and its position. -/
theorem frameResult_of_sameDecoder {via : Via} {packet : List Byte} {r : FrameResult}
    (hr : FrameResult.of s via packet r) : FrameResult.of u v packet r := by
  have hparse := parsePacket_forVia h v via packet
  rcases hr with ⟨p, hp, rfl⟩ | ⟨e, pos, hp, rfl⟩ <;> rw [hp] at hparse
  · exact .inl ⟨p.forVia v, hparse.symm, rfl⟩
  · exact .inr ⟨e, pos, hparse.symm, rfl⟩

/-! ### The end of a frame decode (44_synthesis.md R220) -/

theorem SameDecoder.chan (c : Ch) : s.chan c = u.chan c :=
  match c with
  | .c0 => h.chan0
  | .c1 => h.chan1

theorem SameDecoder.spf : s.spf = u.spf := by rw [State.spf, State.spf, h.cfg]

theorem SameDecoder.channelCount : s.channelCount = u.channelCount := by
  rw [State.channelCount, State.channelCount, h.cfg]

theorem SameDecoder.channels : s.channels = u.channels := by
  rw [State.channels, State.channels, h.channelCount]

theorem SameDecoder.synthSame (c : Ch) : SynthSame u s c :=
  ⟨h.par, h.cfg, h.seed, h.frameIndex, h.chan c⟩

theorem settleParse_sameDecoder (r : FrameResult) :
    SameDecoder (s.settleParse r) (u.settleParse r) := by
  have hchan : ∀ c, (s.settleParse r).chan c = (u.settleParse r).chan c := fun c => by
    rw [settleParse_chan, settleParse_chan, h.chan, h.channelCount, h.par, h.frameIndex]
  have hs := settleParse_eq s r
  have hu := settleParse_eq u r
  constructor
  case chan0 => exact hchan .c0
  case chan1 => exact hchan .c1
  all_goals rw [hs, hu]
  exacts [h.par, h.cfg, h.frameIndex, by rw [h.seed], by rw [h.flags]]

theorem endFrame_samples_sameDecoder (r : FrameResult) : (s.endFrame r).2 = (u.endFrame r).2 := by
  have hsettled := settleParse_sameDecoder h r
  rw [endFrame_samples, endFrame_samples, h.spf, h.channels]
  exact congrArg _ (List.map_congr_left fun c _ =>
    (frameResult_synth_local r (hsettled.synthSame c)).1)

theorem endFrame_chan_sameDecoder (r : FrameResult) (c : Ch) :
    (s.endFrame r).1.chan c = (u.endFrame r).1.chan c := by
  have hsettled := settleParse_sameDecoder h r
  rw [endFrame_chan, endFrame_chan, (frameResult_synth_local r (hsettled.synthSame c)).2,
    hsettled.chan, h.channelCount, h.chan, h.spf]

end

/-- SEED and FLAGS at the end of a frame decode are those the parse settled. -/
theorem endFrame_seed_flags (s : State) (r : FrameResult) :
    (s.endFrame r).1.seed = (s.settleParse r).seed
      ∧ (s.endFrame r).1.flags = (s.settleParse r).flags := by
  have hsynth := (synthAll_spec r s.channels (s.settleParse r) (channels_nodup s)).eq
  rw [endFrame_eq, State.recordFrame_seed, State.recordFrame_flags, State.advanceClock_seed,
    State.advanceClock_flags, hsynth]
  exact ⟨rfl, rfl⟩

/-- What a frame decode records of its end depends on its result alone. -/
theorem endFrame_error_congr (s u : State) (r : FrameResult) :
    (s.endFrame r).1.lastPktErr = (u.endFrame r).1.lastPktErr
      ∧ (s.endFrame r).1.errBitpos = (u.endFrame r).1.errBitpos := by
  rw [endFrame_eq, endFrame_eq]
  cases r <;> exact ⟨rfl, rfl⟩

theorem endFrame_sameDecoder {s u : State} (h : SameDecoder s u) (r : FrameResult) :
    SameDecoder (s.endFrame r).1 (u.endFrame r).1 := by
  obtain ⟨hseed, hflags⟩ := endFrame_seed_flags s r
  obtain ⟨hseed', hflags'⟩ := endFrame_seed_flags u r
  have hsettled := settleParse_sameDecoder h r
  exact {
    par := by rw [endFrame_frame, endFrame_frame u]; exact h.par
    cfg := by rw [endFrame_cfg, endFrame_cfg, h.cfg]
    frameIndex := by rw [endFrame_frame, endFrame_frame u, h.frameIndex]
    seed := by rw [hseed, hseed', hsettled.seed]
    flags := by rw [hflags, hflags', hsettled.flags]
    chan0 := endFrame_chan_sameDecoder h r .c0
    chan1 := endFrame_chan_sameDecoder h r .c1 }

/-! ### The two commands -/

/-- A frame of a legal configuration fits OUTBUF (44_synthesis.md R224). -/
theorem cfgLegal_frameSamples_le {s : State} (h : s.CfgLegal) : s.frameSamples ≤ 2048 := by
  have hspf : s.spf ≤ 1024 := by rcases (spfLegal_iff _).1 h.spf with h | h | h <;> omega
  exact Nat.mul_le_mul hspf (cfgLegal_channelCount_le h)

theorem SameDecoder.symm {s u : State} (h : SameDecoder s u) : SameDecoder u s :=
  ⟨h.par.symm, h.cfg.symm, h.frameIndex.symm, h.seed.symm, h.flags.symm, h.chan0.symm, h.chan1.symm⟩

theorem SameDecoder.trans {s t u : State} (h : SameDecoder s t) (g : SameDecoder t u) :
    SameDecoder s u :=
  ⟨h.par.trans g.par, h.cfg.trans g.cfg, h.frameIndex.trans g.frameIndex, h.seed.trans g.seed,
    h.flags.trans g.flags, h.chan0.trans g.chan0, h.chan1.trans g.chan1⟩

/-- What a command does with a frame's samples is no matter of the decoder (45_host_commands.md R235,
R240). -/
theorem deliver_sameDecoder (s : State) (via : Via) (out : List Sample) :
    SameDecoder (s.deliver via out) s := by
  constructor <;> rw [deliver_frame]

/-- The state after a whole READ_BUFFER or DECODE_PACKET agrees with the one its decode left. -/
theorem completeFrame_sameDecoder {s : State} (ha : s.activity = .idle) (via : Via)
    (r : FrameResult) : SameDecoder (s.completeFrame via r) (s.endFrame r).1 := by
  rw [completeFrame_of_idle ha]
  exact deliver_sameDecoder _ via _

/-- The error registers after the command are those the decode recorded (10_state.md R33). -/
theorem completeFrame_error (s : State) (via : Via) (r : FrameResult) :
    (s.completeFrame via r).lastPktErr = (s.endFrame r).1.lastPktErr
      ∧ (s.completeFrame via r).errBitpos = (s.endFrame r).1.errBitpos := by
  rw [completeFrame_frame]
  exact ⟨rfl, rfl⟩

/-- The whole of a frame, and nothing else, stands in OUTBUF and is counted in RESULT. -/
structure DeliversFrame (s : State) (out : List Sample) : Prop where
  result : s.result = BitVec.ofNat 32 out.length
  samples : ∀ i < out.length, s.outSample i = out.getD i 0

/-- A READ_BUFFER that asks for at least a frame, with nothing pending, delivers the frame it decodes
and leaves nothing pending. -/
theorem completeFrame_readBuffer_delivers {s : State} (r : FrameResult) (ha : s.activity = .idle)
    (hempty : s.pending = []) (harg : (s.endFrame r).2.length ≤ s.arg.toNat)
    (hle : (s.endFrame r).2.length ≤ 2048) :
    DeliversFrame (s.completeFrame .readBuffer r) (s.endFrame r).2
      ∧ (s.completeFrame .readBuffer r).pending = [] := by
  have hpending : (s.appendFrame r).pending = (s.endFrame r).2 := by
    rw [appendFrame_pending, hempty, List.nil_append]
  have hcount : (s.appendFrame r).readCount = (s.endFrame r).2.length := by
    rw [readCount_eq, appendFrame_arg, hpending]
    omega
  rw [completeFrame_readBuffer ha]
  refine ⟨⟨by rw [finishRead_eq, hcount], fun i hi => ?_⟩, ?_⟩
  · rw [finishRead_outSample _ (by rwa [hcount]), hpending]
  · rw [finishRead_eq, hcount, hpending]
    exact List.drop_length

theorem completeFrame_decodePacket_delivers {s : State} (r : FrameResult) (ha : s.activity = .idle)
    (hch : s.channelCount ≤ 2) :
    DeliversFrame (s.completeFrame .decodePacket r) (s.endFrame r).2 := by
  rw [completeFrame_decodePacket ha, ← endFrame_length_eq r hch]
  exact ⟨rfl, outSample_writeOutbuf _ _⟩

/-- Settles O26: both commands decode the packet with the same result, from states that agree in the
decoder's registers, and each delivers the whole frame. -/
theorem modeEquivalence : Obligations.ModeEquivalence := by
  intro s u q qs ha ha' hlive hlive' hm hm' hcfg hsame hq hempty hreq harg hbytes
  let s' : State := { s with queue := qs }
  have hsame' : SameDecoder s' u := ⟨hsame.par, hsame.cfg, hsame.frameIndex, hsame.seed,
    hsame.flags, hsame.chan0, hsame.chan1⟩
  have hch : s'.channelCount ≤ 2 := (cfgLegal_channelCount_le hcfg : s.channelCount ≤ 2)
  obtain ⟨r, hr⟩ := exists_frameResult (s := s') (paramsValid_spec hcfg.params) .readBuffer q.bytes
  have hr' : FrameResult.of u .decodePacket (u.loadBytes 0x1000 u.arg.toNat) r :=
    hbytes ▸ frameResult_of_sameDecoder hsame' .decodePacket hr
  have hn : s.pending.length < s.frameSamples := by
    rw [hempty]
    exact cfgLegal_frameSamples_pos hcfg
  have hlen : (s'.endFrame r).2.length = s.frameSamples := endFrame_length_eq r hch
  have hout := endFrame_samples_sameDecoder hsame' r
  obtain ⟨hread, hpending⟩ := completeFrame_readBuffer_delivers (s := s') r ha hempty
    (hlen.trans_le hreq) (hlen.trans_le (cfgLegal_frameSamples_le hcfg))
  have hdecode := completeFrame_decodePacket_delivers r ha' (hsame'.channelCount ▸ hch)
  rw [← hout] at hdecode
  obtain ⟨herr, hbitpos⟩ := endFrame_error_congr s' u r
  obtain ⟨hreadErr, hreadBitpos⟩ := completeFrame_error s' .readBuffer r
  obtain ⟨hdecodeErr, hdecodeBitpos⟩ := completeFrame_error u .decodePacket r
  refine ⟨s'.completeFrame .readBuffer r, u.completeFrame .decodePacket r,
    (exec_readBuffer ha hlive hm).trans (readBuffer_of_frame hn hq hr),
    (exec_decodePacket ha' hlive' hm').trans (decodePacket_of_frame harg hr'), ?_,
    hread.result.trans hdecode.result.symm, hpending, ?_, ?_, fun i hi => ?_⟩
  · exact (completeFrame_sameDecoder (s := s') ha .readBuffer r).trans
      ((endFrame_sameDecoder hsame' r).trans
        (completeFrame_sameDecoder ha' .decodePacket r).symm)
  · rw [hreadErr, herr, hdecodeErr]
  · rw [hreadBitpos, hbitpos, hdecodeBitpos]
  · rw [← hlen] at hi
    rw [hread.samples i hi, hdecode.samples i hi]

end Sys2Proof.Machine
end

section
/-!
PROOFS. The recovery from a packet error (60_exceptions.md R260 to R263; 44_synthesis.md R220, R221): a bad
frame commits nothing and runs no spectrum build, so of a channel it writes TONES by aging, PREV by
clearing its first N entries, and the sample count.
-/

namespace Sys2Proof.Machine

open Sys2Proof

/-! ### The synthesis of a bad frame (44_synthesis.md R221) -/

theorem badSynth_chan (s : State) (c : Ch) : (s.badSynth c).1.chan c
    = { s.chan c with prev := List.replicate s.fftN 0 ++ (s.chan c).prev.drop s.fftN } := by
  have hprev : ((s.badSynth c).1.chan c).prev
      = List.replicate s.fftN 0 ++ (s.chan c).prev.drop s.fftN := by
    rw [badSynth_prev, nextPrev, List.length_replicate]
    rfl
  rw [← hprev]
  cases c <;> rfl

theorem badSynth_samples_mute {s : State} (h : s.par.badFrameOla = .mute) (c : Ch) :
    (s.badSynth c).2 = List.replicate s.spf 0 := by
  simp only [State.badSynth, h]

theorem badSynth_samples_tail {s : State} (h : s.par.badFrameOla = .continueTail) (c : Ch) :
    (s.badSynth c).2 = (((s.chan c).prev.drop s.spf).take s.spf).map pcm16 := by
  simp only [State.badSynth, h]

/-- Sample `n` of the previous frame's tail (44_synthesis.md R216, R221). -/
theorem badSynth_sample_tail {s : State} (h : s.par.badFrameOla = .continueTail) (c : Ch) {n : Nat}
    (hn : n < s.spf) (hlen : s.spf + n < (s.chan c).prev.length) :
    (s.badSynth c).2.getD n 0 = pcm16 ((s.chan c).prev.getD (s.spf + n) 0) := by
  rw [badSynth_samples_tail h, List.getD_eq_getElem?_getD, List.getElem?_map,
    List.getElem?_take_of_lt hn, List.getElem?_drop, List.getElem?_eq_getElem hlen,
    List.getD_eq_getElem _ _ hlen]
  rfl

/-- A discarded parse and the aging change nothing that the samples of a bad frame depend on. -/
theorem settleParse_bad_samples (s : State) (e : Err) (pos : Nat) (c : Ch) :
    ((s.settleParse (.bad e pos)).badSynth c).2 = (s.badSynth c).2 := by
  have hprev : ((s.settleParse (.bad e pos)).chan c).prev = (s.chan c).prev := by
    rw [settleParse_chan]
  have hpar : (s.settleParse (.bad e pos)).par = s.par := rfl
  have hspf : (s.settleParse (.bad e pos)).spf = s.spf := rfl
  cases h : s.par.badFrameOla with
  | mute => rw [badSynth_samples_mute h, badSynth_samples_mute (hpar ▸ h), hspf]
  | continueTail =>
    rw [badSynth_samples_tail h, badSynth_samples_tail (hpar ▸ h), hprev, hspf]

/-- The work buffers belong to the spectrum build and the IFFT, which a bad frame does not run
(43_spectral.md R203). -/
theorem synthAll_bad_work (e : Err) (pos : Nat) : ∀ (cs : List Ch) (s : State),
    (synthAll (FrameResult.bad e pos).synth cs s).1.work = s.work
  | [], _ => rfl
  | c :: cs, s => (synthAll_bad_work e pos cs (s.badSynth c).1).trans (badSynth_work s c)

/-! ### The end of a frame decode whose packet is in error (44_synthesis.md R220) -/

/-- What a bad frame leaves of the state before it, but for the channels. -/
theorem endFrame_bad_frame (s : State) (e : Err) (pos : Nat) :
    (s.endFrame (.bad e pos)).1 = { s with
      lastPktErr := e, errBitpos := BitVec.ofNat 32 pos, badFrames := s.badFrames + 1
      frameIndex := s.frameIndex + 1
      chan0 := (s.endFrame (.bad e pos)).1.chan0
      chan1 := (s.endFrame (.bad e pos)).1.chan1 } := by
  have hsynth := (synthAll_spec (.bad e pos) s.channels (s.settleParse (.bad e pos))
    (channels_nodup s)).eq
  have hwork := synthAll_bad_work e pos s.channels (s.settleParse (.bad e pos))
  rw [endFrame_eq]
  generalize (synthAll (FrameResult.bad e pos).synth s.channels (s.settleParse (.bad e pos))).1 = a
    at hsynth hwork ⊢
  rw [hsynth, hwork, settleParse_eq]
  rfl

/-- A channel of the stream after a bad frame. -/
theorem endFrame_bad_chan_of_lt {s : State} (e : Err) (pos : Nat) {c : Ch}
    (hc : c.index < s.channelCount) : (s.endFrame (.bad e pos)).1.chan c
      = { s.chan c with
          tones := ageTones s.par s.frameIndex [] (s.chan c).tones
          sampleCount := (s.chan c).sampleCount + BitVec.ofNat 64 s.spf
          prev := List.replicate s.fftN 0 ++ (s.chan c).prev.drop s.fftN } := by
  have hfftN : (s.settleParse (.bad e pos)).fftN = s.fftN := rfl
  rw [endFrame_chan, FrameResult.synth, badSynth_chan, settleParse_chan, hfftN]
  simp only [if_pos hc]

/-- A channel the stream does not have keeps all it holds. -/
theorem endFrame_bad_chan_of_le {s : State} (e : Err) (pos : Nat) {c : Ch}
    (hc : s.channelCount ≤ c.index) : (s.endFrame (.bad e pos)).1.chan c = s.chan c := by
  have hnot : ¬ c.index < s.channelCount := Nat.not_lt.2 hc
  rw [endFrame_chan, settleParse_chan]
  simp only [if_neg hnot]

/-- The samples of a bad frame are its channels' bad-frame outputs (44_synthesis.md R221, R222). -/
theorem endFrame_bad_samples (s : State) (e : Err) (pos : Nat) : (s.endFrame (.bad e pos)).2
    = interleave s.spf (s.channels.map fun c => (s.badSynth c).2) := by
  rw [endFrame_samples]
  exact congrArg _ (List.map_congr_left fun c _ => settleParse_bad_samples s e pos c)

/-- Interleaved silence is silence. -/
theorem interleave_zeros {spf : Nat} {pcm : List (List Sample)}
    (h : ∀ p ∈ pcm, p = List.replicate spf 0) :
    interleave spf pcm = List.replicate (spf * pcm.length) 0 := by
  refine List.eq_replicate_iff.2 ⟨interleave_length spf pcm, fun x hx => ?_⟩
  obtain ⟨n, hn, hx⟩ := List.mem_flatMap.1 hx
  obtain ⟨p, hp, rfl⟩ := List.mem_map.1 hx
  rw [h p hp, List.getD_replicate _ (List.mem_range.1 hn)]

theorem channels_getElem? {s : State} {c : Ch} (hc : c.index < s.channelCount) :
    s.channels[c.index]? = some c := by
  rw [State.channels, List.getElem?_take_of_lt hc]
  cases c <;> rfl

/-- Where sample `n` of channel `c` stands in a frame of interleaved channels (44_synthesis.md R222). -/
theorem interleave_channels_getD {s : State} (hch : s.channelCount ≤ 2) (f : Ch → List Sample)
    {c : Ch} (hc : c.index < s.channelCount) {n : Nat} (hn : n < s.spf) :
    (interleave s.spf (s.channels.map f)).getD (s.channelCount * n + c.index) 0
      = (f c).getD n 0 := by
  have hlen : (s.channels.map f).length = s.channelCount := by
    rw [List.length_map, channels_length s hch]
  have hc' : (s.channels.map f).getD c.index [] = f c := by
    rw [List.getD_eq_getElem?_getD, List.getElem?_map, channels_getElem? hc]
    rfl
  have horder := (interleaveOrder s.spf (s.channels.map f)).2 n hn c.index (hlen ▸ hc)
  rw [hlen, hc'] at horder
  rw [List.getD_eq_getElem?_getD, horder, Option.getD_some]

/-! ### The statements -/

/-- Settles O28: the state outside the channels, then each channel, of the stream or not, then the
samples for each setting of BAD_FRAME_OLA. -/
theorem packetErrorRecovery : Obligations.PacketErrorRecovery := by
  intro s t e pos out hch h
  obtain rfl : (s.endFrame (.bad e pos)).1 = t := congrArg Prod.fst h
  obtain rfl : (s.endFrame (.bad e pos)).2 = out := congrArg Prod.snd h
  refine ⟨endFrame_bad_frame s e pos,
    fun c => ⟨endFrame_bad_chan_of_lt e pos, endFrame_bad_chan_of_le e pos⟩,
    fun hmute => ?_, fun htail c hc n hn hlen => ?_⟩
  · rw [endFrame_bad_samples, interleave_zeros, List.length_map, channels_length s hch]
    intro p hp
    obtain ⟨c, -, rfl⟩ := List.mem_map.1 hp
    exact badSynth_samples_mute hmute c
  · rw [endFrame_bad_samples, interleave_channels_getD hch _ hc hn,
      badSynth_sample_tail htail c hn hlen]

/-- Settles O29: the recovery is the end of a frame decode and of its command, which writes STATUS.ERR
and RESULT after the decode has recorded the error. -/
theorem packetErrorSucceeds : Obligations.PacketErrorSucceeds := by
  intro s via e pos
  have hframe := completeFrame_frame s via (.bad e pos)
  have herr : (s.completeFrame via (.bad e pos)).lastPktErr = e := by
    rw [(completeFrame_error s via _).1, endFrame_bad_frame]
  have hresult : (s.completeFrame .decodePacket (.bad e pos)).result
      = BitVec.ofNat 32 (s.spf * s.channelCount) := by
    rw [← completeFrame_activity s .idle, completeFrame_decodePacket rfl]
    rfl
  exact ⟨congrArg State.err hframe, herr, congrArg State.activity hframe,
    congrArg State.frameIndex hframe, hresult⟩

end Sys2Proof.Machine
end

section
/-!
PROOFS. INBUF and OUTBUF keep their canonical form (20_memory.md R61, R62; log 3): what writes them does
so by storing bytes, a reset event empties them, and nothing else touches them.
-/

namespace Sys2Proof.Machine

open Sys2Proof

/-- A write that starts no command stores bytes in INBUF, or none. -/
theorem busWrite_wf {s : State} (w : Width) (a : Nat) (v : Word) (h : Memory.wf s.mem = true) :
    Memory.wf (s.busWrite w a v).mem = true := by
  unfold State.busWrite
  split
  · split
    · split <;> exact h
    · exact wf_storeBytes _ _ _ h
    · exact h
    · exact h
  · exact h

theorem finishRead_wf {s : State} (h : Memory.wf s.mem = true) :
    Memory.wf s.finishRead.mem = true := by
  rw [finishRead_eq]
  exact wf_writeOutbuf s _ h

/-- Of a frame decode only the delivery of its samples writes memory. -/
theorem completeFrame_wf {s : State} (via : Via) (r : FrameResult) (h : Memory.wf s.mem = true) :
    Memory.wf (s.completeFrame via r).mem = true := by
  have hdecode : (s.endFrame r).1.mem = s.mem := by rw [endFrame_frame]
  exact deliver_wf (s.endFrame r).1 via (s.endFrame r).2 (hdecode.symm ▸ h)

theorem commandTo_wf {s t : State} (hwf : Memory.wf s.mem = true) (h : CommandTo s t) :
    Memory.wf t.mem = true := by
  cases h with
  | fail | succeed | badExtradata | construct | queue | finish | destroy => exact hwf
  | read => exact finishRead_wf hwf
  | readFrame _ _ _ _ qs _ _ h =>
    obtain ⟨r, rfl⟩ := h.eq_completeFrame
    exact completeFrame_wf (s := { s with queue := qs }) _ r hwf
  | packetFrame _ _ _ _ h =>
    obtain ⟨r, rfl⟩ := h.eq_completeFrame
    exact completeFrame_wf _ r hwf

theorem elementTo_wf {s t : State} {p : Parse} (hwf : Memory.wf s.mem = true)
    (h : ElementTo s p t) : Memory.wf t.mem = true := by
  cases h with
  | next => exact hwf
  | error e pos => exact completeFrame_wf _ (.bad e pos) hwf

theorem chunkTo_mem {s t : State} {x : ChunkParse} (h : ChunkTo s x t) : t.mem = s.mem := by
  cases h <;> rfl

/-- Settles O50, by what a step can do: the writes are a host's into INBUF and a frame's or a
READ_BUFFER's into OUTBUF. -/
theorem stepKeepsMemoryCanonical : Obligations.StepKeepsMemoryCanonical := by
  intro s t hwf h
  cases step_next h with
  | wait | illegal => exact hwf
  | reset => rfl
  | read => rw [busRead_frame]; exact hwf
  | write _ l w a v => exact busWrite_wf (s := { s with host := l }) w a.toNat v hwf
  | command _ l _ _ _ hc => exact commandTo_wf (s := { s with host := l }) hwf hc
  | element _ _ _ he => exact elementTo_wf hwf he
  | frame p => exact completeFrame_wf p.via _ hwf
  | chunk _ _ _ hx => exact (chunkTo_mem hx).symm ▸ hwf

end Sys2Proof.Machine
end

section
/-!
PROOFS. A step runs what it fetches: the command of a word written to CMD (20_memory.md R72), and inside
a command the sub-packet, the tone record or the chunk at the parser's place (42_packet_parser.md R151,
R175; 41_extradata.md R141; log 7).
-/

namespace Sys2Proof.Machine

open Sys2Proof

theorem step_of_fetch_run {s u : State} {i : Instr} (h : fetch s = .run i u) :
    step s = exec i u := by
  rw [step_eq, h, Fetched.out]

theorem fetchCommand_of_ok {s : State} {w : Word} {i : Instr}
    (h : decodeCommand w.toNat = .ok i) : fetchCommand s w = .run i s := by
  rw [fetchCommand, h]

/-- Settles O5: the step is the fetch of the word written, and the word decodes. -/
theorem stepRunsDecodedCommand : Obligations.StepRunsDecodedCommand := by
  intro s h w i ha hh hd
  rw [step_cmd ha hh, fetchCommand_of_ok hd, Fetched.out]

/-! ### Elements of a packet parse -/

theorem peek_of_le {rd : BitReader} {n : Nat} (hn : n ≤ 32) (hl : rd.pos + n ≤ rd.limit) :
    rd.peek n = .ok (rd.bits rd.pos n) := by
  rw [BitReader.peek, if_neg (Nat.not_lt.2 hn), if_neg (Nat.not_lt.2 hl)]

theorem decodeSubpacket_ok {t : Nat} {i : Instr} (h : decodeSubpacket t = .ok i) :
    i = subpacketInstr t := by
  unfold decodeSubpacket at h
  split at h
  · exact (Except.ok.inj h).symm
  · cases h

theorem decodeTone_ok {op band pos : Nat} {i : Instr} (h : decodeTone op band pos = .ok i) :
    i = toneInstr op band pos := by
  unfold decodeTone at h
  split at h
  · exact (Except.ok.inj h).symm
  · cases h

/-- Where a parse expects a sub-packet, the fetch takes the one whose type code stands there. -/
theorem fetch_of_subpacket {s : State} {p : Parse} (ha : s.activity = .packet p)
    (he : p.expectsSubpacket) (hl : p.rd.pos + 5 ≤ p.rd.limit) :
    fetch s = .run (subpacketInstr (p.rd.bits p.rd.pos 5)) s := by
  obtain ⟨htone, hleft⟩ := he
  simp only [fetch, ha, fetchElement, htone, Nat.ne_of_gt hleft, if_false,
    peek_of_le (n := 5) (by decide) hl]

/-- Inside a tone payload with records left, the fetch takes the record whose head stands there. -/
theorem fetch_of_record {s : State} {p : Parse} {tp : TonePart} (ha : s.activity = .packet p)
    (ht : p.tone = some tp) (hleft : 0 < tp.left) (hl : p.rd.pos + 14 ≤ p.rd.limit) :
    fetch s = .run (toneInstr (p.rd.bits p.rd.pos 2) (p.rd.bits (p.rd.pos + 2) 5)
      (p.rd.bits (p.rd.pos + 7) 7)) s := by
  simp only [fetch, ha, fetchElement, ht, Nat.ne_of_gt hleft, if_false, recordHead_ok hl]

/-! ### Chunks of an extradata parse -/

/-- The chunk whose tag stands at the parser's place; the third place needs room for a chunk header
(30_encoding.md R87). -/
def ChunkParse.Holds (x : ChunkParse) (i : Instr) : Prop :=
  (x.place = .first ∧ decodeChunk (be32 x.blob 4) = .ok i)
    ∨ (x.place = .second ∧ decodeChunk (be32 x.blob 16) = .ok i)
    ∨ (x.place = .third ∧ 56 ≤ x.blob.length ∧ decodeChunk (be32 x.blob 52) = .ok i)

theorem hasThird_iff {b : List Byte} : hasThird b = true ↔ 56 ≤ b.length := by
  rw [hasThird, decide_eq_true_eq]
  omega

theorem fetch_of_chunk {s : State} {x : ChunkParse} {i : Instr} (ha : s.activity = .chunks x)
    (h : x.Holds i) : fetch s = .run i s := by
  rcases h with ⟨hplace, hd⟩ | ⟨hplace, hd⟩ | ⟨hplace, hroom, hd⟩
  · simp only [fetch, ha, fetchChunk, hplace, hd]
  · simp only [fetch, ha, fetchChunk, hplace, hd]
  · simp only [fetch, ha, fetchChunk, hplace, hasThird_iff.2 hroom, if_true, hd]

/-- Settles O6, by the kinds of element: the fetch takes the one that decodes at the parser's place. -/
theorem stepRunsDecodedElement : Obligations.StepRunsDecodedElement := by
  refine ⟨fun s p i ha he hl hd => ?_, fun s p tp i ha ht hleft hl hd => ?_,
    fun s x i ha hx => step_of_fetch_run (fetch_of_chunk ha hx)⟩
  · rw [decodeSubpacket_ok hd]
    exact step_of_fetch_run (fetch_of_subpacket ha he hl)
  · rw [decodeTone_ok hd]
    exact step_of_fetch_run (fetch_of_record ha ht hleft hl)

end Sys2Proof.Machine
end
